-- ==== Sys2Proof/Word.lean ====
section
/-! DEFINITION. The word types of the block (spec/00_scope.md R10, R11): what the spec treats as bits is a bit
vector; counts, sizes, identifiers and addresses while they are computed are natural numbers (R11: "Values are
natural numbers unless a width is stated"). -/

namespace Sys2Proof

/-- `u8`: one byte of DRAM, of a cache line, of a bus transfer (R12). -/
abbrev Byte := BitVec 8

/-- `u32`: a 32-bit device register (R143). -/
abbrev Word32 := BitVec 32

/-- `u64`: an address operand (R57, R58, R144) or a 64-bit device register (R51 to R54). -/
abbrev Word := BitVec 64

end Sys2Proof
end

