-- ==== Sys2Proof/Syntax.lean ====
section
/-! DEFINITION. The operations of the block (spec/30_encoding.md R140): the host commands (format CMD, R147) and the
register accesses (formats MMIO-<device>, R149), one constructor of `Instr` per mnemonic of spec/opcode_table.json
(a register that the table splits into several rows by offset range or layout is one constructor whose operands
name the layout and the context, hart or source), and the typed values that carry a call (R141, R144). -/

namespace Sys2Proof

/-- A cache level, numbered l1d = 0, l1i = 1, l2 = 2, l3 = 3 (R145, R250). -/
inductive Level where
  | l1d | l1i | l2 | l3
deriving DecidableEq, Repr

/-- The operand `which`: one of the two first-level caches (R145). -/
inductive Side where
  | l1d | l1i
deriving DecidableEq, Repr

/-- The level of a side. -/
def Side.level : Side → Level
  | .l1d => .l1d
  | .l1i => .l1i

/-- A page's memory type, numbered normal = 0, device = 1, wc = 2 (R18, R145). -/
inductive MemType where
  | normal | device | wc
deriving DecidableEq, Repr

/-- The access kind of `check_access`, numbered read = 0, write = 1, execute = 2 (R145). -/
inductive AccessKind where
  | read | write | execute
deriving DecidableEq, Repr

/-- The PLIC's register layout, numbered compact = 0, canonical = 1 (R145, R350). -/
inductive Layout where
  | compact | canonical
deriving DecidableEq, Repr

/-- The fields of the CSR block, in the numbering of R146. -/
inductive CsrField where
  | mie | mpie | msie | mtie | meie | msip | mtip | meip | mcause | mcauseIsInterrupt
deriving DecidableEq, Repr

/-- The direction of a register access or of a bus chunk (R35, R142). -/
inductive Dir where
  | R | W
deriving DecidableEq, Repr

/-- A reference to a device of the platform: one PLIC, one CLINT, and numbered UARTs, timers, DMA engines and ROMs
(R36, R147's closing sentence). -/
inductive DevRef where
  | plic | clint
  | uart (k : Nat) | timer (k : Nat) | dma (k : Nat) | rom (k : Nat)
deriving DecidableEq, Repr

/-- A reference to a constructed component, as the operands `dram`, `device` and `dev` carry one (R144). -/
inductive CompRef where
  | dram
  | dev (d : DevRef)
deriving DecidableEq, Repr

/-- A register-access format of R142 together with the device instance it names. -/
inductive Format where
  | plic (l : Layout)
  | clint
  | uart (k : Nat) | timer (k : Nat) | dma (k : Nat) | rom (k : Nat)
deriving DecidableEq, Repr

/-- The value a call gives for a field of a record operand (R144): a boolean, or an enumerated value or a natural, which is
carried "as the name or as the number given" (R145). -/
inductive Scalar where
  | bool (b : Bool) | nat (n : Nat) | str (s : String)
deriving DecidableEq, Repr

/-- A record operand as a call gives it (R144: "records (`perm`, `attrs`, `{layout, ctx_id}`, `{hart}`) give named
fields"): every field that a record of the block may give, `none` where this one does not give it. -/
structure Record where
  present : Option Scalar := none
  writable : Option Scalar := none
  executable : Option Scalar := none
  user : Option Scalar := none
  cached : Option Scalar := none
  memtype : Option Scalar := none
  dirty : Option Scalar := none
  accessed : Option Scalar := none
  layout : Option Scalar := none
  ctxId : Option Scalar := none
  hart : Option Scalar := none
deriving DecidableEq, Repr

/-- The record operand `perm` of `map_page`: any of its fields may be given (R214). -/
structure Perm where
  present : Option Bool := none
  writable : Option Bool := none
  executable : Option Bool := none
  user : Option Bool := none
  cached : Option Bool := none
  memtype : Option MemType := none
deriving DecidableEq, Repr

/-- The record operand `attrs` of `set_page_attributes`: any of its fields may be given (R218). -/
structure Attrs where
  present : Option Bool := none
  writable : Option Bool := none
  executable : Option Bool := none
  user : Option Bool := none
  cached : Option Bool := none
  memtype : Option MemType := none
  dirty : Option Bool := none
  accessed : Option Bool := none
deriving DecidableEq, Repr

/-- One typed value of a call record (R141, R142, R144). A call is a record, not a bit string: a CMD record is its
`code` followed by its operands in the rule's order, an optional operand standing as its value or as `absent`; a
register access is one `access` value. The operand `handler` is `handler n` followed by the `n` values of the calls
the host procedure issues, in order; `attempt` before one of those calls says that the host procedure itself catches
that call's error and goes on. -/
inductive Token where
  /-- Begins a CMD record. -/
  | code (c : Byte)
  /-- A register access: format and instance, direction, width in bytes, offset, and on a write the data bytes. -/
  | access (f : Format) (d : Dir) (width : Nat) (off : Word) (data : List Byte)
  | nat (n : Nat)
  | int (z : Int)
  | bool (b : Bool)
  | bytes (bs : List Byte)
  | str (s : String)
  | ref (r : CompRef)
  | absent
  | record (r : Record)
  | handler (n : Nat)
  | attempt
deriving DecidableEq, Repr

/-- A PLIC register (R350): CLAIM on a read is COMPLETE on a write. -/
inductive PlicReg where
  | prio (id : Nat) | pendLo | pendHi
  | enableLo (c : Nat) | enableHi (c : Nat) | threshold (c : Nat) | claim (c : Nat)
deriving DecidableEq, Repr

/-- Which part of a 64-bit CLINT register an access takes (R390). -/
inductive Part where
  | full | lo | hi
deriving DecidableEq, Repr

/-- A CLINT register and the part of it an access takes (R390, R391). -/
inductive ClintReg where
  | msip (h : Nat) | mtimecmp (h : Nat) (p : Part) | mtime (p : Part)
deriving DecidableEq, Repr

/-- A UART register (R410). -/
inductive UartReg where
  | data | status | ctrl
deriving DecidableEq, Repr

/-- A timer register (R420). -/
inductive TimerReg where
  | cntLo | cntHi | cmpLo | cmpHi | ctrl | status | tick
deriving DecidableEq, Repr

/-- A DMA register (R430). -/
inductive DmaReg where
  | srcLo | srcHi | dstLo | dstHi | len | ctrl | status
deriving DecidableEq, Repr

/-- The operations of the block: one constructor per mnemonic of spec/opcode_table.json, in the table's order. Each
constructor's operands are those of the rule named beside its family. -/
inductive Instr where
  -- DRAM (R170 to R175)
  | dramReadBytes (addr n : Nat)
  | dramWriteBytes (addr : Word) (bs : List Byte)
  | dramFill (addr : Word) (n : Nat) (v : Byte)
  | dramCopy (dest src n : Nat)
  | dramPeek (addr : Word)
  | dramLoadImage (addr : Word) (bs : List Byte)
  -- BUS (R176, R177, R182, R183)
  | busMapRam (name : String) (base : Word) (size : Nat) (offset : Nat)
  | busRegisterMmio (name : String) (device : DevRef)
  | busReadBytes (pa : Word) (n : Nat)
  | busWriteBytes (pa : Word) (bs : List Byte)
  -- MMU (R210 to R223)
  | mmuSetAsid (asid : Nat)
  | mmuMapPage (vpn : Nat) (pframe : Option Nat) (perm : Option Perm) (asid : Option Nat)
  | mmuUnmapPage (vpn : Nat) (asid : Option Nat)
  | mmuTranslate (va : Word)
  | mmuSetPageAttributes (vpn : Nat) (attrs : Attrs) (asid : Option Nat)
  | mmuFlushTlb (asid : Option Nat)
  | mmuFlushTlbEntry (vpn : Nat) (asid : Option Nat)
  | mmuCheckAccess (va : Word) (kind : AccessKind)
  -- CACHE (R256, R257, R259, R269 to R271)
  | cacheRead (pa : Word) (which : Side)
  | cacheWriteBytes (pa : Word) (bs : List Byte) (which : Option Side)
  | cachePrefetchLine (l : Level) (b : Word)
  | cacheFlushLine (addr : Word) (l : Level)
  | cacheFlushAll (l : Level)
  | cacheStats (l : Level)
  -- CPU (R313 to R328)
  | cpuFetch (va : Word) (size : Option Nat)
  | cpuLoad (va : Word) (size : Nat) (signed : Bool)
  | cpuStore (va : Word) (size : Nat) (value : Int) (signed : Bool)
  | cpuMemoryBarrier
  | cpuPrefetchData (va : Word)
  | cpuPrefetchInst (va : Word)
  | cpuFlushIcache
  | cpuFlushDcache
  | cpuFlushL2
  | cpuFlushL3
  | cpuFlushTlb (asid : Option Nat)
  | cpuMapPage (vpn : Nat) (pframe : Option Nat) (perm : Option Perm) (asid : Option Nat)
  | cpuUnmapPage (vpn : Nat) (asid : Option Nat)
  | cpuSetPageAttributes (vpn : Nat) (attrs : Attrs) (asid : Option Nat)
  | cpuSetAsid (asid : Nat)
  | cpuAttachPlic (base : Word) (layout : Layout) (ctxId : Nat)
  | cpuAttachClint (hart : Nat)
  -- CPU interrupts, traps and CSRs (R466 to R473)
  | cpuSampleIrqs
  | cpuMaybeTakeInterrupt
  | cpuCompleteTrap
  | cpuPollInterrupts (ctx : Nat) (handler : Option (List Token))
  | cpuTrapEnter (cause : Nat) (isInterrupt : Option Bool)
  | cpuMret
  | cpuShouldTakeInterrupt
  | cpuCsrRead (field : CsrField)
  | cpuCsrWrite (field : CsrField) (value : Nat)
  -- PLIC, CLINT, TIMER and UART commands (R362, R363, R365, R395, R396, R422, R416)
  | plicRaise (id : Nat)
  | plicLower (id : Nat)
  | plicGetContextIrq (c : Nat)
  | clintAdvance (n : Nat)
  | clintGetIrqLevels (h : Nat)
  | timerAdvance (k : Nat) (n : Nat)
  | uartPushRx (k : Nat) (b : Byte)
  -- PLIC registers (R355 to R361)
  | plicPrioR (l : Layout) (id : Nat)
  | plicPrioW (l : Layout) (id : Nat) (v : Word32)
  | plicPendLoR (l : Layout)
  | plicPendHiR (l : Layout)
  | plicEnableLoR (l : Layout) (c : Nat)
  | plicEnableLoW (l : Layout) (c : Nat) (v : Word32)
  | plicEnableHiR (l : Layout) (c : Nat)
  | plicEnableHiW (l : Layout) (c : Nat) (v : Word32)
  | plicThresholdR (l : Layout) (c : Nat)
  | plicThresholdW (l : Layout) (c : Nat) (v : Word32)
  | plicClaimR (l : Layout) (c : Nat)
  | plicCompleteW (l : Layout) (c : Nat) (v : Word32)
  -- CLINT registers (R392 to R394)
  | clintMsipR (h : Nat)
  | clintMsipW (h : Nat) (v : Word32)
  | clintMtimecmpR (h : Nat)
  | clintMtimecmpLoR (h : Nat)
  | clintMtimecmpHiR (h : Nat)
  | clintMtimecmpW (h : Nat) (v : Word)
  | clintMtimecmpLoW (h : Nat) (v : Word32)
  | clintMtimecmpHiW (h : Nat) (v : Word32)
  | clintMtimeR
  | clintMtimeLoR
  | clintMtimeHiR
  | clintMtimeW (v : Word)
  | clintMtimeLoW (v : Word32)
  | clintMtimeHiW (v : Word32)
  -- UART registers (R412 to R415); `k` names the instance
  | uartDataR (k : Nat)
  | uartDataW (k : Nat) (b : Byte)
  | uartStatusR (k : Nat)
  | uartCtrlR (k : Nat)
  | uartCtrlW (k : Nat) (v : Word32)
  -- timer registers (R420, R421)
  | timerCntLoR (k : Nat)
  | timerCntLoW (k : Nat) (v : Word32)
  | timerCntHiR (k : Nat)
  | timerCntHiW (k : Nat) (v : Word32)
  | timerCmpLoR (k : Nat)
  | timerCmpLoW (k : Nat) (v : Word32)
  | timerCmpHiR (k : Nat)
  | timerCmpHiW (k : Nat) (v : Word32)
  | timerCtrlR (k : Nat)
  | timerCtrlW (k : Nat) (v : Word32)
  | timerStatusR (k : Nat)
  | timerStatusW (k : Nat) (v : Word32)
  | timerTickR (k : Nat)
  | timerTickW (k : Nat) (v : Word32)
  -- DMA registers (R430 to R433)
  | dmaSrcLoR (k : Nat)
  | dmaSrcLoW (k : Nat) (v : Word32)
  | dmaSrcHiR (k : Nat)
  | dmaSrcHiW (k : Nat) (v : Word32)
  | dmaDstLoR (k : Nat)
  | dmaDstLoW (k : Nat) (v : Word32)
  | dmaDstHiR (k : Nat)
  | dmaDstHiW (k : Nat) (v : Word32)
  | dmaLenR (k : Nat)
  | dmaLenW (k : Nat) (v : Word32)
  | dmaCtrlR (k : Nat)
  | dmaCtrlW (k : Nat) (v : Word32)
  | dmaStatusR (k : Nat)
  | dmaStatusW (k : Nat) (v : Word32)
  -- ROM accesses (R450, R451), any offset and width
  | romRead (k : Nat) (off : Word) (width : Nat)
  | romWrite (k : Nat) (off : Word) (bs : List Byte)
deriving DecidableEq, Repr

end Sys2Proof
end

