-- ==== Sys2Proof/Config.lean ====
section
/-! DEFINITION. What is fixed when the block is constructed (spec/00_scope.md R8; spec/10_state.md R32): the
parameters of R8 as plain data, their defaults, the bounds of R9, and the one value the spec leaves free, the frame
that `alloc_frame` draws (spec/42_mmu.md R220). The configuration travels in the state, where no operation changes
it, so that a statement over every state is a statement over every configuration (log 1). -/

namespace Sys2Proof

/-- Byte order of the CPU's integer packer (R8, R13). -/
inductive Endian where
  | little | big
deriving DecidableEq, Repr

/-- `xlen`: 32 or 64 (R8). -/
inductive XLen where
  | x32 | x64
deriving DecidableEq, Repr

/-- The PLIC's mode (R51). -/
inductive PlicMode where
  | level | latched
deriving DecidableEq, Repr

/-- Geometry of one cache level (R8, R40). -/
structure LevelCfg where
  size : Nat
  lineSize : Nat
  associativity : Nat
deriving DecidableEq, Repr

/-- The PLIC's arguments (R8): sources N, contexts C, layout, mode, and its region base. -/
structure PlicCfg where
  base : Word
  sources : Nat
  contexts : Nat
  layout : Layout
  mode : PlicMode
deriving DecidableEq, Repr

/-- The CLINT's arguments (R8): harts H, tick, and its region base. -/
structure ClintCfg where
  base : Word
  harts : Nat
  tick : Nat
deriving DecidableEq, Repr

/-- The prefetch policy `{enable, to}` (R8, R47). -/
structure PrefetchCfg where
  enable : Bool
  target : Level
deriving DecidableEq, Repr

/-- A UART's base and sink wiring (R8). -/
structure UartCfg where
  base : Word
  sink : Option Nat
deriving DecidableEq, Repr

/-- A timer's base, reset value of TICK and sink wiring (R8). -/
structure TimerCfg where
  base : Word
  tick : Word32
  sink : Option Nat
deriving DecidableEq, Repr

/-- A DMA engine's base, `ram_only` and sink wiring (R8). -/
structure DmaCfg where
  base : Word
  ramOnly : Bool
  sink : Option Nat
deriving DecidableEq, Repr

/-- A ROM's base, image and `strict` (R8, R56). -/
structure RomCfg where
  base : Word
  image : List Byte
  strict : Bool
deriving DecidableEq, Repr

/-- The configuration of the block (R8). -/
structure Config where
  l1d : LevelCfg
  l1i : LevelCfg
  l2 : LevelCfg
  l3 : LevelCfg
  pageSize : Nat
  tlbEntries : Nat
  maxFrames : Nat
  endianness : Endian
  xlen : XLen
  strictMmio : Bool
  dramSize : Nat
  fillByte : Byte
  prefetch : PrefetchCfg
  plic : PlicCfg
  clint : ClintCfg
  uarts : List UartCfg
  timers : List TimerCfg
  dmas : List DmaCfg
  roms : List RomCfg
deriving DecidableEq, Repr

/-- The defaults of R8, on the platform that spec/95_test_vectors.md section 3.2 shares between its programs (R8
gives no default for the DRAM's size, the PLIC's and CLINT's arguments, the bases, the ROM's image and the sinks).
DESIGN CHOICE (log 2): the platform. -/
def Config.default : Config where
  l1d := { size := 32768, lineSize := 64, associativity := 8 }
  l1i := { size := 32768, lineSize := 64, associativity := 8 }
  l2 := { size := 262144, lineSize := 64, associativity := 8 }
  l3 := { size := 8388608, lineSize := 64, associativity := 16 }
  pageSize := 4096
  tlbEntries := 64
  maxFrames := 16384
  endianness := .little
  xlen := .x64
  strictMmio := true
  dramSize := 0x100000
  fillByte := 0x00
  prefetch := { enable := false, target := .l2 }
  plic := { base := 0x0C000000, sources := 8, contexts := 2, layout := .compact, mode := .level }
  clint := { base := 0x02000000, harts := 1, tick := 1 }
  uarts := [{ base := 0x10000000, sink := some 1 }]
  timers := [{ base := 0x10001000, tick := 1, sink := some 2 }]
  dmas := [{ base := 0x10002000, ramOnly := true, sink := some 3 }]
  roms := [{ base := 0x1000, image := [0xCC, 0xDD, 0x00, 0x00], strict := true }]

/-- A parameter that a construction or a registration rejects (R9, R176, R177; R460 code 9 records it). -/
inductive BadParam where
  | cacheGeometry | lineSizes | pageSize | tlbEntries | dramSize | prefetchTarget
  | plicSources | plicContexts | clintHarts | sinkSource
  | emptyRegion | wrappingRegion | capsAlign
deriving DecidableEq, Repr

/-- FREE VALUE (log 3). `alloc_frame` "draws any frame f in [0, max_frames) with f not in `pool_frames`" and "the
draw is free: a model quantifies over every choice" (R220): the n-th draw. It has no body, so nothing can be proved
of its value; the operation reduces it into the frames that are free. -/
opaque Config.frameDraw : Nat → Nat

end Sys2Proof
end

