-- ==== Sys2Proof/WellFormed.lean ====
section
/-! DEFINITION. The operand ranges that the encodings of spec/30_encoding.md can carry: the ids, contexts and harts a
register offset can name (R149, R350, R390). Every other operand of R144 is any value of its type, and whether an id,
context or hart exists in the configured device (the rows' `valid_if`) is checked by the operation's rule. -/

namespace Sys2Proof

/-- The largest source id a PRIO offset can name: offsets 4·(id−1) below PEND_LO (R350). -/
def Layout.maxPrioId : Layout → Nat
  | .compact => 0x100 / 4
  | .canonical => 0x1000 / 4

/-- A PLIC source id that a PRIO offset can name. -/
def prioIdOk (l : Layout) (id : Nat) : Bool := 1 ≤ id && id ≤ l.maxPrioId

/-- A PLIC context that the opcode table's rows cover: 0 to 7 (R8, R149). -/
def contextOk (c : Nat) : Bool := c < 8

/-- A hart that an MSIP offset below 0x4000 can name (R390). -/
def msipHartOk (h : Nat) : Bool := h < 4096

/-- A hart whose MTIMECMP offset lies below MTIME (R390). -/
def mtimecmpHartOk (h : Nat) : Bool := h < 4095

/-- Whether the operation's encoding can carry its operands. -/
def WellFormed (i : Instr) : Bool :=
  match i with
  | .plicPrioR l id => prioIdOk l id
  | .plicPrioW l id _ => prioIdOk l id
  | .plicEnableLoR _ c => contextOk c
  | .plicEnableLoW _ c _ => contextOk c
  | .plicEnableHiR _ c => contextOk c
  | .plicEnableHiW _ c _ => contextOk c
  | .plicThresholdR _ c => contextOk c
  | .plicThresholdW _ c _ => contextOk c
  | .plicClaimR _ c => contextOk c
  | .plicCompleteW _ c _ => contextOk c
  | .clintMsipR h => msipHartOk h
  | .clintMsipW h _ => msipHartOk h
  | .clintMtimecmpR h => mtimecmpHartOk h
  | .clintMtimecmpLoR h => mtimecmpHartOk h
  | .clintMtimecmpHiR h => mtimecmpHartOk h
  | .clintMtimecmpW h _ => mtimecmpHartOk h
  | .clintMtimecmpLoW h _ => mtimecmpHartOk h
  | .clintMtimecmpHiW h _ => mtimecmpHartOk h
  | _ => true

end Sys2Proof
end

