-- ==== Sys2Proof/Decode.lean ====
section
/-! DEFINITION. Decoding and encoding (spec/30_encoding.md). A CMD record `{code, operands}` and a register access
`{dir, width, offset, data}` are lists of typed values (R141, R142, R144: "a command is a record, not a bit string").
The decoder takes the first call of such a list and answers the operation and the values that follow it, or the
reason it refuses; the register maps are those of R350, R352 (PLIC), R390, R391 (CLINT), R410, R420, R430. -/

namespace Sys2Proof

/-- Why a list of values is no call of the block (R142, R150, R151). -/
inductive Reject where
  /-- The list is empty. -/
  | noCall
  /-- The list begins with a value that begins no record. -/
  | notACall
  /-- A command code outside R147's table (R150). -/
  | reservedCode (c : Nat)
  /-- "a missing required operand" (R150). -/
  | missingOperand
  /-- "a wrong type" (R150): among them a number outside u64 or u8. -/
  | wrongType
  /-- "an enumerated value outside rule R145" (R150), or a reference to a component of another kind. -/
  | badEnumerated
  /-- A record that gives a field its operand does not have (R144, R150). -/
  | unknownField
  /-- A value after the last operand of a command (R150: "operands do not match its operand list"). -/
  | surplusOperand
  /-- A register access that matches no row of the opcode table (R142, R151). -/
  | noRow (f : Format) (d : Dir) (width : Nat) (off : Word)
  /-- A register access whose data is not `width` bytes on a write, or not empty on a read (R142). -/
  | badData
deriving DecidableEq, Repr

/-! ## Register bytes -/

/-- `pack_le(v, n)`: the n little-endian bytes of v (R13, R143). -/
def packLe (v : Nat) : Nat → List Byte
  | 0 => []
  | n + 1 => BitVec.ofNat 8 v :: packLe (v / 256) n

/-- `unpack_le(bs)`: the unsigned value of little-endian bytes (R13, R143). -/
def unpackLe : List Byte → Nat
  | [] => 0
  | b :: bs => b.toNat + 256 * unpackLe bs

/-! ## Register maps -/

/-- CTX_BASE of a layout (R350). -/
def Layout.ctxBase : Layout → Nat
  | .compact => 0x180
  | .canonical => 0x2000

/-- STRIDE of a layout (R350). -/
def Layout.stride : Layout → Nat
  | .compact => 0x20
  | .canonical => 0x1000

/-- PEND_LO of a layout (R350). -/
def Layout.pendLo : Layout → Nat
  | .compact => 0x100
  | .canonical => 0x1000

/-- PEND_HI of a layout (R350). -/
def Layout.pendHi : Layout → Nat
  | .compact => 0x104
  | .canonical => 0x1004

/-- The register at a PLIC offset (R352), whatever sources and contexts are configured: `id <= N` and `c < C` are the
rows' `valid_if`, checked by the register's rule. -/
def plicReg (l : Layout) (off : Nat) : Option PlicReg :=
  if off % 4 ≠ 0 then none
  else if off < l.pendLo then some (.prio (off / 4 + 1))
  else if off = l.pendLo then some .pendLo
  else if off = l.pendHi then some .pendHi
  else if off < l.ctxBase then none
  else
    let c := (off - l.ctxBase) / l.stride
    let r := (off - l.ctxBase) % l.stride
    if r = 0 then some (.enableLo c)
    else if r = 4 then some (.enableHi c)
    else if r = 8 then some (.threshold c)
    else if r = 12 then some (.claim c)
    else none

/-- The offset of a PLIC register (R350). -/
def plicOff (l : Layout) : PlicReg → Nat
  | .prio id => 4 * (id - 1)
  | .pendLo => l.pendLo
  | .pendHi => l.pendHi
  | .enableLo c => l.ctxBase + c * l.stride
  | .enableHi c => l.ctxBase + c * l.stride + 4
  | .threshold c => l.ctxBase + c * l.stride + 8
  | .claim c => l.ctxBase + c * l.stride + 12

/-- The register at a CLINT offset for an access of width `w` (R391), whatever harts are configured: `h < H` is the
rows' `valid_if`. -/
def clintReg (off w : Nat) : Option ClintReg :=
  if off < 0x4000 then
    if off % 4 = 0 ∧ w = 4 then some (.msip (off / 4)) else none
  else if off < 0xBFF8 then
    let h := (off - 0x4000) / 8
    let part := (off - 0x4000) % 8
    if w = 8 ∧ part = 0 then some (.mtimecmp h .full)
    else if w = 4 ∧ part = 0 then some (.mtimecmp h .lo)
    else if w = 4 ∧ part = 4 then some (.mtimecmp h .hi)
    else none
  else if w = 8 ∧ off = 0xBFF8 then some (.mtime .full)
  else if w = 4 ∧ off = 0xBFF8 then some (.mtime .lo)
  else if w = 4 ∧ off = 0xBFFC then some (.mtime .hi)
  else none

/-- The offset of a part within its 64-bit register (R390). -/
def Part.off : Part → Nat
  | .full => 0
  | .lo => 0
  | .hi => 4

/-- The width of an access to a part (R390). -/
def Part.width : Part → Nat
  | .full => 8
  | .lo => 4
  | .hi => 4

/-- The offset of a CLINT register (R390). -/
def clintOff : ClintReg → Nat
  | .msip h => 4 * h
  | .mtimecmp h p => 0x4000 + 8 * h + p.off
  | .mtime p => 0xBFF8 + p.off

/-- The register a UART access of width `w` names (R410): DATA takes one byte, STATUS and CTRL four. -/
def uartReg (off w : Nat) : Option UartReg :=
  if off = 0x00 ∧ w = 1 then some .data
  else if off = 0x04 ∧ w = 4 then some .status
  else if off = 0x08 ∧ w = 4 then some .ctrl
  else none

/-- The offset of a UART register (R410). -/
def uartOff : UartReg → Nat
  | .data => 0x00
  | .status => 0x04
  | .ctrl => 0x08

/-- The register a timer access of width `w` names (R420). -/
def timerReg (off w : Nat) : Option TimerReg :=
  if w ≠ 4 then none
  else if off = 0x00 then some .cntLo
  else if off = 0x04 then some .cntHi
  else if off = 0x08 then some .cmpLo
  else if off = 0x0C then some .cmpHi
  else if off = 0x10 then some .ctrl
  else if off = 0x14 then some .status
  else if off = 0x18 then some .tick
  else none

/-- The offset of a timer register (R420). -/
def timerOff : TimerReg → Nat
  | .cntLo => 0x00
  | .cntHi => 0x04
  | .cmpLo => 0x08
  | .cmpHi => 0x0C
  | .ctrl => 0x10
  | .status => 0x14
  | .tick => 0x18

/-- The register a DMA access of width `w` names (R430). -/
def dmaReg (off w : Nat) : Option DmaReg :=
  if w ≠ 4 then none
  else if off = 0x00 then some .srcLo
  else if off = 0x04 then some .srcHi
  else if off = 0x08 then some .dstLo
  else if off = 0x0C then some .dstHi
  else if off = 0x10 then some .len
  else if off = 0x14 then some .ctrl
  else if off = 0x18 then some .status
  else none

/-- The offset of a DMA register (R430). -/
def dmaOff : DmaReg → Nat
  | .srcLo => 0x00
  | .srcHi => 0x04
  | .dstLo => 0x08
  | .dstHi => 0x0C
  | .len => 0x10
  | .ctrl => 0x14
  | .status => 0x18

/-! ## Register accesses (R142, R149) -/

/-- The 32-bit value of a write's data bytes (R143). -/
def data32 (bs : List Byte) : Word32 := BitVec.ofNat 32 (unpackLe bs)

/-- The 64-bit value of a write's data bytes (R143). -/
def data64 (bs : List Byte) : Word := BitVec.ofNat 64 (unpackLe bs)

/-- The read rows of R149. -/
def decodeRead (f : Format) (width : Nat) (off : Word) : Option Instr :=
  match f with
  | .plic l =>
    if width ≠ 4 then none else
      match plicReg l off.toNat with
      | some (.prio id) => some (.plicPrioR l id)
      | some .pendLo => some (.plicPendLoR l)
      | some .pendHi => some (.plicPendHiR l)
      | some (.enableLo c) => if contextOk c then some (.plicEnableLoR l c) else none
      | some (.enableHi c) => if contextOk c then some (.plicEnableHiR l c) else none
      | some (.threshold c) => if contextOk c then some (.plicThresholdR l c) else none
      | some (.claim c) => if contextOk c then some (.plicClaimR l c) else none
      | none => none
  | .clint =>
    match clintReg off.toNat width with
    | some (.msip h) => some (.clintMsipR h)
    | some (.mtimecmp h .full) => some (.clintMtimecmpR h)
    | some (.mtimecmp h .lo) => some (.clintMtimecmpLoR h)
    | some (.mtimecmp h .hi) => some (.clintMtimecmpHiR h)
    | some (.mtime .full) => some .clintMtimeR
    | some (.mtime .lo) => some .clintMtimeLoR
    | some (.mtime .hi) => some .clintMtimeHiR
    | none => none
  | .uart k =>
    match uartReg off.toNat width with
    | some .data => some (.uartDataR k)
    | some .status => some (.uartStatusR k)
    | some .ctrl => some (.uartCtrlR k)
    | none => none
  | .timer k =>
    match timerReg off.toNat width with
    | some .cntLo => some (.timerCntLoR k)
    | some .cntHi => some (.timerCntHiR k)
    | some .cmpLo => some (.timerCmpLoR k)
    | some .cmpHi => some (.timerCmpHiR k)
    | some .ctrl => some (.timerCtrlR k)
    | some .status => some (.timerStatusR k)
    | some .tick => some (.timerTickR k)
    | none => none
  | .dma k =>
    match dmaReg off.toNat width with
    | some .srcLo => some (.dmaSrcLoR k)
    | some .srcHi => some (.dmaSrcHiR k)
    | some .dstLo => some (.dmaDstLoR k)
    | some .dstHi => some (.dmaDstHiR k)
    | some .len => some (.dmaLenR k)
    | some .ctrl => some (.dmaCtrlR k)
    | some .status => some (.dmaStatusR k)
    | none => none
  | .rom k => some (.romRead k off width)

/-- The write rows of R149; `bs` is the access's data. The PLIC's pending registers and the UART's STATUS have no
write row (R357, R414). -/
def decodeWrite (f : Format) (off : Word) (bs : List Byte) : Option Instr :=
  match f with
  | .plic l =>
    if bs.length ≠ 4 then none else
      match plicReg l off.toNat with
      | some (.prio id) => some (.plicPrioW l id (data32 bs))
      | some .pendLo => none
      | some .pendHi => none
      | some (.enableLo c) => if contextOk c then some (.plicEnableLoW l c (data32 bs)) else none
      | some (.enableHi c) => if contextOk c then some (.plicEnableHiW l c (data32 bs)) else none
      | some (.threshold c) => if contextOk c then some (.plicThresholdW l c (data32 bs)) else none
      | some (.claim c) => if contextOk c then some (.plicCompleteW l c (data32 bs)) else none
      | none => none
  | .clint =>
    match clintReg off.toNat bs.length with
    | some (.msip h) => some (.clintMsipW h (data32 bs))
    | some (.mtimecmp h .full) => some (.clintMtimecmpW h (data64 bs))
    | some (.mtimecmp h .lo) => some (.clintMtimecmpLoW h (data32 bs))
    | some (.mtimecmp h .hi) => some (.clintMtimecmpHiW h (data32 bs))
    | some (.mtime .full) => some (.clintMtimeW (data64 bs))
    | some (.mtime .lo) => some (.clintMtimeLoW (data32 bs))
    | some (.mtime .hi) => some (.clintMtimeHiW (data32 bs))
    | none => none
  | .uart k =>
    match uartReg off.toNat bs.length with
    | some .data => some (.uartDataW k (bs.headD 0))
    | some .status => none
    | some .ctrl => some (.uartCtrlW k (data32 bs))
    | none => none
  | .timer k =>
    match timerReg off.toNat bs.length with
    | some .cntLo => some (.timerCntLoW k (data32 bs))
    | some .cntHi => some (.timerCntHiW k (data32 bs))
    | some .cmpLo => some (.timerCmpLoW k (data32 bs))
    | some .cmpHi => some (.timerCmpHiW k (data32 bs))
    | some .ctrl => some (.timerCtrlW k (data32 bs))
    | some .status => some (.timerStatusW k (data32 bs))
    | some .tick => some (.timerTickW k (data32 bs))
    | none => none
  | .dma k =>
    match dmaReg off.toNat bs.length with
    | some .srcLo => some (.dmaSrcLoW k (data32 bs))
    | some .srcHi => some (.dmaSrcHiW k (data32 bs))
    | some .dstLo => some (.dmaDstLoW k (data32 bs))
    | some .dstHi => some (.dmaDstHiW k (data32 bs))
    | some .len => some (.dmaLenW k (data32 bs))
    | some .ctrl => some (.dmaCtrlW k (data32 bs))
    | some .status => some (.dmaStatusW k (data32 bs))
    | none => none
  | .rom k => some (.romWrite k off bs)

/-- The operation of a register access (R142): the row its format, direction, width and offset select, or the reason
there is none. -/
def decodeAccess (f : Format) (d : Dir) (width : Nat) (off : Word) (bs : List Byte) : Except Reject Instr :=
  match d with
  | .R =>
    if bs ≠ [] then .error .badData
    else match decodeRead f width off with
      | some i => .ok i
      | none => .error (.noRow f d width off)
  | .W =>
    if bs.length ≠ width then .error .badData
    else match decodeWrite f off bs with
      | some i => .ok i
      | none => .error (.noRow f d width off)

/-! ## Operand values (R144, R145, R146) -/

/-- A parser of call values: the value it reads and the values that follow, or the reason it refuses. -/
abbrev Parser (α : Type) := StateT (List Token) (Except Reject) α

/-- A natural operand (R144). -/
def pNat : Parser Nat
  | .nat n :: ts => .ok (n, ts)
  | [] => .error .missingOperand
  | _ => .error .wrongType

/-- A u64 operand (R144). -/
def pWord : Parser Word
  | .nat n :: ts => if n < 2 ^ 64 then .ok (BitVec.ofNat 64 n, ts) else .error .wrongType
  | [] => .error .missingOperand
  | _ => .error .wrongType

/-- A u8 operand (R144). -/
def pByte : Parser Byte
  | .nat n :: ts => if n < 256 then .ok (BitVec.ofNat 8 n, ts) else .error .wrongType
  | [] => .error .missingOperand
  | _ => .error .wrongType

/-- An integer operand (R144: `value` of `store` is any integer). -/
def pInt : Parser Int
  | .int z :: ts => .ok (z, ts)
  | .nat n :: ts => .ok ((n : Int), ts)
  | [] => .error .missingOperand
  | _ => .error .wrongType

/-- A boolean operand (R144). -/
def pBool : Parser Bool
  | .bool b :: ts => .ok (b, ts)
  | [] => .error .missingOperand
  | _ => .error .wrongType

/-- A byte-list operand (R144). -/
def pBytes : Parser (List Byte)
  | .bytes bs :: ts => .ok (bs, ts)
  | [] => .error .missingOperand
  | _ => .error .wrongType

/-- A string operand (R144). -/
def pStr : Parser String
  | .str s :: ts => .ok (s, ts)
  | [] => .error .missingOperand
  | _ => .error .wrongType

/-- The operand `dram`: a reference to the one DRAM (R144, R147). -/
def pDram : Parser Unit
  | .ref .dram :: ts => .ok ((), ts)
  | .ref _ :: _ => .error .badEnumerated
  | [] => .error .missingOperand
  | _ => .error .wrongType

/-- The operand `device`: a reference to a device (R144). -/
def pDevice : Parser DevRef
  | .ref (.dev d) :: ts => .ok (d, ts)
  | .ref .dram :: _ => .error .badEnumerated
  | [] => .error .missingOperand
  | _ => .error .wrongType

/-- The operand `dev` of `attach_plic`: a reference to the one PLIC (R327). -/
def pPlic : Parser Unit
  | .ref (.dev .plic) :: ts => .ok ((), ts)
  | .ref _ :: _ => .error .badEnumerated
  | [] => .error .missingOperand
  | _ => .error .wrongType

/-- The operand `dev` of `attach_clint`: a reference to the one CLINT (R328). -/
def pClint : Parser Unit
  | .ref (.dev .clint) :: ts => .ok ((), ts)
  | .ref _ :: _ => .error .badEnumerated
  | [] => .error .missingOperand
  | _ => .error .wrongType

/-- The timer instance that a command names as an implicit operand (R147). -/
def pTimer : Parser Nat
  | .ref (.dev (.timer k)) :: ts => .ok (k, ts)
  | .ref _ :: _ => .error .badEnumerated
  | [] => .error .missingOperand
  | _ => .error .wrongType

/-- The UART instance that a command names as an implicit operand (R147). -/
def pUart : Parser Nat
  | .ref (.dev (.uart k)) :: ts => .ok (k, ts)
  | .ref _ :: _ => .error .badEnumerated
  | [] => .error .missingOperand
  | _ => .error .wrongType

/-- An optional operand: present, or `absent` (R141). -/
def pOpt {α : Type} (p : Parser α) : Parser (Option α)
  | .absent :: ts => .ok (none, ts)
  | ts => match p ts with
    | .ok (a, ts') => .ok (some a, ts')
    | .error e => .error e

/-- An enumerated value, "as the name or as the number given" (R145). -/
def enumValue {α : Type} (byNumber : Nat → Option α) (byName : String → Option α) : Scalar → Except Reject α
  | .nat n => match byNumber n with
    | some a => .ok a
    | none => .error .badEnumerated
  | .str s => match byName s with
    | some a => .ok a
    | none => .error .badEnumerated
  | .bool _ => .error .wrongType

/-- A scalar operand, read by `p` (R144). -/
def pScalar {α : Type} (p : Scalar → Except Reject α) : Parser α
  | .nat n :: ts => (p (.nat n)).map (·, ts)
  | .str s :: ts => (p (.str s)).map (·, ts)
  | .bool b :: ts => (p (.bool b)).map (·, ts)
  | [] => .error .missingOperand
  | _ => .error .wrongType

/-- An enumerated operand (R145). -/
def pEnum {α : Type} (byNumber : Nat → Option α) (byName : String → Option α) : Parser α :=
  pScalar (enumValue byNumber byName)

/-- Levels by number (R145). -/
def Level.ofNumber : Nat → Option Level
  | 0 => some .l1d
  | 1 => some .l1i
  | 2 => some .l2
  | 3 => some .l3
  | _ => none

/-- Levels by name (R145). -/
def Level.ofName : String → Option Level
  | "l1d" => some .l1d
  | "l1i" => some .l1i
  | "l2" => some .l2
  | "l3" => some .l3
  | _ => none

/-- `which` by number: "limited to l1d and l1i" (R145). -/
def Side.ofNumber : Nat → Option Side
  | 0 => some .l1d
  | 1 => some .l1i
  | _ => none

/-- `which` by name (R145). -/
def Side.ofName : String → Option Side
  | "l1d" => some .l1d
  | "l1i" => some .l1i
  | _ => none

/-- `memtype` by number (R145). -/
def MemType.ofNumber : Nat → Option MemType
  | 0 => some .normal
  | 1 => some .device
  | 2 => some .wc
  | _ => none

/-- `memtype` by name (R145). -/
def MemType.ofName : String → Option MemType
  | "normal" => some .normal
  | "device" => some .device
  | "wc" => some .wc
  | _ => none

/-- `kind` by number (R145). -/
def AccessKind.ofNumber : Nat → Option AccessKind
  | 0 => some .read
  | 1 => some .write
  | 2 => some .execute
  | _ => none

/-- `kind` by name (R145). -/
def AccessKind.ofName : String → Option AccessKind
  | "read" => some .read
  | "write" => some .write
  | "execute" => some .execute
  | _ => none

/-- `layout` by number (R145). -/
def Layout.ofNumber : Nat → Option Layout
  | 0 => some .compact
  | 1 => some .canonical
  | _ => none

/-- `layout` by name (R145). -/
def Layout.ofName : String → Option Layout
  | "compact" => some .compact
  | "canonical" => some .canonical
  | _ => none

/-- `field` by number (R146). -/
def CsrField.ofNumber : Nat → Option CsrField
  | 0 => some .mie
  | 1 => some .mpie
  | 2 => some .msie
  | 3 => some .mtie
  | 4 => some .meie
  | 5 => some .msip
  | 6 => some .mtip
  | 7 => some .meip
  | 8 => some .mcause
  | 9 => some .mcauseIsInterrupt
  | _ => none

/-- `field` by name (R146). -/
def CsrField.ofName : String → Option CsrField
  | "MIE" => some .mie
  | "MPIE" => some .mpie
  | "MSIE" => some .msie
  | "MTIE" => some .mtie
  | "MEIE" => some .meie
  | "MSIP" => some .msip
  | "MTIP" => some .mtip
  | "MEIP" => some .meip
  | "mcause" => some .mcause
  | "mcause_is_interrupt" => some .mcauseIsInterrupt
  | _ => none

/-- The operand `L` (R145). -/
def pLevel : Parser Level := pEnum Level.ofNumber Level.ofName

/-- The operand `which` (R145). -/
def pSide : Parser Side := pEnum Side.ofNumber Side.ofName

/-- The operand `kind` (R145). -/
def pKind : Parser AccessKind := pEnum AccessKind.ofNumber AccessKind.ofName

/-- The operand `field` (R146). -/
def pField : Parser CsrField := pEnum CsrField.ofNumber CsrField.ofName

/-! ## Record operands (R144) -/

/-- A field that a record may leave out. -/
def optField {α : Type} (p : Scalar → Except Reject α) : Option Scalar → Except Reject (Option α)
  | none => .ok none
  | some x => (p x).map some

/-- A field that a record must give (R150: "a missing required operand"). -/
def needField {α : Type} (p : Scalar → Except Reject α) : Option Scalar → Except Reject α
  | none => .error .missingOperand
  | some x => p x

/-- A boolean field. -/
def boolValue : Scalar → Except Reject Bool
  | .bool b => .ok b
  | _ => .error .wrongType

/-- A natural field. -/
def natValue : Scalar → Except Reject Nat
  | .nat n => .ok n
  | _ => .error .wrongType

/-- The field `memtype` (R145). -/
def memTypeValue : Scalar → Except Reject MemType := enumValue MemType.ofNumber MemType.ofName

/-- The field `layout` (R145). -/
def layoutValue : Scalar → Except Reject Layout := enumValue Layout.ofNumber Layout.ofName

/-- The record `perm` (R214): its fields are those of `Perm`, each optional. -/
def Record.toPerm (r : Record) : Except Reject Perm := do
  if r ≠ { present := r.present, writable := r.writable, executable := r.executable, user := r.user, cached := r.cached,
           memtype := r.memtype } then throw .unknownField
  return {
    present := ← optField boolValue r.present, writable := ← optField boolValue r.writable
    executable := ← optField boolValue r.executable, user := ← optField boolValue r.user
    cached := ← optField boolValue r.cached, memtype := ← optField memTypeValue r.memtype }

/-- The record `attrs` (R218): its fields are those of `Attrs`, each optional. -/
def Record.toAttrs (r : Record) : Except Reject Attrs := do
  if r ≠ { r with layout := none, ctxId := none, hart := none } then throw .unknownField
  return {
    present := ← optField boolValue r.present, writable := ← optField boolValue r.writable
    executable := ← optField boolValue r.executable, user := ← optField boolValue r.user
    cached := ← optField boolValue r.cached, memtype := ← optField memTypeValue r.memtype
    dirty := ← optField boolValue r.dirty, accessed := ← optField boolValue r.accessed }

/-- The record `{layout, ctx_id}` of `attach_plic` (R327). -/
def Record.toPlicContext (r : Record) : Except Reject (Layout × Nat) := do
  if r ≠ { layout := r.layout, ctxId := r.ctxId } then throw .unknownField
  return (← needField layoutValue r.layout, ← needField natValue r.ctxId)

/-- The record `{hart}` of `attach_clint` (R328). -/
def Record.toHart (r : Record) : Except Reject Nat := do
  if r ≠ { hart := r.hart } then throw .unknownField
  needField natValue r.hart

/-- A record operand, read by `p` (R144). -/
def pRecord {α : Type} (p : Record → Except Reject α) : Parser α
  | .record r :: ts => (p r).map (·, ts)
  | [] => .error .missingOperand
  | _ => .error .wrongType

/-- The operand `perm` (R214). -/
def pPerm : Parser Perm := pRecord Record.toPerm

/-- The operand `attrs` (R218). -/
def pAttrs : Parser Attrs := pRecord Record.toAttrs

/-- The operand `handler` (R472): the values of the calls the host procedure issues. -/
def pHandler : Parser (List Token)
  | .handler n :: ts => if n ≤ ts.length then .ok (ts.take n, ts.drop n) else .error .missingOperand
  | [] => .error .missingOperand
  | _ => .error .wrongType

/-! ## Commands (R147) -/

/-- The operation of a CMD record: its code selects the operation, its operands follow in the rule's order (R141,
R147); any other code is reserved (R150). -/
def decodeCmd (c : Nat) : Parser Instr :=
  match c with
  | 0x01 => do return .dramReadBytes (← pNat) (← pNat)
  | 0x02 => do return .dramWriteBytes (← pWord) (← pBytes)
  | 0x03 => do return .dramFill (← pWord) (← pNat) (← pByte)
  | 0x04 => do return .dramCopy (← pNat) (← pNat) (← pNat)
  | 0x05 => do return .dramPeek (← pWord)
  | 0x06 => do return .dramLoadImage (← pWord) (← pBytes)
  | 0x10 => do
    let name ← pStr
    let base ← pWord
    let size ← pNat
    pDram
    return .busMapRam name base size (← pNat)
  | 0x11 => do return .busRegisterMmio (← pStr) (← pDevice)
  | 0x12 => do return .busReadBytes (← pWord) (← pNat)
  | 0x13 => do return .busWriteBytes (← pWord) (← pBytes)
  | 0x20 => do return .mmuSetAsid (← pNat)
  | 0x21 => do return .mmuMapPage (← pNat) (← pOpt pNat) (← pOpt pPerm) (← pOpt pNat)
  | 0x22 => do return .mmuUnmapPage (← pNat) (← pOpt pNat)
  | 0x23 => do return .mmuTranslate (← pWord)
  | 0x24 => do return .mmuSetPageAttributes (← pNat) (← pAttrs) (← pOpt pNat)
  | 0x25 => do return .mmuFlushTlb (← pOpt pNat)
  | 0x26 => do return .mmuFlushTlbEntry (← pNat) (← pOpt pNat)
  | 0x27 => do return .mmuCheckAccess (← pWord) (← pKind)
  | 0x30 => do return .cacheRead (← pWord) (← pSide)
  | 0x31 => do return .cacheWriteBytes (← pWord) (← pBytes) (← pOpt pSide)
  | 0x34 => do return .cachePrefetchLine (← pLevel) (← pWord)
  | 0x35 => do return .cacheFlushLine (← pWord) (← pLevel)
  | 0x36 => do return .cacheFlushAll (← pLevel)
  | 0x37 => do return .cacheStats (← pLevel)
  | 0x40 => do return .cpuFetch (← pWord) (← pOpt pNat)
  | 0x41 => do return .cpuLoad (← pWord) (← pNat) (← pBool)
  | 0x42 => do return .cpuStore (← pWord) (← pNat) (← pInt) (← pBool)
  | 0x43 => do return .cpuMemoryBarrier
  | 0x44 => do return .cpuPrefetchData (← pWord)
  | 0x45 => do return .cpuPrefetchInst (← pWord)
  | 0x46 => do return .cpuFlushIcache
  | 0x47 => do return .cpuFlushDcache
  | 0x48 => do return .cpuFlushL2
  | 0x49 => do return .cpuFlushL3
  | 0x4A => do return .cpuFlushTlb (← pOpt pNat)
  | 0x4B => do return .cpuMapPage (← pNat) (← pOpt pNat) (← pOpt pPerm) (← pOpt pNat)
  | 0x4C => do return .cpuUnmapPage (← pNat) (← pOpt pNat)
  | 0x4D => do return .cpuSetPageAttributes (← pNat) (← pAttrs) (← pOpt pNat)
  | 0x4E => do return .cpuSetAsid (← pNat)
  | 0x4F => do
    pPlic
    let base ← pWord
    let (layout, ctxId) ← pRecord Record.toPlicContext
    return .cpuAttachPlic base layout ctxId
  | 0x50 => do
    pClint
    return .cpuAttachClint (← pRecord Record.toHart)
  | 0x51 => do return .cpuSampleIrqs
  | 0x52 => do return .cpuMaybeTakeInterrupt
  | 0x53 => do return .cpuCompleteTrap
  | 0x54 => do return .cpuPollInterrupts (← pNat) (← pOpt pHandler)
  | 0x55 => do return .cpuTrapEnter (← pNat) (← pOpt pBool)
  | 0x56 => do return .cpuMret
  | 0x57 => do return .cpuShouldTakeInterrupt
  | 0x58 => do return .cpuCsrRead (← pField)
  | 0x59 => do return .cpuCsrWrite (← pField) (← pNat)
  | 0x60 => do return .plicRaise (← pNat)
  | 0x61 => do return .plicLower (← pNat)
  | 0x62 => do return .plicGetContextIrq (← pNat)
  | 0x68 => do return .clintAdvance (← pNat)
  | 0x69 => do return .clintGetIrqLevels (← pNat)
  | 0x70 => do return .timerAdvance (← pTimer) (← pNat)
  | 0x78 => do return .uartPushRx (← pUart) (← pByte)
  | _ => throw (.reservedCode c)

/-- Whether a value stands outside the operands of a command: it begins a call, or comes before one. -/
def Token.beginsCall : Token → Bool
  | .code _ => true
  | .access _ _ _ _ _ => true
  | .attempt => true
  | .nat _ => false
  | .int _ => false
  | .bool _ => false
  | .bytes _ => false
  | .str _ => false
  | .ref _ => false
  | .absent => false
  | .record _ => false
  | .handler _ => false

/-- Whether a command ends where the values `ts` follow it: they begin another call, or there are none. -/
def endsCommand (ts : List Token) : Bool := (ts.head?.map Token.beginsCall).getD true

/-- The first call of a list of values: the operation and the values that follow it (R141, R142). A command takes the
values up to the next call, and is refused when its operands do not match them (R150). -/
def decode : List Token → Except Reject (Instr × List Token)
  | [] => .error .noCall
  | .code c :: ts => match decodeCmd c.toNat ts with
    | .ok (i, rest) => if endsCommand rest then .ok (i, rest) else .error .surplusOperand
    | .error e => .error e
  | .access f d w off bs :: ts => match decodeAccess f d w off bs with
    | .ok i => .ok (i, ts)
    | .error e => .error e
  | _ => .error .notACall

/-! ## Encoding -/

/-- The value of an optional operand (R141). -/
def optTok {α : Type} (f : α → Token) : Option α → Token
  | none => .absent
  | some a => f a

/-- The number of a level (R145). -/
def Level.number : Level → Nat
  | .l1d => 0
  | .l1i => 1
  | .l2 => 2
  | .l3 => 3

/-- The number of a side (R145). -/
def Side.number : Side → Nat
  | .l1d => 0
  | .l1i => 1

/-- The number of an access kind (R145). -/
def AccessKind.number : AccessKind → Nat
  | .read => 0
  | .write => 1
  | .execute => 2

/-- The number of a memory type (R145). -/
def MemType.number : MemType → Nat
  | .normal => 0
  | .device => 1
  | .wc => 2

/-- The number of a layout (R145). -/
def Layout.number : Layout → Nat
  | .compact => 0
  | .canonical => 1

/-- The number of a CSR field (R146). -/
def CsrField.number : CsrField → Nat
  | .mie => 0
  | .mpie => 1
  | .msie => 2
  | .mtie => 3
  | .meie => 4
  | .msip => 5
  | .mtip => 6
  | .meip => 7
  | .mcause => 8
  | .mcauseIsInterrupt => 9

/-- The record that gives the fields of `perm` (R214). -/
def Perm.toRecord (p : Perm) : Record :=
  { present := p.present.map .bool, writable := p.writable.map .bool, executable := p.executable.map .bool
    user := p.user.map .bool, cached := p.cached.map .bool, memtype := p.memtype.map fun t => .nat t.number }

/-- The record that gives the fields of `attrs` (R218). -/
def Attrs.toRecord (a : Attrs) : Record :=
  { present := a.present.map .bool, writable := a.writable.map .bool, executable := a.executable.map .bool
    user := a.user.map .bool, cached := a.cached.map .bool, memtype := a.memtype.map fun t => .nat t.number
    dirty := a.dirty.map .bool, accessed := a.accessed.map .bool }

/-- A 4-byte read of the register at `off`. -/
def rd4 (f : Format) (off : Nat) : List Token := [.access f .R 4 (BitVec.ofNat 64 off) []]

/-- A 4-byte write of `v` to the register at `off` (R143). -/
def wr4 (f : Format) (off : Nat) (v : Word32) : List Token :=
  [.access f .W 4 (BitVec.ofNat 64 off) (packLe v.toNat 4)]

/-- An 8-byte read of the register at `off`. -/
def rd8 (f : Format) (off : Nat) : List Token := [.access f .R 8 (BitVec.ofNat 64 off) []]

/-- An 8-byte write of `v` to the register at `off` (R143). -/
def wr8 (f : Format) (off : Nat) (v : Word) : List Token :=
  [.access f .W 8 (BitVec.ofNat 64 off) (packLe v.toNat 8)]

/-- The values of the record that calls an operation: R147's code and operands, or R149's register access. -/
def encode (i : Instr) : List Token :=
  match i with
  | .dramReadBytes addr n => [.code 0x01, .nat addr, .nat n]
  | .dramWriteBytes addr bs => [.code 0x02, .nat addr.toNat, .bytes bs]
  | .dramFill addr n v => [.code 0x03, .nat addr.toNat, .nat n, .nat v.toNat]
  | .dramCopy dest src n => [.code 0x04, .nat dest, .nat src, .nat n]
  | .dramPeek addr => [.code 0x05, .nat addr.toNat]
  | .dramLoadImage addr bs => [.code 0x06, .nat addr.toNat, .bytes bs]
  | .busMapRam name base size off => [.code 0x10, .str name, .nat base.toNat, .nat size, .ref .dram, .nat off]
  | .busRegisterMmio name dev => [.code 0x11, .str name, .ref (.dev dev)]
  | .busReadBytes pa n => [.code 0x12, .nat pa.toNat, .nat n]
  | .busWriteBytes pa bs => [.code 0x13, .nat pa.toNat, .bytes bs]
  | .mmuSetAsid asid => [.code 0x20, .nat asid]
  | .mmuMapPage vpn f p a => [.code 0x21, .nat vpn, optTok .nat f, optTok (.record ·.toRecord) p, optTok .nat a]
  | .mmuUnmapPage vpn a => [.code 0x22, .nat vpn, optTok .nat a]
  | .mmuTranslate va => [.code 0x23, .nat va.toNat]
  | .mmuSetPageAttributes vpn at' a => [.code 0x24, .nat vpn, .record at'.toRecord, optTok .nat a]
  | .mmuFlushTlb a => [.code 0x25, optTok .nat a]
  | .mmuFlushTlbEntry vpn a => [.code 0x26, .nat vpn, optTok .nat a]
  | .mmuCheckAccess va k => [.code 0x27, .nat va.toNat, .nat k.number]
  | .cacheRead pa w => [.code 0x30, .nat pa.toNat, .nat w.number]
  | .cacheWriteBytes pa bs w => [.code 0x31, .nat pa.toNat, .bytes bs, optTok (fun x => .nat x.number) w]
  | .cachePrefetchLine l b => [.code 0x34, .nat l.number, .nat b.toNat]
  | .cacheFlushLine addr l => [.code 0x35, .nat addr.toNat, .nat l.number]
  | .cacheFlushAll l => [.code 0x36, .nat l.number]
  | .cacheStats l => [.code 0x37, .nat l.number]
  | .cpuFetch va size => [.code 0x40, .nat va.toNat, optTok .nat size]
  | .cpuLoad va size sg => [.code 0x41, .nat va.toNat, .nat size, .bool sg]
  | .cpuStore va size x sg => [.code 0x42, .nat va.toNat, .nat size, .int x, .bool sg]
  | .cpuMemoryBarrier => [.code 0x43]
  | .cpuPrefetchData va => [.code 0x44, .nat va.toNat]
  | .cpuPrefetchInst va => [.code 0x45, .nat va.toNat]
  | .cpuFlushIcache => [.code 0x46]
  | .cpuFlushDcache => [.code 0x47]
  | .cpuFlushL2 => [.code 0x48]
  | .cpuFlushL3 => [.code 0x49]
  | .cpuFlushTlb a => [.code 0x4A, optTok .nat a]
  | .cpuMapPage vpn f p a => [.code 0x4B, .nat vpn, optTok .nat f, optTok (.record ·.toRecord) p, optTok .nat a]
  | .cpuUnmapPage vpn a => [.code 0x4C, .nat vpn, optTok .nat a]
  | .cpuSetPageAttributes vpn at' a => [.code 0x4D, .nat vpn, .record at'.toRecord, optTok .nat a]
  | .cpuSetAsid asid => [.code 0x4E, .nat asid]
  | .cpuAttachPlic base l ctx => [.code 0x4F, .ref (.dev .plic), .nat base.toNat,
      .record { layout := some (.nat l.number), ctxId := some (.nat ctx) }]
  | .cpuAttachClint hart => [.code 0x50, .ref (.dev .clint), .record { hart := some (.nat hart) }]
  | .cpuSampleIrqs => [.code 0x51]
  | .cpuMaybeTakeInterrupt => [.code 0x52]
  | .cpuCompleteTrap => [.code 0x53]
  | .cpuPollInterrupts ctx none => [.code 0x54, .nat ctx, .absent]
  | .cpuPollInterrupts ctx (some h) => [.code 0x54, .nat ctx, .handler h.length] ++ h
  | .cpuTrapEnter cause isInt => [.code 0x55, .nat cause, optTok .bool isInt]
  | .cpuMret => [.code 0x56]
  | .cpuShouldTakeInterrupt => [.code 0x57]
  | .cpuCsrRead f => [.code 0x58, .nat f.number]
  | .cpuCsrWrite f v => [.code 0x59, .nat f.number, .nat v]
  | .plicRaise id => [.code 0x60, .nat id]
  | .plicLower id => [.code 0x61, .nat id]
  | .plicGetContextIrq c => [.code 0x62, .nat c]
  | .clintAdvance n => [.code 0x68, .nat n]
  | .clintGetIrqLevels h => [.code 0x69, .nat h]
  | .timerAdvance k n => [.code 0x70, .ref (.dev (.timer k)), .nat n]
  | .uartPushRx k b => [.code 0x78, .ref (.dev (.uart k)), .nat b.toNat]
  | .plicPrioR l id => rd4 (.plic l) (plicOff l (.prio id))
  | .plicPrioW l id v => wr4 (.plic l) (plicOff l (.prio id)) v
  | .plicPendLoR l => rd4 (.plic l) (plicOff l .pendLo)
  | .plicPendHiR l => rd4 (.plic l) (plicOff l .pendHi)
  | .plicEnableLoR l c => rd4 (.plic l) (plicOff l (.enableLo c))
  | .plicEnableLoW l c v => wr4 (.plic l) (plicOff l (.enableLo c)) v
  | .plicEnableHiR l c => rd4 (.plic l) (plicOff l (.enableHi c))
  | .plicEnableHiW l c v => wr4 (.plic l) (plicOff l (.enableHi c)) v
  | .plicThresholdR l c => rd4 (.plic l) (plicOff l (.threshold c))
  | .plicThresholdW l c v => wr4 (.plic l) (plicOff l (.threshold c)) v
  | .plicClaimR l c => rd4 (.plic l) (plicOff l (.claim c))
  | .plicCompleteW l c v => wr4 (.plic l) (plicOff l (.claim c)) v
  | .clintMsipR h => rd4 .clint (clintOff (.msip h))
  | .clintMsipW h v => wr4 .clint (clintOff (.msip h)) v
  | .clintMtimecmpR h => rd8 .clint (clintOff (.mtimecmp h .full))
  | .clintMtimecmpLoR h => rd4 .clint (clintOff (.mtimecmp h .lo))
  | .clintMtimecmpHiR h => rd4 .clint (clintOff (.mtimecmp h .hi))
  | .clintMtimecmpW h v => wr8 .clint (clintOff (.mtimecmp h .full)) v
  | .clintMtimecmpLoW h v => wr4 .clint (clintOff (.mtimecmp h .lo)) v
  | .clintMtimecmpHiW h v => wr4 .clint (clintOff (.mtimecmp h .hi)) v
  | .clintMtimeR => rd8 .clint (clintOff (.mtime .full))
  | .clintMtimeLoR => rd4 .clint (clintOff (.mtime .lo))
  | .clintMtimeHiR => rd4 .clint (clintOff (.mtime .hi))
  | .clintMtimeW v => wr8 .clint (clintOff (.mtime .full)) v
  | .clintMtimeLoW v => wr4 .clint (clintOff (.mtime .lo)) v
  | .clintMtimeHiW v => wr4 .clint (clintOff (.mtime .hi)) v
  | .uartDataR k => [.access (.uart k) .R 1 (BitVec.ofNat 64 (uartOff .data)) []]
  | .uartDataW k b => [.access (.uart k) .W 1 (BitVec.ofNat 64 (uartOff .data)) [b]]
  | .uartStatusR k => rd4 (.uart k) (uartOff .status)
  | .uartCtrlR k => rd4 (.uart k) (uartOff .ctrl)
  | .uartCtrlW k v => wr4 (.uart k) (uartOff .ctrl) v
  | .timerCntLoR k => rd4 (.timer k) (timerOff .cntLo)
  | .timerCntLoW k v => wr4 (.timer k) (timerOff .cntLo) v
  | .timerCntHiR k => rd4 (.timer k) (timerOff .cntHi)
  | .timerCntHiW k v => wr4 (.timer k) (timerOff .cntHi) v
  | .timerCmpLoR k => rd4 (.timer k) (timerOff .cmpLo)
  | .timerCmpLoW k v => wr4 (.timer k) (timerOff .cmpLo) v
  | .timerCmpHiR k => rd4 (.timer k) (timerOff .cmpHi)
  | .timerCmpHiW k v => wr4 (.timer k) (timerOff .cmpHi) v
  | .timerCtrlR k => rd4 (.timer k) (timerOff .ctrl)
  | .timerCtrlW k v => wr4 (.timer k) (timerOff .ctrl) v
  | .timerStatusR k => rd4 (.timer k) (timerOff .status)
  | .timerStatusW k v => wr4 (.timer k) (timerOff .status) v
  | .timerTickR k => rd4 (.timer k) (timerOff .tick)
  | .timerTickW k v => wr4 (.timer k) (timerOff .tick) v
  | .dmaSrcLoR k => rd4 (.dma k) (dmaOff .srcLo)
  | .dmaSrcLoW k v => wr4 (.dma k) (dmaOff .srcLo) v
  | .dmaSrcHiR k => rd4 (.dma k) (dmaOff .srcHi)
  | .dmaSrcHiW k v => wr4 (.dma k) (dmaOff .srcHi) v
  | .dmaDstLoR k => rd4 (.dma k) (dmaOff .dstLo)
  | .dmaDstLoW k v => wr4 (.dma k) (dmaOff .dstLo) v
  | .dmaDstHiR k => rd4 (.dma k) (dmaOff .dstHi)
  | .dmaDstHiW k v => wr4 (.dma k) (dmaOff .dstHi) v
  | .dmaLenR k => rd4 (.dma k) (dmaOff .len)
  | .dmaLenW k v => wr4 (.dma k) (dmaOff .len) v
  | .dmaCtrlR k => rd4 (.dma k) (dmaOff .ctrl)
  | .dmaCtrlW k v => wr4 (.dma k) (dmaOff .ctrl) v
  | .dmaStatusR k => rd4 (.dma k) (dmaOff .status)
  | .dmaStatusW k v => wr4 (.dma k) (dmaOff .status) v
  | .romRead k off w => [.access (.rom k) .R w off []]
  | .romWrite k off bs => [.access (.rom k) .W bs.length off bs]

/-! ## Words of the opcode table -/

/-- The operand values of a command whose every operand is zero: 0, false, the empty string or list, an optional
operand absent, a reference to the first component of its kind (log 5). -/
def zeroOperands (c : Nat) : List Token :=
  match c with
  | 0x01 => [.nat 0, .nat 0]
  | 0x02 => [.nat 0, .bytes []]
  | 0x03 => [.nat 0, .nat 0, .nat 0]
  | 0x04 => [.nat 0, .nat 0, .nat 0]
  | 0x05 => [.nat 0]
  | 0x06 => [.nat 0, .bytes []]
  | 0x10 => [.str "", .nat 0, .nat 0, .ref .dram, .nat 0]
  | 0x11 => [.str "", .ref (.dev .plic)]
  | 0x12 => [.nat 0, .nat 0]
  | 0x13 => [.nat 0, .bytes []]
  | 0x20 => [.nat 0]
  | 0x21 => [.nat 0, .absent, .absent, .absent]
  | 0x22 => [.nat 0, .absent]
  | 0x23 => [.nat 0]
  | 0x24 => [.nat 0, .record {}, .absent]
  | 0x25 => [.absent]
  | 0x26 => [.nat 0, .absent]
  | 0x27 => [.nat 0, .nat 0]
  | 0x30 => [.nat 0, .nat 0]
  | 0x31 => [.nat 0, .bytes [], .absent]
  | 0x34 => [.nat 0, .nat 0]
  | 0x35 => [.nat 0, .nat 0]
  | 0x36 => [.nat 0]
  | 0x37 => [.nat 0]
  | 0x40 => [.nat 0, .absent]
  | 0x41 => [.nat 0, .nat 0, .bool false]
  | 0x42 => [.nat 0, .nat 0, .int 0, .bool false]
  | 0x44 => [.nat 0]
  | 0x45 => [.nat 0]
  | 0x4A => [.absent]
  | 0x4B => [.nat 0, .absent, .absent, .absent]
  | 0x4C => [.nat 0, .absent]
  | 0x4D => [.nat 0, .record {}, .absent]
  | 0x4E => [.nat 0]
  | 0x4F => [.ref (.dev .plic), .nat 0, .record { layout := some (.nat 0), ctxId := some (.nat 0) }]
  | 0x50 => [.ref (.dev .clint), .record { hart := some (.nat 0) }]
  | 0x54 => [.nat 0, .absent]
  | 0x55 => [.nat 0, .absent]
  | 0x58 => [.nat 0]
  | 0x59 => [.nat 0, .nat 0]
  | 0x60 => [.nat 0]
  | 0x61 => [.nat 0]
  | 0x62 => [.nat 0]
  | 0x68 => [.nat 0]
  | 0x69 => [.nat 0]
  | 0x70 => [.ref (.dev (.timer 0)), .nat 0]
  | 0x78 => [.ref (.dev (.uart 0)), .nat 0]
  | _ => []

/-- The accesses a bare register offset may stand for, in the order of the opcode table: a row of a register-access
format gives match bits for the offset only, so its format, direction and width are not in the word (R142; log 5). -/
def offsetAccesses (off : Nat) : List Token :=
  [Format.plic .compact, .plic .canonical, .clint, .uart 0, .timer 0, .dma 0].flatMap fun f =>
    [.access f .R 4 (BitVec.ofNat 64 off) [], .access f .R 1 (BitVec.ofNat 64 off) [],
     .access f .R 8 (BitVec.ofNat 64 off) []]

/-- The call that a word of the opcode table stands for, every operand zero: with 8 bits the word is a command code;
with 64 bits it is a register offset, read as the first access of `offsetAccesses` that decodes; with none it is the
ROM's row, which fixes no bit. -/
def tableTokens (nbits w : Nat) : List Token :=
  match nbits with
  | 0 => [.access (.rom 0) .R 0 0 []]
  | 8 => .code (BitVec.ofNat 8 w) :: zeroOperands w
  | _ =>
    match (offsetAccesses w).find? (fun t => match decode [t] with
        | .ok _ => true
        | .error _ => false) with
    | some t => [t]
    | none => []

/-- The operation the decoder reads from a word of the opcode table, numbered as the table numbers it. -/
def decodeTableWord (nbits w : Nat) : Option Instr :=
  match decode (tableTokens nbits w) with
  | .ok (i, _) => some i
  | .error _ => none

end Sys2Proof
end

