-- ==== Sys2Proof/Machine/State.lean ====
section
/-! DEFINITION. The state of the block as plain data (spec/10_state.md), every field at the value its rule gives at
construction in `State.reset` (spec/70_reset_and_hazards.md R500, R501), the outcomes of an operation (R16, R460) and
the reasons a run stops. -/

namespace Sys2Proof.Machine

/-! ## Errors, results, stops -/

/-- The error kinds of R460 with the information each records. -/
inductive ErrKind where
  /-- code 1: the offset and length (R170, R171, R173). -/
  | accessViolation (off len : Nat)
  /-- code 2: the first unmapped address (R182, R183). -/
  | unmapped (a : Nat)
  /-- code 3: the new region's name, the region it meets, its base and size (R176, R177, R460). -/
  | overlap (name other : String) (base size : Nat)
  /-- code 4: the chunk's address and width (R180, R411). -/
  | mmioConstraint (a width : Nat)
  /-- code 5: the virtual address (R210, R215, R218). -/
  | pageFault (va : Nat)
  /-- code 6: the virtual address and the access kind (R223, R313, R315, R319). -/
  | permissionDenied (va : Nat) (kind : AccessKind)
  /-- code 7: nothing (R220). -/
  | outOfFrames
  /-- code 8: the address (R451). -/
  | readOnly (a : Nat)
  /-- code 9: the parameter (R9, R176, R177). -/
  | badConfig (p : BadParam)
  /-- code 10: the device. No rule of the block raises it (R461). -/
  | deviceError (d : DevRef)
deriving DecidableEq, Repr

/-- An error as it is returned: its kind, and for an error inside a cache fill, write-back or prefetch the level and
block address (R258, R460's closing sentence). -/
structure Err where
  kind : ErrKind
  source : Option (Level × Nat) := none
deriving DecidableEq, Repr

/-- A page-table entry (R37). -/
structure Pte where
  frame : Nat
  present : Bool
  writable : Bool
  executable : Bool
  user : Bool
  cached : Bool
  memtype : MemType
  dirty : Bool
  accessed : Bool
deriving DecidableEq, Repr

/-- The statistics of one cache level (R44). -/
structure CacheStats where
  hits : Nat
  misses : Nat
  fills : Nat
  evictions : Nat
  writebacks : Nat
  prefetches : Nat
deriving DecidableEq, Repr

/-- What an operation returns to the host. -/
inductive Value where
  | unit
  | bytes (bs : List Byte)
  | byte (b : Byte)
  | nat (n : Nat)
  | int (z : Int)
  | bool (b : Bool)
  /-- A cause code, or none (R467, R471). -/
  | cause (c : Option Nat)
  /-- `(pa, pte)` (R210, R223). -/
  | translation (pa : Nat) (pte : Pte)
  /-- `{msip, mtip}` (R396). -/
  | levels (msip mtip : Bool)
  /-- The six counters and `hit_rate` (R271). -/
  | stats (s : CacheStats) (hitRate : Option Rat)
deriving DecidableEq, Repr

/-- The outcome of the last operation, as the host sees it: `ok(result)` or `err(kind, info)` (R16). -/
inductive OpResult where
  | ok (v : Value)
  | err (e : Err)
deriving DecidableEq, Repr

/-- Why the machine stops with a fault. An error of R460 is NO fault of the model: it is returned to the host, which
may go on (R16, R462), so it is a next state that records it in `State.result`. -/
inductive Fault where
  /-- Raised by `construct` and by `step` on a configuration that R9 rejects: "rejected at construction with error
  BadConfig, and the block is not built". Safe: no such block exists. -/
  | badConfig (p : BadParam)
deriving DecidableEq, Repr

/-- Why the machine refuses: the outcome `refused(reason)` of R16, "the spec gives no meaning; a model must stop". Each
is safe: nothing can be proved of a run that stops. -/
inductive Refusal where
  /-- Raised by `exec` for an instruction the model gives no meaning yet; safe. -/
  | notModelled (mnemonic : String)
  /-- Raised by `step` and by a handler's call for a call that does not decode (R142, R150, R151); safe. -/
  | badCall (r : Reject)
  /-- Raised by a register access that names no register of the device at that width or direction, or an id, context
  or hart the device does not have (R112, R151, R351, R352, R357, R391, R410, R411, R420, R430); safe. -/
  | noRegister
  /-- Raised by a register access in the format of the other PLIC layout (R142: "its format names the device (and
  layout)"); safe. -/
  | otherLayout
  /-- Raised by an operation that names a device instance the platform does not hold (R144, R150); safe. -/
  | noSuchDevice
  /-- Raised by `fetch`, `load`, `store`: "access size" (R310); safe. -/
  | accessSize
  /-- Raised by `fetch`, `load`, `store`: "address wraps" (R310); safe. -/
  | addressWraps
  /-- Raised by `fetch`, `load`, `store`: "access crosses a page" (R106, R310); safe. -/
  | crossesPage
  /-- Raised by `translate`: "physical address beyond 64 bits" (R210); safe. -/
  | physicalAddressBeyond64
  /-- Raised by `translate` on a TLB entry whose page has no page-table entry, a state no operation reaches (R210:
  every change of a PTE removes its TLB entry); safe. -/
  | tlbEntryWithoutPte
  /-- Raised by `raise`, `lower` and a device's sink for an id outside 1..N (R362, R363); safe. -/
  | plicSourceId
  /-- Raised by `get_context_irq` and through it `sample_irqs` for a context outside 0..C-1 (R365, R466); safe. -/
  | plicContext
  /-- Raised by `get_irq_levels`, `attach_clint` and `sample_irqs` for a hart outside 0..H-1 (R328, R396); safe. -/
  | clintHart
  /-- Raised by `csr_write` of a field other than MIE, MPIE, MSIE, MTIE, MEIE (R470); safe. -/
  | csrReadOnly
  /-- Raised by `poll_interrupts` with no PLIC attached (R472); safe. -/
  | noPlicAttached
  /-- Raised by a DMA transfer over the engine's own registers (R433); safe. -/
  | dmaOwnRegion
  /-- Raised by DMA transfers that start one another without end (R433 gives no outcome; log 6); safe. -/
  | dmaNesting
  /-- Raised by a ROM access beyond its contents (R149, `valid_if`); safe. -/
  | romRange
deriving DecidableEq, Repr

/-- How an operation ends early: an error of R460, after which the state written so far persists (R15), or a
refusal. -/
inductive Stop where
  | err (e : Err)
  | refuse (r : Refusal)
deriving DecidableEq, Repr

/-! ## Components -/

/-- Memory: the DRAM's `cells` (R33) in canonical form, addresses strictly rising and no entry equal to the fill byte
that an unlisted offset reads as. -/
abbrev Memory := List Host.Cell

/-- DRAM state (R33). -/
structure Dram where
  cells : Memory
  faultCount : Nat
deriving DecidableEq, Repr

/-- A device's `caps`, read at registration (R34, R36); `widths = none` is "any". -/
structure Caps where
  align : Nat
  widths : Option (List Nat)
deriving DecidableEq, Repr

/-- What a bus region holds (R34): the one DRAM from an offset, or a device with the caps read at registration. -/
inductive RegionKind where
  | ram (dramOffset : Nat)
  | mmio (dev : DevRef) (caps : Caps)
deriving DecidableEq, Repr

/-- A bus region (R34); `end` is `base + size - 1`. -/
structure Region where
  kind : RegionKind
  base : Nat
  size : Nat
  name : String
deriving DecidableEq, Repr

/-- A completed chunk transfer (R35). -/
structure TraceEntry where
  dir : Dir
  pa : Nat
  bytes : List Byte
deriving DecidableEq, Repr

/-- Bus state (R35). -/
structure Bus where
  regions : List Region
  reads : Nat
  writes : Nat
  faults : Nat
  readBytes : Nat
  writeBytes : Nat
  trace : List TraceEntry
deriving DecidableEq, Repr

/-- A TLB entry (R38). -/
structure TlbEntry where
  frame : Nat
  tick : Nat
deriving DecidableEq, Repr

/-- MMU state (R38). The partial maps are lists of key and value pairs, keys strictly rising (log 7). -/
structure Mmu where
  currentAsid : Nat
  tables : List (Nat × List (Nat × Pte))
  tlb : List ((Nat × Nat) × TlbEntry)
  tlbClock : Nat
  tlbHits : Nat
  tlbMisses : Nat
  poolFrames : List Nat
deriving DecidableEq, Repr

/-- A cache line (R41). -/
structure Line where
  valid : Bool
  dirty : Bool
  tag : Nat
  data : List Byte
  lru : Nat
  presentL1d : Bool
  presentL1i : Bool
  presentL2 : Bool
deriving DecidableEq, Repr

/-- One cache level (R40, R44): its slots `(set, way)` that hold a valid line, keys strictly rising, every other slot
being the reset line of R46 (log 8), and its statistics. -/
structure LevelState where
  lines : List ((Nat × Nat) × Line)
  stats : CacheStats
deriving DecidableEq, Repr

/-- Cache controller state (R40, R43). -/
structure Cache where
  l1d : LevelState
  l1i : LevelState
  l2 : LevelState
  l3 : LevelState
  globalCounter : Nat
deriving DecidableEq, Repr

/-- The write-combining buffer (R48); its `line_size` is L1D's, a configuration value. -/
structure WcBuffer where
  base : Option Nat
  bytes : List Byte
deriving DecidableEq, Repr

/-- `plic_attach` (R47); the platform has one PLIC. -/
structure PlicAttach where
  base : Word
  layout : Layout
  ctxId : Nat
deriving DecidableEq, Repr

/-- The CSR block (R49). -/
structure Csr where
  mie : Bool
  mpie : Bool
  msie : Bool
  mtie : Bool
  meie : Bool
  msip : Bool
  mtip : Bool
  meip : Bool
  mcause : Nat
  mcauseIsInterrupt : Bool
deriving DecidableEq, Repr

/-- CPU front-end state (R47); `clintAttach` holds the attached hart. -/
structure Cpu where
  wc : WcBuffer
  plicAttach : Option PlicAttach
  clintAttach : Option Nat
  csr : Csr
deriving DecidableEq, Repr

/-- PLIC state (R51): entry `id - 1` of `priority` and `lineHigh` is source id's, entry `c` of `enable` and `threshold`
is context c's. -/
structure Plic where
  priority : List Word32
  lineHigh : List Bool
  pending : Word
  enable : List Word
  threshold : List Word32
deriving DecidableEq, Repr

/-- CLINT state (R52): entry `h` is hart h's. -/
structure Clint where
  msip : List Bool
  mtimecmp : List Word
  mtime : Word
deriving DecidableEq, Repr

/-- DMA state (R53). -/
structure Dma where
  src : Word
  dst : Word
  len : Word32
  irqEn : Bool
  busy : Bool
  done : Bool
  err : Bool
  irqOut : Bool
deriving DecidableEq, Repr

/-- Timer state (R54). -/
structure Timer where
  cnt : Word
  cmp : Word
  enable : Bool
  irqEnable : Bool
  autoReload : Bool
  pending : Bool
  tick : Word32
  irqOut : Bool
deriving DecidableEq, Repr

/-- UART state (R55). -/
structure Uart where
  rxFifo : List Byte
  rxEn : Bool
  irqOut : Bool
  tx : List Byte
deriving DecidableEq, Repr

/-- ROM state (R56). -/
structure Rom where
  contents : List Byte
deriving DecidableEq, Repr

/-- The state of the block. `cfg` is the configuration (R32), which no operation changes; `draws`, `calls` and `result`
are the model's own: the number of frames drawn so far (log 3), the calls the host has issued and the block has not yet
performed (log 4), and what the last operation returned to the host (R16, R30). -/
structure State where
  cfg : Config
  dram : Dram
  bus : Bus
  mmu : Mmu
  cache : Cache
  cpu : Cpu
  plic : Plic
  clint : Clint
  uarts : List Uart
  timers : List Timer
  dmas : List Dma
  roms : List Rom
  draws : Nat
  calls : List Token
  result : OpResult
deriving DecidableEq, Repr

/-! ## Construction (R500, R501) -/

/-- Statistics at construction (R46). -/
def CacheStats.zero : CacheStats where
  hits := 0
  misses := 0
  fills := 0
  evictions := 0
  writebacks := 0
  prefetches := 0

/-- A level at construction: every line is the reset line (R46). -/
def LevelState.reset : LevelState where
  lines := []
  stats := .zero

/-- The CSR block at construction (R50). -/
def Csr.reset : Csr where
  mie := false
  mpie := false
  msie := false
  mtie := false
  meie := false
  msip := false
  mtip := false
  meip := false
  mcause := 0
  mcauseIsInterrupt := false

/-- The PLIC at construction (R51). -/
def Plic.reset (c : PlicCfg) : Plic where
  priority := List.replicate c.sources 0
  lineHigh := List.replicate c.sources false
  pending := 0
  enable := List.replicate c.contexts 0
  threshold := List.replicate c.contexts 0

/-- The CLINT at construction (R52). -/
def Clint.reset (c : ClintCfg) : Clint where
  msip := List.replicate c.harts false
  mtimecmp := List.replicate c.harts 0
  mtime := 0

/-- A DMA engine at construction (R53). -/
def Dma.reset : Dma where
  src := 0
  dst := 0
  len := 0
  irqEn := false
  busy := false
  done := false
  err := false
  irqOut := false

/-- A timer at construction (R54): `TICK` is the configured reset value, by default 1 (R8). -/
def Timer.reset (c : TimerCfg) : Timer where
  cnt := 0
  cmp := 0
  enable := false
  irqEnable := false
  autoReload := false
  pending := false
  tick := c.tick
  irqOut := false

/-- A UART at construction (R55). -/
def Uart.reset : Uart where
  rxFifo := []
  rxEn := false
  irqOut := false
  tx := []

/-- The block as it is constructed from a configuration (R500, R501), with no call issued. -/
def State.init (cfg : Config) : State where
  cfg := cfg
  dram := { cells := [], faultCount := 0 }
  bus := { regions := [], reads := 0, writes := 0, faults := 0, readBytes := 0, writeBytes := 0, trace := [] }
  mmu := { currentAsid := 0, tables := [(0, [])], tlb := [], tlbClock := 0, tlbHits := 0, tlbMisses := 0,
           poolFrames := [] }
  cache := { l1d := .reset, l1i := .reset, l2 := .reset, l3 := .reset, globalCounter := 0 }
  cpu := { wc := { base := none, bytes := [] }, plicAttach := none, clintAttach := none, csr := .reset }
  plic := .reset cfg.plic
  clint := .reset cfg.clint
  uarts := cfg.uarts.map (fun _ => .reset)
  timers := cfg.timers.map .reset
  dmas := cfg.dmas.map (fun _ => .reset)
  roms := cfg.roms.map (fun c => { contents := c.image })
  draws := 0
  calls := []
  result := .ok .unit

/-- The machine right after reset: the block as constructed from the default configuration (R500: "The reset state is
the state at construction"). -/
def State.reset : State := .init .default

end Sys2Proof.Machine
end

