-- ==== Sys2Proof/Machine/Ops.lean ====
section
/-! DEFINITION. The shared operations of the machine: how an operation runs and ends (spec/00_scope.md R15, R16), what
the configuration derives (R8, R9, R39, R40), partial maps, memory and lists of register banks, and taking a trap and
returning from it (spec/60_exceptions.md R468, R469). -/

namespace Sys2Proof.Machine

/-! ## Running an operation -/

/-- An operation of the block: from a state it ends with a result and the state after, or early with an error or a
refusal and the state written so far (R15: "every state write and device side effect performed before that step
persists, no later step is performed"). -/
abbrev Op (α : Type) := EStateM Stop State α

/-- `raise <Kind>(info)` (R14). -/
def raise {α : Type} (k : ErrKind) : Op α := throw (.err { kind := k })

/-- `refuse <reason>` (R14). -/
def refuse {α : Type} (r : Refusal) : Op α := throw (.refuse r)

/-- The value, or a refusal where there is none. -/
def need {α : Type} (o : Option α) (r : Refusal) : Op α :=
  match o with
  | some a => pure a
  | none => refuse r

/-- An error of `m` records the level and block it arose at (R258). -/
def tagged {α : Type} (l : Level) (b : Nat) (m : Op α) : Op α := fun s =>
  match m s with
  | .ok a t => .ok a t
  | .error (.err e) t => .error (.err { e with source := some (l, b) }) t
  | .error (.refuse r) t => .error (.refuse r) t

/-- Runs `m` and answers its error, if it ends in one, going on from the state that error left (R15, R433, R472). A
refusal is not caught (R472). -/
def attempt {α : Type} (m : Op α) : Op (Option Err) := fun s =>
  match m s with
  | .ok _ t => .ok none t
  | .error (.err e) t => .ok (some e) t
  | .error (.refuse r) t => .error (.refuse r) t

/-- The outcome of an operation at the host's interface (R16): its result or its error is recorded in `result`, in the
state it left; a refusal stops the run. -/
def finish (m : Op Value) (s : State) : Host.Outcome State Fault Refusal :=
  match m s with
  | .ok v t => .next { t with result := .ok v }
  | .error (.err e) t => .next { t with result := .err e }
  | .error (.refuse r) _ => .refused r

/-- The numeric code of an error kind (R460). -/
def ErrKind.code : ErrKind → Nat
  | .accessViolation _ _ => 1
  | .unmapped _ => 2
  | .overlap _ _ _ _ => 3
  | .mmioConstraint _ _ => 4
  | .pageFault _ => 5
  | .permissionDenied _ _ => 6
  | .outOfFrames => 7
  | .readOnly _ => 8
  | .badConfig _ => 9
  | .deviceError _ => 10

end Sys2Proof.Machine

namespace Sys2Proof

/-! ## The configuration (R8, R9) -/

/-- Whether n is a power of two. -/
def isPow2 (n : Nat) : Bool := n ≠ 0 && 2 ^ Nat.log2 n = n

/-- The geometry of a level. -/
def Config.levelCfg (c : Config) : Level → LevelCfg
  | .l1d => c.l1d
  | .l1i => c.l1i
  | .l2 => c.l2
  | .l3 => c.l3

/-- The common line size (R9 requires it; log 9). -/
def Config.lineSize (c : Config) : Nat := c.l1d.lineSize

/-- `num_sets = size / (line_size * associativity)` (R40). -/
def Config.numSets (c : Config) (l : Level) : Nat :=
  (c.levelCfg l).size / (c.lineSize * (c.levelCfg l).associativity)

/-- The ways of a level. -/
def Config.ways (c : Config) (l : Level) : Nat := (c.levelCfg l).associativity

/-- `page_shift = log2(page_size)` (R39). -/
def Config.pageShift (c : Config) : Nat := Nat.log2 c.pageSize

/-- A legal level geometry (R8): the line size a power of two, `num_sets` integral and at least 1. -/
def LevelCfg.ok (g : LevelCfg) : Bool :=
  isPow2 g.lineSize && 1 ≤ g.associativity && g.size % (g.lineSize * g.associativity) = 0 &&
    1 ≤ g.size / (g.lineSize * g.associativity)

/-- A sink wiring of R8: a source id 1..N or none. -/
def sinkOk (n : Nat) : Option Nat → Bool
  | none => true
  | some id => 1 ≤ id && id ≤ n

/-- The first parameter that violates a legal value of R8, if any (R9). Bases whose device regions overlap are none: R8
makes them "any, subject to non-overlap", and the Overlap of R176 and R177 reports them when the second region is
registered (DESIGN CHOICE, log 20). -/
def Config.firstBad (c : Config) : Option BadParam :=
  if !(c.l1d.ok && c.l1i.ok && c.l2.ok && c.l3.ok) then some .cacheGeometry
  else if !(c.l1i.lineSize = c.l1d.lineSize && c.l2.lineSize = c.l1d.lineSize && c.l3.lineSize = c.l1d.lineSize) then
    some .lineSizes
  else if !(isPow2 c.pageSize) then some .pageSize
  else if c.tlbEntries = 0 then some .tlbEntries
  else if c.dramSize = 0 then some .dramSize
  else if c.prefetch.target = .l1i then some .prefetchTarget
  else if !(1 ≤ c.plic.sources && c.plic.sources ≤ 64) then some .plicSources
  else if !(1 ≤ c.plic.contexts && c.plic.contexts ≤ 8) then some .plicContexts
  else if !(1 ≤ c.clint.harts && c.clint.harts ≤ 4095) then some .clintHarts
  else if !(c.uarts.all (sinkOk c.plic.sources ·.sink) && c.timers.all (sinkOk c.plic.sources ·.sink) &&
      c.dmas.all (sinkOk c.plic.sources ·.sink)) then some .sinkSource
  else none

end Sys2Proof

namespace Sys2Proof.Machine

/-- Construction (R9, R503): the block, or BadConfig "and the block is not built". -/
def construct (c : Config) : Host.Outcome State Fault Refusal :=
  match c.firstBad with
  | some p => .fault (.badConfig p)
  | none => .next (.init c)

/-! ## Partial maps -/

/-- Order of natural keys. -/
def natLt (a b : Nat) : Bool := a < b

/-- Lexicographic order of pairs of natural keys. -/
def pairLt (a b : Nat × Nat) : Bool := a.1 < b.1 || (a.1 = b.1 && a.2 < b.2)

/-- The value a partial map holds at a key. -/
def Tab.get {κ α : Type} [DecidableEq κ] : List (κ × α) → κ → Option α
  | [], _ => none
  | (k, v) :: t, q => if k = q then some v else Tab.get t q

/-- The partial map with `v` at `q`; keys stay strictly rising in the order `lt`. -/
def Tab.set {κ α : Type} [DecidableEq κ] (lt : κ → κ → Bool) : List (κ × α) → κ → α → List (κ × α)
  | [], q, v => [(q, v)]
  | (k, w) :: t, q, v =>
    if k = q then (q, v) :: t
    else if lt q k then (q, v) :: (k, w) :: t
    else (k, w) :: Tab.set lt t q v

/-- The partial map without an entry at `q`. -/
def Tab.erase {κ α : Type} [DecidableEq κ] (t : List (κ × α)) (q : κ) : List (κ × α) :=
  t.filter (fun e => e.1 ≠ q)

/-- The set of naturals with `n` in it, kept strictly rising. -/
def insertNat (n : Nat) : List Nat → List Nat
  | [] => [n]
  | m :: t => if n < m then n :: m :: t else if n = m then m :: t else m :: insertNat n t

/-! ## Memory (R33) -/

/-- The canonical form: addresses strictly rising, no entry equal to what an unlisted address reads as. -/
abbrev Memory.wf (fill : Byte) (m : Memory) : Prop :=
  m.Pairwise (fun x y => x.1 < y.1) ∧ ∀ x ∈ m, x.2 ≠ fill

/-- `byte(o)`: the cell at an offset if it is listed, else the fill byte (R33). -/
def Memory.read (fill : Byte) : Memory → Nat → Byte
  | [], _ => fill
  | (k, b) :: m, a => if k = a then b else Memory.read fill m a

/-- `cells[a] <- b`, in canonical form: writing the fill byte removes the entry. -/
def Memory.write (fill : Byte) : Memory → Nat → Byte → Memory
  | [], a, b => if b = fill then [] else [(a, b)]
  | (k, c) :: m, a, b =>
    if a < k then (if b = fill then (k, c) :: m else (a, b) :: (k, c) :: m)
    else if a = k then (if b = fill then m else (a, b) :: m)
    else (k, c) :: Memory.write fill m a b

/-- The n bytes from an offset, in address order (R170). -/
def Memory.readBytes (fill : Byte) (m : Memory) (a n : Nat) : List Byte :=
  (List.range n).map (fun i => Memory.read fill m (a + i))

/-- The bytes written from an offset on, in address order (R171). -/
def Memory.writeBytes (fill : Byte) : Memory → Nat → List Byte → Memory
  | m, _, [] => m
  | m, a, b :: bs => Memory.writeBytes fill (Memory.write fill m a b) (a + 1) bs

/-! ## Taking a trap and returning from it -/

/-- Trap entry (R468): MPIE takes MIE, MIE is cleared, the cause is recorded; nothing else is saved and control is
transferred nowhere. -/
def Csr.trapEnter (c : Csr) (cause : Nat) (isInterrupt : Bool) : Csr :=
  { c with mpie := c.mie, mie := false, mcause := cause, mcauseIsInterrupt := isInterrupt }

/-- Return from a trap (R469): MIE takes MPIE, MPIE is set, the cause is cleared. -/
def Csr.trapReturn (c : Csr) : Csr :=
  { c with mie := c.mpie, mpie := true, mcause := 0, mcauseIsInterrupt := false }

/-- `trap_enter(cause, is_interrupt)` (R468). -/
def trapEnter (cause : Nat) (isInterrupt : Bool) : Op Unit :=
  modify fun s => { s with cpu := { s.cpu with csr := s.cpu.csr.trapEnter cause isInterrupt } }

/-- `mret()` (R469). -/
def trapReturn : Op Unit :=
  modify fun s => { s with cpu := { s.cpu with csr := s.cpu.csr.trapReturn } }

end Sys2Proof.Machine
end

