-- ==== Sys2Proof/Machine/Operands.lean ====
section
/-! DEFINITION. Operand forms: the integer packer (spec/00_scope.md R13), the halves and bits of a register
(spec/45_plic.md, 46_clint.md, 47_peripherals_dma.md), and the defaults of optional operands (spec/42_mmu.md R214, R218,
R221, R222; spec/43_cache.md R257; spec/44_cpu.md R313; spec/60_exceptions.md R468). -/

namespace Sys2Proof.Machine

/-! ## Integer packer (R13) -/

/-- `pack(v, n, signed)`: the n bytes of v reduced modulo 2^(8n), in the target's byte order. Both readings of
`signed` reduce to the same bytes (R315), so it is not an argument. -/
def pack (e : Endian) (v : Int) (n : Nat) : List Byte :=
  let bs := packLe (v % (2 ^ (8 * n) : Nat)).toNat n
  match e with
  | .little => bs
  | .big => bs.reverse

/-- `sext_N(u)`: the two's-complement reading of an N-bit value (R11). -/
def sext (bits u : Nat) : Int := if 2 * u < 2 ^ bits then u else (u : Int) - (2 ^ bits : Nat)

/-- `unpack(bs, signed)` (R13). -/
def unpack (e : Endian) (bs : List Byte) (signed : Bool) : Int :=
  let u := unpackLe (match e with
    | .little => bs
    | .big => bs.reverse)
  if signed then sext (8 * bs.length) u else u

/-! ## Parts of a register -/

/-- Bits 31..0 of a 64-bit register. -/
def lo32 (w : Word) : Word32 := w.extractLsb' 0 32

/-- Bits 63..32 of a 64-bit register. -/
def hi32 (w : Word) : Word32 := w.extractLsb' 32 32

/-- A 64-bit register with bits 31..0 written. -/
def setLo32 (w : Word) (v : Word32) : Word := hi32 w ++ v

/-- A 64-bit register with bits 63..32 written. -/
def setHi32 (w : Word) (v : Word32) : Word := v ++ lo32 w

/-- A 64-bit register with bit i written. -/
def setBit (w : Word) (i : Nat) (b : Bool) : Word :=
  if b then w ||| (1#64 <<< i) else w &&& ~~~(1#64 <<< i)

/-- Bits N..63 cleared: the bits of sources above N are hardwired to 0 (R51, R358). -/
def maskSources (n : Nat) (w : Word) : Word := w &&& BitVec.ofNat 64 (2 ^ n - 1)

/-- The word whose bit i is the i-th of `bs`; every other bit reads 0 (R151). -/
def ofBits : List Bool → Nat
  | [] => 0
  | b :: bs => (if b then 1 else 0) + 2 * ofBits bs

/-- A list with its i-th entry replaced by its image under `f`. -/
def updateAt {α : Type} (l : List α) (i : Nat) (f : α → α) : List α :=
  match l[i]? with
  | some a => l.set i (f a)
  | none => l

/-! ## Optional operands -/

/-- `default_perm` overridden by every field `perm` gives, with `cached` forced false on a device or write-combining
page whose `perm` does not give it (R214, R221), as the PTE of a newly mapped frame. -/
def newPte (frame : Nat) (perm : Option Perm) : Pte :=
  let p := perm.getD {}
  let memtype := p.memtype.getD .normal
  let cached := match p.cached with
    | some c => c
    | none => memtype = .normal
  { frame := frame
    present := p.present.getD true
    writable := p.writable.getD true
    executable := p.executable.getD true
    user := p.user.getD false
    cached := cached
    memtype := memtype
    dirty := false
    accessed := false }

/-- The PTE with every field `attrs` gives, and `cached` forced false when `attrs` gives a device or write-combining
memory type and does not give `cached` (R218). -/
def setAttrs (a : Attrs) (p : Pte) : Pte :=
  let cached := match a.cached, a.memtype with
    | some c, _ => c
    | none, some .device => false
    | none, some .wc => false
    | none, _ => p.cached
  { p with
    present := a.present.getD p.present
    writable := a.writable.getD p.writable
    executable := a.executable.getD p.executable
    user := a.user.getD p.user
    cached := cached
    memtype := a.memtype.getD p.memtype
    dirty := a.dirty.getD p.dirty
    accessed := a.accessed.getD p.accessed }

/-- An omitted `asid` means the current one (R222). -/
def asidOr (asid : Option Nat) (s : State) : Nat := asid.getD s.mmu.currentAsid

/-- An omitted `which` means l1d (R257). -/
def sideOr (which : Option Side) : Side := which.getD .l1d

/-- An omitted `size` of `fetch` means 4 (R313). -/
def sizeOr (size : Option Nat) : Nat := size.getD 4

/-- An omitted `is_interrupt` means true (R468). -/
def interruptOr (isInterrupt : Option Bool) : Bool := isInterrupt.getD true

/-- `xlen / 8` (R310). -/
def xlenBytes : XLen → Nat
  | .x32 => 4
  | .x64 => 8

end Sys2Proof.Machine
end

