-- ==== Sys2Proof/Machine/Flags.lean ====
section
/-! DEFINITION. The conditions and statistics the block computes: the PLIC's claim search (spec/45_plic.md R353), the
CLINT's MTIP (spec/46_clint.md R396), the devices' interrupt conditions (spec/47_peripherals_dma.md R417, R423, R435), the
interrupt an enabled CPU takes (spec/60_exceptions.md R467), `hit_rate` (spec/10_state.md R44), and the counters of the bus
and the cache (R184, R272). -/

namespace Sys2Proof.Machine

/-! ## PLIC -/

/-- `priority[id]` (R51). -/
def Plic.prio (p : Plic) (id : Nat) : Nat := (p.priority.getD (id - 1) 0).toNat

/-- The candidates of the claim search for context c, in rising id: enabled, pending, priority above 0 and above the
context's threshold (R353). -/
def Plic.candidates (n : Nat) (p : Plic) (c : Nat) : List Nat :=
  (List.range' 1 n).filter fun id =>
    (p.enable.getD c 0).getLsbD (id - 1) && p.pending.getLsbD (id - 1) && 0 < p.prio id &&
      (p.threshold.getD c 0).toNat < p.prio id

/-- The highest of some priorities. -/
def Plic.maxPrio (p : Plic) (ids : List Nat) : Nat := ids.foldr (fun id m => max (p.prio id) m) 0

/-- `best(c)`: the lowest id among the candidates of the highest priority; 0 when there is none (R353). -/
def Plic.best (n : Nat) (p : Plic) (c : Nat) : Nat :=
  let ids := p.candidates n c
  (ids.find? (fun id => p.prio id = p.maxPrio ids)).getD 0

/-! ## CLINT -/

/-- `msip` of hart h (R396). -/
def Clint.msipLevel (k : Clint) (h : Nat) : Bool := k.msip.getD h false

/-- `mtip` of hart h: the compare is non-zero and the time has reached it, unsigned (R396). -/
def Clint.mtipLevel (k : Clint) (h : Nat) : Bool :=
  (k.mtimecmp.getD h 0) ≠ 0 && (k.mtimecmp.getD h 0).toNat ≤ k.mtime.toNat

/-! ## Device interrupt conditions -/

/-- `RX_EN = 1 and rx_fifo non-empty` (R417). -/
def Uart.irqCond (u : Uart) : Bool := u.rxEn && !u.rxFifo.isEmpty

/-- `CTRL.irq_enable = 1 and pending = 1` (R423). -/
def Timer.irqCond (t : Timer) : Bool := t.irqEnable && t.pending

/-- `IRQ_EN = 1 and (DONE = 1 or ERR = 1)` (R435). -/
def Dma.irqCond (d : Dma) : Bool := d.irqEn && (d.done || d.err)

/-! ## Interrupts of the CPU -/

/-- The cause an enabled, pending interrupt has, external before timer before software (R465, R467). -/
def Csr.interruptCause (c : Csr) : Option Nat :=
  if !c.mie then none
  else if c.meie && c.meip then some 11
  else if c.mtie && c.mtip then some 7
  else if c.msie && c.msip then some 3
  else none

/-! ## Statistics -/

/-- `hit_rate = hits / (hits + misses)` when that is defined (R44, R271). -/
def CacheStats.hitRate (s : CacheStats) : Option Rat :=
  if s.hits + s.misses = 0 then none else some (mkRat s.hits (s.hits + s.misses))

/-- One more read transfer (R182). -/
def countRead : Op Unit := modify fun s => { s with bus := { s.bus with reads := s.bus.reads + 1 } }

/-- One more write transfer (R183). -/
def countWrite : Op Unit := modify fun s => { s with bus := { s.bus with writes := s.bus.writes + 1 } }

/-- Runs one chunk of a transfer; an error of it counts one bus fault (R182, R183: "faults++; raise e"). -/
def countFault {α : Type} (m : Op α) : Op α := fun s =>
  match m s with
  | .ok a t => .ok a t
  | .error (.err e) t => .error (.err e) { t with bus := { t.bus with faults := t.bus.faults + 1 } }
  | .error (.refuse r) t => .error (.refuse r) t

/-- A completed read chunk: its trace entry and its bytes in `read_bytes` (R182). -/
def recordRead (a : Nat) (bs : List Byte) : Op Unit := modify fun s =>
  { s with bus := { s.bus with
      trace := s.bus.trace ++ [{ dir := .R, pa := a, bytes := bs }]
      readBytes := s.bus.readBytes + bs.length } }

/-- A completed write chunk: its trace entry and its bytes in `write_bytes` (R183). -/
def recordWrite (a : Nat) (bs : List Byte) : Op Unit := modify fun s =>
  { s with bus := { s.bus with
      trace := s.bus.trace ++ [{ dir := .W, pa := a, bytes := bs }]
      writeBytes := s.bus.writeBytes + bs.length } }

/-- A level of the cache (R250). -/
def Cache.level (c : Cache) : Level → LevelState
  | .l1d => c.l1d
  | .l1i => c.l1i
  | .l2 => c.l2
  | .l3 => c.l3

/-- The cache with a level replaced (R250). -/
def Cache.setLevel (c : Cache) (l : Level) (x : LevelState) : Cache :=
  match l with
  | .l1d => { c with l1d := x }
  | .l1i => { c with l1i := x }
  | .l2 => { c with l2 := x }
  | .l3 => { c with l3 := x }

/-- The statistics of a level moved by `f` (R272). -/
def countAt (l : Level) (f : CacheStats → CacheStats) : Op Unit := modify fun s =>
  { s with cache := s.cache.setLevel l { s.cache.level l with stats := f (s.cache.level l).stats } }

/-- `hits <- hits + 1` (R252). -/
def CacheStats.hit (s : CacheStats) : CacheStats := { s with hits := s.hits + 1 }

/-- `misses <- misses + 1` (R252). -/
def CacheStats.miss (s : CacheStats) : CacheStats := { s with misses := s.misses + 1 }

/-- `fills <- fills + 1` (R254). -/
def CacheStats.fill (s : CacheStats) : CacheStats := { s with fills := s.fills + 1 }

/-- `evictions <- evictions + 1` (R260, R264, R268). -/
def CacheStats.evict (s : CacheStats) : CacheStats := { s with evictions := s.evictions + 1 }

/-- `writebacks <- writebacks + 1` (R264, R266, R268). -/
def CacheStats.writeback (s : CacheStats) : CacheStats := { s with writebacks := s.writebacks + 1 }

/-- `prefetches <- prefetches + 1` (R259). -/
def CacheStats.prefetched (s : CacheStats) : CacheStats := { s with prefetches := s.prefetches + 1 }

end Sys2Proof.Machine
end

