-- ==== Sys2Proof/Machine/Clint.lean ====
section
/-! DEFINITION. The CLINT (spec/46_clint.md): its registers, its time and its levels, and the meanings of its commands and
register accesses. -/

namespace Sys2Proof.Machine

/-! ## Shared operations -/

/-- A change of the CLINT's state. -/
def modifyClint (f : Clint → Clint) : Op Unit := modify fun s => { s with clint := f s.clint }

/-- The bytes of a part of a 64-bit register (R393). -/
def partBytes (p : Part) (w : Word) : List Byte :=
  match p with
  | .full => packLe w.toNat 8
  | .lo => packLe (lo32 w).toNat 4
  | .hi => packLe (hi32 w).toNat 4

/-- A 64-bit register with the part an access takes written; a half write leaves the other half (R393). The value is
the access's data, as wide as the part. -/
def setPart (p : Part) (w v : Word) : Word :=
  match p with
  | .full => v
  | .lo => setLo32 w (lo32 v)
  | .hi => setHi32 w (lo32 v)

/-- A read of a CLINT register (R392 to R394). -/
def clintRead (r : ClintReg) : Op (List Byte) := do
  let s ← get
  match r with
  | .msip h =>
    if h < s.cfg.clint.harts then return packLe (if s.clint.msipLevel h then 1 else 0) 4 else refuse .noRegister
  | .mtimecmp h p =>
    if h < s.cfg.clint.harts then return partBytes p (s.clint.mtimecmp.getD h 0) else refuse .noRegister
  | .mtime p => return partBytes p s.clint.mtime

/-- A write of a CLINT register (R392 to R394); MSIP takes bit 0 of the value. -/
def clintWrite (r : ClintReg) (v : Word) : Op Unit := do
  let s ← get
  match r with
  | .msip h =>
    if h < s.cfg.clint.harts then modifyClint fun k => { k with msip := k.msip.set h (v.getLsbD 0) }
    else refuse .noRegister
  | .mtimecmp h p =>
    if h < s.cfg.clint.harts then
      modifyClint fun k => { k with mtimecmp := updateAt k.mtimecmp h (fun w => setPart p w v) }
    else refuse .noRegister
  | .mtime p => modifyClint fun k => { k with mtime := setPart p k.mtime v }

/-- `CLINT.get_irq_levels(h)` (R396). -/
def clintIrqLevels (h : Nat) : Op (Bool × Bool) := do
  let s ← get
  if h < s.cfg.clint.harts then return (s.clint.msipLevel h, s.clint.mtipLevel h) else refuse .clintHart

/-- A register read as a call of its own. -/
def opClintRead (r : ClintReg) : Op Value := do
  return .bytes (← clintRead r)

/-- A register write as a call of its own. -/
def opClintWrite (r : ClintReg) (v : Word) : Op Value := do
  clintWrite r v
  return .unit

/-! ## Commands -/

/-- `CLINT.advance(n)` (R395): the time moves by tick·n, modulo 2^64. -/
def opClintAdvance (n : Nat) : Op Value := do
  let s ← get
  modifyClint fun k => { k with mtime := BitVec.ofNat 64 (k.mtime.toNat + s.cfg.clint.tick * n) }
  return .unit

/-- CLINT.ADVANCE (R395). -/
def execClintAdvance (n : Nat) (s : State) : Host.Outcome State Fault Refusal := finish (opClintAdvance n) s

/-- `CLINT.get_irq_levels(h)` (R396). -/
def opClintGetIrqLevels (h : Nat) : Op Value := do
  let l ← clintIrqLevels h
  return .levels l.1 l.2

/-- CLINT.GET_IRQ_LEVELS (R396). -/
def execClintGetIrqLevels (h : Nat) (s : State) : Host.Outcome State Fault Refusal := finish (opClintGetIrqLevels h) s

/-! ## Register accesses -/

/-- CLINT.MSIP read (R392). -/
def execClintMsipR (h : Nat) (s : State) : Host.Outcome State Fault Refusal :=
  finish (opClintRead (.msip h)) s

/-- CLINT.MSIP write (R392). -/
def execClintMsipW (h : Nat) (v : Word32) (s : State) : Host.Outcome State Fault Refusal :=
  finish (opClintWrite (.msip h) (v.setWidth 64)) s

/-- CLINT.MTIMECMP read (R393). -/
def execClintMtimecmpR (h : Nat) (s : State) : Host.Outcome State Fault Refusal :=
  finish (opClintRead (.mtimecmp h .full)) s

/-- CLINT.MTIMECMP_LO read (R393). -/
def execClintMtimecmpLoR (h : Nat) (s : State) : Host.Outcome State Fault Refusal :=
  finish (opClintRead (.mtimecmp h .lo)) s

/-- CLINT.MTIMECMP_HI read (R393). -/
def execClintMtimecmpHiR (h : Nat) (s : State) : Host.Outcome State Fault Refusal :=
  finish (opClintRead (.mtimecmp h .hi)) s

/-- CLINT.MTIMECMP write (R393). -/
def execClintMtimecmpW (h : Nat) (v : Word) (s : State) : Host.Outcome State Fault Refusal :=
  finish (opClintWrite (.mtimecmp h .full) v) s

/-- CLINT.MTIMECMP_LO write (R393). -/
def execClintMtimecmpLoW (h : Nat) (v : Word32) (s : State) : Host.Outcome State Fault Refusal :=
  finish (opClintWrite (.mtimecmp h .lo) (v.setWidth 64)) s

/-- CLINT.MTIMECMP_HI write (R393). -/
def execClintMtimecmpHiW (h : Nat) (v : Word32) (s : State) : Host.Outcome State Fault Refusal :=
  finish (opClintWrite (.mtimecmp h .hi) (v.setWidth 64)) s

/-- CLINT.MTIME read (R394). -/
def execClintMtimeR (s : State) : Host.Outcome State Fault Refusal :=
  finish (opClintRead (.mtime .full)) s

/-- CLINT.MTIME_LO read (R394). -/
def execClintMtimeLoR (s : State) : Host.Outcome State Fault Refusal :=
  finish (opClintRead (.mtime .lo)) s

/-- CLINT.MTIME_HI read (R394). -/
def execClintMtimeHiR (s : State) : Host.Outcome State Fault Refusal :=
  finish (opClintRead (.mtime .hi)) s

/-- CLINT.MTIME write (R394). -/
def execClintMtimeW (v : Word) (s : State) : Host.Outcome State Fault Refusal :=
  finish (opClintWrite (.mtime .full) v) s

/-- CLINT.MTIME_LO write (R394). -/
def execClintMtimeLoW (v : Word32) (s : State) : Host.Outcome State Fault Refusal :=
  finish (opClintWrite (.mtime .lo) (v.setWidth 64)) s

/-- CLINT.MTIME_HI write (R394). -/
def execClintMtimeHiW (v : Word32) (s : State) : Host.Outcome State Fault Refusal :=
  finish (opClintWrite (.mtime .hi) (v.setWidth 64)) s

end Sys2Proof.Machine
end

