-- ==== Sys2Proof/Machine/Dram.lean ====
section
/-! DEFINITION. DRAM (spec/41_dram_bus.md section 1): its bounds check, its bytes, and the meanings of its commands. -/

namespace Sys2Proof.Machine

/-! ## Shared operations -/

/-- A change of the DRAM's cells. -/
def modifyCells (f : Memory → Memory) : Op Unit :=
  modify fun s => { s with dram := { s.dram with cells := f s.dram.cells } }

/-- "every access is bounds-checked against size; a violation fails with AccessViolation and increments a fault
counter" (R170): the range from `addr` of n bytes. -/
def dramBounds (addr n : Nat) : Op Unit := do
  let s ← get
  if s.cfg.dramSize < addr + n then
    modify fun s => { s with dram := { s.dram with faultCount := s.dram.faultCount + 1 } }
    raise (.accessViolation addr n)

/-- `DRAM.read_bytes(addr, n)` (R170). -/
def dramRead (addr n : Nat) : Op (List Byte) := do
  dramBounds addr n
  let s ← get
  return Memory.readBytes s.cfg.fillByte s.dram.cells addr n

/-- `DRAM.write_bytes(addr, bs)` (R171). -/
def dramWrite (addr : Nat) (bs : List Byte) : Op Unit := do
  dramBounds addr bs.length
  let s ← get
  modifyCells fun m => Memory.writeBytes s.cfg.fillByte m addr bs

/-- The cells after copying n bytes in ascending order (R173). -/
def copyUp (fill : Byte) (dest src : Nat) : Nat → Nat → Memory → Memory
  | 0, _, m => m
  | n + 1, i, m => copyUp fill dest src n (i + 1) (Memory.write fill m (dest + i) (Memory.read fill m (src + i)))

/-- The cells after copying n bytes in descending order (R173). -/
def copyDown (fill : Byte) (dest src : Nat) : Nat → Memory → Memory
  | 0, m => m
  | n + 1, m => copyDown fill dest src n (Memory.write fill m (dest + n) (Memory.read fill m (src + n)))

/-! ## Commands -/

/-- `DRAM.read_bytes(addr, n)` (R170), whose addr is a natural where R144 makes every addr a u64 (log 21). -/
def opDramReadBytes (addr n : Nat) : Op Value := do
  return .bytes (← dramRead addr n)

/-- DRAM.READ_BYTES (R170). -/
def execDramReadBytes (addr n : Nat) (s : State) : Host.Outcome State Fault Refusal := finish (opDramReadBytes addr n) s

/-- `DRAM.write_bytes(addr, bs)` (R171). -/
def opDramWriteBytes (addr : Word) (bs : List Byte) : Op Value := do
  dramWrite addr.toNat bs
  return .unit

/-- DRAM.WRITE_BYTES (R171). -/
def execDramWriteBytes (addr : Word) (bs : List Byte) (s : State) : Host.Outcome State Fault Refusal :=
  finish (opDramWriteBytes addr bs) s

/-- `DRAM.fill(addr, n, v)` (R172). -/
def opDramFill (addr : Word) (n : Nat) (v : Byte) : Op Value := do
  dramBounds addr.toNat n
  let s ← get
  modifyCells fun m => Memory.writeBytes s.cfg.fillByte m addr.toNat (List.replicate n v)
  return .unit

/-- DRAM.FILL (R172). -/
def execDramFill (addr : Word) (n : Nat) (v : Byte) (s : State) : Host.Outcome State Fault Refusal := finish (opDramFill addr n v) s

/-- `DRAM.copy(dest, src, n)`: "overlap-safe: if dest < src copy ascending, else descending" (R173). The range the error
records is the source's if that one is out of bounds, else the destination's (log 10). -/
def opDramCopy (dest src n : Nat) : Op Value := do
  let s ← get
  if s.cfg.dramSize < src + n then dramBounds src n else dramBounds dest n
  if dest < src then modifyCells (copyUp s.cfg.fillByte dest src n 0)
  else modifyCells (copyDown s.cfg.fillByte dest src n)
  return .unit

/-- DRAM.COPY (R173). -/
def execDramCopy (dest src n : Nat) (s : State) : Host.Outcome State Fault Refusal := finish (opDramCopy dest src n) s

/-- `DRAM.peek(addr)`: "return read_bytes(addr, 1)[0]" (R174). -/
def opDramPeek (addr : Word) : Op Value := do
  return .byte ((← dramRead addr.toNat 1).headD 0)

/-- DRAM.PEEK (R174). -/
def execDramPeek (addr : Word) (s : State) : Host.Outcome State Fault Refusal := finish (opDramPeek addr) s

/-- `DRAM.load_image(addr, bs)`: `write_bytes(addr, bs)` (R175). -/
def opDramLoadImage (addr : Word) (bs : List Byte) : Op Value := do
  dramWrite addr.toNat bs
  return .unit

/-- DRAM.LOAD_IMAGE (R175). -/
def execDramLoadImage (addr : Word) (bs : List Byte) (s : State) : Host.Outcome State Fault Refusal :=
  finish (opDramLoadImage addr bs) s

end Sys2Proof.Machine
end

