-- ==== Sys2Proof/Machine/Rom.lean ====
section
/-! DEFINITION. The ROM (spec/47_peripherals_dma.md section 4) and the meanings of its accesses. -/

namespace Sys2Proof.Machine

/-! ## Shared operations -/

/-- ROM k, or a refusal where the platform has none. -/
def getRom (k : Nat) : Op Rom := do
  let s ← get
  need s.roms[k]? .noSuchDevice

/-- `read(off, k)`: the bytes of the contents, no side effect (R450). -/
def romRead (k off width : Nat) : Op (List Byte) := do
  let m ← getRom k
  if off + width ≤ m.contents.length then return (m.contents.drop off).take width else refuse .romRange

/-- `write(off, bs)`: ReadOnly when strict, else the bytes are dropped (R451). -/
def romWrite (k off : Nat) (bs : List Byte) : Op Unit := do
  let m ← getRom k
  let s ← get
  if off + bs.length ≤ m.contents.length then
    match s.cfg.roms[k]? with
    | some c => if c.strict then raise (.readOnly (c.base.toNat + off)) else pure ()
    | none => refuse .noSuchDevice
  else refuse .romRange

/-! ## Accesses -/

/-- A ROM read as a call of its own. -/
def opRomRead (k : Nat) (off : Word) (width : Nat) : Op Value := do
  return .bytes (← romRead k off.toNat width)

/-- ROM.READ (R450). -/
def execRomRead (k : Nat) (off : Word) (width : Nat) (s : State) : Host.Outcome State Fault Refusal :=
  finish (opRomRead k off width) s

/-- A ROM write as a call of its own. -/
def opRomWrite (k : Nat) (off : Word) (bs : List Byte) : Op Value := do
  romWrite k off.toNat bs
  return .unit

/-- ROM.WRITE (R451). -/
def execRomWrite (k : Nat) (off : Word) (bs : List Byte) (s : State) : Host.Outcome State Fault Refusal :=
  finish (opRomWrite k off bs) s

end Sys2Proof.Machine
end

