-- ==== Sys2Proof/Machine/Plic.lean ====
section
/-! DEFINITION. The PLIC-style interrupt controller (spec/45_plic.md): its lines, its registers and the meanings of its
commands and register accesses. -/

namespace Sys2Proof.Machine

/-! ## Shared operations -/

/-- A change of the PLIC's state. -/
def modifyPlic (f : Plic → Plic) : Op Unit := modify fun s => { s with plic := f s.plic }

/-- The PLIC after `raise(id)` (R362): level mode makes the source pending; latched mode does so on a low to high
transition only. -/
def Plic.raised (mode : PlicMode) (p : Plic) (id : Nat) : Plic :=
  match mode with
  | .level => { p with lineHigh := p.lineHigh.set (id - 1) true, pending := setBit p.pending (id - 1) true }
  | .latched =>
    { p with
      lineHigh := p.lineHigh.set (id - 1) true
      pending := if p.lineHigh.getD (id - 1) false then p.pending else setBit p.pending (id - 1) true }

/-- The PLIC after `lower(id)` (R363): level mode clears pending, latched mode "only clears line_high". -/
def Plic.lowered (mode : PlicMode) (p : Plic) (id : Nat) : Plic :=
  match mode with
  | .level => { p with lineHigh := p.lineHigh.set (id - 1) false, pending := setBit p.pending (id - 1) false }
  | .latched => { p with lineHigh := p.lineHigh.set (id - 1) false }

/-- Whether a source id is in 1..N. -/
def Config.sourceOk (c : Config) (id : Nat) : Bool := 1 ≤ id && id ≤ c.plic.sources

/-- `PLIC.raise(id)` (R362). -/
def plicRaise (id : Nat) : Op Unit := do
  let s ← get
  if Config.sourceOk s.cfg id then modifyPlic (·.raised s.cfg.plic.mode id) else refuse .plicSourceId

/-- `PLIC.lower(id)` (R363). -/
def plicLower (id : Nat) : Op Unit := do
  let s ← get
  if Config.sourceOk s.cfg id then modifyPlic (·.lowered s.cfg.plic.mode id) else refuse .plicSourceId

/-- `PLIC.get_context_irq(c)` (R365). -/
def plicContextIrq (c : Nat) : Op Bool := do
  let s ← get
  if c < s.cfg.plic.contexts then return s.plic.best s.cfg.plic.sources c ≠ 0 else refuse .plicContext

/-- A read of a PLIC register (R355, R356, R358 to R360): its four bytes. A CLAIM read in latched mode clears the
claimed source's pending bit. -/
def plicRead (r : PlicReg) : Op (List Byte) := do
  let s ← get
  let n := s.cfg.plic.sources
  let inContexts (c : Nat) (v : Word32) : Op (List Byte) :=
    if c < s.cfg.plic.contexts then return packLe v.toNat 4 else refuse .noRegister
  match r with
  | .prio id => if Config.sourceOk s.cfg id then return packLe (s.plic.prio id) 4 else refuse .noRegister
  | .pendLo => return packLe (lo32 s.plic.pending).toNat 4
  | .pendHi => return packLe (hi32 s.plic.pending).toNat 4
  | .enableLo c => inContexts c (lo32 (s.plic.enable.getD c 0))
  | .enableHi c => inContexts c (hi32 (s.plic.enable.getD c 0))
  | .threshold c => inContexts c (s.plic.threshold.getD c 0)
  | .claim c =>
    if c < s.cfg.plic.contexts then
      let id := s.plic.best n c
      if s.cfg.plic.mode = .latched ∧ id ≠ 0 then
        modifyPlic fun p => { p with pending := setBit p.pending (id - 1) false }
      return packLe id 4
    else refuse .noRegister

/-- The PLIC after a write of id `v` to a COMPLETE register (R361): in latched mode a source 1..N is pending again if its
line is high; in level mode nothing changes. -/
def Plic.completed (cfg : PlicCfg) (p : Plic) (id : Nat) : Plic :=
  if 1 ≤ id ∧ id ≤ cfg.sources ∧ cfg.mode = .latched then
    { p with pending := setBit p.pending (id - 1) (p.lineHigh.getD (id - 1) false) }
  else p

/-- A write of a PLIC register (R355, R358, R359, R361); the pending registers take none (R357). -/
def plicWrite (r : PlicReg) (v : Word32) : Op Unit := do
  let s ← get
  let n := s.cfg.plic.sources
  let inContexts (c : Nat) (f : Plic → Plic) : Op Unit :=
    if c < s.cfg.plic.contexts then modifyPlic f else refuse .noRegister
  match r with
  | .prio id =>
    if Config.sourceOk s.cfg id then modifyPlic fun p => { p with priority := p.priority.set (id - 1) v }
    else refuse .noRegister
  | .pendLo => refuse .noRegister
  | .pendHi => refuse .noRegister
  | .enableLo c => inContexts c fun p =>
      { p with enable := updateAt p.enable c (fun w => maskSources n (setLo32 w v)) }
  | .enableHi c => inContexts c fun p =>
      { p with enable := updateAt p.enable c (fun w => maskSources n (setHi32 w v)) }
  | .threshold c => inContexts c fun p => { p with threshold := p.threshold.set c v }
  | .claim c => inContexts c (·.completed s.cfg.plic v.toNat)

/-- A register access in a layout's format selects a register of a PLIC of that layout only (R142). -/
def wantLayout (l : Layout) : Op Unit := do
  let s ← get
  if s.cfg.plic.layout = l then pure () else refuse .otherLayout

/-- A register read as a call of its own: the bytes it returns. -/
def opPlicRead (l : Layout) (r : PlicReg) : Op Value := do
  wantLayout l
  return .bytes (← plicRead r)

/-- A register write as a call of its own. -/
def opPlicWrite (l : Layout) (r : PlicReg) (v : Word32) : Op Value := do
  wantLayout l
  plicWrite r v
  return .unit

/-! ## Commands -/

/-- `PLIC.raise(id)` (R362). -/
def opPlicRaise (id : Nat) : Op Value := do
  plicRaise id
  return .unit

/-- PLIC.RAISE (R362). -/
def execPlicRaise (id : Nat) (s : State) : Host.Outcome State Fault Refusal := finish (opPlicRaise id) s

/-- `PLIC.lower(id)` (R363). -/
def opPlicLower (id : Nat) : Op Value := do
  plicLower id
  return .unit

/-- PLIC.LOWER (R363). -/
def execPlicLower (id : Nat) (s : State) : Host.Outcome State Fault Refusal := finish (opPlicLower id) s

/-- `PLIC.get_context_irq(c)` (R365). -/
def opPlicGetContextIrq (c : Nat) : Op Value := do
  return .bool (← plicContextIrq c)

/-- PLIC.GET_CONTEXT_IRQ (R365). -/
def execPlicGetContextIrq (c : Nat) (s : State) : Host.Outcome State Fault Refusal := finish (opPlicGetContextIrq c) s

/-! ## Register accesses -/

/-- PLIC.PRIO read (R355). -/
def execPlicPrioR (l : Layout) (id : Nat) (s : State) : Host.Outcome State Fault Refusal :=
  finish (opPlicRead l (.prio id)) s

/-- PLIC.PRIO write (R355). -/
def execPlicPrioW (l : Layout) (id : Nat) (v : Word32) (s : State) : Host.Outcome State Fault Refusal :=
  finish (opPlicWrite l (.prio id) v) s

/-- PLIC.PEND_LO read (R356). -/
def execPlicPendLoR (l : Layout) (s : State) : Host.Outcome State Fault Refusal :=
  finish (opPlicRead l .pendLo) s

/-- PLIC.PEND_HI read (R356). -/
def execPlicPendHiR (l : Layout) (s : State) : Host.Outcome State Fault Refusal :=
  finish (opPlicRead l .pendHi) s

/-- PLIC.ENABLE_LO read (R358). -/
def execPlicEnableLoR (l : Layout) (c : Nat) (s : State) : Host.Outcome State Fault Refusal :=
  finish (opPlicRead l (.enableLo c)) s

/-- PLIC.ENABLE_LO write (R358). -/
def execPlicEnableLoW (l : Layout) (c : Nat) (v : Word32) (s : State) : Host.Outcome State Fault Refusal :=
  finish (opPlicWrite l (.enableLo c) v) s

/-- PLIC.ENABLE_HI read (R358). -/
def execPlicEnableHiR (l : Layout) (c : Nat) (s : State) : Host.Outcome State Fault Refusal :=
  finish (opPlicRead l (.enableHi c)) s

/-- PLIC.ENABLE_HI write (R358). -/
def execPlicEnableHiW (l : Layout) (c : Nat) (v : Word32) (s : State) : Host.Outcome State Fault Refusal :=
  finish (opPlicWrite l (.enableHi c) v) s

/-- PLIC.THRESHOLD read (R359). -/
def execPlicThresholdR (l : Layout) (c : Nat) (s : State) : Host.Outcome State Fault Refusal :=
  finish (opPlicRead l (.threshold c)) s

/-- PLIC.THRESHOLD write (R359). -/
def execPlicThresholdW (l : Layout) (c : Nat) (v : Word32) (s : State) : Host.Outcome State Fault Refusal :=
  finish (opPlicWrite l (.threshold c) v) s

/-- PLIC.CLAIM read (R360). -/
def execPlicClaimR (l : Layout) (c : Nat) (s : State) : Host.Outcome State Fault Refusal :=
  finish (opPlicRead l (.claim c)) s

/-- PLIC.COMPLETE write (R361). -/
def execPlicCompleteW (l : Layout) (c : Nat) (v : Word32) (s : State) : Host.Outcome State Fault Refusal :=
  finish (opPlicWrite l (.claim c) v) s

end Sys2Proof.Machine
end

