-- ==== Sys2Proof/Machine/Uart.lean ====
section
/-! DEFINITION. The UART (spec/47_peripherals_dma.md section 1), the interrupt sinks of the devices (R455), and the meanings
of the UART's command and register accesses. -/

namespace Sys2Proof.Machine

/-! ## Interrupt sinks -/

/-- A device's output went to `level`: with a sink wired, its PLIC source is raised or lowered (R368, R455). -/
def driveSink (sink : Option Nat) (level : Bool) : Op Unit :=
  match sink with
  | none => pure ()
  | some id => if level then plicRaise id else plicLower id

/-! ## Shared operations -/

/-- UART k, or a refusal where the platform has none. -/
def getUart (k : Nat) : Op Uart := do
  let s ← get
  need s.uarts[k]? .noSuchDevice

/-- A change of UART k. -/
def modifyUart (k : Nat) (f : Uart → Uart) : Op Unit :=
  modify fun s => { s with uarts := updateAt s.uarts k f }

/-- The sink UART k is wired to (R8). -/
def Config.uartSink (c : Config) (k : Nat) : Option Nat := (c.uarts[k]?).bind (·.sink)

/-- UART k's output follows its condition, and its sink the output (R417, R455). -/
def updateUartIrq (k : Nat) : Op Unit := do
  let u ← getUart k
  let s ← get
  if u.irqCond ≠ u.irqOut then
    modifyUart k fun u => { u with irqOut := u.irqCond }
    driveSink (Config.uartSink s.cfg k) u.irqCond

/-- A read of a UART register (R412, R414, R415): DATA pops a byte, or reads 0 when the FIFO is empty. -/
def uartRead (k : Nat) (r : UartReg) : Op (List Byte) := do
  let u ← getUart k
  match r with
  | .data =>
    modifyUart k fun u => { u with rxFifo := u.rxFifo.tail }
    updateUartIrq k
    return [u.rxFifo.headD 0]
  | .status => return packLe (ofBits [true, !u.rxFifo.isEmpty]) 4
  | .ctrl => return packLe (ofBits [u.rxEn]) 4

/-- A write of a UART register (R413, R415): DATA transmits bits 7..0 of the value, CTRL takes bit 0; STATUS takes
none (R414). -/
def uartWrite (k : Nat) (r : UartReg) (v : Word32) : Op Unit := do
  let _ ← getUart k
  match r with
  | .data => modifyUart k fun u => { u with tx := u.tx ++ [v.setWidth 8] }
  | .status => refuse .noRegister
  | .ctrl =>
    modifyUart k fun u => { u with rxEn := v.getLsbD 0 }
    updateUartIrq k

/-- A register read as a call of its own. -/
def opUartRead (k : Nat) (r : UartReg) : Op Value := do
  return .bytes (← uartRead k r)

/-- A register write as a call of its own. -/
def opUartWrite (k : Nat) (r : UartReg) (v : Word32) : Op Value := do
  uartWrite k r v
  return .unit

/-! ## Command -/

/-- `UART.push_rx(b)` (R416). -/
def opUartPushRx (k : Nat) (b : Byte) : Op Value := do
  let _ ← getUart k
  modifyUart k fun u => { u with rxFifo := u.rxFifo ++ [b] }
  updateUartIrq k
  return .unit

/-- UART.PUSH_RX (R416). -/
def execUartPushRx (k : Nat) (b : Byte) (s : State) : Host.Outcome State Fault Refusal := finish (opUartPushRx k b) s

/-! ## Register accesses -/

/-- UART.DATA read (R412). -/
def execUartDataR (k : Nat) (s : State) : Host.Outcome State Fault Refusal := finish (opUartRead k .data) s

/-- UART.DATA write (R413). -/
def execUartDataW (k : Nat) (b : Byte) (s : State) : Host.Outcome State Fault Refusal :=
  finish (opUartWrite k .data (b.setWidth 32)) s

/-- UART.STATUS read (R414). -/
def execUartStatusR (k : Nat) (s : State) : Host.Outcome State Fault Refusal := finish (opUartRead k .status) s

/-- UART.CTRL read (R415). -/
def execUartCtrlR (k : Nat) (s : State) : Host.Outcome State Fault Refusal := finish (opUartRead k .ctrl) s

/-- UART.CTRL write (R415). -/
def execUartCtrlW (k : Nat) (v : Word32) (s : State) : Host.Outcome State Fault Refusal :=
  finish (opUartWrite k .ctrl v) s

end Sys2Proof.Machine
end

