-- ==== Sys2Proof/Machine/Timer.lean ====
section
/-! DEFINITION. The timer (spec/47_peripherals_dma.md section 2) and the meanings of its command and register accesses. -/

namespace Sys2Proof.Machine

/-! ## Shared operations -/

/-- Timer k, or a refusal where the platform has none. -/
def getTimer (k : Nat) : Op Timer := do
  let s ← get
  need s.timers[k]? .noSuchDevice

/-- A change of timer k. -/
def modifyTimer (k : Nat) (f : Timer → Timer) : Op Unit :=
  modify fun s => { s with timers := updateAt s.timers k f }

/-- The sink timer k is wired to (R8). -/
def Config.timerSink (c : Config) (k : Nat) : Option Nat := (c.timers[k]?).bind (·.sink)

/-- Timer k's output follows its condition, and its sink the output (R423, R455). -/
def updateTimerIrq (k : Nat) : Op Unit := do
  let t ← getTimer k
  let s ← get
  if t.irqCond ≠ t.irqOut then
    modifyTimer k fun t => { t with irqOut := t.irqCond }
    driveSink (Config.timerSink s.cfg k) t.irqCond

/-- The value a timer register reads as (R420). -/
def Timer.value (t : Timer) : TimerReg → Nat
  | .cntLo => (lo32 t.cnt).toNat
  | .cntHi => (hi32 t.cnt).toNat
  | .cmpLo => (lo32 t.cmp).toNat
  | .cmpHi => (hi32 t.cmp).toNat
  | .ctrl => ofBits [t.enable, t.irqEnable, t.autoReload]
  | .status => ofBits [t.pending]
  | .tick => t.tick.toNat

/-- The timer after a write of a register (R420); STATUS bit 0 clears pending when it is written as 1. -/
def Timer.written (t : Timer) (r : TimerReg) (v : Word32) : Timer :=
  match r with
  | .cntLo => { t with cnt := setLo32 t.cnt v }
  | .cntHi => { t with cnt := setHi32 t.cnt v }
  | .cmpLo => { t with cmp := setLo32 t.cmp v }
  | .cmpHi => { t with cmp := setHi32 t.cmp v }
  | .ctrl => { t with enable := v.getLsbD 0, irqEnable := v.getLsbD 1, autoReload := v.getLsbD 2 }
  | .status => { t with pending := t.pending && !v.getLsbD 0 }
  | .tick => { t with tick := v }

/-- A read of a timer register (R421). -/
def timerRead (k : Nat) (r : TimerReg) : Op (List Byte) := do
  let t ← getTimer k
  return packLe (t.value r) 4

/-- A write of a timer register (R421). -/
def timerWrite (k : Nat) (r : TimerReg) (v : Word32) : Op Unit := do
  let _ ← getTimer k
  modifyTimer k (·.written r v)
  updateTimerIrq k

/-- A register read as a call of its own. -/
def opTimerRead (k : Nat) (r : TimerReg) : Op Value := do
  return .bytes (← timerRead k r)

/-- A register write as a call of its own. -/
def opTimerWrite (k : Nat) (r : TimerReg) (v : Word32) : Op Value := do
  timerWrite k r v
  return .unit

/-! ## Command -/

/-- One step of an enabled timer (R422): the count moves by TICK modulo 2^64; at a non-zero compare reached, pending is
set and with auto_reload the count returns to 0, but for TICK = 0, which "makes `advance` leave CNT unchanged" (R421;
log 23). -/
def Timer.tickOnce (t : Timer) : Timer :=
  let cnt := t.cnt + t.tick.setWidth 64
  if t.cmp ≠ 0 ∧ t.cmp.toNat ≤ cnt.toNat then
    { t with cnt := if t.autoReload ∧ t.tick ≠ 0 then 0 else cnt, pending := true }
  else { t with cnt := cnt }

/-- n steps of an enabled timer (R422). -/
def Timer.ticks : Nat → Timer → Timer
  | 0, t => t
  | n + 1, t => Timer.ticks n t.tickOnce

/-- `TIMER.advance(n)` (R422): nothing moves while the timer is disabled. -/
def opTimerAdvance (k n : Nat) : Op Value := do
  let t ← getTimer k
  if t.enable then modifyTimer k (Timer.ticks n)
  updateTimerIrq k
  return .unit

/-- TIMER.ADVANCE (R422). -/
def execTimerAdvance (k n : Nat) (s : State) : Host.Outcome State Fault Refusal := finish (opTimerAdvance k n) s

/-! ## Register accesses -/

/-- TIMER.CNT_LO read (R421). -/
def execTimerCntLoR (k : Nat) (s : State) : Host.Outcome State Fault Refusal := finish (opTimerRead k .cntLo) s

/-- TIMER.CNT_LO write (R421). -/
def execTimerCntLoW (k : Nat) (v : Word32) (s : State) : Host.Outcome State Fault Refusal :=
  finish (opTimerWrite k .cntLo v) s

/-- TIMER.CNT_HI read (R421). -/
def execTimerCntHiR (k : Nat) (s : State) : Host.Outcome State Fault Refusal := finish (opTimerRead k .cntHi) s

/-- TIMER.CNT_HI write (R421). -/
def execTimerCntHiW (k : Nat) (v : Word32) (s : State) : Host.Outcome State Fault Refusal :=
  finish (opTimerWrite k .cntHi v) s

/-- TIMER.CMP_LO read (R421). -/
def execTimerCmpLoR (k : Nat) (s : State) : Host.Outcome State Fault Refusal := finish (opTimerRead k .cmpLo) s

/-- TIMER.CMP_LO write (R421). -/
def execTimerCmpLoW (k : Nat) (v : Word32) (s : State) : Host.Outcome State Fault Refusal :=
  finish (opTimerWrite k .cmpLo v) s

/-- TIMER.CMP_HI read (R421). -/
def execTimerCmpHiR (k : Nat) (s : State) : Host.Outcome State Fault Refusal := finish (opTimerRead k .cmpHi) s

/-- TIMER.CMP_HI write (R421). -/
def execTimerCmpHiW (k : Nat) (v : Word32) (s : State) : Host.Outcome State Fault Refusal :=
  finish (opTimerWrite k .cmpHi v) s

/-- TIMER.CTRL read (R421). -/
def execTimerCtrlR (k : Nat) (s : State) : Host.Outcome State Fault Refusal := finish (opTimerRead k .ctrl) s

/-- TIMER.CTRL write (R421). -/
def execTimerCtrlW (k : Nat) (v : Word32) (s : State) : Host.Outcome State Fault Refusal :=
  finish (opTimerWrite k .ctrl v) s

/-- TIMER.STATUS read (R421). -/
def execTimerStatusR (k : Nat) (s : State) : Host.Outcome State Fault Refusal := finish (opTimerRead k .status) s

/-- TIMER.STATUS write (R421). -/
def execTimerStatusW (k : Nat) (v : Word32) (s : State) : Host.Outcome State Fault Refusal :=
  finish (opTimerWrite k .status v) s

/-- TIMER.TICK read (R421). -/
def execTimerTickR (k : Nat) (s : State) : Host.Outcome State Fault Refusal := finish (opTimerRead k .tick) s

/-- TIMER.TICK write (R421). -/
def execTimerTickW (k : Nat) (v : Word32) (s : State) : Host.Outcome State Fault Refusal :=
  finish (opTimerWrite k .tick v) s

end Sys2Proof.Machine
end

