-- ==== Sys2Proof/Machine/Bus.lean ====
section
/-! DEFINITION. The system bus (spec/41_dram_bus.md sections 2 and 3): region registration, the address decoder, the
constraint check, the chunks of a transfer, and the register accesses the bus makes to devices. The DMA engine
(spec/47_peripherals_dma.md section 3) is a bus master inside the write of its own CTRL register, so its transfer stands
here with the bus. -/

namespace Sys2Proof.Machine

/-! ## Regions -/

/-- `end = base + size - 1` (R34). -/
def Region.last (r : Region) : Nat := r.base + r.size - 1

/-- Address decoder (R179): the region that holds an address. -/
def Bus.find (b : Bus) (a : Nat) : Option Region := b.regions.find? fun r => r.base ≤ a && a ≤ r.last

/-- A region inserted where the list stays sorted by base (R35, R176). -/
def insertRegion (r : Region) : List Region → List Region
  | [] => [r]
  | q :: rs => if r.base ≤ q.base then r :: q :: rs else q :: insertRegion r rs

/-- The checks of R176 and the sorted insertion: BadConfig for an empty or wrapping region, Overlap with the first
region it meets. -/
def addRegion (r : Region) : Op Unit := do
  if r.size = 0 then raise (.badConfig .emptyRegion)
  if 2 ^ 64 < r.base + r.size then raise (.badConfig .wrappingRegion)
  let s ← get
  match s.bus.regions.find? (fun q => r.base ≤ q.last && q.base ≤ r.last) with
  | some q => raise (.overlap r.name q.name r.base r.size)
  | none => modify fun s => { s with bus := { s.bus with regions := insertRegion r s.bus.regions } }

/-- The PLIC's region size (R350). -/
def plicRegionSize (c : PlicCfg) : Nat := c.layout.ctxBase + c.contexts * c.layout.stride

/-- `device.region()` and `device.caps()` (R36, R113, R351, R391, R411, R420, R430, R450): base, size and caps. -/
def deviceRegion (d : DevRef) : Op (Nat × Nat × Caps) := do
  let s ← get
  match d with
  | .plic => return (s.cfg.plic.base.toNat, plicRegionSize s.cfg.plic, { align := 4, widths := some [4] })
  | .clint => return (s.cfg.clint.base.toNat, 0xC000, { align := 4, widths := some [4, 8] })
  | .uart k =>
    let c ← need s.cfg.uarts[k]? .noSuchDevice
    return (c.base.toNat, 16, { align := 4, widths := some [1, 4] })
  | .timer k =>
    let c ← need s.cfg.timers[k]? .noSuchDevice
    return (c.base.toNat, 32, { align := 4, widths := some [4] })
  | .dma k =>
    let c ← need s.cfg.dmas[k]? .noSuchDevice
    return (c.base.toNat, 32, { align := 4, widths := some [4] })
  | .rom k =>
    let c ← need s.cfg.roms[k]? .noSuchDevice
    let m ← getRom k
    return (c.base.toNat, m.contents.length, { align := 1, widths := none })

/-! ## Register accesses of the bus (R142, R181) -/

/-- A register access that names no register (R112, R151), except that with strict MMIO a UART raises MMIOConstraint for
4 bytes at DATA and for 1 byte at STATUS or CTRL (R411). -/
def noRow (d : DevRef) (off width : Nat) : Op Unit := do
  let s ← get
  match d with
  | .uart k =>
    if s.cfg.strictMmio ∧ ((off = 0x00 ∧ width = 4) ∨ ((off = 0x04 ∨ off = 0x08) ∧ width = 1)) then
      let c ← need s.cfg.uarts[k]? .noSuchDevice
      raise (.mmioConstraint (c.base.toNat + off) width)
    else refuse .noRegister
  | _ => refuse .noRegister

/-- A change of DMA engine k. -/
def modifyDma (k : Nat) (f : Dma → Dma) : Op Unit :=
  modify fun s => { s with dmas := updateAt s.dmas k f }

/-- DMA engine k, or a refusal where the platform has none. -/
def getDma (k : Nat) : Op Dma := do
  let s ← get
  need s.dmas[k]? .noSuchDevice

/-- The sink DMA engine k is wired to (R8). -/
def Config.dmaSink (c : Config) (k : Nat) : Option Nat := (c.dmas[k]?).bind (·.sink)

/-- DMA engine k's output follows its condition, and its sink the output (R435, R455). -/
def updateDmaIrq (k : Nat) : Op Unit := do
  let d ← getDma k
  let s ← get
  if d.irqCond ≠ d.irqOut then
    modifyDma k fun d => { d with irqOut := d.irqCond }
    driveSink (Config.dmaSink s.cfg k) d.irqCond

/-- The value a DMA register reads as (R430, R431): START reads 0, and "BUSY always reads 0", so it does to another engine's
transfer inside this one's too (log 6). -/
def Dma.value (d : Dma) : DmaReg → Nat
  | .srcLo => (lo32 d.src).toNat
  | .srcHi => (hi32 d.src).toNat
  | .dstLo => (lo32 d.dst).toNat
  | .dstHi => (hi32 d.dst).toNat
  | .len => d.len.toNat
  | .ctrl => ofBits [false, d.irqEn]
  | .status => ofBits [false, d.done, d.err]

/-- A read of a DMA register (R431). -/
def dmaRead (k : Nat) (r : DmaReg) : Op (List Byte) := do
  let d ← getDma k
  return packLe (d.value r) 4

/-- A device's register read for a chunk of `width` bytes at an offset (R142, R181). -/
def deviceRead (d : DevRef) (off width : Nat) : Op (List Byte) := do
  let s ← get
  let orNone {ρ : Type} (o : Option ρ) (f : ρ → Op (List Byte)) : Op (List Byte) :=
    match o with
    | some r => f r
    | none => do
      noRow d off width
      return []
  match d with
  | .plic => orNone (if width = 4 then plicReg s.cfg.plic.layout off else none) plicRead
  | .clint => orNone (clintReg off width) clintRead
  | .uart k => orNone (uartReg off width) (uartRead k)
  | .timer k => orNone (timerReg off width) (timerRead k)
  | .dma k => orNone (dmaReg off width) (dmaRead k)
  | .rom k => romRead k off width

/-- The registers a DMA write stores: every register but CTRL (R431, R432). -/
def Dma.written (d : Dma) (r : DmaReg) (v : Word32) : Dma :=
  match r with
  | .srcLo => { d with src := setLo32 d.src v }
  | .srcHi => { d with src := setHi32 d.src v }
  | .dstLo => { d with dst := setLo32 d.dst v }
  | .dstHi => { d with dst := setHi32 d.dst v }
  | .len => { d with len := v }
  | .ctrl => { d with irqEn := v.getLsbD 1 }
  | .status => { d with done := d.done && !v.getLsbD 1, err := d.err && !v.getLsbD 2 }

/-- A write of a DMA register (R431, R432); `ctrl` is the write of CTRL (R433). -/
def dmaWriteWith (ctrl : Nat → Word32 → Op Unit) (k : Nat) (r : DmaReg) (v : Word32) : Op Unit := do
  let _ ← getDma k
  match r with
  | .ctrl => ctrl k v
  | .status =>
    modifyDma k (·.written .status v)
    updateDmaIrq k
  | r => modifyDma k (·.written r v)

/-- A device's register write for a chunk at an offset (R142, R181); `ctrl` is the write of a DMA engine's CTRL. -/
def deviceWriteWith (ctrl : Nat → Word32 → Op Unit) (d : DevRef) (off : Nat) (bs : List Byte) : Op Unit := do
  let s ← get
  let orNone {ρ : Type} (o : Option ρ) (f : ρ → Op Unit) : Op Unit :=
    match o with
    | some r => f r
    | none => noRow d off bs.length
  match d with
  | .plic => orNone (if bs.length = 4 then plicReg s.cfg.plic.layout off else none) (plicWrite · (data32 bs))
  | .clint => orNone (clintReg off bs.length) (clintWrite · (data64 bs))
  | .uart k => orNone (uartReg off bs.length) (uartWrite k · (data32 bs))
  | .timer k => orNone (timerReg off bs.length) (timerWrite k · (data32 bs))
  | .dma k => orNone (dmaReg off bs.length) (dmaWriteWith ctrl k · (data32 bs))
  | .rom k => romWrite k off bs

/-! ## Chunks and transfers -/

/-- The constraint check of R180 for a chunk of `width` bytes at `a`: made with strict MMIO only. -/
def chunkCheck (r : Region) (a width : Nat) : Op Unit := do
  let s ← get
  match r.kind with
  | .ram _ => pure ()
  | .mmio _ caps =>
    let widthOk : Bool := match caps.widths with
      | none => true
      | some ws => ws.contains width
    if s.cfg.strictMmio ∧ ¬ ((a - r.base) % caps.align = 0 ∧ widthOk = true) then raise (.mmioConstraint a width)

/-- A read chunk: DRAM from the region's offset, or the device (R181). -/
def chunkRead (r : Region) (a width : Nat) : Op (List Byte) :=
  match r.kind with
  | .ram off => dramRead (off + (a - r.base)) width
  | .mmio d _ => deviceRead d (a - r.base) width

/-- A write chunk: DRAM from the region's offset, or the device (R181). -/
def chunkWriteWith (ctrl : Nat → Word32 → Op Unit) (r : Region) (a : Nat) (bs : List Byte) : Op Unit :=
  match r.kind with
  | .ram off => dramWrite (off + (a - r.base)) bs
  | .mmio d _ => deviceWriteWith ctrl d (a - r.base) bs

/-- The region of the next chunk, or Unmapped at the first address without one (R182, R183: an address at or past 2^64
has none). -/
def decodeAddress (a : Nat) : Op Region := do
  let s ← get
  if 2 ^ 64 ≤ a then raise (.unmapped a)
  match s.bus.find a with
  | some r => return r
  | none => raise (.unmapped a)

/-- The read loop of R182: one chunk per region, in ascending address order, n bytes from `a` on. Each turn takes at
least one byte, so `fuel = n` turns suffice. -/
def readChunks : Nat → Nat → Nat → Op (List Byte)
  | 0, _, _ => pure []
  | _ + 1, _, 0 => pure []
  | fuel + 1, a, n => do
    let r ← countFault (decodeAddress a)
    let k := min n (r.last - a + 1)
    let bs ← countFault do
      chunkCheck r a k
      chunkRead r a k
    recordRead a bs
    let rest ← readChunks fuel (a + k) (n - k)
    return bs ++ rest

/-- `BUS.read_bytes(pa, n)` (R182). -/
def busRead (pa n : Nat) : Op (List Byte) := do
  countRead
  readChunks n pa n

/-- The write loop of R183: one chunk per region, in ascending address order. -/
def writeChunks (ctrl : Nat → Word32 → Op Unit) : Nat → Nat → List Byte → Op Unit
  | 0, _, _ => pure ()
  | _ + 1, _, [] => pure ()
  | fuel + 1, a, bs => do
    let r ← countFault (decodeAddress a)
    let k := min bs.length (r.last - a + 1)
    countFault do
      chunkCheck r a k
      chunkWriteWith ctrl r a (bs.take k)
    recordWrite a (bs.take k)
    writeChunks ctrl fuel (a + k) (bs.drop k)

/-- `BUS.write_bytes(pa, bs)` (R183); `ctrl` is the write of a DMA engine's CTRL. -/
def busWriteWith (ctrl : Nat → Word32 → Op Unit) (pa : Nat) (bs : List Byte) : Op Unit := do
  countWrite
  writeChunks ctrl bs.length pa bs

/-! ## The DMA engine's transfer (R433) -/

/-- `ram_covered` from `a` on (R434), walking the regions in rising base: the region that holds `a` is RAM, and so is
every region up to the range's end, with no gap. -/
def coveredFrom (a stop : Nat) : List Region → Bool
  | [] => stop ≤ a
  | r :: rs =>
    if stop ≤ a then true
    else if r.last < a then coveredFrom a stop rs
    else match r.kind with
      | .ram _ => r.base ≤ a && coveredFrom (r.last + 1) stop rs
      | .mmio _ _ => false

/-- `ram_covered(a, n)` (R434). -/
def Bus.ramCovered (b : Bus) (a n : Nat) : Bool := n = 0 || (a + n ≤ 2 ^ 64 && coveredFrom a (a + n) b.regions)

/-- Whether the range [a, a+n) meets the region of `size` bytes at `base`. -/
def rangeMeets (a n base size : Nat) : Bool := n ≠ 0 && a < base + size && base < a + n

/-- The copy loop of R433, chunk by chunk of at most 256 bytes: true when it ran to its end, false when a chunk's read
or write raised an error. SRC, DST and LEN are read at each turn, as the rule's pseudocode reads them. `done` rises
below LEN < 2^32 at each turn, so 2^32 turns suffice. -/
def dmaLoop (ctrl : Nat → Word32 → Op Unit) (k : Nat) : Nat → Nat → Op Bool
  | 0, _ => pure true
  | fuel + 1, done => do
    let d ← getDma k
    if done < d.len.toNat then
      let n := min 256 (d.len.toNat - done)
      let e ← attempt do
        let bs ← busRead (d.src.toNat + done) n
        let d ← getDma k
        busWriteWith ctrl (d.dst.toNat + done) bs
      match e with
      | some _ => return false
      | none => dmaLoop ctrl k fuel (done + n)
    else return true

/-- A write of CTRL (R433): IRQ_EN is stored, START runs the whole transfer inside the write, and the output follows.
`ctrl` is the write of CTRL that a chunk of the transfer makes to another engine. -/
def dmaCtrlWith (ctrl : Nat → Word32 → Op Unit) (k : Nat) (v : Word32) : Op Unit := do
  modifyDma k (·.written .ctrl v)
  if v.getLsbD 0 then
    modifyDma k fun d => { d with busy := true }
    let d ← getDma k
    let s ← get
    let c ← need s.cfg.dmas[k]? .noSuchDevice
    let n := d.len.toNat
    if c.ramOnly ∧ ¬ (s.bus.ramCovered d.src.toNat n ∧ s.bus.ramCovered d.dst.toNat n) then
      modifyDma k fun d => { d with err := true, busy := false }
    else
      if rangeMeets d.src.toNat n c.base.toNat 32 ∨ rangeMeets d.dst.toNat n c.base.toNat 32 then
        refuse .dmaOwnRegion
      let ok ← dmaLoop ctrl k (2 ^ 32) 0
      if ok then modifyDma k fun d => { d with done := true, busy := false }
      else modifyDma k fun d => { d with err := true, busy := false }
  updateDmaIrq k

/-- A write of CTRL whose transfer may write the CTRL of other engines, to a depth of `nest` (log 6). -/
def dmaCtrl : Nat → Nat → Word32 → Op Unit
  | 0, _, _ => refuse .dmaNesting
  | nest + 1, k, v => dmaCtrlWith (dmaCtrl nest) k v

/-- The write of CTRL. Transfers that start one another deeper than 2^32 are taken to start one another without end
(log 6). -/
def dmaCtrlWrite (k : Nat) (v : Word32) : Op Unit := dmaCtrl (2 ^ 32) k v

/-- A write of a DMA register (R431 to R433). -/
def dmaWrite (k : Nat) (r : DmaReg) (v : Word32) : Op Unit := dmaWriteWith dmaCtrlWrite k r v

/-- `BUS.write_bytes(pa, bs)` (R183). -/
def busWrite (pa : Nat) (bs : List Byte) : Op Unit := busWriteWith dmaCtrlWrite pa bs

/-! ## Commands -/

/-- `BUS.map_ram(name, base, size, dram, offset)` (R176). -/
def opBusMapRam (name : String) (base : Word) (size offset : Nat) : Op Value := do
  addRegion { kind := .ram offset, base := base.toNat, size := size, name := name }
  return .unit

/-- BUS.MAP_RAM (R176). -/
def execBusMapRam (name : String) (base : Word) (size offset : Nat) (s : State) : Host.Outcome State Fault Refusal :=
  finish (opBusMapRam name base size offset) s

/-- `BUS.register_mmio(name, device)` (R177). -/
def opBusRegisterMmio (name : String) (device : DevRef) : Op Value := do
  let (base, size, caps) ← deviceRegion device
  if caps.align = 0 then raise (.badConfig .capsAlign)
  addRegion { kind := .mmio device caps, base := base, size := size, name := name }
  return .unit

/-- BUS.REGISTER_MMIO (R177). -/
def execBusRegisterMmio (name : String) (device : DevRef) (s : State) : Host.Outcome State Fault Refusal :=
  finish (opBusRegisterMmio name device) s

/-- `BUS.read_bytes(pa, n)` (R182). -/
def opBusReadBytes (pa : Word) (n : Nat) : Op Value := do
  return .bytes (← busRead pa.toNat n)

/-- BUS.READ_BYTES (R182). -/
def execBusReadBytes (pa : Word) (n : Nat) (s : State) : Host.Outcome State Fault Refusal :=
  finish (opBusReadBytes pa n) s

/-- `BUS.write_bytes(pa, bs)` (R183). -/
def opBusWriteBytes (pa : Word) (bs : List Byte) : Op Value := do
  busWrite pa.toNat bs
  return .unit

/-- BUS.WRITE_BYTES (R183). -/
def execBusWriteBytes (pa : Word) (bs : List Byte) (s : State) : Host.Outcome State Fault Refusal :=
  finish (opBusWriteBytes pa bs) s

end Sys2Proof.Machine
end

