-- ==== Sys2Proof/Machine/Cache.lean ====
section
/-! DEFINITION. The cache controller (spec/43_cache.md): lookup, victim choice, installation, eviction and write-back
through the four inclusive levels, and the meanings of its commands. The recursion of eviction through the levels
"terminates because the inclusion hierarchy has fixed depth" (R250): each level's operations stand after those of the
level below it. -/

namespace Sys2Proof.Machine

/-! ## Lines and slots -/

/-- The reset line (R46, R261). -/
def Line.reset (lineSize : Nat) : Line where
  valid := false
  dirty := false
  tag := 0
  data := List.replicate lineSize 0
  lru := 0
  presentL1d := false
  presentL1i := false
  presentL2 := false

/-- `L[s][w]`: the line of a slot; a slot that is not listed holds the reset line (log 8). -/
def State.line (s : State) (l : Level) (q : Nat × Nat) : Line :=
  (Tab.get (s.cache.level l).lines q).getD (.reset s.cfg.lineSize)

/-- The state with the slots of a level replaced. -/
def State.withLines (s : State) (l : Level) (f : List ((Nat × Nat) × Line) → List ((Nat × Nat) × Line)) : State :=
  { s with cache := s.cache.setLevel l { s.cache.level l with lines := f (s.cache.level l).lines } }

/-- `L[s][w] <- x`. -/
def putLine (l : Level) (q : Nat × Nat) (x : Line) : Op Unit :=
  modify fun s => s.withLines l (Tab.set pairLt · q x)

/-- `L[s][w]` as it is now. -/
def getLine (l : Level) (q : Nat × Nat) : Op Line := do
  let s ← get
  return s.line l q

/-- `invalidate(L, s, w)`: the slot holds the reset line again (R261). -/
def invalidate (l : Level) (q : Nat × Nat) : Op Unit :=
  modify fun s => s.withLines l (Tab.erase · q)

/-- `set(L, a)` (R42). -/
def Config.setOf (c : Config) (l : Level) (a : Nat) : Nat := a / c.lineSize % c.numSets l

/-- `tag(L, a)` (R42). -/
def Config.tagOf (c : Config) (l : Level) (a : Nat) : Nat := a / c.lineSize / c.numSets l

/-- `blk(L, a)` (R42). -/
def Config.block (c : Config) (a : Nat) : Nat := a - a % c.lineSize

/-- `addr_of(L, s, w)`: the block address of a line (R262). -/
def Config.addrOf (c : Config) (l : Level) (q : Nat × Nat) (x : Line) : Nat :=
  (x.tag * c.numSets l + q.1) * c.lineSize

/-- `lookup(a, L)` (R251): the slot that holds the block of `a`, without any side effect. -/
def State.lookup (s : State) (a : Nat) (l : Level) : Option (Nat × Nat) :=
  let set := Config.setOf s.cfg l a
  ((List.range (s.cfg.ways l)).find? fun w =>
    let x := s.line l (set, w)
    x.valid && x.tag = Config.tagOf s.cfg l a).map fun w => (set, w)

/-- `++gc`: the global counter incremented, and its new value. -/
def nextStamp : Op Nat := do
  modify fun s => { s with cache := { s.cache with globalCounter := s.cache.globalCounter + 1 } }
  return (← get).cache.globalCounter

/-- `access(a, L, is_write)` (R252): a probe that stamps and counts a hit, answering its slot, or counts a miss; it
installs nothing. -/
def accessLine (a : Nat) (l : Level) (isWrite : Bool) : Op (Option (Nat × Nat)) := do
  let s ← get
  match s.lookup a l with
  | some q =>
    let g ← nextStamp
    let x ← getLine l q
    putLine l q { x with lru := g, dirty := x.dirty || isWrite }
    countAt l (·.hit)
    return some q
  | none =>
    countAt l (·.miss)
    return none

/-! ## Victim choice (R253) -/

/-- Whether a level prefers a line as its victim: no child of it holds the block. -/
def Line.preferred (l : Level) (x : Line) : Bool :=
  match l with
  | .l2 => !x.presentL1d && !x.presentL1i
  | .l3 => !x.presentL2
  | _ => true

/-- The way of least `lru_counter` among some, the lowest on a tie; 0 when there is none. -/
def leastRecent (line : Nat → Line) : List Nat → Nat
  | [] => 0
  | [w] => w
  | w :: v :: ws =>
    let r := leastRecent line (v :: ws)
    if (line w).lru ≤ (line r).lru then w else r

/-- `choose_victim(L, s)` (R253): the lowest invalid way, else the least recent way of the preferred ones, or of all when
none is preferred. -/
def State.chooseVictim (s : State) (l : Level) (set : Nat) : Nat :=
  let ways := List.range (s.cfg.ways l)
  let line := fun w => s.line l (set, w)
  match ways.find? (fun w => !(line w).valid) with
  | some w => w
  | none =>
    let pref := ways.filter fun w => (line w).preferred l
    leastRecent line (if pref.isEmpty then ways else pref)

/-! ## Presence (R255) -/

/-- The parent's line with the presence flag of a child level written. -/
def Line.withPresence (child : Level) (b : Bool) (x : Line) : Line :=
  match child with
  | .l1d => { x with presentL1d := b }
  | .l1i => { x with presentL1i := b }
  | .l2 => { x with presentL2 := b }
  | .l3 => x

/-- The level whose lines track a level's presence. -/
def Level.parent : Level → Option Level
  | .l1d => some .l2
  | .l1i => some .l2
  | .l2 => some .l3
  | .l3 => none

/-- `set_presence(L, b)` and `clear_presence(L, b)` (R255). -/
def markPresence (l : Level) (b : Nat) (v : Bool) : Op Unit := do
  let s ← get
  match Level.parent l with
  | none => pure ()
  | some p =>
    match s.lookup b p with
    | some q => putLine p q ((s.line p q).withPresence l v)
    | none => pure ()

/-! ## Installation (R254) -/

/-- `install_line(b, L, data, is_write)` (R254), `evict` being what `handle_eviction` does at the level. -/
def installWith (evict : Nat × Nat → Op Unit) (l : Level) (b : Nat) (data : List Byte) (isWrite : Bool) : Op Unit := do
  let s ← get
  let set := Config.setOf s.cfg l b
  let q := (set, s.chooseVictim l set)
  if (s.line l q).valid then evict q
  let g ← nextStamp
  putLine l q { valid := true, dirty := isWrite, tag := Config.tagOf s.cfg l b, data := data, lru := g,
                presentL1d := false, presentL1i := false, presentL2 := false }
  countAt l (·.fill)
  markPresence l b true

/-! ## Drains (R264, R268) -/

/-- Whether an L2 line says that a first-level cache holds its block. -/
def Line.presentIn (x : Line) : Side → Bool
  | .l1d => x.presentL1d
  | .l1i => x.presentL1i

/-- A child's line of block b leaves for the L2 line at a slot (R264): the L2 line takes its bytes when it is dirty, and
it is invalidated. -/
def takeChild (c : Side) (q : Nat × Nat) (b : Nat) : Op Unit := do
  let s ← get
  match s.lookup b c.level with
  | none => pure ()
  | some q1 =>
    let y := s.line c.level q1
    if y.dirty then
      putLine .l2 q { s.line .l2 q with data := y.data, dirty := true }
      countAt c.level (·.writeback)
    invalidate c.level q1
    countAt c.level (·.evict)

/-- One child of `drain_children` (R264): its line, if the L2 line says it has one, leaves for the L2 line, whose presence
flag is cleared. -/
def drainChild (c : Side) (q : Nat × Nat) (b : Nat) : Op Unit := do
  let x ← getLine .l2 q
  if x.presentIn c then
    takeChild c q b
    let x ← getLine .l2 q
    putLine .l2 q (x.withPresence c.level false)

/-- `drain_children(x)` for the L2 line at a slot with block b: L1D, then L1I (R264). -/
def drainChildren (q : Nat × Nat) (b : Nat) : Op Unit := do
  drainChild .l1d q b
  drainChild .l1i q b

/-- The L2 line of block b leaves for the L3 line at a slot (R268): its own children are drained into it, the L3 line
takes its bytes when it is dirty, and it is invalidated. -/
def takeL2Child (q : Nat × Nat) (b : Nat) : Op Unit := do
  let s ← get
  match s.lookup b .l2 with
  | none => pure ()
  | some q2 =>
    drainChildren q2 b
    let x ← getLine .l2 q2
    if x.dirty then
      let v ← getLine .l3 q
      putLine .l3 q { v with data := x.data, dirty := true }
      countAt .l2 (·.writeback)
    invalidate .l2 q2
    countAt .l2 (·.evict)

/-- `drain_l2_child(v, b)` for the L3 line at a slot (R268). -/
def drainL2Child (q : Nat × Nat) (b : Nat) : Op Unit := do
  takeL2Child q b
  let v ← getLine .l3 q
  putLine .l3 q { v with presentL2 := false }

/-! ## Eviction and write-back, from the level next to memory up (R260 to R267) -/

/-- `writeback_to_next(l3, b, data)`: one bus write, whose error is tagged (R266). -/
def writebackL3 (b : Nat) (data : List Byte) : Op Unit := do
  countAt .l3 (·.writeback)
  tagged .l3 b (busWrite b data)

/-- `handle_eviction(l3, s, w)` (R260, R267). -/
def evictL3 (q : Nat × Nat) : Op Unit := do
  countAt .l3 (·.evict)
  let s ← get
  let v := s.line .l3 q
  let b := Config.addrOf s.cfg .l3 q v
  if v.presentL2 then drainL2Child q b
  let v ← getLine .l3 q
  if v.dirty then
    writebackL3 b v.data
    let v ← getLine .l3 q
    putLine .l3 q { v with dirty := false }

/-- `install_line` at L3 (R254). -/
def installL3 (b : Nat) (data : List Byte) (isWrite : Bool) : Op Unit := installWith evictL3 .l3 b data isWrite

/-- The parent's part of `writeback_to_next` (R266): the parent's line takes the data, is dirty and is stamped; an absent
parent is installed, dirty. -/
def writeParent (install : Nat → List Byte → Bool → Op Unit) (p : Level) (b : Nat) (data : List Byte) : Op Unit := do
  let s ← get
  match s.lookup b p with
  | some q =>
    let g ← nextStamp
    let x ← getLine p q
    putLine p q { x with data := data, dirty := true, lru := g }
  | none => install b data true

/-- `writeback_to_next(l2, b, data)` (R266). -/
def writebackL2 (b : Nat) (data : List Byte) : Op Unit := do
  countAt .l2 (·.writeback)
  writeParent installL3 .l3 b data

/-- `handle_eviction(l2, s, w)` (R260, R265). -/
def evictL2 (q : Nat × Nat) : Op Unit := do
  countAt .l2 (·.evict)
  let s ← get
  let b := Config.addrOf s.cfg .l2 q (s.line .l2 q)
  drainChildren q b
  let x ← getLine .l2 q
  if x.dirty then writebackL2 b x.data
  markPresence .l2 b false

/-- `install_line` at L2 (R254). -/
def installL2 (b : Nat) (data : List Byte) (isWrite : Bool) : Op Unit := installWith evictL2 .l2 b data isWrite

/-- `writeback_to_next(L, b, data)` of a first-level cache (R266). -/
def writebackL1 (c : Side) (b : Nat) (data : List Byte) : Op Unit := do
  countAt c.level (·.writeback)
  writeParent installL2 .l2 b data
  markPresence c.level b false

/-- `handle_eviction(L, s, w)` of a first-level cache (R260, R263). -/
def evictL1 (c : Side) (q : Nat × Nat) : Op Unit := do
  countAt c.level (·.evict)
  let s ← get
  let v := s.line c.level q
  let b := Config.addrOf s.cfg c.level q v
  if v.dirty then writebackL1 c b v.data
  markPresence c.level b false

/-- `install_line` at a first-level cache (R254). -/
def installL1 (c : Side) (b : Nat) (data : List Byte) (isWrite : Bool) : Op Unit :=
  installWith (evictL1 c) c.level b data isWrite

/-- `handle_eviction(L, s, w)` (R260). -/
def handleEviction (l : Level) (q : Nat × Nat) : Op Unit :=
  match l with
  | .l1d => evictL1 .l1d q
  | .l1i => evictL1 .l1i q
  | .l2 => evictL2 q
  | .l3 => evictL3 q

/-! ## Fill, read, write (R256 to R258) -/

/-- `fetch_line(L, b)` (R258). -/
def fetchLine (l : Level) (b : Nat) : Op (List Byte) := do
  let s ← get
  tagged l b (busRead b s.cfg.lineSize)

/-- `CACHE.read(pa, which)` (R256). -/
def cacheRead (pa : Nat) (c : Side) : Op (List Byte) := do
  let s ← get
  let b := Config.block s.cfg pa
  match ← accessLine pa c.level false with
  | some q => return (← getLine c.level q).data
  | none =>
    match ← accessLine pa .l2 false with
    | some q =>
      let d := (← getLine .l2 q).data
      installL1 c b d false
      return d
    | none =>
      match ← accessLine pa .l3 false with
      | some q =>
        let d := (← getLine .l3 q).data
        installL2 b d false
        installL1 c b d false
        return d
      | none =>
        let d ← fetchLine .l3 b
        installL3 b d false
        installL2 b d false
        installL1 c b d false
        return d

/-- The line with bytes patched from an offset on, and dirty (R257). -/
def Line.patched (x : Line) (off : Nat) (bs : List Byte) : Line :=
  { x with data := x.data.take off ++ bs ++ x.data.drop (off + bs.length), dirty := true }

/-- One line-aligned chunk of a cache write: the line made resident by a read, then patched (R257). -/
def cacheWriteChunk (a : Nat) (bs : List Byte) (c : Side) : Op Unit := do
  let _ ← cacheRead a c
  let s ← get
  match s.lookup a c.level with
  | some q => putLine c.level q ((s.line c.level q).patched (a % s.cfg.lineSize) bs)
  | none => pure ()

/-- The loop of R257. A chunk takes at least one byte, so `fuel = len(bs)` turns suffice. -/
def cacheWriteLoop (c : Side) : Nat → Nat → List Byte → Op Unit
  | 0, _, _ => pure ()
  | _ + 1, _, [] => pure ()
  | fuel + 1, a, bs => do
    let s ← get
    let k := min (s.cfg.lineSize - a % s.cfg.lineSize) bs.length
    cacheWriteChunk a (bs.take k) c
    cacheWriteLoop c fuel (a + k) (bs.drop k)

/-- `CACHE.write_bytes(pa, bs, which)` (R257). -/
def cacheWrite (pa : Nat) (bs : List Byte) (c : Side) : Op Unit := cacheWriteLoop c bs.length pa bs

/-! ## Prefetch (R259) -/

/-- The part of `prefetch_line` that brings the block of b into L3, taking its bytes from the bus if it is not there; a
bus error is tagged with the level the prefetch is for. -/
def prefetchL3 (for_ : Level) (b : Nat) : Op (List Byte) := do
  let s ← get
  match s.lookup b .l3 with
  | some q => return (s.line .l3 q).data
  | none =>
    let d ← fetchLine for_ b
    installL3 b d false
    return d

/-- The part of `prefetch_line` that brings the block of b into L2. -/
def prefetchL2 (for_ : Level) (b : Nat) : Op (List Byte) := do
  let s ← get
  match s.lookup b .l2 with
  | some q => return (s.line .l2 q).data
  | none =>
    let d ← prefetchL3 for_ b
    installL2 b d false
    return d

/-- The block of b brought into a level that does not hold it: the missing ancestors first, from the nearest level that
holds the block (R259). -/
def prefetchInto (l : Level) (b : Nat) : Op Unit := do
  match l with
  | .l3 =>
    let _ ← prefetchL3 .l3 b
  | .l2 =>
    let _ ← prefetchL2 .l2 b
  | .l1d =>
    let d ← prefetchL2 .l1d b
    installL1 .l1d b d false
  | .l1i =>
    let d ← prefetchL2 .l1i b
    installL1 .l1i b d false

/-- `CACHE.prefetch_line(L, b)` (R259): "no-op if already resident". -/
def prefetchLine (l : Level) (a : Nat) : Op Unit := do
  let s ← get
  let b := Config.block s.cfg a
  match s.lookup b l with
  | some _ => pure ()
  | none =>
    countAt l (·.prefetched)
    prefetchInto l b

/-! ## Flushing (R269, R270) -/

/-- One line leaves its level: the eviction path, then the slot is invalidated (R269, R270). -/
def flushSlot (l : Level) (q : Nat × Nat) : Op Unit := do
  handleEviction l q
  invalidate l q

/-- `CACHE.flush_line(addr, L)` (R269). -/
def flushLine (a : Nat) (l : Level) : Op Unit := do
  let s ← get
  match s.lookup a l with
  | some q => flushSlot l q
  | none => pure ()

/-- The slots of R270's loop, in its order, that may hold a valid line: those listed, in ascending set and way. -/
def State.listedSlots (s : State) (l : Level) : List (Nat × Nat) :=
  ((s.cache.level l).lines.map (·.1)).filter fun q => q.1 < s.cfg.numSets l && q.2 < s.cfg.ways l

/-- The loop of R270 over some slots: every one that holds a valid line is evicted and invalidated. -/
def flushSlots (l : Level) : List (Nat × Nat) → Op Unit
  | [] => pure ()
  | q :: qs => do
    let x ← getLine l q
    if x.valid then flushSlot l q
    flushSlots l qs

/-- `CACHE.flush_all(L)` (R270): "evicts every valid line then reinitializes the level"; no eviction at a level installs a
line there, so the slots listed at the start are all that the loop can find valid. -/
def flushAll (l : Level) : Op Unit := do
  let s ← get
  flushSlots l (s.listedSlots l)
  modify fun s => s.withLines l (fun _ => [])

/-! ## Commands -/

/-- `CACHE.read(pa, which)` (R256). -/
def opCacheRead (pa : Word) (which : Side) : Op Value := do
  return .bytes (← cacheRead pa.toNat which)

/-- CACHE.READ (R256). -/
def execCacheRead (pa : Word) (which : Side) (s : State) : Host.Outcome State Fault Refusal :=
  finish (opCacheRead pa which) s

/-- `CACHE.write_bytes(pa, bs, which = l1d)` (R257). -/
def opCacheWriteBytes (pa : Word) (bs : List Byte) (which : Option Side) : Op Value := do
  cacheWrite pa.toNat bs (sideOr which)
  return .unit

/-- CACHE.WRITE_BYTES (R257). -/
def execCacheWriteBytes (pa : Word) (bs : List Byte) (which : Option Side) (s : State) :
    Host.Outcome State Fault Refusal := finish (opCacheWriteBytes pa bs which) s

/-- `CACHE.prefetch_line(L, b)` (R259). -/
def opCachePrefetchLine (l : Level) (b : Word) : Op Value := do
  prefetchLine l b.toNat
  return .unit

/-- CACHE.PREFETCH_LINE (R259). -/
def execCachePrefetchLine (l : Level) (b : Word) (s : State) : Host.Outcome State Fault Refusal :=
  finish (opCachePrefetchLine l b) s

/-- `CACHE.flush_line(addr, L)` (R269). -/
def opCacheFlushLine (addr : Word) (l : Level) : Op Value := do
  flushLine addr.toNat l
  return .unit

/-- CACHE.FLUSH_LINE (R269). -/
def execCacheFlushLine (addr : Word) (l : Level) (s : State) : Host.Outcome State Fault Refusal :=
  finish (opCacheFlushLine addr l) s

/-- `CACHE.flush_all(L)` (R270). -/
def opCacheFlushAll (l : Level) : Op Value := do
  flushAll l
  return .unit

/-- CACHE.FLUSH_ALL (R270). -/
def execCacheFlushAll (l : Level) (s : State) : Host.Outcome State Fault Refusal := finish (opCacheFlushAll l) s

/-- `CACHE.stats(L)` (R271). -/
def opCacheStats (l : Level) : Op Value := do
  let s ← get
  let st := (s.cache.level l).stats
  return .stats st st.hitRate

/-- CACHE.STATS (R271). -/
def execCacheStats (l : Level) (s : State) : Host.Outcome State Fault Refusal := finish (opCacheStats l) s

end Sys2Proof.Machine
end

