-- ==== Sys2Proof/Machine/Mmu.lean ====
section
/-! DEFINITION. The MMU: translation, the TLB, page tables and the frame pool (spec/42_mmu.md), and the meanings of its
commands. -/

namespace Sys2Proof.Machine

/-! ## Page tables and TLB -/

/-- A change of the MMU's state. -/
def modifyMmu (f : Mmu → Mmu) : Op Unit := modify fun s => { s with mmu := f s.mmu }

/-- `tables[asid].get(vpn)` (R210). -/
def Mmu.pte (m : Mmu) (asid vpn : Nat) : Option Pte := (Tab.get m.tables asid).bind (Tab.get · vpn)

/-- `tables[asid][vpn] <- pte`, the table created on first use (R214, R219). -/
def Mmu.setPte (m : Mmu) (asid vpn : Nat) (p : Pte) : Mmu :=
  { m with tables := Tab.set natLt m.tables asid (Tab.set natLt ((Tab.get m.tables asid).getD []) vpn p) }

/-- `delete tables[asid][vpn]` (R215). -/
def Mmu.dropPte (m : Mmu) (asid vpn : Nat) : Mmu :=
  { m with tables := Tab.set natLt m.tables asid (Tab.erase ((Tab.get m.tables asid).getD []) vpn) }

/-- `if asid not in tables: tables[asid] <- empty` (R214, R219). -/
def Mmu.openTable (m : Mmu) (asid : Nat) : Mmu :=
  match Tab.get m.tables asid with
  | some _ => m
  | none => { m with tables := Tab.set natLt m.tables asid [] }

/-- `remove (asid, vpn) from tlb` (R214, R215, R217, R218). -/
def Mmu.dropTlb (m : Mmu) (asid vpn : Nat) : Mmu := { m with tlb := Tab.erase m.tlb (asid, vpn) }

/-- `vpn = va >> page_shift` (R39). -/
def Config.vpn (c : Config) (va : Nat) : Nat := va >>> c.pageShift

/-- `offset = va & (page_size - 1)` (R39). -/
def Config.pageOffset (c : Config) (va : Nat) : Nat := va &&& (c.pageSize - 1)

/-- The key of the TLB entry with the least tick, the first of them (R213: ticks are unique). -/
def leastTick : List ((Nat × Nat) × TlbEntry) → Option ((Nat × Nat) × TlbEntry)
  | [] => none
  | e :: t => match leastTick t with
    | none => some e
    | some f => if e.2.tick ≤ f.2.tick then some e else some f

/-- `tlb_install(asid, vpn, f)` (R213): a full TLB first loses its least recent entry. -/
def Mmu.tlbInstall (entries : Nat) (m : Mmu) (asid vpn frame : Nat) : Mmu :=
  let tlb := if m.tlb.length < entries then m.tlb else
    match leastTick m.tlb with
    | some e => Tab.erase m.tlb e.1
    | none => m.tlb
  { m with
    tlb := Tab.set pairLt tlb (asid, vpn) { frame := frame, tick := m.tlbClock + 1 }
    tlbClock := m.tlbClock + 1 }

/-- The physical address of a frame and an offset, or a refusal beyond 64 bits (R210). -/
def physical (frame va : Nat) : Op Nat := do
  let s ← get
  let pa := (frame <<< s.cfg.pageShift) ||| Config.pageOffset s.cfg va
  if 2 ^ 64 ≤ pa then refuse .physicalAddressBeyond64 else return pa

/-- `MMU.translate(va)` (R210 to R213): a TLB hit moves the entry's tick and the hit counter; a miss counts, faults
without a present PTE, else installs the translation and sets `accessed`. -/
def translate (va : Nat) : Op (Nat × Pte) := do
  let s ← get
  let asid := s.mmu.currentAsid
  let vpn := Config.vpn s.cfg va
  match Tab.get s.mmu.tlb (asid, vpn) with
  | some e =>
    modifyMmu fun m => { m with
      tlb := Tab.set pairLt m.tlb (asid, vpn) { e with tick := m.tlbClock + 1 }
      tlbClock := m.tlbClock + 1
      tlbHits := m.tlbHits + 1 }
    let p ← need (s.mmu.pte asid vpn) .tlbEntryWithoutPte
    let pa ← physical e.frame va
    return (pa, p)
  | none =>
    modifyMmu fun m => { m with tlbMisses := m.tlbMisses + 1 }
    match s.mmu.pte asid vpn with
    | none => raise (.pageFault va)
    | some p =>
      if p.present = false then raise (.pageFault va)
      modifyMmu (·.tlbInstall s.cfg.tlbEntries asid vpn p.frame)
      modifyMmu (·.setPte asid vpn { p with accessed := true })
      let pa ← physical p.frame va
      return (pa, { p with accessed := true })

/-- `pte.dirty <- true` for the page of `va` in the current table (R315, R317). -/
def setDirty (va : Nat) : Op Unit := do
  let s ← get
  match s.mmu.pte s.mmu.currentAsid (Config.vpn s.cfg va) with
  | some p => modifyMmu (·.setPte s.mmu.currentAsid (Config.vpn s.cfg va) { p with dirty := true })
  | none => pure ()

/-- The frames of [0, max_frames) that are not in the pool (R220). -/
def freeFrames (c : Config) (m : Mmu) : List Nat :=
  (List.range c.maxFrames).filter fun f => !m.poolFrames.contains f

/-- `alloc_frame()` (R220): any free frame, the choice being the free value `Config.frameDraw` (log 3); OutOfFrames when
none is left. -/
def allocFrame : Op Nat := do
  let s ← get
  match freeFrames s.cfg s.mmu with
  | [] => raise .outOfFrames
  | f :: fs =>
    let d := (f :: fs).getD (Config.frameDraw s.draws % (f :: fs).length) f
    modify fun s => { s with draws := s.draws + 1 }
    modifyMmu fun m => { m with poolFrames := insertNat d m.poolFrames }
    return d

/-! ## Operations shared by the MMU's and the CPU's commands -/

/-- `map_page(vpn, pframe?, perm?, asid?)` (R214). -/
def mapPage (vpn : Nat) (pframe : Option Nat) (perm : Option Perm) (asid : Option Nat) : Op Nat := do
  let s ← get
  let a := asidOr asid s
  modifyMmu (·.openTable a)
  let f ← match pframe with
    | some f => pure f
    | none => allocFrame
  modifyMmu (·.setPte a vpn (newPte f perm))
  modifyMmu (·.dropTlb a vpn)
  return f

/-- The PTE of a mapped page, or PageFault at the page's address (R215, R218). -/
def mappedPte (asid vpn : Nat) : Op Pte := do
  let s ← get
  match s.mmu.pte asid vpn with
  | some p => return p
  | none => raise (.pageFault (vpn <<< s.cfg.pageShift))

/-- `unmap_page(vpn, asid?)` (R215). -/
def unmapPage (vpn : Nat) (asid : Option Nat) : Op Unit := do
  let s ← get
  let a := asidOr asid s
  let _ ← mappedPte a vpn
  modifyMmu (·.dropPte a vpn)
  modifyMmu (·.dropTlb a vpn)

/-- `set_page_attributes(vpn, attrs, asid?)` (R218). -/
def setPageAttributes (vpn : Nat) (attrs : Attrs) (asid : Option Nat) : Op Unit := do
  let s ← get
  let a := asidOr asid s
  let p ← mappedPte a vpn
  modifyMmu (·.setPte a vpn (setAttrs attrs p))
  modifyMmu (·.dropTlb a vpn)

/-- `flush_tlb(asid?)` (R216): with the asid exactly its entries, without it every entry. -/
def flushTlb (asid : Option Nat) : Op Unit :=
  match asid with
  | some a => modifyMmu fun m => { m with tlb := m.tlb.filter (fun e => e.1.1 ≠ a) }
  | none => modifyMmu fun m => { m with tlb := [] }

/-- `set_asid(asid)` (R219). -/
def setAsid (asid : Nat) : Op Unit := modifyMmu fun m => Mmu.openTable { m with currentAsid := asid } asid

/-- `check_access(va, kind)` (R223). -/
def checkAccess (va : Nat) (kind : AccessKind) : Op (Nat × Pte) := do
  let (pa, p) ← translate va
  match kind with
  | .read => pure ()
  | .write => if p.writable = false then raise (.permissionDenied va .write)
  | .execute => if p.executable = false then raise (.permissionDenied va .execute)
  return (pa, p)

/-! ## Commands -/

/-- `MMU.set_asid` (R219). -/
def opMmuSetAsid (asid : Nat) : Op Value := do
  setAsid asid
  return .unit

/-- MMU.SET_ASID (R219). -/
def execMmuSetAsid (asid : Nat) (s : State) : Host.Outcome State Fault Refusal := finish (opMmuSetAsid asid) s

/-- `MMU.map_page` (R214). -/
def opMmuMapPage (vpn : Nat) (pframe : Option Nat) (perm : Option Perm) (asid : Option Nat) : Op Value := do
  return .nat (← mapPage vpn pframe perm asid)

/-- MMU.MAP_PAGE (R214). -/
def execMmuMapPage (vpn : Nat) (pframe : Option Nat) (perm : Option Perm) (asid : Option Nat) (s : State) :
    Host.Outcome State Fault Refusal := finish (opMmuMapPage vpn pframe perm asid) s

/-- `MMU.unmap_page` (R215). -/
def opMmuUnmapPage (vpn : Nat) (asid : Option Nat) : Op Value := do
  unmapPage vpn asid
  return .unit

/-- MMU.UNMAP_PAGE (R215). -/
def execMmuUnmapPage (vpn : Nat) (asid : Option Nat) (s : State) : Host.Outcome State Fault Refusal :=
  finish (opMmuUnmapPage vpn asid) s

/-- `MMU.translate` (R210). -/
def opMmuTranslate (va : Word) : Op Value := do
  let r ← translate va.toNat
  return .translation r.1 r.2

/-- MMU.TRANSLATE (R210). -/
def execMmuTranslate (va : Word) (s : State) : Host.Outcome State Fault Refusal := finish (opMmuTranslate va) s

/-- `MMU.set_page_attributes` (R218). -/
def opMmuSetPageAttributes (vpn : Nat) (attrs : Attrs) (asid : Option Nat) : Op Value := do
  setPageAttributes vpn attrs asid
  return .unit

/-- MMU.SET_PAGE_ATTRIBUTES (R218). -/
def execMmuSetPageAttributes (vpn : Nat) (attrs : Attrs) (asid : Option Nat) (s : State) :
    Host.Outcome State Fault Refusal := finish (opMmuSetPageAttributes vpn attrs asid) s

/-- `MMU.flush_tlb` (R216). -/
def opMmuFlushTlb (asid : Option Nat) : Op Value := do
  flushTlb asid
  return .unit

/-- MMU.FLUSH_TLB (R216). -/
def execMmuFlushTlb (asid : Option Nat) (s : State) : Host.Outcome State Fault Refusal := finish (opMmuFlushTlb asid) s

/-- `MMU.flush_tlb_entry` (R217). -/
def opMmuFlushTlbEntry (vpn : Nat) (asid : Option Nat) : Op Value := do
  let s ← get
  modifyMmu (·.dropTlb (asidOr asid s) vpn)
  return .unit

/-- MMU.FLUSH_TLB_ENTRY (R217). -/
def execMmuFlushTlbEntry (vpn : Nat) (asid : Option Nat) (s : State) : Host.Outcome State Fault Refusal :=
  finish (opMmuFlushTlbEntry vpn asid) s

/-- `MMU.check_access` (R223). -/
def opMmuCheckAccess (va : Word) (kind : AccessKind) : Op Value := do
  let r ← checkAccess va.toNat kind
  return .translation r.1 r.2

/-- MMU.CHECK_ACCESS (R223). -/
def execMmuCheckAccess (va : Word) (kind : AccessKind) (s : State) : Host.Outcome State Fault Refusal :=
  finish (opMmuCheckAccess va kind) s

end Sys2Proof.Machine
end

