-- ==== Sys2Proof/Machine/Cpu.lean ====
section
/-! DEFINITION. The CPU front-end (spec/44_cpu.md): the checks and paths of fetch, load and store, the write-combining
buffer, maintenance, forwarding and attachment, and the meanings of its commands. Interrupts, traps and CSRs
(spec/60_exceptions.md) stand in Csr.lean and Poll.lean. -/

namespace Sys2Proof.Machine

/-! ## Common checks and paths -/

/-- The checks common to fetch, load and store, "made first and in this order" (R310). -/
def accessChecks (va size : Nat) : Op Unit := do
  let s ← get
  if ¬ (size = 1 ∨ size = 2 ∨ size = 4 ∨ size = 8) ∨ xlenBytes s.cfg.xlen < size then refuse .accessSize
  if 2 ^ 64 < va + size then refuse .addressWraps
  if Config.vpn s.cfg va ≠ Config.vpn s.cfg (va + size - 1) then refuse .crossesPage

/-- `cached_normal(pte)` (spec/44_cpu.md, heading). -/
def Pte.cachedNormal (p : Pte) : Bool := p.memtype = .normal && p.cached

/-- The loop of `cached_read` (R311): one cache read per line, n bytes from `a` on. A turn takes at least one byte, so
`fuel = n` turns suffice. -/
def cachedReadLoop (c : Side) : Nat → Nat → Nat → Op (List Byte)
  | 0, _, _ => pure []
  | _ + 1, _, 0 => pure []
  | fuel + 1, a, n => do
    let s ← get
    let off := a % s.cfg.lineSize
    let k := min (s.cfg.lineSize - off) n
    let line ← cacheRead a c
    let rest ← cachedReadLoop c fuel (a + k) (n - k)
    return (line.drop off).take k ++ rest

/-- `cached_read(pa, n, which)` (R311). -/
def cachedRead (pa n : Nat) (c : Side) : Op (List Byte) := cachedReadLoop c n pa n

/-- `prefetch_after(pa)` (R318): the next line, if the policy is on and the line lies on the same page. -/
def prefetchAfter (pa : Nat) : Op Unit := do
  let s ← get
  if s.cfg.prefetch.enable then
    let next := Config.block s.cfg pa + s.cfg.lineSize
    if Config.vpn s.cfg next = Config.vpn s.cfg pa then prefetchLine s.cfg.prefetch.target next

/-- The path of a read (R312). -/
def readPath (pa n : Nat) (p : Pte) (c : Side) : Op (List Byte) :=
  if p.cachedNormal then do
    let bs ← cachedRead pa n c
    prefetchAfter pa
    return bs
  else busRead pa n

/-! ## Write-combining buffer -/

/-- A change of the write-combining buffer. -/
def setWc (w : WcBuffer) : Op Unit := modify fun s => { s with cpu := { s.cpu with wc := w } }

/-- `wc_flush()` (R321): the buffer is emptied, then written in one bus write. -/
def wcFlush : Op Unit := do
  let s ← get
  match s.cpu.wc.base with
  | none => pure ()
  | some b =>
    setWc { base := none, bytes := [] }
    busWrite b s.cpu.wc.bytes

/-- `wc_post(pa, bs)` (R320): seed an empty buffer, append to it, or flush it and seed. -/
def wcPost (pa : Nat) (bs : List Byte) : Op Unit := do
  let s ← get
  match s.cpu.wc.base with
  | none => setWc { base := some pa, bytes := bs }
  | some b =>
    if pa = b + s.cpu.wc.bytes.length ∧ pa / s.cfg.lineSize = b / s.cfg.lineSize then
      setWc { base := some b, bytes := s.cpu.wc.bytes ++ bs }
    else
      wcFlush
      setWc { base := some pa, bytes := bs }

/-! ## Fetch, load, store -/

/-- `CPU.fetch(va, size)` (R313). -/
def fetch (va size : Nat) : Op (List Byte) := do
  accessChecks va size
  let (pa, p) ← translate va
  if p.executable = false then raise (.permissionDenied va .execute)
  readPath pa size p .l1i

/-- `CPU.load(va, size, signed)` (R314). -/
def load (va size : Nat) (signed : Bool) : Op Int := do
  accessChecks va size
  let (pa, p) ← translate va
  let bs ← readPath pa size p .l1d
  let s ← get
  return unpack s.cfg.endianness bs signed

/-- The path of a store by the page's memory type (R315 to R317). -/
def storePath (va pa : Nat) (bs : List Byte) (p : Pte) : Op Unit :=
  match p.memtype with
  | .device => do
    wcFlush
    busWrite pa bs
  | .wc => wcPost pa bs
  | .normal =>
    if p.cached then do
      cacheWrite pa bs .l1d
      setDirty va
      prefetchAfter pa
    else do
      busWrite pa bs
      setDirty va

/-- `CPU.store(va, size, value, signed)` (R315): "`signed` does not change the bytes stored". -/
def store (va size : Nat) (value : Int) : Op Unit := do
  accessChecks va size
  let (pa, p) ← translate va
  if p.writable = false then raise (.permissionDenied va .write)
  let s ← get
  storePath va pa (pack s.cfg.endianness value size) p

/-- `CPU.fetch` (R313). -/
def opCpuFetch (va : Word) (size : Option Nat) : Op Value := do
  return .bytes (← fetch va.toNat (sizeOr size))

/-- CPU.FETCH (R313). -/
def execCpuFetch (va : Word) (size : Option Nat) (s : State) : Host.Outcome State Fault Refusal :=
  finish (opCpuFetch va size) s

/-- `CPU.load` (R314). -/
def opCpuLoad (va : Word) (size : Nat) (signed : Bool) : Op Value := do
  return .int (← load va.toNat size signed)

/-- CPU.LOAD (R314). -/
def execCpuLoad (va : Word) (size : Nat) (signed : Bool) (s : State) : Host.Outcome State Fault Refusal :=
  finish (opCpuLoad va size signed) s

/-- `CPU.store` (R315). -/
def opCpuStore (va : Word) (size : Nat) (value : Int) (_signed : Bool) : Op Value := do
  store va.toNat size value
  return .unit

/-- CPU.STORE (R315). -/
def execCpuStore (va : Word) (size : Nat) (value : Int) (signed : Bool) (s : State) :
    Host.Outcome State Fault Refusal := finish (opCpuStore va size value signed) s

/-! ## Barrier and prefetch -/

/-- `CPU.memory_barrier()` (R323). -/
def opCpuMemoryBarrier : Op Value := do
  wcFlush
  return .unit

/-- CPU.MEMORY_BARRIER (R323). -/
def execCpuMemoryBarrier (s : State) : Host.Outcome State Fault Refusal := finish opCpuMemoryBarrier s

/-- `CPU.prefetch_data(va)` (R319). -/
def opCpuPrefetchData (va : Word) : Op Value := do
  let (pa, p) ← translate va.toNat
  if p.cachedNormal then prefetchLine .l1d pa
  return .unit

/-- CPU.PREFETCH_DATA (R319). -/
def execCpuPrefetchData (va : Word) (s : State) : Host.Outcome State Fault Refusal := finish (opCpuPrefetchData va) s

/-- `CPU.prefetch_inst(va)` (R319). -/
def opCpuPrefetchInst (va : Word) : Op Value := do
  let (pa, p) ← translate va.toNat
  if p.executable = false then raise (.permissionDenied va.toNat .execute)
  if p.cachedNormal then prefetchLine .l1i pa
  return .unit

/-- CPU.PREFETCH_INST (R319). -/
def execCpuPrefetchInst (va : Word) (s : State) : Host.Outcome State Fault Refusal := finish (opCpuPrefetchInst va) s

/-! ## Maintenance and forwarding (R324 to R326) -/

/-- `CPU.flush_icache()` (R324). -/
def opCpuFlushIcache : Op Value := do
  flushAll .l1i
  return .unit

/-- CPU.FLUSH_ICACHE (R324). -/
def execCpuFlushIcache (s : State) : Host.Outcome State Fault Refusal := finish opCpuFlushIcache s

/-- `CPU.flush_dcache()` (R324, R325). -/
def opCpuFlushDcache : Op Value := do
  flushAll .l1d
  return .unit

/-- CPU.FLUSH_DCACHE (R324). -/
def execCpuFlushDcache (s : State) : Host.Outcome State Fault Refusal := finish opCpuFlushDcache s

/-- `CPU.flush_l2()` (R324). -/
def opCpuFlushL2 : Op Value := do
  flushAll .l2
  return .unit

/-- CPU.FLUSH_L2 (R324). -/
def execCpuFlushL2 (s : State) : Host.Outcome State Fault Refusal := finish opCpuFlushL2 s

/-- `CPU.flush_l3()` (R324). -/
def opCpuFlushL3 : Op Value := do
  flushAll .l3
  return .unit

/-- CPU.FLUSH_L3 (R324). -/
def execCpuFlushL3 (s : State) : Host.Outcome State Fault Refusal := finish opCpuFlushL3 s

/-- `CPU.flush_tlb(asid?)` (R326): R216. -/
def opCpuFlushTlb (asid : Option Nat) : Op Value := do
  flushTlb asid
  return .unit

/-- CPU.FLUSH_TLB (R326). -/
def execCpuFlushTlb (asid : Option Nat) (s : State) : Host.Outcome State Fault Refusal := finish (opCpuFlushTlb asid) s

/-- `CPU.map_page` (R326): R214. -/
def opCpuMapPage (vpn : Nat) (pframe : Option Nat) (perm : Option Perm) (asid : Option Nat) : Op Value := do
  return .nat (← mapPage vpn pframe perm asid)

/-- CPU.MAP_PAGE (R326). -/
def execCpuMapPage (vpn : Nat) (pframe : Option Nat) (perm : Option Perm) (asid : Option Nat) (s : State) :
    Host.Outcome State Fault Refusal := finish (opCpuMapPage vpn pframe perm asid) s

/-- `CPU.unmap_page` (R326): R215. -/
def opCpuUnmapPage (vpn : Nat) (asid : Option Nat) : Op Value := do
  unmapPage vpn asid
  return .unit

/-- CPU.UNMAP_PAGE (R326). -/
def execCpuUnmapPage (vpn : Nat) (asid : Option Nat) (s : State) : Host.Outcome State Fault Refusal :=
  finish (opCpuUnmapPage vpn asid) s

/-- `CPU.set_page_attributes` (R326): R218. -/
def opCpuSetPageAttributes (vpn : Nat) (attrs : Attrs) (asid : Option Nat) : Op Value := do
  setPageAttributes vpn attrs asid
  return .unit

/-- CPU.SET_PAGE_ATTRIBUTES (R326). -/
def execCpuSetPageAttributes (vpn : Nat) (attrs : Attrs) (asid : Option Nat) (s : State) :
    Host.Outcome State Fault Refusal := finish (opCpuSetPageAttributes vpn attrs asid) s

/-- `CPU.set_asid` (R326): R219. -/
def opCpuSetAsid (asid : Nat) : Op Value := do
  setAsid asid
  return .unit

/-- CPU.SET_ASID (R326). -/
def execCpuSetAsid (asid : Nat) (s : State) : Host.Outcome State Fault Refusal := finish (opCpuSetAsid asid) s

/-! ## Attachment (R327, R328) -/

/-- `CPU.attach_plic(dev, base, {layout, ctx_id})` (R327): nothing is checked against the device. -/
def opCpuAttachPlic (base : Word) (layout : Layout) (ctxId : Nat) : Op Value := do
  modify fun s => { s with cpu := { s.cpu with
    plicAttach := some { base := base, layout := layout, ctxId := ctxId } } }
  return .unit

/-- CPU.ATTACH_PLIC (R327). -/
def execCpuAttachPlic (base : Word) (layout : Layout) (ctxId : Nat) (s : State) : Host.Outcome State Fault Refusal :=
  finish (opCpuAttachPlic base layout ctxId) s

/-- `CPU.attach_clint(dev, {hart})`: "a hart outside 0..H-1 is refused" (R328). -/
def opCpuAttachClint (hart : Nat) : Op Value := do
  let s ← get
  if s.cfg.clint.harts ≤ hart then refuse .clintHart
  modify fun s => { s with cpu := { s.cpu with clintAttach := some hart } }
  return .unit

/-- CPU.ATTACH_CLINT (R328). -/
def execCpuAttachClint (hart : Nat) (s : State) : Host.Outcome State Fault Refusal := finish (opCpuAttachClint hart) s

end Sys2Proof.Machine
end

