-- ==== Sys2Proof/Machine/Csr.lean ====
section
/-! DEFINITION. Interrupt sampling and selection, trap entry and return, and CSR access (spec/60_exceptions.md sections 2
and 3), and the meanings of their commands. -/

namespace Sys2Proof.Machine

/-- A change of the CSR block. -/
def modifyCsr (f : Csr → Csr) : Op Unit := modify fun s => { s with cpu := { s.cpu with csr := f s.cpu.csr } }

/-- The part of `sample_irqs` that reads the attached CLINT hart (R466). -/
def sampleClint : Op Unit := do
  let s ← get
  match s.cpu.clintAttach with
  | none => pure ()
  | some h =>
    if s.cfg.clint.harts ≤ h then refuse .clintHart
    modifyCsr fun c => { c with msip := s.clint.msipLevel h, mtip := s.clint.mtipLevel h }

/-- The part of `sample_irqs` that reads the attached PLIC context (R466). -/
def samplePlic : Op Unit := do
  let s ← get
  match s.cpu.plicAttach with
  | none => pure ()
  | some p =>
    let level ← plicContextIrq p.ctxId
    modifyCsr fun c => { c with meip := level }

/-- `CPU.sample_irqs()` (R466). -/
def opCpuSampleIrqs : Op Value := do
  sampleClint
  samplePlic
  return .unit

/-- CPU.SAMPLE_IRQS (R466). -/
def execCpuSampleIrqs (s : State) : Host.Outcome State Fault Refusal := finish opCpuSampleIrqs s

/-- `CPU.should_take_interrupt()` (R467). -/
def opCpuShouldTakeInterrupt : Op Value := do
  let s ← get
  return .cause s.cpu.csr.interruptCause

/-- CPU.SHOULD_TAKE_INTERRUPT (R467). -/
def execCpuShouldTakeInterrupt (s : State) : Host.Outcome State Fault Refusal := finish opCpuShouldTakeInterrupt s

/-- `CPU.maybe_take_interrupt()` (R471): trap entry with the cause of an enabled pending interrupt, if there is one. -/
def opCpuMaybeTakeInterrupt : Op Value := do
  let s ← get
  match s.cpu.csr.interruptCause with
  | none => return .cause none
  | some c =>
    trapEnter c true
    return .cause (some c)

/-- CPU.MAYBE_TAKE_INTERRUPT (R471). -/
def execCpuMaybeTakeInterrupt (s : State) : Host.Outcome State Fault Refusal := finish opCpuMaybeTakeInterrupt s

/-- `CPU.trap_enter(cause, is_interrupt = true)` (R468). -/
def opCpuTrapEnter (cause : Nat) (isInterrupt : Option Bool) : Op Value := do
  trapEnter cause (interruptOr isInterrupt)
  return .unit

/-- CPU.TRAP_ENTER (R468). -/
def execCpuTrapEnter (cause : Nat) (isInterrupt : Option Bool) (s : State) : Host.Outcome State Fault Refusal :=
  finish (opCpuTrapEnter cause isInterrupt) s

/-- `CPU.mret()` (R469). -/
def opCpuMret : Op Value := do
  trapReturn
  return .unit

/-- CPU.MRET (R469). -/
def execCpuMret (s : State) : Host.Outcome State Fault Refusal := finish opCpuMret s

/-- `CPU.complete_trap()`: `mret()` (R473). -/
def opCpuCompleteTrap : Op Value := do
  trapReturn
  return .unit

/-- CPU.COMPLETE_TRAP (R473). -/
def execCpuCompleteTrap (s : State) : Host.Outcome State Fault Refusal := finish opCpuCompleteTrap s

/-- The value of a CSR field, a bit as 0 or 1 (R470). -/
def Csr.read (c : Csr) : CsrField → Nat
  | .mie => c.mie.toNat
  | .mpie => c.mpie.toNat
  | .msie => c.msie.toNat
  | .mtie => c.mtie.toNat
  | .meie => c.meie.toNat
  | .msip => c.msip.toNat
  | .mtip => c.mtip.toNat
  | .meip => c.meip.toNat
  | .mcause => c.mcause
  | .mcauseIsInterrupt => c.mcauseIsInterrupt.toNat

/-- The CSR block after a write of a bit to a field, if the field takes writes (R470). -/
def Csr.write (c : Csr) (b : Bool) : CsrField → Option Csr
  | .mie => some { c with mie := b }
  | .mpie => some { c with mpie := b }
  | .msie => some { c with msie := b }
  | .mtie => some { c with mtie := b }
  | .meie => some { c with meie := b }
  | .msip => none
  | .mtip => none
  | .meip => none
  | .mcause => none
  | .mcauseIsInterrupt => none

/-- `CPU.csr_read(field)` (R470). -/
def opCpuCsrRead (field : CsrField) : Op Value := do
  let s ← get
  return .nat (s.cpu.csr.read field)

/-- CPU.CSR_READ (R470). -/
def execCpuCsrRead (field : CsrField) (s : State) : Host.Outcome State Fault Refusal := finish (opCpuCsrRead field) s

/-- `CPU.csr_write(field, value)`: the field takes bit 0 of the value; a field that is not written is refused (R470). -/
def opCpuCsrWrite (field : CsrField) (value : Nat) : Op Value := do
  let s ← get
  let c ← need (s.cpu.csr.write (value.testBit 0) field) .csrReadOnly
  modifyCsr fun _ => c
  return .unit

/-- CPU.CSR_WRITE (R470). -/
def execCpuCsrWrite (field : CsrField) (value : Nat) (s : State) : Host.Outcome State Fault Refusal :=
  finish (opCpuCsrWrite field value) s

end Sys2Proof.Machine
end

