-- ==== Sys2Proof/Machine/Dma.lean ====
section
/-! DEFINITION. The meanings of the DMA engine's register accesses (spec/47_peripherals_dma.md section 3); the engine's
transfer stands in Bus.lean with the bus it masters. -/

namespace Sys2Proof.Machine

/-- A register read as a call of its own. -/
def opDmaRead (k : Nat) (r : DmaReg) : Op Value := do
  return .bytes (← dmaRead k r)

/-- A register write as a call of its own. -/
def opDmaWrite (k : Nat) (r : DmaReg) (v : Word32) : Op Value := do
  dmaWrite k r v
  return .unit

/-- DMA.SRC_LO read (R431). -/
def execDmaSrcLoR (k : Nat) (s : State) : Host.Outcome State Fault Refusal := finish (opDmaRead k .srcLo) s

/-- DMA.SRC_LO write (R431). -/
def execDmaSrcLoW (k : Nat) (v : Word32) (s : State) : Host.Outcome State Fault Refusal := finish (opDmaWrite k .srcLo v) s

/-- DMA.SRC_HI read (R431). -/
def execDmaSrcHiR (k : Nat) (s : State) : Host.Outcome State Fault Refusal := finish (opDmaRead k .srcHi) s

/-- DMA.SRC_HI write (R431). -/
def execDmaSrcHiW (k : Nat) (v : Word32) (s : State) : Host.Outcome State Fault Refusal := finish (opDmaWrite k .srcHi v) s

/-- DMA.DST_LO read (R431). -/
def execDmaDstLoR (k : Nat) (s : State) : Host.Outcome State Fault Refusal := finish (opDmaRead k .dstLo) s

/-- DMA.DST_LO write (R431). -/
def execDmaDstLoW (k : Nat) (v : Word32) (s : State) : Host.Outcome State Fault Refusal := finish (opDmaWrite k .dstLo v) s

/-- DMA.DST_HI read (R431). -/
def execDmaDstHiR (k : Nat) (s : State) : Host.Outcome State Fault Refusal := finish (opDmaRead k .dstHi) s

/-- DMA.DST_HI write (R431). -/
def execDmaDstHiW (k : Nat) (v : Word32) (s : State) : Host.Outcome State Fault Refusal := finish (opDmaWrite k .dstHi v) s

/-- DMA.LEN read (R431). -/
def execDmaLenR (k : Nat) (s : State) : Host.Outcome State Fault Refusal := finish (opDmaRead k .len) s

/-- DMA.LEN write (R431). -/
def execDmaLenW (k : Nat) (v : Word32) (s : State) : Host.Outcome State Fault Refusal := finish (opDmaWrite k .len v) s

/-- DMA.CTRL read (R431). -/
def execDmaCtrlR (k : Nat) (s : State) : Host.Outcome State Fault Refusal := finish (opDmaRead k .ctrl) s

/-- DMA.CTRL write (R433). -/
def execDmaCtrlW (k : Nat) (v : Word32) (s : State) : Host.Outcome State Fault Refusal := finish (opDmaWrite k .ctrl v) s

/-- DMA.STATUS read (R431). -/
def execDmaStatusR (k : Nat) (s : State) : Host.Outcome State Fault Refusal := finish (opDmaRead k .status) s

/-- DMA.STATUS write (R432). -/
def execDmaStatusW (k : Nat) (v : Word32) (s : State) : Host.Outcome State Fault Refusal := finish (opDmaWrite k .status v) s

end Sys2Proof.Machine
end

