-- ==== Sys2Proof/Machine/Poll.lean ====
section
/-! DEFINITION. `poll_interrupts` (spec/60_exceptions.md R472) with its handler, a host procedure that may issue any
operation of the block (spec/93_implementation_defined.md I24), here the list of the calls it issues (log 11). -/

namespace Sys2Proof.Machine

/-- What an operation does, as an operation that another one may run; `poll` is what `poll_interrupts` does. -/
def opOf (poll : Nat → Option (List Token) → Op Value) (i : Instr) : Op Value :=
  match i with
  | .dramReadBytes addr n => opDramReadBytes addr n
  | .dramWriteBytes addr bs => opDramWriteBytes addr bs
  | .dramFill addr n v => opDramFill addr n v
  | .dramCopy dest src n => opDramCopy dest src n
  | .dramPeek addr => opDramPeek addr
  | .dramLoadImage addr bs => opDramLoadImage addr bs
  | .busMapRam name base size offset => opBusMapRam name base size offset
  | .busRegisterMmio name device => opBusRegisterMmio name device
  | .busReadBytes pa n => opBusReadBytes pa n
  | .busWriteBytes pa bs => opBusWriteBytes pa bs
  | .mmuSetAsid asid => opMmuSetAsid asid
  | .mmuMapPage vpn pframe perm asid => opMmuMapPage vpn pframe perm asid
  | .mmuUnmapPage vpn asid => opMmuUnmapPage vpn asid
  | .mmuTranslate va => opMmuTranslate va
  | .mmuSetPageAttributes vpn attrs asid => opMmuSetPageAttributes vpn attrs asid
  | .mmuFlushTlb asid => opMmuFlushTlb asid
  | .mmuFlushTlbEntry vpn asid => opMmuFlushTlbEntry vpn asid
  | .mmuCheckAccess va kind => opMmuCheckAccess va kind
  | .cacheRead pa which => opCacheRead pa which
  | .cacheWriteBytes pa bs which => opCacheWriteBytes pa bs which
  | .cachePrefetchLine l b => opCachePrefetchLine l b
  | .cacheFlushLine addr l => opCacheFlushLine addr l
  | .cacheFlushAll l => opCacheFlushAll l
  | .cacheStats l => opCacheStats l
  | .cpuFetch va size => opCpuFetch va size
  | .cpuLoad va size signed => opCpuLoad va size signed
  | .cpuStore va size value signed => opCpuStore va size value signed
  | .cpuMemoryBarrier => opCpuMemoryBarrier
  | .cpuPrefetchData va => opCpuPrefetchData va
  | .cpuPrefetchInst va => opCpuPrefetchInst va
  | .cpuFlushIcache => opCpuFlushIcache
  | .cpuFlushDcache => opCpuFlushDcache
  | .cpuFlushL2 => opCpuFlushL2
  | .cpuFlushL3 => opCpuFlushL3
  | .cpuFlushTlb asid => opCpuFlushTlb asid
  | .cpuMapPage vpn pframe perm asid => opCpuMapPage vpn pframe perm asid
  | .cpuUnmapPage vpn asid => opCpuUnmapPage vpn asid
  | .cpuSetPageAttributes vpn attrs asid => opCpuSetPageAttributes vpn attrs asid
  | .cpuSetAsid asid => opCpuSetAsid asid
  | .cpuAttachPlic base layout ctxId => opCpuAttachPlic base layout ctxId
  | .cpuAttachClint hart => opCpuAttachClint hart
  | .cpuSampleIrqs => opCpuSampleIrqs
  | .cpuMaybeTakeInterrupt => opCpuMaybeTakeInterrupt
  | .cpuCompleteTrap => opCpuCompleteTrap
  | .cpuPollInterrupts ctx handler => poll ctx handler
  | .cpuTrapEnter cause isInterrupt => opCpuTrapEnter cause isInterrupt
  | .cpuMret => opCpuMret
  | .cpuShouldTakeInterrupt => opCpuShouldTakeInterrupt
  | .cpuCsrRead field => opCpuCsrRead field
  | .cpuCsrWrite field value => opCpuCsrWrite field value
  | .plicRaise id => opPlicRaise id
  | .plicLower id => opPlicLower id
  | .plicGetContextIrq c => opPlicGetContextIrq c
  | .clintAdvance n => opClintAdvance n
  | .clintGetIrqLevels h => opClintGetIrqLevels h
  | .timerAdvance k n => opTimerAdvance k n
  | .uartPushRx k b => opUartPushRx k b
  | .plicPrioR l id => opPlicRead l (.prio id)
  | .plicPrioW l id v => opPlicWrite l (.prio id) v
  | .plicPendLoR l => opPlicRead l .pendLo
  | .plicPendHiR l => opPlicRead l .pendHi
  | .plicEnableLoR l c => opPlicRead l (.enableLo c)
  | .plicEnableLoW l c v => opPlicWrite l (.enableLo c) v
  | .plicEnableHiR l c => opPlicRead l (.enableHi c)
  | .plicEnableHiW l c v => opPlicWrite l (.enableHi c) v
  | .plicThresholdR l c => opPlicRead l (.threshold c)
  | .plicThresholdW l c v => opPlicWrite l (.threshold c) v
  | .plicClaimR l c => opPlicRead l (.claim c)
  | .plicCompleteW l c v => opPlicWrite l (.claim c) v
  | .clintMsipR h => opClintRead (.msip h)
  | .clintMsipW h v => opClintWrite (.msip h) (v.setWidth 64)
  | .clintMtimecmpR h => opClintRead (.mtimecmp h .full)
  | .clintMtimecmpLoR h => opClintRead (.mtimecmp h .lo)
  | .clintMtimecmpHiR h => opClintRead (.mtimecmp h .hi)
  | .clintMtimecmpW h v => opClintWrite (.mtimecmp h .full) v
  | .clintMtimecmpLoW h v => opClintWrite (.mtimecmp h .lo) (v.setWidth 64)
  | .clintMtimecmpHiW h v => opClintWrite (.mtimecmp h .hi) (v.setWidth 64)
  | .clintMtimeR => opClintRead (.mtime .full)
  | .clintMtimeLoR => opClintRead (.mtime .lo)
  | .clintMtimeHiR => opClintRead (.mtime .hi)
  | .clintMtimeW v => opClintWrite (.mtime .full) v
  | .clintMtimeLoW v => opClintWrite (.mtime .lo) (v.setWidth 64)
  | .clintMtimeHiW v => opClintWrite (.mtime .hi) (v.setWidth 64)
  | .uartDataR k => opUartRead k .data
  | .uartDataW k b => opUartWrite k .data (b.setWidth 32)
  | .uartStatusR k => opUartRead k .status
  | .uartCtrlR k => opUartRead k .ctrl
  | .uartCtrlW k v => opUartWrite k .ctrl v
  | .timerCntLoR k => opTimerRead k .cntLo
  | .timerCntLoW k v => opTimerWrite k .cntLo v
  | .timerCntHiR k => opTimerRead k .cntHi
  | .timerCntHiW k v => opTimerWrite k .cntHi v
  | .timerCmpLoR k => opTimerRead k .cmpLo
  | .timerCmpLoW k v => opTimerWrite k .cmpLo v
  | .timerCmpHiR k => opTimerRead k .cmpHi
  | .timerCmpHiW k v => opTimerWrite k .cmpHi v
  | .timerCtrlR k => opTimerRead k .ctrl
  | .timerCtrlW k v => opTimerWrite k .ctrl v
  | .timerStatusR k => opTimerRead k .status
  | .timerStatusW k v => opTimerWrite k .status v
  | .timerTickR k => opTimerRead k .tick
  | .timerTickW k v => opTimerWrite k .tick v
  | .dmaSrcLoR k => opDmaRead k .srcLo
  | .dmaSrcLoW k v => opDmaWrite k .srcLo v
  | .dmaSrcHiR k => opDmaRead k .srcHi
  | .dmaSrcHiW k v => opDmaWrite k .srcHi v
  | .dmaDstLoR k => opDmaRead k .dstLo
  | .dmaDstLoW k v => opDmaWrite k .dstLo v
  | .dmaDstHiR k => opDmaRead k .dstHi
  | .dmaDstHiW k v => opDmaWrite k .dstHi v
  | .dmaLenR k => opDmaRead k .len
  | .dmaLenW k v => opDmaWrite k .len v
  | .dmaCtrlR k => opDmaRead k .ctrl
  | .dmaCtrlW k v => opDmaWrite k .ctrl v
  | .dmaStatusR k => opDmaRead k .status
  | .dmaStatusW k v => opDmaWrite k .status v
  | .romRead k off width => opRomRead k off width
  | .romWrite k off bs => opRomWrite k off bs

/-- A call that does not decode: refused (R150, R151), but for the UART accesses that R411 gives an error. -/
def rejectedCall (r : Reject) : Op Value :=
  match r with
  | .noRow (.uart k) _ width off => do
    noRow (.uart k) off.toNat width
    return .unit
  | r => refuse (.badCall r)

/-- One call of a list, and the values that follow it; an access that does not decode is one value. -/
def callOf (op : Instr → Op Value) (ts : List Token) : Op Value × List Token :=
  match decode ts with
  | .ok (i, rest) => (op i, rest)
  | .error r => (rejectedCall r, ts.tail)

/-- The calls of a handler, in order: one that `attempt` precedes may fail and the handler goes on, any other error ends
the handler. A call takes at least one value, so `fuel = len(ts)` turns suffice. -/
def runCalls (op : Instr → Op Value) : Nat → List Token → Op Unit
  | 0, _ => pure ()
  | _ + 1, [] => pure ()
  | fuel + 1, .attempt :: ts => do
    let _ ← attempt (callOf op ts).1
    runCalls op fuel (callOf op ts).2
  | fuel + 1, ts => do
    let _ ← (callOf op ts).1
    runCalls op fuel (callOf op ts).2

/-- The address of a context's CLAIM and COMPLETE register, as attached (R472). -/
def PlicAttach.claimVa (p : PlicAttach) (ctx : Nat) : Nat := p.base.toNat + p.layout.ctxBase + ctx * p.layout.stride + 12

/-- `poll_interrupts(ctx, handler?)` (R472), `run` being what runs a handler's calls: claim by a load, the handler whose
error is discarded, complete by a store. -/
def pollWith (run : List Token → Op Unit) (ctx : Nat) (handler : Option (List Token)) : Op Value := do
  let s ← get
  let p ← need s.cpu.plicAttach .noPlicAttached
  let va := p.claimVa ctx
  let id ← load va 4 false
  if id ≠ 0 then
    match handler with
    | some ts =>
      let _ ← attempt (run ts)
    | none => pure ()
    store va 4 id
  return .int id

/-- The calls of a handler, among them `poll_interrupts` with a handler of its own, to a depth. -/
def runHandler : Nat → List Token → Op Unit
  | 0 => fun _ => pure ()
  | depth + 1 => fun ts => runCalls (opOf (pollWith (runHandler depth))) ts.length ts

/-- `CPU.poll_interrupts(ctx, handler?)` (R472). A handler's values hold the values of every handler inside it, so their
number bounds the depth. -/
def opCpuPollInterrupts (ctx : Nat) (handler : Option (List Token)) : Op Value :=
  pollWith (runHandler (handler.getD []).length) ctx handler

/-- CPU.POLL_INTERRUPTS (R472). -/
def execCpuPollInterrupts (ctx : Nat) (handler : Option (List Token)) (s : State) : Host.Outcome State Fault Refusal :=
  finish (opCpuPollInterrupts ctx handler) s

end Sys2Proof.Machine
end

