-- ==== Sys2Proof/Machine/Fetch.lean ====
section
/-! DEFINITION. The next call of the host: how `step` takes it from the calls the state holds (log 4), and what a call
that does not decode does (spec/30_encoding.md R150, R151). -/

namespace Sys2Proof.Machine

/-- The next operation and the state in which it runs, its values taken from the calls; or why the next call is none. -/
def fetchCall (s : State) : Except Reject (Instr × State) :=
  match decode s.calls with
  | .ok (i, rest) => .ok (i, { s with calls := rest })
  | .error r => .error r

/-- What a call that does not decode does: it is refused (R150, R151), but for the UART accesses that R411 gives an
error, after which the host goes on with its next call. -/
def execRejected (r : Reject) (s : State) : Host.Outcome State Fault Refusal :=
  finish (rejectedCall r) { s with calls := s.calls.tail }

/-- The state whose next call is the one a word of the opcode table stands for (log 5). -/
def placeCall (s : State) (nbits w : Nat) : State := { s with calls := tableTokens nbits w }

end Sys2Proof.Machine
end

