-- ==== Sys2Proof/Machine/Dispatch.lean ====
section
/-! DEFINITION. One arm per operation, each one direct call of its meaning. -/

namespace Sys2Proof.Machine

/-- What an operation of the block does to the state. -/
def exec (i : Instr) (s : State) : Host.Outcome State Fault Refusal :=
  match i with
  | .dramReadBytes addr n => Sys2Proof.Machine.execDramReadBytes addr n s
  | .dramWriteBytes addr bs => Sys2Proof.Machine.execDramWriteBytes addr bs s
  | .dramFill addr n v => Sys2Proof.Machine.execDramFill addr n v s
  | .dramCopy dest src n => Sys2Proof.Machine.execDramCopy dest src n s
  | .dramPeek addr => Sys2Proof.Machine.execDramPeek addr s
  | .dramLoadImage addr bs => Sys2Proof.Machine.execDramLoadImage addr bs s
  | .busMapRam name base size offset => Sys2Proof.Machine.execBusMapRam name base size offset s
  | .busRegisterMmio name device => Sys2Proof.Machine.execBusRegisterMmio name device s
  | .busReadBytes pa n => Sys2Proof.Machine.execBusReadBytes pa n s
  | .busWriteBytes pa bs => Sys2Proof.Machine.execBusWriteBytes pa bs s
  | .mmuSetAsid asid => Sys2Proof.Machine.execMmuSetAsid asid s
  | .mmuMapPage vpn pframe perm asid => Sys2Proof.Machine.execMmuMapPage vpn pframe perm asid s
  | .mmuUnmapPage vpn asid => Sys2Proof.Machine.execMmuUnmapPage vpn asid s
  | .mmuTranslate va => Sys2Proof.Machine.execMmuTranslate va s
  | .mmuSetPageAttributes vpn attrs asid => Sys2Proof.Machine.execMmuSetPageAttributes vpn attrs asid s
  | .mmuFlushTlb asid => Sys2Proof.Machine.execMmuFlushTlb asid s
  | .mmuFlushTlbEntry vpn asid => Sys2Proof.Machine.execMmuFlushTlbEntry vpn asid s
  | .mmuCheckAccess va kind => Sys2Proof.Machine.execMmuCheckAccess va kind s
  | .cacheRead pa which => Sys2Proof.Machine.execCacheRead pa which s
  | .cacheWriteBytes pa bs which => Sys2Proof.Machine.execCacheWriteBytes pa bs which s
  | .cachePrefetchLine l b => Sys2Proof.Machine.execCachePrefetchLine l b s
  | .cacheFlushLine addr l => Sys2Proof.Machine.execCacheFlushLine addr l s
  | .cacheFlushAll l => Sys2Proof.Machine.execCacheFlushAll l s
  | .cacheStats l => Sys2Proof.Machine.execCacheStats l s
  | .cpuFetch va size => Sys2Proof.Machine.execCpuFetch va size s
  | .cpuLoad va size signed => Sys2Proof.Machine.execCpuLoad va size signed s
  | .cpuStore va size value signed => Sys2Proof.Machine.execCpuStore va size value signed s
  | .cpuMemoryBarrier => Sys2Proof.Machine.execCpuMemoryBarrier s
  | .cpuPrefetchData va => Sys2Proof.Machine.execCpuPrefetchData va s
  | .cpuPrefetchInst va => Sys2Proof.Machine.execCpuPrefetchInst va s
  | .cpuFlushIcache => Sys2Proof.Machine.execCpuFlushIcache s
  | .cpuFlushDcache => Sys2Proof.Machine.execCpuFlushDcache s
  | .cpuFlushL2 => Sys2Proof.Machine.execCpuFlushL2 s
  | .cpuFlushL3 => Sys2Proof.Machine.execCpuFlushL3 s
  | .cpuFlushTlb asid => Sys2Proof.Machine.execCpuFlushTlb asid s
  | .cpuMapPage vpn pframe perm asid => Sys2Proof.Machine.execCpuMapPage vpn pframe perm asid s
  | .cpuUnmapPage vpn asid => Sys2Proof.Machine.execCpuUnmapPage vpn asid s
  | .cpuSetPageAttributes vpn attrs asid => Sys2Proof.Machine.execCpuSetPageAttributes vpn attrs asid s
  | .cpuSetAsid asid => Sys2Proof.Machine.execCpuSetAsid asid s
  | .cpuAttachPlic base layout ctxId => Sys2Proof.Machine.execCpuAttachPlic base layout ctxId s
  | .cpuAttachClint hart => Sys2Proof.Machine.execCpuAttachClint hart s
  | .cpuSampleIrqs => Sys2Proof.Machine.execCpuSampleIrqs s
  | .cpuMaybeTakeInterrupt => Sys2Proof.Machine.execCpuMaybeTakeInterrupt s
  | .cpuCompleteTrap => Sys2Proof.Machine.execCpuCompleteTrap s
  | .cpuPollInterrupts ctx handler => Sys2Proof.Machine.execCpuPollInterrupts ctx handler s
  | .cpuTrapEnter cause isInterrupt => Sys2Proof.Machine.execCpuTrapEnter cause isInterrupt s
  | .cpuMret => Sys2Proof.Machine.execCpuMret s
  | .cpuShouldTakeInterrupt => Sys2Proof.Machine.execCpuShouldTakeInterrupt s
  | .cpuCsrRead field => Sys2Proof.Machine.execCpuCsrRead field s
  | .cpuCsrWrite field value => Sys2Proof.Machine.execCpuCsrWrite field value s
  | .plicRaise id => Sys2Proof.Machine.execPlicRaise id s
  | .plicLower id => Sys2Proof.Machine.execPlicLower id s
  | .plicGetContextIrq c => Sys2Proof.Machine.execPlicGetContextIrq c s
  | .clintAdvance n => Sys2Proof.Machine.execClintAdvance n s
  | .clintGetIrqLevels h => Sys2Proof.Machine.execClintGetIrqLevels h s
  | .timerAdvance k n => Sys2Proof.Machine.execTimerAdvance k n s
  | .uartPushRx k b => Sys2Proof.Machine.execUartPushRx k b s
  | .plicPrioR l id => Sys2Proof.Machine.execPlicPrioR l id s
  | .plicPrioW l id v => Sys2Proof.Machine.execPlicPrioW l id v s
  | .plicPendLoR l => Sys2Proof.Machine.execPlicPendLoR l s
  | .plicPendHiR l => Sys2Proof.Machine.execPlicPendHiR l s
  | .plicEnableLoR l c => Sys2Proof.Machine.execPlicEnableLoR l c s
  | .plicEnableLoW l c v => Sys2Proof.Machine.execPlicEnableLoW l c v s
  | .plicEnableHiR l c => Sys2Proof.Machine.execPlicEnableHiR l c s
  | .plicEnableHiW l c v => Sys2Proof.Machine.execPlicEnableHiW l c v s
  | .plicThresholdR l c => Sys2Proof.Machine.execPlicThresholdR l c s
  | .plicThresholdW l c v => Sys2Proof.Machine.execPlicThresholdW l c v s
  | .plicClaimR l c => Sys2Proof.Machine.execPlicClaimR l c s
  | .plicCompleteW l c v => Sys2Proof.Machine.execPlicCompleteW l c v s
  | .clintMsipR h => Sys2Proof.Machine.execClintMsipR h s
  | .clintMsipW h v => Sys2Proof.Machine.execClintMsipW h v s
  | .clintMtimecmpR h => Sys2Proof.Machine.execClintMtimecmpR h s
  | .clintMtimecmpLoR h => Sys2Proof.Machine.execClintMtimecmpLoR h s
  | .clintMtimecmpHiR h => Sys2Proof.Machine.execClintMtimecmpHiR h s
  | .clintMtimecmpW h v => Sys2Proof.Machine.execClintMtimecmpW h v s
  | .clintMtimecmpLoW h v => Sys2Proof.Machine.execClintMtimecmpLoW h v s
  | .clintMtimecmpHiW h v => Sys2Proof.Machine.execClintMtimecmpHiW h v s
  | .clintMtimeR => Sys2Proof.Machine.execClintMtimeR s
  | .clintMtimeLoR => Sys2Proof.Machine.execClintMtimeLoR s
  | .clintMtimeHiR => Sys2Proof.Machine.execClintMtimeHiR s
  | .clintMtimeW v => Sys2Proof.Machine.execClintMtimeW v s
  | .clintMtimeLoW v => Sys2Proof.Machine.execClintMtimeLoW v s
  | .clintMtimeHiW v => Sys2Proof.Machine.execClintMtimeHiW v s
  | .uartDataR k => Sys2Proof.Machine.execUartDataR k s
  | .uartDataW k b => Sys2Proof.Machine.execUartDataW k b s
  | .uartStatusR k => Sys2Proof.Machine.execUartStatusR k s
  | .uartCtrlR k => Sys2Proof.Machine.execUartCtrlR k s
  | .uartCtrlW k v => Sys2Proof.Machine.execUartCtrlW k v s
  | .timerCntLoR k => Sys2Proof.Machine.execTimerCntLoR k s
  | .timerCntLoW k v => Sys2Proof.Machine.execTimerCntLoW k v s
  | .timerCntHiR k => Sys2Proof.Machine.execTimerCntHiR k s
  | .timerCntHiW k v => Sys2Proof.Machine.execTimerCntHiW k v s
  | .timerCmpLoR k => Sys2Proof.Machine.execTimerCmpLoR k s
  | .timerCmpLoW k v => Sys2Proof.Machine.execTimerCmpLoW k v s
  | .timerCmpHiR k => Sys2Proof.Machine.execTimerCmpHiR k s
  | .timerCmpHiW k v => Sys2Proof.Machine.execTimerCmpHiW k v s
  | .timerCtrlR k => Sys2Proof.Machine.execTimerCtrlR k s
  | .timerCtrlW k v => Sys2Proof.Machine.execTimerCtrlW k v s
  | .timerStatusR k => Sys2Proof.Machine.execTimerStatusR k s
  | .timerStatusW k v => Sys2Proof.Machine.execTimerStatusW k v s
  | .timerTickR k => Sys2Proof.Machine.execTimerTickR k s
  | .timerTickW k v => Sys2Proof.Machine.execTimerTickW k v s
  | .dmaSrcLoR k => Sys2Proof.Machine.execDmaSrcLoR k s
  | .dmaSrcLoW k v => Sys2Proof.Machine.execDmaSrcLoW k v s
  | .dmaSrcHiR k => Sys2Proof.Machine.execDmaSrcHiR k s
  | .dmaSrcHiW k v => Sys2Proof.Machine.execDmaSrcHiW k v s
  | .dmaDstLoR k => Sys2Proof.Machine.execDmaDstLoR k s
  | .dmaDstLoW k v => Sys2Proof.Machine.execDmaDstLoW k v s
  | .dmaDstHiR k => Sys2Proof.Machine.execDmaDstHiR k s
  | .dmaDstHiW k v => Sys2Proof.Machine.execDmaDstHiW k v s
  | .dmaLenR k => Sys2Proof.Machine.execDmaLenR k s
  | .dmaLenW k v => Sys2Proof.Machine.execDmaLenW k v s
  | .dmaCtrlR k => Sys2Proof.Machine.execDmaCtrlR k s
  | .dmaCtrlW k v => Sys2Proof.Machine.execDmaCtrlW k v s
  | .dmaStatusR k => Sys2Proof.Machine.execDmaStatusR k s
  | .dmaStatusW k v => Sys2Proof.Machine.execDmaStatusW k v s
  | .romRead k off width => Sys2Proof.Machine.execRomRead k off width s
  | .romWrite k off bs => Sys2Proof.Machine.execRomWrite k off bs s

end Sys2Proof.Machine
end

