-- ==== Sys2Proof/Machine/Step.lean ====
section
/-! DEFINITION. One step of the block: the host's next call, performed to completion (spec/00_scope.md R7). -/

namespace Sys2Proof.Machine

/-- One step. A block of an illegal configuration is not built (R9); with no call pending nothing happens, since nothing
in the block acts on its own (R7, R474, R487); else the next call runs. -/
def step (s : State) : Host.Outcome State Fault Refusal :=
  match s.cfg.firstBad with
  | some p => .fault (.badConfig p)
  | none =>
    if s.calls = [] then .next s
    else
      match fetchCall s with
      | .ok (i, t) => exec i t
      | .error r => execRejected r s

/-- The state whose next step runs the operation of a word of the opcode table (log 4, log 5). -/
def State.withFetchWord (s : State) (nbits w : Nat) : State := placeCall s nbits w

end Sys2Proof.Machine
end

