-- ==== Sys2Proof/Safety.lean ====
section
/-! DEFINITION. The terms in which claims about the block are made: what a state returns to the host, the bytes of DRAM,
a translation that hits the TLB, an access that stays in one RAM region, and the invariants that every operation keeps
(spec/10_state.md R33, R35, R38, R45, R48, R51; spec/45_plic.md R364; spec/47_peripherals_dma.md R455). A run is safe
when every step answers a next state: an error of spec/60_exceptions.md R460 is such a state, a refusal or a fault is
not. -/

namespace Sys2Proof.Machine

/-! ## Configuration -/

/-- The legal values of R8: the geometry of each level, one line size at every level, a page size that is a power of two,
the bounds of the TLB, the DRAM, the PLIC and the CLINT, a prefetch target but l1i, and sinks that name a source. -/
structure ConfigLegal (c : Config) : Prop where
  /-- `line_size` a power of two, `num_sets = size / (line_size * associativity)` integral and at least 1. -/
  geometry : ∀ l, (∃ n, (c.levelCfg l).lineSize = 2 ^ n) ∧ 1 ≤ (c.levelCfg l).associativity ∧
    ∃ n, 1 ≤ n ∧ (c.levelCfg l).size = n * ((c.levelCfg l).lineSize * (c.levelCfg l).associativity)
  lineSizes : ∀ l, (c.levelCfg l).lineSize = c.l1d.lineSize
  pageSize : ∃ n, c.pageSize = 2 ^ n
  tlb : 1 ≤ c.tlbEntries
  dram : 1 ≤ c.dramSize
  target : c.prefetch.target ≠ .l1i
  sources : 1 ≤ c.plic.sources ∧ c.plic.sources ≤ 64
  contexts : 1 ≤ c.plic.contexts ∧ c.plic.contexts ≤ 8
  harts : 1 ≤ c.clint.harts ∧ c.clint.harts ≤ 4095
  uartSinks : ∀ x ∈ c.uarts, ∀ id ∈ x.sink, 1 ≤ id ∧ id ≤ c.plic.sources
  timerSinks : ∀ x ∈ c.timers, ∀ id ∈ x.sink, 1 ≤ id ∧ id ≤ c.plic.sources
  dmaSinks : ∀ x ∈ c.dmas, ∀ id ∈ x.sink, 1 ≤ id ∧ id ≤ c.plic.sources

/-! ## Results -/

/-- The state after an operation that returned `ok(v)` (R16). -/
def State.ok (s : State) (v : Value) : State := { s with result := .ok v }

/-- The state after an operation that returned `err(k)` (R16). -/
def State.err (s : State) (k : ErrKind) : State := { s with result := .err { kind := k } }

/-- Step s answers a next state whatever the host's call was: the block neither faults nor is outside its spec. -/
def safeStep (s : State) : Prop := ∃ t, step s = .next t

/-! ## Memory -/

/-- `byte(o)` of the DRAM (R33). -/
def State.dramByte (s : State) (o : Nat) : Byte := Memory.read s.cfg.fillByte s.dram.cells o

/-- The DRAM offset that a physical address reaches, if it lies in a RAM region (R181). -/
def State.ramOffset (s : State) (a : Nat) : Option Nat :=
  match s.bus.find a with
  | some r => match r.kind with
    | .ram o => some (o + (a - r.base))
    | .mmio _ _ => none
  | none => none

/-- The n bytes from physical address `a` on, n at least 1, lie in one RAM region, at the DRAM's offset `o` within its
size. -/
def State.ramRange (s : State) (a n o : Nat) : Prop :=
  1 ≤ n ∧ a < 2 ^ 64 ∧ s.ramOffset a = some o ∧ o + n ≤ s.cfg.dramSize ∧
    ∃ r, s.bus.find a = some r ∧ a + n ≤ r.base + r.size

/-- The n bytes of the DRAM from offset `o` on. -/
def State.dramBytes (s : State) (o n : Nat) : List Byte := (List.range n).map fun i => s.dramByte (o + i)

/-- The bus after one read transfer of one chunk (R182). -/
def Bus.afterRead (b : Bus) (a : Nat) (bs : List Byte) : Bus :=
  { b with reads := b.reads + 1, readBytes := b.readBytes + bs.length, trace := b.trace ++ [⟨.R, a, bs⟩] }

/-- The bus after one write transfer of one chunk (R183). -/
def Bus.afterWrite (b : Bus) (a : Nat) (bs : List Byte) : Bus :=
  { b with writes := b.writes + 1, writeBytes := b.writeBytes + bs.length, trace := b.trace ++ [⟨.W, a, bs⟩] }

/-- The DRAM of t is that of s but for `bs` at offset `o`: every byte outside them reads as before. -/
def State.storedAt (s t : State) (o : Nat) (bs : List Byte) : Prop :=
  t.dram.faultCount = s.dram.faultCount ∧
    ∀ x, Memory.read s.cfg.fillByte t.dram.cells x =
      if o ≤ x ∧ x < o + bs.length then bs.getD (x - o) 0 else s.dramByte x

/-- The cells hold `bs` where the bytes from physical address `a` on reach RAM, the last of them where two reach one
offset, and what s's hold everywhere else. -/
def State.storedThrough (s : State) (cells : Memory) (a : Nat) (bs : List Byte) : Prop :=
  (∀ i o, i < bs.length → s.ramOffset (a + i) = some o →
    (∀ j, i < j → j < bs.length → s.ramOffset (a + j) ≠ some o) → Memory.read s.cfg.fillByte cells o = bs.getD i 0) ∧
  ∀ x, (∀ i < bs.length, s.ramOffset (a + i) ≠ some x) → Memory.read s.cfg.fillByte cells x = s.dramByte x

/-- The regions are sorted by base, non-empty, inside the address space, and never overlap (R34, R35). -/
def RegionsOk (b : Bus) : Prop :=
  b.regions.Pairwise (fun q r => q.base + q.size ≤ r.base) ∧ ∀ r ∈ b.regions, 1 ≤ r.size ∧ r.base + r.size ≤ 2 ^ 64

/-! ## Translation -/

/-- The virtual address va hits the TLB in the current ASID and translates to `pa` through the entry `p` (R211). -/
def State.tlbHit (s : State) (va pa : Nat) (p : Pte) : Prop :=
  ∃ e, Tab.get s.mmu.tlb (s.mmu.currentAsid, va >>> Nat.log2 s.cfg.pageSize) = some e ∧
    s.mmu.pte s.mmu.currentAsid (va >>> Nat.log2 s.cfg.pageSize) = some p ∧
    pa = (e.frame <<< Nat.log2 s.cfg.pageSize) ||| (va &&& (s.cfg.pageSize - 1)) ∧ pa < 2 ^ 64

/-- The state after a translation of va that hit the TLB: its tick, the clock and the hit counter have moved (R211). -/
def State.afterHit (s : State) (va : Nat) : State :=
  let k := (s.mmu.currentAsid, va >>> Nat.log2 s.cfg.pageSize)
  { s with mmu := { s.mmu with
      tlb := match Tab.get s.mmu.tlb k with
        | some e => Tab.set pairLt s.mmu.tlb k { e with tick := s.mmu.tlbClock + 1 }
        | none => s.mmu.tlb
      tlbClock := s.mmu.tlbClock + 1
      tlbHits := s.mmu.tlbHits + 1 } }

/-- The checks of R310 pass: a size the CPU has, no wrap, one page. -/
def State.accessOk (s : State) (va size : Nat) : Prop :=
  (size = 1 ∨ size = 2 ∨ size = 4 ∨ size = 8) ∧ size ≤ (match s.cfg.xlen with
    | .x32 => 4
    | .x64 => 8) ∧
    va + size ≤ 2 ^ 64 ∧ va >>> Nat.log2 s.cfg.pageSize = (va + size - 1) >>> Nat.log2 s.cfg.pageSize

/-! ## Devices -/

/-- A device's region and caps as its rule gives them (R113, R350, R351, R391, R411, R420, R430, R450). -/
def State.deviceShape (s : State) : DevRef → Option (Nat × Nat × Caps)
  | .plic => some (s.cfg.plic.base.toNat,
      (match s.cfg.plic.layout with
        | .compact => 0x180 + s.cfg.plic.contexts * 0x20
        | .canonical => 0x2000 + s.cfg.plic.contexts * 0x1000),
      { align := 4, widths := some [4] })
  | .clint => some (s.cfg.clint.base.toNat, 0xC000, { align := 4, widths := some [4, 8] })
  | .uart k => (s.cfg.uarts[k]?).map fun c => (c.base.toNat, 16, { align := 4, widths := some [1, 4] })
  | .timer k => (s.cfg.timers[k]?).map fun c => (c.base.toNat, 32, { align := 4, widths := some [4] })
  | .dma k => (s.cfg.dmas[k]?).map fun c => (c.base.toNat, 32, { align := 4, widths := some [4] })
  | .rom k => match s.cfg.roms[k]?, s.roms[k]? with
    | some c, some m => some (c.base.toNat, m.contents.length, { align := 1, widths := none })
    | _, _ => none

/-- The format of the accesses to a device's registers (R142). -/
def State.formatOf (s : State) : DevRef → Format
  | .plic => .plic s.cfg.plic.layout
  | .clint => .clint
  | .uart k => .uart k
  | .timer k => .timer k
  | .dma k => .dma k
  | .rom k => .rom k

/-- The n bytes from `a` on lie in the region `r` of the bus, which is the device d's, and the access passes R180: with
strict MMIO the offset is a multiple of the alignment and n is one of the widths. -/
def State.reachesDevice (s : State) (a n : Nat) (r : Region) (d : DevRef) : Prop :=
  1 ≤ n ∧ s.bus.find a = some r ∧ a + n ≤ r.base + r.size ∧ ∃ caps, r.kind = .mmio d caps ∧
    (s.cfg.strictMmio = true → (a - r.base) % caps.align = 0 ∧ ∀ ws, caps.widths = some ws → n ∈ ws)

/-- A device's sink names a source the PLIC has, or there is none (R8). -/
def State.sinkFits (s : State) (sink : Option Nat) : Prop := ∀ id ∈ sink, 1 ≤ id ∧ id ≤ s.cfg.plic.sources

/-- The PLIC after a device's output went from `old` to `new` (R455). -/
def State.sinkPlic (s : State) (sink : Option Nat) (old new : Bool) : Plic :=
  match sink with
  | none => s.plic
  | some id =>
    if old = new then s.plic
    else if new then s.plic.raised s.cfg.plic.mode id
    else s.plic.lowered s.cfg.plic.mode id

/-- A source that the claim search may select for context c (R353). -/
def State.claimable (s : State) (c id : Nat) : Prop :=
  1 ≤ id ∧ id ≤ s.cfg.plic.sources ∧ (s.plic.enable.getD c 0).getLsbD (id - 1) = true ∧
    s.plic.pending.getLsbD (id - 1) = true ∧ 0 < (s.plic.priority.getD (id - 1) 0).toNat ∧
    (s.plic.threshold.getD c 0).toNat < (s.plic.priority.getD (id - 1) 0).toNat

/-- `best(c)` is id: the lowest of the claimable sources of the highest priority, 0 when there is none (R353). -/
def State.isBest (s : State) (c id : Nat) : Prop :=
  (id = 0 ∧ ∀ j, ¬ s.claimable c j) ∨
    (s.claimable c id ∧ ∀ j, s.claimable c j →
      (s.plic.priority.getD (j - 1) 0).toNat < (s.plic.priority.getD (id - 1) 0).toNat ∨
        ((s.plic.priority.getD (j - 1) 0).toNat = (s.plic.priority.getD (id - 1) 0).toNat ∧ id ≤ j))

/-! ## Cache -/

/-- Some way of the set that an address selects at a level holds no valid line. -/
def State.wayFree (s : State) (l : Level) (a : Nat) : Prop :=
  ∃ w < s.cfg.ways l, (s.line l (Config.setOf s.cfg l a, w)).valid = false

/-- Level l of t holds the block of `a`, clean, with bytes `d`. -/
def State.holdsClean (t : State) (l : Level) (a : Nat) (d : List Byte) : Prop :=
  ∃ q, t.lookup a l = some q ∧ (t.line l q).data = d ∧ (t.line l q).dirty = false

/-- The byte that a level's dirty line holds at a physical address. -/
def State.dirtyByte (s : State) (l : Level) (a : Nat) : Option Byte :=
  match s.lookup a l with
  | some q => if (s.line l q).dirty then some ((s.line l q).data.getD (a % s.cfg.lineSize) 0) else none
  | none => none

/-- The newest byte of a physical address (R274): that of the dirty line nearest to the CPU on the data side, else what DRAM
holds where the address reaches it. -/
def State.newest (s : State) (a : Nat) : Byte :=
  ((s.dirtyByte .l1d a).or ((s.dirtyByte .l2 a).or (s.dirtyByte .l3 a))).getD
    ((s.ramOffset a).elim 0 s.dramByte)

/-- What a read of a block answers (R256): the line of the nearest level that holds it, else DRAM's bytes from offset `o` on. -/
def State.lineOf (s : State) (pa : Nat) (c : Side) (o : Nat) : List Byte :=
  match s.lookup pa c.level, s.lookup pa .l2, s.lookup pa .l3 with
  | some q, _, _ => (s.line c.level q).data
  | none, some q, _ => (s.line .l2 q).data
  | none, none, some q => (s.line .l3 q).data
  | none, none, none => s.dramBytes o s.cfg.lineSize

/-- The cache after a read that hit the line of a slot at a level (R252): the line stamped, a hit counted. -/
def State.cacheHit (s : State) (l : Level) (q : Nat × Nat) : Cache :=
  { s.cache.setLevel l
      { lines := Tab.set pairLt (s.cache.level l).lines q { s.line l q with lru := s.cache.globalCounter + 1 }
        stats := { (s.cache.level l).stats with hits := (s.cache.level l).stats.hits + 1 } } with
    globalCounter := s.cache.globalCounter + 1 }

/-- The inclusion invariants (R45), with what makes them inductive: every listed slot is in range, valid, listed once, and
is the slot that a look-up of its block finds (R251: "at most one way matches"). -/
structure Inclusion (s : State) : Prop where
  sorted : ∀ l, (s.cache.level l).lines.Pairwise fun x y => pairLt x.1 y.1 = true
  slot : ∀ l q x, (q, x) ∈ (s.cache.level l).lines →
    x.valid = true ∧ q.1 < s.cfg.numSets l ∧ q.2 < s.cfg.ways l ∧ s.lookup (Config.addrOf s.cfg l q x) l = some q
  /-- (a): a first-level line's block is at L2, with the presence flag set. -/
  l1 : ∀ (c : Side) q x, (q, x) ∈ (s.cache.level c.level).lines →
    ∃ q2, s.lookup (Config.addrOf s.cfg c.level q x) .l2 = some q2 ∧ (s.line .l2 q2).presentIn c = true
  /-- (b): an L2 line's block is at L3, with the presence flag set. -/
  l2 : ∀ q x, (q, x) ∈ s.cache.l2.lines →
    ∃ q3, s.lookup (Config.addrOf s.cfg .l2 q x) .l3 = some q3 ∧ (s.line .l3 q3).presentL2 = true
  /-- Conversely, L2 says a first-level cache holds a block only while it does. -/
  l1Back : ∀ (c : Side) q x, (q, x) ∈ s.cache.l2.lines → x.presentIn c = true →
    ∃ q1, s.lookup (Config.addrOf s.cfg .l2 q x) c.level = some q1
  /-- Conversely, L3 says L2 holds a block only while it does. -/
  l2Back : ∀ q x, (q, x) ∈ s.cache.l3.lines → x.presentL2 = true →
    ∃ q2, s.lookup (Config.addrOf s.cfg .l3 q x) .l2 = some q2

/-- The cache and what is under it are in order (R45, R125): inclusion holds, every line is a line long, none of L1I is dirty,
every block that L3 holds lies in one RAM region, and no two addresses reach one byte of DRAM. -/
structure CacheSound (s : State) : Prop where
  legal : ConfigLegal s.cfg
  inclusion : Inclusion s
  length : ∀ l q x, (q, x) ∈ (s.cache.level l).lines → x.data.length = s.cfg.lineSize
  codeClean : ∀ q x, (q, x) ∈ s.cache.l1i.lines → x.dirty = false
  backed : ∀ q x, (q, x) ∈ s.cache.l3.lines → ∃ o, s.ramRange (Config.addrOf s.cfg .l3 q x) s.cfg.lineSize o
  memory : Memory.wf s.cfg.fillByte s.dram.cells
  regions : RegionsOk s.bus
  injective : ∀ a b o, s.ramOffset a = some o → s.ramOffset b = some o → a = b

/-! ## Invariants of the other components -/

/-- The PLIC has a register for every source and context, no bit of a source above N, and in level mode a source is
pending exactly while its line is high (R51, R358, R364). -/
structure PlicOk (c : PlicCfg) (p : Plic) : Prop where
  priorities : p.priority.length = c.sources
  lines : p.lineHigh.length = c.sources
  enables : p.enable.length = c.contexts
  thresholds : p.threshold.length = c.contexts
  pendingBits : p.pending.toNat < 2 ^ c.sources
  enableBits : ∀ w ∈ p.enable, w.toNat < 2 ^ c.sources
  level : c.mode = .level → ∀ id, 1 ≤ id → id ≤ c.sources → p.pending.getLsbD (id - 1) = p.lineHigh.getD (id - 1) false

/-- The TLB holds at most `tlb_entries` entries, one per key, each of a present page with that page's frame, at a tick of
its own that the clock has passed; the pool holds frames below `max_frames` (R38, R210, R213). -/
structure MmuOk (c : Config) (m : Mmu) : Prop where
  size : m.tlb.length ≤ c.tlbEntries
  sorted : m.tlb.Pairwise fun x y => pairLt x.1 y.1 = true
  ticks : m.tlb.Pairwise fun x y => x.2.tick ≠ y.2.tick
  clock : ∀ x ∈ m.tlb, x.2.tick ≤ m.tlbClock
  pages : ∀ x ∈ m.tlb, ∃ p, m.pte x.1.1 x.1.2 = some p ∧ p.present = true ∧ p.frame = x.2.frame
  pool : ∀ f ∈ m.poolFrames, f < c.maxFrames

/-- What every operation keeps of the DRAM, the bus, the MMU, the write-combining buffer and the PLIC. -/
structure Inv (s : State) : Prop where
  memory : Memory.wf s.cfg.fillByte s.dram.cells
  inDram : ∀ x ∈ s.dram.cells, x.1 < s.cfg.dramSize
  regions : RegionsOk s.bus
  mmu : MmuOk s.cfg s.mmu
  wc : s.cpu.wc.base = none → s.cpu.wc.bytes = []
  plic : PlicOk s.cfg.plic s.plic

/-- Every device's output is at the level of its condition (R455 with R417, R423, R435). -/
structure OutputsOk (s : State) : Prop where
  uarts : ∀ u ∈ s.uarts, u.irqOut = (u.rxEn && !u.rxFifo.isEmpty)
  timers : ∀ t ∈ s.timers, t.irqOut = (t.irqEnable && t.pending)
  dmas : ∀ d ∈ s.dmas, d.irqOut = (d.irqEn && (d.done || d.err))

/-- No statistic of t is below that of s (R44, R184, R462). -/
structure CountersLe (s t : State) : Prop where
  reads : s.bus.reads ≤ t.bus.reads
  writes : s.bus.writes ≤ t.bus.writes
  faults : s.bus.faults ≤ t.bus.faults
  readBytes : s.bus.readBytes ≤ t.bus.readBytes
  writeBytes : s.bus.writeBytes ≤ t.bus.writeBytes
  dramFaults : s.dram.faultCount ≤ t.dram.faultCount
  tlbHits : s.mmu.tlbHits ≤ t.mmu.tlbHits
  tlbMisses : s.mmu.tlbMisses ≤ t.mmu.tlbMisses
  cache : ∀ l, (s.cache.level l).stats.hits ≤ (t.cache.level l).stats.hits ∧
    (s.cache.level l).stats.misses ≤ (t.cache.level l).stats.misses ∧
    (s.cache.level l).stats.fills ≤ (t.cache.level l).stats.fills ∧
    (s.cache.level l).stats.evictions ≤ (t.cache.level l).stats.evictions ∧
    (s.cache.level l).stats.writebacks ≤ (t.cache.level l).stats.writebacks ∧
    (s.cache.level l).stats.prefetches ≤ (t.cache.level l).stats.prefetches

end Sys2Proof.Machine
end

