-- ==== Sys2Proof/Certificates/Slice0/Obligations.lean ====
section
/-! DEFINITION. The statements about the block: its encoding, its step, what each operation returns and changes, and the
invariants every operation keeps. A result statement is an equation on the whole next state, so it is also the
operation's frame: what the right side does not change stays. -/

open Sys2Proof Sys2Proof.Machine

/-! ## Encoding and the step -/

/-- Decoding what encodes a well-formed operation gives the operation and the values that follow it, where a call or
nothing follows it (R141, R142, R144, R145, R147, R149, R150). The record of tokens is the model's form of them (log 5). -/
def Obligations.DecodeOfEncode : Prop :=
  ∀ (i : Instr) (rest : List Token), WellFormed i = true → endsCommand rest = true →
    decode (encode i ++ rest) = .ok (i, rest)

/-- Some records of R147 and accesses of R149, written out, decode to the operation they stand for; a reserved code, an
address past u64, a memory type outside R145, an operand too many and a register that cannot be written are refused. -/
def Obligations.DecodedRecords : Prop :=
  decode [.code 0x04, .nat 1, .nat 2, .nat 3] = .ok (.dramCopy 1 2 3, []) ∧
  decode [.code 0x21, .nat 5, .nat 9, .absent, .absent] = .ok (.mmuMapPage 5 (some 9) none none, []) ∧
  decode [.code 0x27, .nat 4096, .str "write"] = .ok (.mmuCheckAccess 4096 .write, []) ∧
  decode [.code 0x42, .nat 16, .nat 2, .int (-1), .bool true] = .ok (.cpuStore 16 2 (-1) true, []) ∧
  decode [.code 0x59, .nat 4, .nat 1] = .ok (.cpuCsrWrite .meie 1, []) ∧
  decode [.access (.plic .compact) .R 4 0x1AC []] = .ok (.plicClaimR .compact 1, []) ∧
  decode [.access .clint .W 4 0xBFFC [1, 2, 0, 0]] = .ok (.clintMtimeHiW 0x201, []) ∧
  decode [.access (.dma 0) .W 4 0x14 [3, 0, 0, 0]] = .ok (.dmaCtrlW 0 3, []) ∧
  decode [.code 0x24, .nat 7, .record { memtype := some (.str "wc"), dirty := some (.bool true) }, .absent] =
    .ok (.mmuSetPageAttributes 7 { memtype := some .wc, dirty := some true } none, []) ∧
  decode [.code 0x14, .nat 0] = .error (.reservedCode 0x14) ∧
  decode [.code 0x05, .nat (2 ^ 64)] = .error .wrongType ∧
  decode [.code 0x24, .nat 7, .record { memtype := some (.nat 3) }, .absent] = .error .badEnumerated ∧
  decode [.code 0x43, .nat 5] = .error .surplusOperand ∧
  decode [.access (.plic .compact) .W 4 0x100 [1, 0, 0, 0]] = .error (.noRow (.plic .compact) .W 4 0x100)

/-- A step of a block whose configuration is legal (R8) and whose host has calls pending runs the operation that the first
call decodes to, in the state whose calls are those that follow it. The list of pending calls is the model's (log 4). -/
def Obligations.StepRunsDecodedCall : Prop :=
  ∀ (s : State) (i : Instr) (rest : List Token), ConfigLegal s.cfg → decode s.calls = .ok (i, rest) →
    step s = exec i { s with calls := rest }

/-- The other steps. A step is BadConfig exactly when the configuration violates a legal value of R8, and the block is not
built (R9; that a violation which R9's parenthesis leaves out is one too is DEDUCED, log 20). With no call pending nothing
happens (the model's choice, log 4). A call that does not decode is refused (R150, R151), a UART access without a row among
them, but for those that R411 gives an error under strict MMIO; that R411 holds of an access issued as a call of its own
is the model's choice (log 17), and so is the name of each refusal (log 22). -/
def Obligations.StepsThatRunNothing : Prop :=
  (∀ s : State, (∃ p, step s = .fault (.badConfig p)) ↔ ¬ ConfigLegal s.cfg) ∧
  (∀ s : State, ConfigLegal s.cfg → s.calls = [] → step s = .next s) ∧
  (∀ (s : State) (r : Reject), ConfigLegal s.cfg → s.calls ≠ [] → decode s.calls = .error r →
    (∀ k d w off, r ≠ .noRow (.uart k) d w off) → step s = .refused (.badCall r)) ∧
  (∀ (s : State) (k w : Nat) (d : Dir) (off : Word), ConfigLegal s.cfg → s.calls ≠ [] →
    decode s.calls = .error (.noRow (.uart k) d w off) →
    step s =
      if s.cfg.strictMmio = true ∧ ((off = 0 ∧ w = 4) ∨ ((off = 4 ∨ off = 8) ∧ w = 1)) then
        match s.cfg.uarts[k]? with
        | some c => .next ({ s with calls := s.calls.tail }.err (.mmioConstraint (c.base.toNat + off.toNat) w))
        | none => .refused .noSuchDevice
      else .refused .noRegister)

/-! ## Construction -/

/-- At construction (R33, R35, R38, R46, R47, R48, R50 to R53, R55, R501), from any configuration: DRAM, bus, TLB,
write-combining buffer and attachments empty, ASID 0 current with an empty table, every CSR field 0 or false, every cache
line the reset line, every statistic 0, the PLIC, the CLINT, the DMA engines and the UARTs 0 and empty; a timer is 0 but
for TICK, its configured reset value (R8). -/
def Obligations.StateAtConstruction : Prop :=
  (∀ c : Config, (State.init c).cpu =
    { wc := { base := none, bytes := [] }, plicAttach := none, clintAttach := none
      csr :=
        { mie := false, mpie := false, msie := false, mtie := false, meie := false, msip := false, mtip := false,
          meip := false, mcause := 0, mcauseIsInterrupt := false } }) ∧
  (∀ c : Config, (∀ o, (State.init c).dramByte o = c.fillByte) ∧ (State.init c).dram.faultCount = 0 ∧
    (State.init c).bus =
      { regions := [], reads := 0, writes := 0, faults := 0, readBytes := 0, writeBytes := 0, trace := [] } ∧
    (State.init c).mmu =
      { currentAsid := 0, tables := [(0, [])], tlb := [], tlbClock := 0, tlbHits := 0, tlbMisses := 0
        poolFrames := [] }) ∧
  (∀ c : Config,
    (∀ l q, (State.init c).line l q =
      { valid := false, dirty := false, tag := 0, data := List.replicate c.lineSize 0, lru := 0
        presentL1d := false, presentL1i := false, presentL2 := false }) ∧
    (∀ l, ((State.init c).cache.level l).stats =
      { hits := 0, misses := 0, fills := 0, evictions := 0, writebacks := 0, prefetches := 0 }) ∧
    (State.init c).cache.globalCounter = 0) ∧
  (∀ c : Config,
    (State.init c).plic =
      { priority := List.replicate c.plic.sources 0
        lineHigh := List.replicate c.plic.sources false
        pending := 0
        enable := List.replicate c.plic.contexts 0
        threshold := List.replicate c.plic.contexts 0 } ∧
    (State.init c).clint =
      { msip := List.replicate c.clint.harts false
        mtimecmp := List.replicate c.clint.harts 0
        mtime := 0 } ∧
    (∀ d ∈ (State.init c).dmas, d =
      { src := 0, dst := 0, len := 0, irqEn := false
        busy := false, done := false, err := false, irqOut := false }) ∧
    (∀ u ∈ (State.init c).uarts, u = { rxFifo := [], rxEn := false, irqOut := false, tx := [] }) ∧
    (State.init c).timers = c.timers.map (fun x =>
      { cnt := 0, cmp := 0, enable := false, irqEnable := false, autoReload := false, pending := false
        tick := x.tick, irqOut := false }) ∧
    (State.init c).roms = c.roms.map (fun x => { contents := x.image }))

/-! ## Invariants of every step -/

/-- No operation changes the configuration (R505). -/
def Obligations.ConfigurationFixed : Prop :=
  ∀ s t : State, step s = .next t → t.cfg = s.cfg

/-- Every step keeps the invariants of the DRAM, the bus, the MMU, the write-combining buffer and the PLIC. That the cells
are canonical is the model's (logs 7, 12). -/
def Obligations.StepKeepsInv : Prop :=
  ∀ s t : State, Inv s → step s = .next t → Inv t

/-- A block as it is constructed, the reset state among them, has the invariants that every step keeps: the DRAM, bus, MMU,
write-combining buffer and PLIC are sound, the outputs are at their conditions, and the empty cache is inclusive. The
platform of the reset state is the model's choice (log 2). -/
def Obligations.InvariantsAtConstruction : Prop :=
  (∀ c : Config, Inv (State.init c) ∧ OutputsOk (State.init c) ∧ Inclusion (State.init c)) ∧
    Inv State.reset ∧ OutputsOk State.reset ∧ Inclusion State.reset

/-- Every step keeps every device's output at the level of its condition. -/
def Obligations.StepKeepsOutputs : Prop :=
  ∀ s t : State, OutputsOk s → step s = .next t → OutputsOk t

/-- Every step keeps the cache's inclusion invariants. -/
def Obligations.StepKeepsInclusion : Prop :=
  ∀ s t : State, Inclusion s → step s = .next t → Inclusion t

/-- No operation, failed ones included, decreases a statistic (R184, R462). -/
def Obligations.StatisticsMonotone : Prop :=
  ∀ s t : State, step s = .next t → CountersLe s t

/-- The CSR block changes in no operation but the sampling of interrupts, trap entry and return, CSR writes, and what a
handler of `poll_interrupts` does (R462, R466 to R473). -/
def Obligations.CsrsChangeOnlyByTheirOperations : Prop :=
  ∀ (i : Instr) (s t : State), exec i s = .next t →
    (i ≠ .cpuSampleIrqs ∧ i ≠ .cpuMaybeTakeInterrupt ∧ i ≠ .cpuCompleteTrap ∧ i ≠ .cpuMret ∧
      (∀ c b, i ≠ .cpuTrapEnter c b) ∧ (∀ f v, i ≠ .cpuCsrWrite f v) ∧ (∀ c h, i ≠ .cpuPollInterrupts c (some h))) →
    t.cpu.csr = s.cpu.csr

/-- A bus transfer or any register access (R142), a DMA engine's transfer among them, leaves the MMU, the caches, the CPU
and the ROMs unchanged, whether it succeeds or fails (R116, R181, R185). -/
def Obligations.TransfersLeaveCpuAndCaches : Prop :=
  ∀ (i : Instr) (s t : State), exec i s = .next t →
    ((∃ pa n, i = .busReadBytes pa n) ∨ (∃ pa bs, i = .busWriteBytes pa bs) ∨
      ∃ f d w off bs, encode i = [.access f d w off bs]) →
    t.mmu = s.mmu ∧ t.cache = s.cache ∧ t.cpu = s.cpu ∧ t.roms = s.roms ∧ t.draws = s.draws

/-! ## DRAM (R170 to R175) -/

/-- `read_bytes` and `peek` (R170, R174): the bytes in bounds, else AccessViolation and one more fault. The addr of
`read_bytes` is a natural as R170 types it, that of `peek` a u64 as R144 does (log 21). -/
def Obligations.DramReadsBytes : Prop :=
  (∀ (s : State) (addr n : Nat), addr + n ≤ s.cfg.dramSize →
    exec (.dramReadBytes addr n) s = .next (s.ok (.bytes (s.dramBytes addr n)))) ∧
  (∀ (s : State) (addr n : Nat), s.cfg.dramSize < addr + n →
    exec (.dramReadBytes addr n) s =
      .next ({ s with dram := { s.dram with faultCount := s.dram.faultCount + 1 } }.err (.accessViolation addr n))) ∧
  (∀ (s : State) (addr : Word), addr.toNat < s.cfg.dramSize →
    exec (.dramPeek addr) s = .next (s.ok (.byte (s.dramByte addr.toNat)))) ∧
  (∀ (s : State) (addr : Word), s.cfg.dramSize ≤ addr.toNat →
    exec (.dramPeek addr) s =
      .next ({ s with dram := { s.dram with faultCount := s.dram.faultCount + 1 } }.err (.accessViolation addr.toNat 1)))

/-- `write_bytes`, `load_image` and `fill` (R171, R172, R175): in bounds the bytes stand where they were written and every
other byte is unchanged; else AccessViolation, one more fault, and nothing is written. -/
def Obligations.DramWritesBytes : Prop :=
  (∀ (s : State) (addr : Word) (bs : List Byte), Memory.wf s.cfg.fillByte s.dram.cells →
    addr.toNat + bs.length ≤ s.cfg.dramSize → ∃ d, s.storedAt { s with dram := d } addr.toNat bs ∧
      exec (.dramWriteBytes addr bs) s = .next ({ s with dram := d }.ok .unit) ∧
      exec (.dramLoadImage addr bs) s = .next ({ s with dram := d }.ok .unit)) ∧
  (∀ (s : State) (addr : Word) (bs : List Byte), s.cfg.dramSize < addr.toNat + bs.length →
    exec (.dramWriteBytes addr bs) s = .next ({ s with dram :=
      { s.dram with faultCount := s.dram.faultCount + 1 } }.err (.accessViolation addr.toNat bs.length)) ∧
    exec (.dramLoadImage addr bs) s = .next ({ s with dram :=
      { s.dram with faultCount := s.dram.faultCount + 1 } }.err (.accessViolation addr.toNat bs.length))) ∧
  (∀ (s : State) (addr : Word) (n : Nat) (v : Byte), Memory.wf s.cfg.fillByte s.dram.cells → addr.toNat + n ≤ s.cfg.dramSize →
    ∃ d, s.storedAt { s with dram := d } addr.toNat (List.replicate n v) ∧
      exec (.dramFill addr n v) s = .next ({ s with dram := d }.ok .unit)) ∧
  (∀ (s : State) (addr : Word) (n : Nat) (v : Byte), s.cfg.dramSize < addr.toNat + n →
    exec (.dramFill addr n v) s = .next ({ s with dram :=
      { s.dram with faultCount := s.dram.faultCount + 1 } }.err (.accessViolation addr.toNat n)))

/-- `copy` (R173): the destination ends holding the source's bytes as they were before the copy whatever the overlap;
out of bounds nothing moves. -/
def Obligations.DramCopyIsOverlapSafe : Prop :=
  (∀ (s : State) (dest src n : Nat), Memory.wf s.cfg.fillByte s.dram.cells → src + n ≤ s.cfg.dramSize →
    dest + n ≤ s.cfg.dramSize → ∃ d, s.storedAt { s with dram := d } dest (s.dramBytes src n) ∧
      exec (.dramCopy dest src n) s = .next ({ s with dram := d }.ok .unit)) ∧
  (∀ (s : State) (dest src n : Nat), s.cfg.dramSize < src + n ∨ s.cfg.dramSize < dest + n →
    ∃ a, exec (.dramCopy dest src n) s = .next ({ s with dram :=
      { s.dram with faultCount := s.dram.faultCount + 1 } }.err (.accessViolation a n)))

/-! ## Bus (R176 to R184) -/

/-- `map_ram` and `register_mmio` (R113, R176, R177): BadConfig for an empty or wrapping region, Overlap for one that meets
another, else the region is inserted, the list staying sorted by base; a device brings the region and the caps its rule
gives it (no device of the block has `caps.align = 0`). What Overlap records, both names with the new region's base and
size, joins R176 and R460 (DEDUCED, log 18). -/
def Obligations.RegionsAreInsertedSorted : Prop :=
  (∀ (s : State) (name : String) (base : Word) (size off : Nat), size ≠ 0 → base.toNat + size ≤ 2 ^ 64 →
    (∀ q ∈ s.bus.regions, ¬ (base.toNat ≤ q.last ∧ q.base ≤ base.toNat + size - 1)) →
    ∃ rs, rs.Perm (⟨.ram off, base.toNat, size, name⟩ :: s.bus.regions) ∧
      (s.bus.regions.Pairwise (fun q r => q.base ≤ r.base) → rs.Pairwise (fun q r => q.base ≤ r.base)) ∧
      exec (.busMapRam name base size off) s = .next ({ s with bus := { s.bus with regions := rs } }.ok .unit)) ∧
  (∀ (s : State) (name : String) (base : Word) (off : Nat),
    exec (.busMapRam name base 0 off) s = .next (s.err (.badConfig .emptyRegion))) ∧
  (∀ (s : State) (name : String) (base : Word) (size off : Nat), size ≠ 0 → 2 ^ 64 < base.toNat + size →
    exec (.busMapRam name base size off) s = .next (s.err (.badConfig .wrappingRegion))) ∧
  (∀ (s : State) (name : String) (base : Word) (size off : Nat), size ≠ 0 → base.toNat + size ≤ 2 ^ 64 →
    (∃ q ∈ s.bus.regions, base.toNat ≤ q.last ∧ q.base ≤ base.toNat + size - 1) →
    ∃ q ∈ s.bus.regions, (base.toNat ≤ q.last ∧ q.base ≤ base.toNat + size - 1) ∧
      exec (.busMapRam name base size off) s = .next (s.err (.overlap name q.name base.toNat size))) ∧
  (∀ (s : State) (name : String) (d : DevRef) (base size : Nat) (caps : Caps),
    s.deviceShape d = some (base, size, caps) → size ≠ 0 → base + size ≤ 2 ^ 64 →
    (∀ q ∈ s.bus.regions, ¬ (base ≤ q.last ∧ q.base ≤ base + size - 1)) →
    ∃ rs, rs.Perm (⟨.mmio d caps, base, size, name⟩ :: s.bus.regions) ∧
      (s.bus.regions.Pairwise (fun q r => q.base ≤ r.base) → rs.Pairwise (fun q r => q.base ≤ r.base)) ∧
      exec (.busRegisterMmio name d) s = .next ({ s with bus := { s.bus with regions := rs } }.ok .unit)) ∧
  (∀ (s : State) (name : String) (d : DevRef) (base size : Nat) (caps : Caps),
    s.deviceShape d = some (base, size, caps) → size ≠ 0 → base + size ≤ 2 ^ 64 →
    (∃ q ∈ s.bus.regions, base ≤ q.last ∧ q.base ≤ base + size - 1) →
    ∃ q ∈ s.bus.regions, (base ≤ q.last ∧ q.base ≤ base + size - 1) ∧
      exec (.busRegisterMmio name d) s = .next (s.err (.overlap name q.name base size))) ∧
  (∀ (s : State) (name : String) (d : DevRef) (base : Nat) (caps : Caps), s.deviceShape d = some (base, 0, caps) →
    exec (.busRegisterMmio name d) s = .next (s.err (.badConfig .emptyRegion))) ∧
  (∀ (s : State) (name : String) (d : DevRef) (base size : Nat) (caps : Caps),
    s.deviceShape d = some (base, size, caps) → size ≠ 0 → 2 ^ 64 < base + size →
    exec (.busRegisterMmio name d) s = .next (s.err (.badConfig .wrappingRegion)))

/-- Where a transfer goes (R181 to R183). Inside one RAM region a read returns DRAM's bytes and a write puts its bytes there
and changes no other, one transfer and one trace entry recorded. A write over several RAM regions puts every byte where its
own region maps it; where the m-th byte is the first without a region, the m bytes before it stay written and Unmapped is
raised. An access that reaches a device does there what the register access of R142 at the same offset does, its error a bus
fault; a transfer that leaves a region goes on from the region's end as a transfer of what is left, in one count. -/
def Obligations.BusTransfersReachRegions : Prop :=
  (∀ (s : State) (pa : Word) (n o : Nat), s.ramRange pa.toNat n o →
    exec (.busReadBytes pa n) s =
      .next ({ s with bus := s.bus.afterRead pa.toNat (s.dramBytes o n) }.ok (.bytes (s.dramBytes o n)))) ∧
  (∀ (s : State) (pa : Word) (bs : List Byte) (o : Nat), Memory.wf s.cfg.fillByte s.dram.cells →
    s.ramRange pa.toNat bs.length o → ∃ d, s.storedAt { s with dram := d } o bs ∧
      exec (.busWriteBytes pa bs) s = .next ({ s with dram := d, bus := s.bus.afterWrite pa.toNat bs }.ok .unit)) ∧
  (∀ (s : State) (pa : Word) (bs : List Byte) (m : Nat), RegionsOk s.bus → Memory.wf s.cfg.fillByte s.dram.cells →
    m ≤ bs.length → (∀ i < m, ∃ o, s.ramOffset (pa.toNat + i) = some o ∧ o < s.cfg.dramSize) →
    (m < bs.length → s.bus.find (pa.toNat + m) = none) →
    ∃ cells tr, s.storedThrough cells pa.toNat (bs.take m) ∧ (tr.map (·.bytes)).flatten = bs.take m ∧
      (∀ e ∈ tr, e.dir = .W) ∧
      let t := { s with
        dram := { s.dram with cells := cells }
        bus := { s.bus with
          writes := s.bus.writes + 1, writeBytes := s.bus.writeBytes + m, trace := s.bus.trace ++ tr } }
      exec (.busWriteBytes pa bs) s = .next (if m = bs.length then t.ok .unit
        else { t with bus := { t.bus with faults := t.bus.faults + 1 } }.err (.unmapped (pa.toNat + m)))) ∧
  (∀ (s t : State) (pa : Word) (r : Region) (d : DevRef) (n : Nat) (bs : List Byte) (i : Instr),
    s.reachesDevice pa.toNat n r d →
    decode [.access (s.formatOf d) .R n (BitVec.ofNat 64 (pa.toNat - r.base)) []] = .ok (i, []) →
    exec i s = .next (t.ok (.bytes bs)) →
    exec (.busReadBytes pa n) s = .next ({ t with bus := t.bus.afterRead pa.toNat bs }.ok (.bytes bs))) ∧
  (∀ (s t : State) (pa : Word) (r : Region) (d : DevRef) (bs : List Byte) (i : Instr),
    s.reachesDevice pa.toNat bs.length r d →
    decode [.access (s.formatOf d) .W bs.length (BitVec.ofNat 64 (pa.toNat - r.base)) bs] = .ok (i, []) →
    (exec i s = .next (t.ok .unit) →
      exec (.busWriteBytes pa bs) s = .next ({ t with bus := t.bus.afterWrite pa.toNat bs }.ok .unit)) ∧
    ∀ k, exec i s = .next (t.err k) →
      exec (.busWriteBytes pa bs) s = .next ({ t with bus :=
        { t.bus with writes := t.bus.writes + 1, faults := t.bus.faults + 1 } }.err k)) ∧
  (∀ (s t u : State) (pa : Word) (r : Region) (k n : Nat) (bs : List Byte) (res : OpResult), s.bus.find pa.toNat = some r →
    1 ≤ k → pa.toNat + k = r.base + r.size → pa.toNat + k < 2 ^ 64 →
    exec (.busReadBytes pa k) s = .next (t.ok (.bytes bs)) →
    exec (.busReadBytes (BitVec.ofNat 64 (pa.toNat + k)) n) t = .next { u with result := res } →
    exec (.busReadBytes pa (k + n)) s = .next { u with
      bus := { u.bus with reads := u.bus.reads - 1 }
      result := match res with
        | .ok (.bytes cs) => .ok (.bytes (bs ++ cs))
        | _ => res }) ∧
  (∀ (s t u : State) (pa : Word) (r : Region) (bs cs : List Byte), s.bus.find pa.toNat = some r →
    bs ≠ [] → pa.toNat + bs.length = r.base + r.size → pa.toNat + bs.length < 2 ^ 64 →
    exec (.busWriteBytes pa bs) s = .next (t.ok .unit) →
    exec (.busWriteBytes (BitVec.ofNat 64 (pa.toNat + bs.length)) cs) t = .next u →
    exec (.busWriteBytes pa (bs ++ cs)) s = .next { u with bus := { u.bus with writes := u.bus.writes - 1 } })

/-- Bus split correctness (R182): a read over any number of RAM regions with no gap returns n bytes, each the DRAM's byte
that its own region gives, counts one transfer of n bytes and no fault, and changes nothing but the bus's statistics and
trace. -/
def Obligations.BusReadConcatenatesRegions : Prop :=
  ∀ (s : State) (pa : Word) (n : Nat), RegionsOk s.bus →
    (∀ i < n, ∃ o, s.ramOffset (pa.toNat + i) = some o ∧ o < s.cfg.dramSize) →
    ∃ bs tr, exec (.busReadBytes pa n) s =
        .next ({ s with bus := { s.bus with
          reads := s.bus.reads + 1, readBytes := s.bus.readBytes + n, trace := s.bus.trace ++ tr } }.ok (.bytes bs)) ∧
      bs.length = n ∧ (tr.map (·.bytes)).flatten = bs ∧ (∀ e ∈ tr, e.dir = .R) ∧
      ∀ i < n, ∃ o, s.ramOffset (pa.toNat + i) = some o ∧ bs.getD i 0 = s.dramByte o

/-- Transfers that fail: Unmapped at an address without a region (R182, R183); under strict MMIO, MMIOConstraint for a
chunk whose offset is not a multiple of the caps' alignment or whose width is not among the caps' widths (R180). One
transfer and one fault are counted, and no device and no byte sees it. -/
def Obligations.BusTransfersFail : Prop :=
  (∀ (s : State) (pa : Word) (n : Nat), 1 ≤ n → s.bus.find pa.toNat = none →
    exec (.busReadBytes pa n) s = .next ({ s with bus :=
      { s.bus with reads := s.bus.reads + 1, faults := s.bus.faults + 1 } }.err (.unmapped pa.toNat))) ∧
  (∀ (s : State) (pa : Word) (bs : List Byte), bs ≠ [] → s.bus.find pa.toNat = none →
    exec (.busWriteBytes pa bs) s = .next ({ s with bus :=
      { s.bus with writes := s.bus.writes + 1, faults := s.bus.faults + 1 } }.err (.unmapped pa.toNat))) ∧
  (∀ (s : State) (pa : Word) (n : Nat) (r : Region) (d : DevRef) (caps : Caps), 1 ≤ n → s.cfg.strictMmio = true →
    s.bus.find pa.toNat = some r → r.kind = .mmio d caps → pa.toNat + n ≤ r.base + r.size →
    ((pa.toNat - r.base) % caps.align ≠ 0 ∨ ∃ ws, caps.widths = some ws ∧ n ∉ ws) →
    exec (.busReadBytes pa n) s = .next ({ s with bus :=
      { s.bus with reads := s.bus.reads + 1, faults := s.bus.faults + 1 } }.err (.mmioConstraint pa.toNat n)) ∧
    ∀ bs : List Byte, bs.length = n →
      exec (.busWriteBytes pa bs) s = .next ({ s with bus :=
        { s.bus with writes := s.bus.writes + 1, faults := s.bus.faults + 1 } }.err (.mmioConstraint pa.toNat n)))

/-! ## MMU (R210 to R223) -/

/-- `translate` and `check_access` on a page the TLB holds (R211, R223): the entry's tick, the clock and the hit counter
move and nothing else; PermissionDenied for a write to a page that is not writable or an execution of one that is not
executable, else the translation. -/
def Obligations.TlbHitTranslations : Prop :=
  (∀ (s : State) (va : Word) (pa : Nat) (p : Pte), s.tlbHit va.toNat pa p →
    exec (.mmuTranslate va) s = .next ((s.afterHit va.toNat).ok (.translation pa p))) ∧
  (∀ (s : State) (va : Word) (pa : Nat) (p : Pte) (k : AccessKind), s.tlbHit va.toNat pa p →
    exec (.mmuCheckAccess va k) s =
      .next (if (k = .write ∧ p.writable = false) ∨ (k = .execute ∧ p.executable = false)
        then (s.afterHit va.toNat).err (.permissionDenied va.toNat k)
        else (s.afterHit va.toNat).ok (.translation pa p)))

/-- A translation that misses the TLB (R212, R213): PageFault for an absent or not present page; else the page is
installed, the least recent entry leaving a full TLB, and `accessed` is set. -/
def Obligations.TranslateMisses : Prop :=
  (∀ (s : State) (va : Word), Tab.get s.mmu.tlb (s.mmu.currentAsid, va.toNat >>> Nat.log2 s.cfg.pageSize) = none →
    (∀ p, s.mmu.pte s.mmu.currentAsid (va.toNat >>> Nat.log2 s.cfg.pageSize) = some p → p.present = false) →
    exec (.mmuTranslate va) s =
      .next ({ s with mmu := { s.mmu with tlbMisses := s.mmu.tlbMisses + 1 } }.err (.pageFault va.toNat))) ∧
  (∀ (s : State) (va : Word) (p : Pte) (pa : Nat), let vpn := va.toNat >>> Nat.log2 s.cfg.pageSize
    Tab.get s.mmu.tlb (s.mmu.currentAsid, vpn) = none → s.mmu.pte s.mmu.currentAsid vpn = some p → p.present = true →
    pa = (p.frame <<< Nat.log2 s.cfg.pageSize) ||| (va.toNat &&& (s.cfg.pageSize - 1)) → pa < 2 ^ 64 →
    ∃ m, exec (.mmuTranslate va) s = .next ({ s with mmu := m }.ok (.translation pa { p with accessed := true })) ∧
      m.currentAsid = s.mmu.currentAsid ∧ m.tlbClock = s.mmu.tlbClock + 1 ∧ m.tlbHits = s.mmu.tlbHits ∧
      m.tlbMisses = s.mmu.tlbMisses + 1 ∧ m.poolFrames = s.mmu.poolFrames ∧
      Tab.get m.tlb (s.mmu.currentAsid, vpn) = some { frame := p.frame, tick := s.mmu.tlbClock + 1 } ∧
      (∀ a v, m.pte a v =
        if (a, v) = (s.mmu.currentAsid, vpn) then some { p with accessed := true } else s.mmu.pte a v) ∧
      (s.mmu.tlb.length < s.cfg.tlbEntries → ∀ k, k ≠ (s.mmu.currentAsid, vpn) → Tab.get m.tlb k = Tab.get s.mmu.tlb k) ∧
      (∀ e ∈ s.mmu.tlb, s.cfg.tlbEntries ≤ s.mmu.tlb.length → (∀ f ∈ s.mmu.tlb, f ≠ e → e.2.tick < f.2.tick) →
        ∀ k, k ≠ (s.mmu.currentAsid, vpn) → Tab.get m.tlb k = if k = e.1 then none else Tab.get s.mmu.tlb k))

/-- `map_page` of a frame the caller gives, by the MMU and by the CPU (R214, R221, R222, R326): the PTE holds what `perm`
gives and the defaults elsewhere, clean and not accessed; its TLB entry is gone; every other page and entry stays. -/
def Obligations.MapPageSetsEntry : Prop :=
  ∀ (s : State) (vpn f : Nat) (perm : Option Perm) (asid : Option Nat), let a := asid.getD s.mmu.currentAsid
    let p := perm.getD {}
    ∃ m, exec (.mmuMapPage vpn (some f) perm asid) s = .next ({ s with mmu := m }.ok (.nat f)) ∧
      exec (.cpuMapPage vpn (some f) perm asid) s = .next ({ s with mmu := m }.ok (.nat f)) ∧
      m.pte a vpn = some
        { frame := f, present := p.present.getD true, writable := p.writable.getD true,
          executable := p.executable.getD true, user := p.user.getD false,
          cached := p.cached.getD (decide (p.memtype.getD .normal = .normal)), memtype := p.memtype.getD .normal,
          dirty := false, accessed := false } ∧
      (∀ a' v, (a', v) ≠ (a, vpn) → m.pte a' v = s.mmu.pte a' v) ∧ Tab.get m.tlb (a, vpn) = none ∧
      (∀ k, k ≠ (a, vpn) → Tab.get m.tlb k = Tab.get s.mmu.tlb k) ∧
      m = { s.mmu with tables := m.tables, tlb := m.tlb }

/-- `map_page` without a frame (R214, R220): the frame drawn is below `max_frames`, was not in the pool and is now, and
the page maps it; OutOfFrames when none is left, and no page is mapped. The frame is a free value (log 3): this holds
whatever the draw. -/
def Obligations.MapPageDrawsFreeFrame : Prop :=
  (∀ (s : State) (vpn : Nat) (perm : Option Perm) (asid : Option Nat),
    (∃ f < s.cfg.maxFrames, f ∉ s.mmu.poolFrames) →
    ∃ f m, exec (.mmuMapPage vpn none perm asid) s = .next ({ s with mmu := m, draws := s.draws + 1 }.ok (.nat f)) ∧
      exec (.cpuMapPage vpn none perm asid) s = .next ({ s with mmu := m, draws := s.draws + 1 }.ok (.nat f)) ∧
      f < s.cfg.maxFrames ∧ f ∉ s.mmu.poolFrames ∧ (∀ g, g ∈ m.poolFrames ↔ g = f ∨ g ∈ s.mmu.poolFrames) ∧
      (∃ p, m.pte (asid.getD s.mmu.currentAsid) vpn = some p ∧ p.frame = f) ∧
      ∀ a v, (a, v) ≠ (asid.getD s.mmu.currentAsid, vpn) → m.pte a v = s.mmu.pte a v) ∧
  (∀ (s : State) (vpn : Nat) (perm : Option Perm) (asid : Option Nat),
    (∀ f < s.cfg.maxFrames, f ∈ s.mmu.poolFrames) →
    ∃ m, exec (.mmuMapPage vpn none perm asid) s = .next ({ s with mmu := m }.err .outOfFrames) ∧
      m = { s.mmu with tables := m.tables } ∧ ∀ a v, m.pte a v = s.mmu.pte a v)

/-- `unmap_page` and `set_page_attributes` (R215, R218, R326): PageFault for a page not mapped; else the page leaves, its
frame staying in the pool, or the fields `attrs` gives are written, `cached` cleared by a device or write-combining memory
type that comes without it; its TLB entry is gone; every other page and entry stays. -/
def Obligations.PageEntryChanges : Prop :=
  (∀ (s : State) (vpn : Nat) (asid : Option Nat) (p : Pte), s.mmu.pte (asid.getD s.mmu.currentAsid) vpn = some p →
    ∃ m, exec (.mmuUnmapPage vpn asid) s = .next ({ s with mmu := m }.ok .unit) ∧
      exec (.cpuUnmapPage vpn asid) s = .next ({ s with mmu := m }.ok .unit) ∧
      (∀ a v, m.pte a v = if (a, v) = (asid.getD s.mmu.currentAsid, vpn) then none else s.mmu.pte a v) ∧
      (∀ k, Tab.get m.tlb k = if k = (asid.getD s.mmu.currentAsid, vpn) then none else Tab.get s.mmu.tlb k) ∧
      m = { s.mmu with tables := m.tables, tlb := m.tlb }) ∧
  (∀ (s : State) (vpn : Nat) (asid : Option Nat), s.mmu.pte (asid.getD s.mmu.currentAsid) vpn = none →
    exec (.mmuUnmapPage vpn asid) s = .next (s.err (.pageFault (vpn <<< Nat.log2 s.cfg.pageSize))) ∧
    exec (.cpuUnmapPage vpn asid) s = .next (s.err (.pageFault (vpn <<< Nat.log2 s.cfg.pageSize)))) ∧
  (∀ (s : State) (vpn : Nat) (x : Attrs) (asid : Option Nat) (p : Pte),
    s.mmu.pte (asid.getD s.mmu.currentAsid) vpn = some p →
    ∃ m, exec (.mmuSetPageAttributes vpn x asid) s = .next ({ s with mmu := m }.ok .unit) ∧
      exec (.cpuSetPageAttributes vpn x asid) s = .next ({ s with mmu := m }.ok .unit) ∧
      (∀ a v, m.pte a v = if (a, v) = (asid.getD s.mmu.currentAsid, vpn) then some
        { frame := p.frame, present := x.present.getD p.present, writable := x.writable.getD p.writable,
          executable := x.executable.getD p.executable, user := x.user.getD p.user,
          cached := x.cached.getD (if x.memtype = some .device ∨ x.memtype = some .wc then false else p.cached),
          memtype := x.memtype.getD p.memtype, dirty := x.dirty.getD p.dirty,
          accessed := x.accessed.getD p.accessed } else s.mmu.pte a v) ∧
      (∀ k, Tab.get m.tlb k = if k = (asid.getD s.mmu.currentAsid, vpn) then none else Tab.get s.mmu.tlb k) ∧
      m = { s.mmu with tables := m.tables, tlb := m.tlb }) ∧
  (∀ (s : State) (vpn : Nat) (x : Attrs) (asid : Option Nat), s.mmu.pte (asid.getD s.mmu.currentAsid) vpn = none →
    exec (.mmuSetPageAttributes vpn x asid) s = .next (s.err (.pageFault (vpn <<< Nat.log2 s.cfg.pageSize))) ∧
    exec (.cpuSetPageAttributes vpn x asid) s = .next (s.err (.pageFault (vpn <<< Nat.log2 s.cfg.pageSize))))

/-- `flush_tlb`, `flush_tlb_entry` and `set_asid` (R216, R217, R219, R222, R326): with an ASID exactly its entries leave,
without one every entry, one entry for `flush_tlb_entry`; `set_asid` moves the current ASID, whose table exists; no page,
clock or counter changes. -/
def Obligations.TlbFlushAndAsidSwitch : Prop :=
  (∀ (s : State) (asid : Option Nat), ∃ tlb,
    exec (.mmuFlushTlb asid) s = .next ({ s with mmu := { s.mmu with tlb := tlb } }.ok .unit) ∧
    exec (.cpuFlushTlb asid) s = .next ({ s with mmu := { s.mmu with tlb := tlb } }.ok .unit) ∧
    ∀ k, Tab.get tlb k = if asid = none ∨ asid = some k.1 then none else Tab.get s.mmu.tlb k) ∧
  (∀ (s : State) (vpn : Nat) (asid : Option Nat), ∃ tlb,
    exec (.mmuFlushTlbEntry vpn asid) s = .next ({ s with mmu := { s.mmu with tlb := tlb } }.ok .unit) ∧
    ∀ k, Tab.get tlb k = if k = (asid.getD s.mmu.currentAsid, vpn) then none else Tab.get s.mmu.tlb k) ∧
  (∀ (s : State) (a : Nat), ∃ tables,
    exec (.mmuSetAsid a) s = .next ({ s with mmu := { s.mmu with currentAsid := a, tables := tables } }.ok .unit) ∧
    exec (.cpuSetAsid a) s = .next ({ s with mmu := { s.mmu with currentAsid := a, tables := tables } }.ok .unit) ∧
    (Tab.get tables a).isSome = true ∧
    ∀ b v, (Tab.get tables b).bind (Tab.get · v) = s.mmu.pte b v)

/-! ## Cache (R250 to R274) -/

/-- `CACHE.read` of a block its first-level cache holds (R252, R256): the line's bytes; the line is stamped, a hit is
counted, nothing else changes. `CACHE.stats` (R44, R271): the six counters and `hit_rate`, none when there was no
access; that the rate is an exact rational is DEDUCED (log 19). -/
def Obligations.CacheReadHits : Prop :=
  (∀ (s : State) (pa : Word) (c : Side) (q : Nat × Nat), s.lookup pa.toNat c.level = some q →
    let x := s.line c.level q
    exec (.cacheRead pa c) s =
      .next ({ s with cache := { s.cache.setLevel c.level
        { lines := Tab.set pairLt (s.cache.level c.level).lines q { x with lru := s.cache.globalCounter + 1 }
          stats := { (s.cache.level c.level).stats with hits := (s.cache.level c.level).stats.hits + 1 } } with
          globalCounter := s.cache.globalCounter + 1 } }.ok (.bytes x.data))) ∧
  (∀ (s : State) (l : Level), let c := (s.cache.level l).stats
    exec (.cacheStats l) s = .next (s.ok (.stats c
      (if c.hits + c.misses = 0 then none else some ((c.hits : Rat) / ((c.hits : Rat) + (c.misses : Rat)))))))

/-- `CACHE.read` of a block its first-level cache does not hold (R252 to R256, R258). No level holds it, a way free at each:
one bus read of the line, which every level on the way then holds clean. L2 holds it: its line is stamped and lends its
bytes; the slot is R253's, and a valid line there is evicted first (R260, R263, R266), its bytes, if dirty, going to its own
L2 line. L3 holds it, ways free: L2 and the first level take L3's bytes. R253's choice: the lowest invalid way, else the
least recent of the preferred ways, of all when none is preferred. Whatever the sets are full of, a read of a block of RAM in
a sound cache answers the nearest level's bytes, leaves the block held and the cache sound, and loses no byte's newest
value. -/
def Obligations.CacheReadMisses : Prop :=
  (∀ (s : State) (pa : Word) (c : Side) (o : Nat), ConfigLegal s.cfg →
      (∀ l, l = c.level ∨ l = .l2 ∨ l = .l3 → s.lookup pa.toNat l = none ∧ s.wayFree l pa.toNat) →
      s.ramRange (pa.toNat - pa.toNat % s.cfg.lineSize) s.cfg.lineSize o →
      ∃ cache, exec (.cacheRead pa c) s = .next ({ s with
          cache := cache
          bus := s.bus.afterRead (pa.toNat - pa.toNat % s.cfg.lineSize) (s.dramBytes o s.cfg.lineSize) }.ok
            (.bytes (s.dramBytes o s.cfg.lineSize))) ∧
        (∀ l, l = c.level ∨ l = .l2 ∨ l = .l3 →
          { s with cache := cache }.holdsClean l pa.toNat (s.dramBytes o s.cfg.lineSize) ∧
          (cache.level l).stats = { (s.cache.level l).stats with
            misses := (s.cache.level l).stats.misses + 1, fills := (s.cache.level l).stats.fills + 1 }) ∧
        ∀ l, l ≠ c.level → l ≠ .l2 → l ≠ .l3 → cache.level l = s.cache.level l) ∧
  (∀ (s : State) (pa : Word) (c : Side) (q2 : Nat × Nat), ConfigLegal s.cfg → Inclusion s →
    s.lookup pa.toNat c.level = none → s.lookup pa.toNat .l2 = some q2 →
    let set := Config.setOf s.cfg c.level pa.toNat
    let q := (set, s.chooseVictim c.level set)
    let v := s.line c.level q
    let old := (s.cache.level c.level).stats
    ∃ cache, let t := { s with cache := cache }
      exec (.cacheRead pa c) s = .next (t.ok (.bytes (s.line .l2 q2).data)) ∧
      cache.globalCounter = s.cache.globalCounter + (if v.valid = true ∧ v.dirty = true then 3 else 2) ∧
      t.line c.level q =
        { valid := true, dirty := false, tag := Config.tagOf s.cfg c.level pa.toNat, data := (s.line .l2 q2).data
          lru := cache.globalCounter, presentL1d := false, presentL1i := false, presentL2 := false } ∧
      t.line .l2 q2 = ({ s.line .l2 q2 with lru := s.cache.globalCounter + 1 } : Line).withPresence c.level true ∧
      (∀ r, v.valid = true → s.lookup (Config.addrOf s.cfg c.level q v) .l2 = some r →
        t.line .l2 r = (if v.dirty = true
          then { s.line .l2 r with data := v.data, dirty := true, lru := s.cache.globalCounter + 2 }
          else s.line .l2 r : Line).withPresence c.level false) ∧
      (∀ l r, (l, r) ≠ (c.level, q) → (l, r) ≠ (.l2, q2) →
        (v.valid = true → l = .l2 → s.lookup (Config.addrOf s.cfg c.level q v) .l2 ≠ some r) → t.line l r = s.line l r) ∧
      (cache.level c.level).stats = { old with
        misses := old.misses + 1, fills := old.fills + 1
        evictions := old.evictions + (if v.valid = true then 1 else 0)
        writebacks := old.writebacks + (if v.valid = true ∧ v.dirty = true then 1 else 0) } ∧
      (cache.level .l2).stats = { (s.cache.level .l2).stats with hits := (s.cache.level .l2).stats.hits + 1 } ∧
      ∀ l, l ≠ c.level → l ≠ .l2 → cache.level l = s.cache.level l) ∧
  (∀ (s : State) (pa : Word) (c : Side) (q3 : Nat × Nat), ConfigLegal s.cfg →
    (∀ l, l = c.level ∨ l = .l2 → s.lookup pa.toNat l = none ∧ s.wayFree l pa.toNat) →
    s.lookup pa.toNat .l3 = some q3 →
    ∃ cache, let t := { s with cache := cache }
      exec (.cacheRead pa c) s = .next (t.ok (.bytes (s.line .l3 q3).data)) ∧
      (∀ l, l = c.level ∨ l = .l2 → t.holdsClean l pa.toNat (s.line .l3 q3).data ∧
        (cache.level l).stats = { (s.cache.level l).stats with
          misses := (s.cache.level l).stats.misses + 1, fills := (s.cache.level l).stats.fills + 1 }) ∧
      t.line .l3 q3 = ({ s.line .l3 q3 with lru := s.cache.globalCounter + 1 } : Line).withPresence .l2 true ∧
      (cache.level .l3).stats = { (s.cache.level .l3).stats with hits := (s.cache.level .l3).stats.hits + 1 } ∧
      (∀ q, t.lookup pa.toNat .l2 = some q → ∀ d, (t.line .l2 q).presentIn d = decide (d = c)) ∧
      (∀ l r, (s.line l r).valid = true → (l, r) ≠ (.l3, q3) → t.line l r = s.line l r) ∧
      ∀ l, l ≠ c.level → l ≠ .l2 → l ≠ .l3 → cache.level l = s.cache.level l) ∧
  (∀ (s : State) (l : Level) (set : Nat), 1 ≤ s.cfg.ways l →
    let x := fun w => s.line l (set, w)
    let preferred := fun w => match l with
      | .l2 => (x w).presentL1d = false ∧ (x w).presentL1i = false
      | .l3 => (x w).presentL2 = false
      | _ => True
    let w := s.chooseVictim l set
    w < s.cfg.ways l ∧
      (∀ v < s.cfg.ways l, (x v).valid = false → (x w).valid = false ∧ w ≤ v) ∧
      ((∀ v < s.cfg.ways l, (x v).valid = true) → (∀ v < s.cfg.ways l, preferred v → preferred w) ∧
        ∀ v < s.cfg.ways l, (preferred w → preferred v) → (x w).lru < (x v).lru ∨ ((x w).lru = (x v).lru ∧ w ≤ v))) ∧
  (∀ (s : State) (pa : Word) (c : Side) (o : Nat), CacheSound s →
    s.ramRange (pa.toNat - pa.toNat % s.cfg.lineSize) s.cfg.lineSize o →
    ∃ cache dram bus, let t := { s with cache := cache, dram := dram, bus := bus }
      exec (.cacheRead pa c) s = .next (t.ok (.bytes (s.lineOf pa.toNat c o))) ∧ CacheSound t ∧
      (∀ a, t.newest a = s.newest a) ∧ (∀ l, l = c.level ∨ l = .l2 ∨ l = .l3 → ∃ q, t.lookup pa.toNat l = some q) ∧
      (∃ q, t.lookup pa.toNat c.level = some q ∧ (t.line c.level q).data = s.lineOf pa.toNat c o) ∧
      bus.regions = s.bus.regions ∧ bus.faults = s.bus.faults ∧ dram.faultCount = s.dram.faultCount ∧
      ∀ x, (∀ a, s.ramOffset a ≠ some x) → t.dramByte x = s.dramByte x)

/-- `CACHE.write_bytes` within a line its first-level cache holds (R257): the bytes are patched into the line, which is
dirty and stamped; a hit is counted; no other line and no byte of DRAM changes. -/
def Obligations.CacheWritePatchesLine : Prop :=
  ∀ (s : State) (pa : Word) (bs : List Byte) (which : Option Side) (q : Nat × Nat), let c := which.getD .l1d
    s.lookup pa.toNat c.level = some q → bs ≠ [] → pa.toNat % s.cfg.lineSize + bs.length ≤ s.cfg.lineSize →
    (s.line c.level q).data.length = s.cfg.lineSize →
    ∃ cache, exec (.cacheWriteBytes pa bs which) s = .next ({ s with cache := cache }.ok .unit) ∧
      (let x := { s with cache := cache }.line c.level q
       x.dirty = true ∧ x.valid = true ∧ x.tag = (s.line c.level q).tag ∧ x.lru = s.cache.globalCounter + 1 ∧
        x.data.length = s.cfg.lineSize ∧
        ∀ i < s.cfg.lineSize, x.data.getD i 0 =
          if pa.toNat % s.cfg.lineSize ≤ i ∧ i < pa.toNat % s.cfg.lineSize + bs.length
          then bs.getD (i - pa.toNat % s.cfg.lineSize) 0 else (s.line c.level q).data.getD i 0) ∧
      (∀ l r, (l, r) ≠ (c.level, q) → { s with cache := cache }.line l r = s.line l r) ∧
      (∀ l, (cache.level l).stats = if l = c.level
        then { (s.cache.level l).stats with hits := (s.cache.level l).stats.hits + 1 } else (s.cache.level l).stats) ∧
      cache.globalCounter = s.cache.globalCounter + 1

/-- A prefetch into a first-level cache of a block L2 holds, with a way free for it (R259, R319), by the cache's command
and by the CPU's two on a page the TLB holds: the line is installed clean with L2's bytes, L2 records the child, a
prefetch and a fill are counted; the bus and DRAM are not touched. -/
def Obligations.PrefetchTakesLineFromL2 : Prop :=
  ∀ (s : State) (c : Side) (b : Nat) (q2 : Nat × Nat), ConfigLegal s.cfg → s.lookup b c.level = none →
    s.wayFree c.level b → s.lookup b .l2 = some q2 →
    ∃ cache, { s with cache := cache }.holdsClean c.level b (s.line .l2 q2).data ∧
      ({ s with cache := cache }.line .l2 q2).presentIn c = true ∧
      (cache.level c.level).stats = { (s.cache.level c.level).stats with
        prefetches := (s.cache.level c.level).stats.prefetches + 1, fills := (s.cache.level c.level).stats.fills + 1 } ∧
      cache.l3 = s.cache.l3 ∧
      (∀ pa : Word, pa.toNat = b →
        exec (.cachePrefetchLine c.level pa) s = .next ({ s with cache := cache }.ok .unit)) ∧
      (∀ (u : State) (va : Word) (p : Pte), u.tlbHit va.toNat b p → u.afterHit va.toNat = s → p.memtype = .normal →
        p.cached = true → (c = .l1d → exec (.cpuPrefetchData va) u = .next ({ s with cache := cache }.ok .unit)) ∧
        (c = .l1i → p.executable = true → exec (.cpuPrefetchInst va) u = .next ({ s with cache := cache }.ok .unit)))

/-- A prefetch of a resident block does nothing, and the CPU's prefetch of a page that is not cached does nothing but
translate (R259, R319). -/
def Obligations.PrefetchOfResidentBlockIsNoOp : Prop :=
  (∀ (s : State) (l : Level) (b : Word) (q : Nat × Nat),
    s.lookup (b.toNat - b.toNat % s.cfg.lineSize) l = some q → exec (.cachePrefetchLine l b) s = .next (s.ok .unit)) ∧
  (∀ (s : State) (va : Word) (pa : Nat) (p : Pte), s.tlbHit va.toNat pa p → p.memtype ≠ .normal ∨ p.cached = false →
    exec (.cpuPrefetchData va) s = .next ((s.afterHit va.toNat).ok .unit) ∧
    (p.executable = true → exec (.cpuPrefetchInst va) s = .next ((s.afterHit va.toNat).ok .unit)))

/-- `flush_line` of a dirty first-level line (R260, R263, R266, R269): its bytes replace the L2 line's, which is dirty and
no longer records the child; the slot is the reset line again; one eviction and one write-back are counted; no byte
reaches the bus. -/
def Obligations.FlushLineWritesBackToL2 : Prop :=
  ∀ (s : State) (a : Word) (c : Side) (q q2 : Nat × Nat), s.lookup a.toNat c.level = some q →
    (s.line c.level q).dirty = true →
    s.lookup (Config.addrOf s.cfg c.level q (s.line c.level q)) .l2 = some q2 →
    ∃ cache, exec (.cacheFlushLine a c.level) s = .next ({ s with cache := cache }.ok .unit) ∧
      { s with cache := cache }.line c.level q = Line.reset s.cfg.lineSize ∧
      { s with cache := cache }.line .l2 q2 =
        ({ s.line .l2 q2 with data := (s.line c.level q).data, dirty := true, lru := s.cache.globalCounter + 1 }
          : Line).withPresence c.level false ∧
      (∀ l r, (l, r) ≠ (c.level, q) → (l, r) ≠ (.l2, q2) → { s with cache := cache }.line l r = s.line l r) ∧
      (cache.level c.level).stats = { (s.cache.level c.level).stats with
        evictions := (s.cache.level c.level).stats.evictions + 1
        writebacks := (s.cache.level c.level).stats.writebacks + 1 } ∧
      ∀ l, l ≠ c.level → (cache.level l).stats = (s.cache.level l).stats

/-- `flush_line` at L3 of a block whose newest bytes are a dirty L1D line's, held through L2 (R264, R267, R268, R269,
R274): the block's one bus write carries L1D's bytes; every level then holds none of it, one eviction and one write-back
are counted at L1D, L2 and L3, and every other line and byte stays. -/
def Obligations.FlushAtL3WritesBusOnce : Prop :=
  ∀ (s : State) (a : Word) (q1 q2 q3 : Nat × Nat) (b o : Nat), s.lookup a.toNat .l3 = some q3 →
    b = Config.addrOf s.cfg .l3 q3 (s.line .l3 q3) → (s.line .l3 q3).presentL2 = true → s.lookup b .l2 = some q2 →
    (s.line .l2 q2).presentL1d = true → (s.line .l2 q2).presentL1i = false → s.lookup b .l1d = some q1 →
    (s.line .l1d q1).dirty = true → (s.line .l1d q1).data.length = s.cfg.lineSize → s.ramRange b s.cfg.lineSize o →
    Memory.wf s.cfg.fillByte s.dram.cells → let data := (s.line .l1d q1).data
    ∃ d cache, s.storedAt { s with dram := d } o data ∧
      exec (.cacheFlushLine a .l3) s =
        .next ({ s with dram := d, cache := cache, bus := s.bus.afterWrite b data }.ok .unit) ∧
      (∀ l q, { s with cache := cache }.line l q =
        if (l, q) = (.l1d, q1) ∨ (l, q) = (.l2, q2) ∨ (l, q) = (.l3, q3) then Line.reset s.cfg.lineSize
        else s.line l q) ∧
      ∀ l, (cache.level l).stats = if l = .l1i then (s.cache.level l).stats else { (s.cache.level l).stats with
        evictions := (s.cache.level l).stats.evictions + 1, writebacks := (s.cache.level l).stats.writebacks + 1 }

/-- `flush_all` (R125, R270, R274, R324), by the cache's command and by the CPU's four. On a sound cache, dirty lines or not:
it completes and the cache stays sound; the level holds no line, nor does any level that it includes; no byte's newest value
changes, so what a dirty line held is now a level down, and after `flush_all(l3)`, with no line left, is what DRAM holds;
below L3 neither the bus nor DRAM is touched. On any cache without a dirty line: nothing is written back, and only the cache
changes. -/
def Obligations.FlushAllEmptiesLevel : Prop :=
  (∀ (s : State), (∀ l q, (s.line l q).dirty = false) → ∀ l, ∃ cache,
    exec (.cacheFlushAll l) s = .next ({ s with cache := cache }.ok .unit) ∧
    (∀ q, { s with cache := cache }.line l q = Line.reset s.cfg.lineSize) ∧
    (∀ k q, ({ s with cache := cache }.line k q).dirty = false) ∧
    (∀ k, (cache.level k).stats.writebacks = (s.cache.level k).stats.writebacks) ∧
    (l = .l1i → exec .cpuFlushIcache s = .next ({ s with cache := cache }.ok .unit)) ∧
    (l = .l1d → exec .cpuFlushDcache s = .next ({ s with cache := cache }.ok .unit)) ∧
    (l = .l2 → exec .cpuFlushL2 s = .next ({ s with cache := cache }.ok .unit)) ∧
    (l = .l3 → exec .cpuFlushL3 s = .next ({ s with cache := cache }.ok .unit))) ∧
  (∀ (s : State), CacheSound s → ∀ l, ∃ cache dram bus, let t := { s with cache := cache, dram := dram, bus := bus }
    exec (.cacheFlushAll l) s = .next (t.ok .unit) ∧ CacheSound t ∧
    (∀ k q, (k = l ∨ (l = .l2 ∧ k ≠ .l3) ∨ l = .l3) → t.line k q = Line.reset s.cfg.lineSize) ∧
    (∀ a, t.newest a = s.newest a) ∧
    (l ≠ .l3 → dram = s.dram ∧ bus = s.bus) ∧
    (l = .l3 → ∀ a o, s.ramOffset a = some o → t.dramByte o = s.newest a) ∧
    bus.regions = s.bus.regions ∧ bus.faults = s.bus.faults ∧ dram.faultCount = s.dram.faultCount ∧
    (∀ x, (∀ a, s.ramOffset a ≠ some x) → t.dramByte x = s.dramByte x) ∧
    (l = .l1i → exec .cpuFlushIcache s = .next (t.ok .unit)) ∧ (l = .l1d → exec .cpuFlushDcache s = .next (t.ok .unit)) ∧
    (l = .l2 → exec .cpuFlushL2 s = .next (t.ok .unit)) ∧ (l = .l3 → exec .cpuFlushL3 s = .next (t.ok .unit)))

/-! ## CPU accesses (R310 to R323) -/

/-- The checks of R310, in their order, refuse a fetch, a load and a store before anything else happens; a fetch or an
instruction prefetch of a page that is not executable and a store to one that is not writable are denied after the
translation, and do nothing else (R313, R315, R319, R463). -/
def Obligations.AccessesRefusedOrDenied : Prop :=
  (∀ (s : State) (va : Word) (size : Nat) (r : Refusal),
    (if ¬ (size = 1 ∨ size = 2 ∨ size = 4 ∨ size = 8) ∨ (match s.cfg.xlen with
        | .x32 => 4
        | .x64 => 8) < size then r = .accessSize
      else if 2 ^ 64 < va.toNat + size then r = .addressWraps
      else va.toNat >>> Nat.log2 s.cfg.pageSize ≠ (va.toNat + size - 1) >>> Nat.log2 s.cfg.pageSize ∧
        r = .crossesPage) →
    exec (.cpuFetch va (some size)) s = .refused r ∧ (∀ sg, exec (.cpuLoad va size sg) s = .refused r) ∧
      ∀ x sg, exec (.cpuStore va size x sg) s = .refused r) ∧
  (∀ (s : State) (va : Word) (pa : Nat) (p : Pte), s.tlbHit va.toNat pa p →
    (p.executable = false → (∀ size, s.accessOk va.toNat size →
        exec (.cpuFetch va (some size)) s = .next ((s.afterHit va.toNat).err (.permissionDenied va.toNat .execute))) ∧
      exec (.cpuPrefetchInst va) s = .next ((s.afterHit va.toNat).err (.permissionDenied va.toNat .execute))) ∧
    (p.writable = false → ∀ size x sg, s.accessOk va.toNat size →
      exec (.cpuStore va size x sg) s = .next ((s.afterHit va.toNat).err (.permissionDenied va.toNat .write))))

/-- Pack and unpack (R13): byte i of the packed value in the target's order, and unpacking a packed integer gives it back
reduced modulo 2^(8n), read as signed or not. -/
def Obligations.UnpackOfPack : Prop :=
  ∀ (e : Endian) (x : Int) (n : Nat), (pack e x n).length = n ∧
    (∀ i < n, (pack e x n).getD i 0 =
      BitVec.ofInt 8 (x / 2 ^ (8 * (match e with
        | .little => i
        | .big => n - 1 - i)))) ∧
    (pack e x n |> fun bs => unpack e bs false) = x % 2 ^ (8 * n) ∧
    (pack e x n |> fun bs => unpack e bs true) =
      if 2 * (x % 2 ^ (8 * n)) < 2 ^ (8 * n) then x % 2 ^ (8 * n) else x % 2 ^ (8 * n) - 2 ^ (8 * n)

/-- The path of a load, through L1D, and of a fetch, through L1I (R312 to R314): the load's bytes are unpacked in the target's
byte order, the fetch's are raw. On a page that is not normal and cached, over RAM, the bytes come from the bus in one
transfer; the caches and the write-combining buffer stay. On a normal cached page, prefetching off: within a line that the
first-level cache holds, the bytes are the line's, and only its stamp and the hit count move; over blocks of RAM in a sound
cache, held or not and however many lines the access meets, the access completes with its size in bytes, within one line those
of the nearest level that holds the block, and keeps the cache sound and every byte's newest value. -/
def Obligations.ReadsTakeTheirPath : Prop :=
  (∀ (s : State) (va : Word) (pa size o : Nat) (p : Pte), s.accessOk va.toNat size → s.tlbHit va.toNat pa p →
      p.memtype ≠ .normal ∨ p.cached = false → s.ramRange pa size o →
      let t := { s.afterHit va.toNat with bus := s.bus.afterRead pa (s.dramBytes o size) }
      (∀ sg, exec (.cpuLoad va size sg) s = .next (t.ok (.int (unpack s.cfg.endianness (s.dramBytes o size) sg)))) ∧
      (p.executable = true → exec (.cpuFetch va (some size)) s = .next (t.ok (.bytes (s.dramBytes o size)))) ∧
      (p.executable = true → size = 4 → exec (.cpuFetch va none) s = .next (t.ok (.bytes (s.dramBytes o size))))) ∧
  (∀ (s : State) (va : Word) (pa size : Nat) (p : Pte) (c : Side) (q : Nat × Nat), s.accessOk va.toNat size →
    s.tlbHit va.toNat pa p → p.memtype = .normal → p.cached = true → s.cfg.prefetch.enable = false →
    s.lookup pa c.level = some q → pa % s.cfg.lineSize + size ≤ s.cfg.lineSize →
    let t := { s.afterHit va.toNat with cache := s.cacheHit c.level q }
    let bs := ((s.line c.level q).data.drop (pa % s.cfg.lineSize)).take size
    (c = .l1d → ∀ sg, exec (.cpuLoad va size sg) s = .next (t.ok (.int (unpack s.cfg.endianness bs sg)))) ∧
    (c = .l1i → p.executable = true → exec (.cpuFetch va (some size)) s = .next (t.ok (.bytes bs)) ∧
      (size = 4 → exec (.cpuFetch va none) s = .next (t.ok (.bytes bs))))) ∧
  (∀ (s : State) (va : Word) (pa size : Nat) (p : Pte) (c : Side), CacheSound s → s.accessOk va.toNat size →
    s.tlbHit va.toNat pa p → p.memtype = .normal → p.cached = true → s.cfg.prefetch.enable = false →
    (∀ i < size, ∃ o, s.ramRange (pa + i - (pa + i) % s.cfg.lineSize) s.cfg.lineSize o) →
    ∃ bs cache dram bus, let t := { s.afterHit va.toNat with cache := cache, dram := dram, bus := bus }
      bs.length = size ∧
      (pa % s.cfg.lineSize + size ≤ s.cfg.lineSize → ∀ o, s.ramRange (pa - pa % s.cfg.lineSize) s.cfg.lineSize o →
        bs = ((s.lineOf pa c o).drop (pa % s.cfg.lineSize)).take size) ∧
      CacheSound t ∧ (∀ a, t.newest a = s.newest a) ∧ bus.regions = s.bus.regions ∧ bus.faults = s.bus.faults ∧
      dram.faultCount = s.dram.faultCount ∧ (∀ x, (∀ a, s.ramOffset a ≠ some x) → t.dramByte x = s.dramByte x) ∧
      (c = .l1d → ∀ sg, exec (.cpuLoad va size sg) s = .next (t.ok (.int (unpack s.cfg.endianness bs sg)))) ∧
      (c = .l1i → p.executable = true → exec (.cpuFetch va (some size)) s = .next (t.ok (.bytes bs)) ∧
        (size = 4 → exec (.cpuFetch va none) s = .next (t.ok (.bytes bs)))))

/-- A store to a normal page that is not cached, over RAM (R315, R317): one bus write of the packed value, then the PTE is
dirty; the caches and the write-combining buffer stay. -/
def Obligations.UncachedStoreWritesTheBus : Prop :=
  ∀ (s : State) (va : Word) (pa size o : Nat) (x : Int) (sg : Bool) (p : Pte), s.accessOk va.toNat size →
    s.tlbHit va.toNat pa p → p.writable = true → p.memtype = .normal → p.cached = false → s.ramRange pa size o →
    Memory.wf s.cfg.fillByte s.dram.cells → let bs := pack s.cfg.endianness x size
    ∃ d m, s.storedAt { s with dram := d } o bs ∧
      exec (.cpuStore va size x sg) s =
        .next ({ s.afterHit va.toNat with dram := d, mmu := m, bus := s.bus.afterWrite pa bs }.ok .unit) ∧
      m = { (s.afterHit va.toNat).mmu with tables := m.tables } ∧
      ∀ a v, m.pte a v = if (a, v) = (s.mmu.currentAsid, va.toNat >>> Nat.log2 s.cfg.pageSize)
        then some { p with dirty := true } else s.mmu.pte a v

/-- A device store over RAM (R316, R321): the write-combining buffer, if it holds bytes, reaches the bus first, in one
write; then the store does; the PTE is not dirtied. -/
def Obligations.DeviceStoreFlushesBufferFirst : Prop :=
  ∀ (s : State) (va : Word) (pa size o : Nat) (x : Int) (sg : Bool) (p : Pte), s.accessOk va.toNat size →
    s.tlbHit va.toNat pa p → p.writable = true → p.memtype = .device → s.ramRange pa size o →
    Memory.wf s.cfg.fillByte s.dram.cells → let bs := pack s.cfg.endianness x size
    (s.cpu.wc = { base := none, bytes := [] } → ∃ d, s.storedAt { s with dram := d } o bs ∧
      exec (.cpuStore va size x sg) s =
        .next ({ s.afterHit va.toNat with dram := d, bus := s.bus.afterWrite pa bs }.ok .unit)) ∧
    (∀ b o', s.cpu.wc.base = some b → s.ramRange b s.cpu.wc.bytes.length o' →
      ∃ d d', s.storedAt { s with dram := d } o' s.cpu.wc.bytes ∧
        { s with dram := d }.storedAt { s with dram := d' } o bs ∧
        exec (.cpuStore va size x sg) s =
          .next ({ s.afterHit va.toNat with
            dram := d', cpu := { s.cpu with wc := { base := none, bytes := [] } }
            bus := (s.bus.afterWrite b s.cpu.wc.bytes).afterWrite pa bs }.ok .unit))

/-- A write-combining store (R320) seeds an empty buffer, is appended to one that it continues within the line of the
buffer's base, and else the buffer is written to the bus in one transfer and seeded again; `memory_barrier` (R321, R323)
writes a buffer that holds bytes to the bus in one write and empties it. -/
def Obligations.WriteCombiningPostsAndDrains : Prop :=
  (∀ (s : State) (va : Word) (pa size : Nat) (x : Int) (sg : Bool) (p : Pte), s.accessOk va.toNat size →
    s.tlbHit va.toNat pa p → p.writable = true → p.memtype = .wc → let bs := pack s.cfg.endianness x size
    (s.cpu.wc.base = none → exec (.cpuStore va size x sg) s =
      .next ({ s.afterHit va.toNat with cpu := { s.cpu with wc := { base := some pa, bytes := bs } } }.ok .unit)) ∧
    (∀ b, s.cpu.wc.base = some b → pa = b + s.cpu.wc.bytes.length → pa / s.cfg.lineSize = b / s.cfg.lineSize →
      exec (.cpuStore va size x sg) s = .next ({ s.afterHit va.toNat with
        cpu := { s.cpu with wc := { base := some b, bytes := s.cpu.wc.bytes ++ bs } } }.ok .unit)) ∧
    (∀ b o, s.cpu.wc.base = some b → (pa ≠ b + s.cpu.wc.bytes.length ∨ pa / s.cfg.lineSize ≠ b / s.cfg.lineSize) →
      s.ramRange b s.cpu.wc.bytes.length o → Memory.wf s.cfg.fillByte s.dram.cells →
      ∃ d, s.storedAt { s with dram := d } o s.cpu.wc.bytes ∧
        exec (.cpuStore va size x sg) s = .next ({ s.afterHit va.toNat with
          dram := d, bus := s.bus.afterWrite b s.cpu.wc.bytes
          cpu := { s.cpu with wc := { base := some pa, bytes := bs } } }.ok .unit))) ∧
  (∀ s : State, s.cpu.wc.base = none → exec .cpuMemoryBarrier s = .next (s.ok .unit)) ∧
  (∀ (s : State) (b o : Nat), s.cpu.wc.base = some b → s.ramRange b s.cpu.wc.bytes.length o →
    Memory.wf s.cfg.fillByte s.dram.cells → ∃ d, s.storedAt { s with dram := d } o s.cpu.wc.bytes ∧
      exec .cpuMemoryBarrier s = .next ({ s with
        dram := d, bus := s.bus.afterWrite b s.cpu.wc.bytes
        cpu := { s.cpu with wc := { base := none, bytes := [] } } }.ok .unit))

/-- Inverse store and load (R120, R317) on a writable normal cached page whose line L1D holds: the store dirties the line
and the PTE and reaches neither the bus nor DRAM, its packed bytes are the newest of their addresses, and a load of the same
size and signedness then returns the value stored, truncated. -/
def Obligations.CachedStoreThenLoad : Prop :=
  ∀ (s : State) (va : Word) (pa size : Nat) (x : Int) (sg : Bool) (p : Pte) (q : Nat × Nat),
    s.accessOk va.toNat size → s.tlbHit va.toNat pa p → p.writable = true → p.memtype = .normal → p.cached = true →
    s.cfg.prefetch.enable = false → s.lookup pa .l1d = some q → pa % s.cfg.lineSize + size ≤ s.cfg.lineSize →
    (s.line .l1d q).data.length = s.cfg.lineSize →
    ∃ t u, exec (.cpuStore va size x sg) s = .next t ∧ t.result = .ok .unit ∧ t.bus = s.bus ∧ t.dram = s.dram ∧
      (t.line .l1d q).dirty = true ∧ (∀ i < size, t.newest (pa + i) = (pack s.cfg.endianness x size).getD i 0) ∧
      t.mmu.pte s.mmu.currentAsid (va.toNat >>> Nat.log2 s.cfg.pageSize) = some { p with dirty := true } ∧
      exec (.cpuLoad va size sg) t = .next u ∧ u.bus = s.bus ∧ u.dram = s.dram ∧
      u.result = .ok (.int (if sg = true ∧ ¬ 2 * (x % 2 ^ (8 * size)) < 2 ^ (8 * size)
        then x % 2 ^ (8 * size) - 2 ^ (8 * size) else x % 2 ^ (8 * size)))

/-! ## Attachment, interrupts, traps, CSRs (R327, R328, R466 to R473) -/

/-- `attach_plic` and `attach_clint` (R327, R328): the attachment replaces any earlier one; a hart the CLINT does not have
is refused. `sample_irqs` (R466): MSIP and MTIP take the attached hart's levels, MEIP the attached context's; a bit whose
device is not attached keeps its value, and nothing else changes. -/
def Obligations.AttachAndSample : Prop :=
  (∀ (s : State) (base : Word) (l : Layout) (ctx : Nat), exec (.cpuAttachPlic base l ctx) s =
    .next ({ s with cpu := { s.cpu with plicAttach := some { base := base, layout := l, ctxId := ctx } } }.ok .unit)) ∧
  (∀ (s : State) (h : Nat), h < s.cfg.clint.harts → exec (.cpuAttachClint h) s =
    .next ({ s with cpu := { s.cpu with clintAttach := some h } }.ok .unit)) ∧
  (∀ (s : State) (h : Nat), s.cfg.clint.harts ≤ h → exec (.cpuAttachClint h) s = .refused .clintHart) ∧
  (∀ (s : State) (b : Bool), (∀ h ∈ s.cpu.clintAttach, h < s.cfg.clint.harts) →
    (∀ a ∈ s.cpu.plicAttach, a.ctxId < s.cfg.plic.contexts ∧ (b = true ↔ ∃ id, s.claimable a.ctxId id)) →
    exec .cpuSampleIrqs s = .next ({ s with cpu := { s.cpu with csr := { s.cpu.csr with
      msip := match s.cpu.clintAttach with
        | some h => s.clint.msip.getD h false
        | none => s.cpu.csr.msip
      mtip := match s.cpu.clintAttach with
        | some h => decide ((s.clint.mtimecmp.getD h 0).toNat ≠ 0 ∧
            (s.clint.mtimecmp.getD h 0).toNat ≤ s.clint.mtime.toNat)
        | none => s.cpu.csr.mtip
      meip := if s.cpu.plicAttach.isSome then b else s.cpu.csr.meip } } }.ok .unit))

/-- `should_take_interrupt` and `maybe_take_interrupt` (R467, R471): the cause by priority external, timer, software, none
while MIE is 0; taking one is trap entry with that cause. -/
def Obligations.InterruptSelection : Prop :=
  ∀ (s : State) (c : Option Nat), let r := s.cpu.csr
    c = (if r.mie = false then none else if r.meie = true ∧ r.meip = true then some 11
      else if r.mtie = true ∧ r.mtip = true then some 7 else if r.msie = true ∧ r.msip = true then some 3 else none) →
    exec .cpuShouldTakeInterrupt s = .next (s.ok (.cause c)) ∧
    exec .cpuMaybeTakeInterrupt s = .next (match c with
      | none => s.ok (.cause none)
      | some k => { s with cpu := { s.cpu with csr := { r with
          mpie := r.mie, mie := false, mcause := k, mcauseIsInterrupt := true } } }.ok (.cause (some k)))

/-- `trap_enter`, `mret` and `complete_trap` (R468, R469, R473): what each saves, sets and clears, and nothing else. -/
def Obligations.TrapEntryAndReturn : Prop :=
  ∀ s : State,
    (∀ (k : Nat) (b : Option Bool), exec (.cpuTrapEnter k b) s = .next ({ s with cpu := { s.cpu with csr :=
      { s.cpu.csr with mpie := s.cpu.csr.mie, mie := false, mcause := k, mcauseIsInterrupt := b.getD true } } }.ok
        .unit)) ∧
    (∀ i : Instr, i = .cpuMret ∨ i = .cpuCompleteTrap → exec i s = .next ({ s with cpu := { s.cpu with csr :=
      { s.cpu.csr with mie := s.cpu.csr.mpie, mpie := true, mcause := 0, mcauseIsInterrupt := false } } }.ok .unit))

/-- `csr_read` and `csr_write` (R470): every field reads; MIE, MPIE, MSIE, MTIE and MEIE take bit 0 of the value, and a
write of any other field is refused. -/
def Obligations.CsrReadAndWrite : Prop :=
  ∀ (s : State) (v : Nat), let r := s.cpu.csr
    let put := fun c : Csr => Host.Outcome.next (ρ := Refusal) (φ := Fault)
      ({ s with cpu := { s.cpu with csr := c } }.ok .unit)
    (∀ f : CsrField, exec (.cpuCsrRead f) s = .next (s.ok (.nat (match f with
      | .mie => r.mie.toNat
      | .mpie => r.mpie.toNat
      | .msie => r.msie.toNat
      | .mtie => r.mtie.toNat
      | .meie => r.meie.toNat
      | .msip => r.msip.toNat
      | .mtip => r.mtip.toNat
      | .meip => r.meip.toNat
      | .mcause => r.mcause
      | .mcauseIsInterrupt => r.mcauseIsInterrupt.toNat)))) ∧
    exec (.cpuCsrWrite .mie v) s = put { r with mie := decide (v % 2 = 1) } ∧
    exec (.cpuCsrWrite .mpie v) s = put { r with mpie := decide (v % 2 = 1) } ∧
    exec (.cpuCsrWrite .msie v) s = put { r with msie := decide (v % 2 = 1) } ∧
    exec (.cpuCsrWrite .mtie v) s = put { r with mtie := decide (v % 2 = 1) } ∧
    exec (.cpuCsrWrite .meie v) s = put { r with meie := decide (v % 2 = 1) } ∧
    ∀ f, f = .msip ∨ f = .mtip ∨ f = .meip ∨ f = .mcause ∨ f = .mcauseIsInterrupt →
      exec (.cpuCsrWrite f v) s = .refused .csrReadOnly

/-- `poll_interrupts` (R472) without a handler, on the attached level-mode PLIC's device page: the id of the claim search
is loaded from CLAIM and, when it is not 0, stored to COMPLETE; one bus read, and one bus write only then; the PLIC, DRAM
and the caches stay. Without an attached PLIC it is refused. -/
def Obligations.PollClaimsAndCompletes : Prop :=
  (∀ (s : State) (ctx : Nat) (h : Option (List Token)), s.cpu.plicAttach = none →
    exec (.cpuPollInterrupts ctx h) s = .refused .noPlicAttached) ∧
  (∀ (s : State) (ctx id pa va : Nat) (a : PlicAttach) (p : Pte) (r : Region) (caps : Caps),
    ConfigLegal s.cfg → s.cpu.plicAttach = some a → ctx < s.cfg.plic.contexts → s.isBest ctx id →
    va = a.base.toNat + a.layout.ctxBase + ctx * a.layout.stride + 12 → s.accessOk va 4 → s.tlbHit va pa p →
    p.memtype = .device → p.writable = true → s.bus.find pa = some r → r.kind = .mmio .plic caps →
    pa + 4 ≤ r.base + r.size → caps.align = 4 → caps.widths = some [4] →
    pa - r.base = s.cfg.plic.layout.ctxBase + ctx * s.cfg.plic.layout.stride + 12 →
    s.cfg.plic.mode = .level → s.cfg.endianness = .little → s.cpu.wc.base = none →
    let bs := packLe id 4
    exec (.cpuPollInterrupts ctx none) s = .next (if id = 0
      then { s.afterHit va with bus := s.bus.afterRead pa bs }.ok (.int 0)
      else { (s.afterHit va).afterHit va with bus := (s.bus.afterRead pa bs).afterWrite pa bs }.ok (.int id)))

/-! ## PLIC (R353 to R365) -/

/-- `raise` and `lower` (R362, R363): in level mode pending follows the line; in latched mode a raise of a low line sets
pending, a raise of a high one and a lower leave it; an id outside 1..N is refused. -/
def Obligations.PlicLinesMovePending : Prop :=
  (∀ (s : State) (id : Nat), 1 ≤ id → id ≤ s.cfg.plic.sources → ∃ w : Word,
    (∀ j, w.getLsbD j = if j = id - 1 ∧ j < 64 ∧ (s.cfg.plic.mode = .level ∨ s.plic.lineHigh.getD (id - 1) false = false)
      then true else s.plic.pending.getLsbD j) ∧
    exec (.plicRaise id) s = .next ({ s with plic := { s.plic with
      lineHigh := s.plic.lineHigh.set (id - 1) true, pending := w } }.ok .unit)) ∧
  (∀ (s : State) (id : Nat), 1 ≤ id → id ≤ s.cfg.plic.sources → ∃ w : Word,
    (∀ j, w.getLsbD j = if j = id - 1 ∧ s.cfg.plic.mode = .level then false else s.plic.pending.getLsbD j) ∧
    exec (.plicLower id) s = .next ({ s with plic := { s.plic with
      lineHigh := s.plic.lineHigh.set (id - 1) false, pending := w } }.ok .unit)) ∧
  (∀ (s : State) (id : Nat), id = 0 ∨ s.cfg.plic.sources < id →
    exec (.plicRaise id) s = .refused .plicSourceId ∧ exec (.plicLower id) s = .refused .plicSourceId)

/-- The claim search (R353, R354, R360, R365): a CLAIM read returns the lowest id among the claimable sources of the
highest priority, 0 when there is none, and in latched mode clears its pending bit; `get_context_irq` says whether there
is one and changes nothing. -/
def Obligations.ClaimReturnsHighestPriority : Prop :=
  ∀ (s : State) (c : Nat), ConfigLegal s.cfg → c < s.cfg.plic.contexts → ∃ (id : Nat) (w : Word), s.isBest c id ∧
    (∀ j, w.getLsbD j = if id ≠ 0 ∧ j = id - 1 ∧ s.cfg.plic.mode = .latched then false
      else s.plic.pending.getLsbD j) ∧
    exec (.plicClaimR s.cfg.plic.layout c) s =
      .next ({ s with plic := { s.plic with pending := w } }.ok (.bytes (packLe id 4))) ∧
    exec (.plicGetContextIrq c) s = .next (s.ok (.bool (decide (id ≠ 0))))

/-- The PLIC's registers but CLAIM and COMPLETE (R355, R356, R358, R359): PRIO and THRESHOLD store every 32-bit value; each
half of PEND and ENABLE reads as four little-endian bytes; a write of a half of ENABLE keeps the other half and clears
every bit of a source above N. -/
def Obligations.PlicRegisters : Prop :=
  (∀ (s : State) (id : Nat), 1 ≤ id → id ≤ s.cfg.plic.sources →
    exec (.plicPrioR s.cfg.plic.layout id) s =
      .next (s.ok (.bytes (packLe (s.plic.priority.getD (id - 1) 0).toNat 4))) ∧
    ∀ v, exec (.plicPrioW s.cfg.plic.layout id v) s =
      .next ({ s with plic := { s.plic with priority := s.plic.priority.set (id - 1) v } }.ok .unit)) ∧
  (∀ (s : State) (c : Nat), c < s.cfg.plic.contexts →
    exec (.plicThresholdR s.cfg.plic.layout c) s =
      .next (s.ok (.bytes (packLe (s.plic.threshold.getD c 0).toNat 4))) ∧
    ∀ v, exec (.plicThresholdW s.cfg.plic.layout c v) s =
      .next ({ s with plic := { s.plic with threshold := s.plic.threshold.set c v } }.ok .unit)) ∧
  (∀ (s : State), s.cfg.plic.sources ≤ 64 → let l := s.cfg.plic.layout
    exec (.plicPendLoR l) s = .next (s.ok (.bytes (packLe (s.plic.pending.toNat % 2 ^ 32) 4))) ∧
    exec (.plicPendHiR l) s = .next (s.ok (.bytes (packLe (s.plic.pending.toNat / 2 ^ 32) 4))) ∧
    ∀ (c : Nat) (w : Word), c < s.cfg.plic.contexts → s.plic.enable[c]? = some w →
      exec (.plicEnableLoR l c) s = .next (s.ok (.bytes (packLe (w.toNat % 2 ^ 32) 4))) ∧
      exec (.plicEnableHiR l c) s = .next (s.ok (.bytes (packLe (w.toNat / 2 ^ 32) 4))) ∧
      ∀ v : Word32,
        exec (.plicEnableLoW l c v) s = .next ({ s with plic := { s.plic with
          enable := s.plic.enable.set c
            (BitVec.ofNat 64 ((w.toNat / 2 ^ 32 * 2 ^ 32 + v.toNat) % 2 ^ s.cfg.plic.sources)) } }.ok .unit) ∧
        exec (.plicEnableHiW l c v) s = .next ({ s with plic := { s.plic with
          enable := s.plic.enable.set c
            (BitVec.ofNat 64 ((v.toNat * 2 ^ 32 + w.toNat % 2 ^ 32) % 2 ^ s.cfg.plic.sources)) } }.ok .unit))

/-- A write of COMPLETE (R361): in latched mode the source 1..N named is pending exactly when its line is high; in level
mode, and for any other id, nothing changes. -/
def Obligations.CompleteRearmsLatchedSource : Prop :=
  ∀ (s : State) (c : Nat) (v : Word32), c < s.cfg.plic.contexts → ∃ w : Word,
    (∀ j, w.getLsbD j =
      if v.toNat = j + 1 ∧ v.toNat ≤ s.cfg.plic.sources ∧ j < 64 ∧ s.cfg.plic.mode = .latched
      then s.plic.lineHigh.getD j false else s.plic.pending.getLsbD j) ∧
    exec (.plicCompleteW s.cfg.plic.layout c v) s = .next ({ s with plic := { s.plic with pending := w } }.ok .unit)

/-! ## CLINT (R392 to R396) -/

/-- Reads of MSIP, MTIMECMP and MTIME (R392, R393, R394), whole and by halves, little-endian; `CLINT.advance` (R395) moves
time by tick·n modulo 2^64; `get_irq_levels` (R396): MTIP while the compare is not 0 and the time has reached it. -/
def Obligations.ClintReadsAndLevels : Prop :=
  (∀ (s : State) (h : Nat), h < s.cfg.clint.harts → let w := (s.clint.mtimecmp.getD h 0).toNat
    exec (.clintMsipR h) s = .next (s.ok (.bytes (packLe (s.clint.msip.getD h false).toNat 4))) ∧
    exec (.clintMtimecmpR h) s = .next (s.ok (.bytes (packLe w 8))) ∧
    exec (.clintMtimecmpLoR h) s = .next (s.ok (.bytes (packLe (w % 2 ^ 32) 4))) ∧
    exec (.clintMtimecmpHiR h) s = .next (s.ok (.bytes (packLe (w / 2 ^ 32) 4)))) ∧
  (∀ s : State, let w := s.clint.mtime.toNat
    exec .clintMtimeR s = .next (s.ok (.bytes (packLe w 8))) ∧
    exec .clintMtimeLoR s = .next (s.ok (.bytes (packLe (w % 2 ^ 32) 4))) ∧
    exec .clintMtimeHiR s = .next (s.ok (.bytes (packLe (w / 2 ^ 32) 4)))) ∧
  (∀ (s : State) (n : Nat), exec (.clintAdvance n) s = .next ({ s with clint := { s.clint with
    mtime := BitVec.ofNat 64 ((s.clint.mtime.toNat + s.cfg.clint.tick * n) % 2 ^ 64) } }.ok .unit)) ∧
  (∀ (s : State) (h : Nat), h < s.cfg.clint.harts → exec (.clintGetIrqLevels h) s = .next (s.ok
    (.levels (s.clint.msip.getD h false) (decide ((s.clint.mtimecmp.getD h 0).toNat ≠ 0 ∧
      (s.clint.mtimecmp.getD h 0).toNat ≤ s.clint.mtime.toNat))))) ∧
  (∀ (s : State) (h : Nat), s.cfg.clint.harts ≤ h → exec (.clintGetIrqLevels h) s = .refused .clintHart)

/-- Writes of MSIP, MTIMECMP and MTIME (R392, R393, R394): MSIP takes bit 0; a half write leaves the other half. -/
def Obligations.ClintWrites : Prop :=
  (∀ (s : State) (h : Nat) (v : Word32), h < s.cfg.clint.harts →
    exec (.clintMsipW h v) s =
      .next ({ s with clint := { s.clint with msip := s.clint.msip.set h (decide (v.toNat % 2 = 1)) } }.ok .unit)) ∧
  (∀ (s : State) (h : Nat) (w : Word), h < s.cfg.clint.harts → s.clint.mtimecmp[h]? = some w →
    let put := fun x : Word => Host.Outcome.next (ρ := Refusal) (φ := Fault)
      ({ s with clint := { s.clint with mtimecmp := s.clint.mtimecmp.set h x } }.ok .unit)
    (∀ v, exec (.clintMtimecmpW h v) s = put v) ∧
    (∀ v : Word32, exec (.clintMtimecmpLoW h v) s = put (BitVec.ofNat 64 (w.toNat / 2 ^ 32 * 2 ^ 32 + v.toNat)) ∧
      exec (.clintMtimecmpHiW h v) s = put (BitVec.ofNat 64 (v.toNat * 2 ^ 32 + w.toNat % 2 ^ 32)))) ∧
  (∀ s : State, let w := s.clint.mtime.toNat
    let put := fun x : Word => Host.Outcome.next (ρ := Refusal) (φ := Fault)
      ({ s with clint := { s.clint with mtime := x } }.ok .unit)
    (∀ v, exec (.clintMtimeW v) s = put v) ∧
    ∀ v : Word32, exec (.clintMtimeLoW v) s = put (BitVec.ofNat 64 (w / 2 ^ 32 * 2 ^ 32 + v.toNat)) ∧
      exec (.clintMtimeHiW v) s = put (BitVec.ofNat 64 (v.toNat * 2 ^ 32 + w % 2 ^ 32)))

/-! ## UART (R412 to R417, R455) -/

/-- The UART's registers and `push_rx` (R412 to R417, R455): DATA pops the oldest byte or reads 0, and transmits; STATUS
and CTRL; the output follows RX_EN and the FIFO, and drives the PLIC source it is wired to. -/
def Obligations.UartOperations : Prop :=
  ∀ (s : State) (k : Nat) (u : Uart) (c : UartCfg), s.uarts[k]? = some u → s.cfg.uarts[k]? = some c →
    s.sinkFits c.sink →
    let put := fun (rx : List Byte) (en : Bool) (v : Value) => Host.Outcome.next (ρ := Refusal) (φ := Fault)
      ({ s with
          uarts := s.uarts.set k { rxFifo := rx, rxEn := en, irqOut := en && !rx.isEmpty, tx := u.tx }
          plic := s.sinkPlic c.sink u.irqOut (en && !rx.isEmpty) }.ok v)
    exec (.uartDataR k) s = put u.rxFifo.tail u.rxEn (.bytes [u.rxFifo.headD 0]) ∧
    (∀ b, exec (.uartPushRx k b) s = put (u.rxFifo ++ [b]) u.rxEn .unit) ∧
    (∀ v : Word32, exec (.uartCtrlW k v) s = put u.rxFifo (decide (v.toNat % 2 = 1)) .unit) ∧
    (∀ b, exec (.uartDataW k b) s =
      .next ({ s with uarts := s.uarts.set k { u with tx := u.tx ++ [b] } }.ok .unit)) ∧
    exec (.uartStatusR k) s = .next (s.ok (.bytes [if u.rxFifo = [] then 1 else 3, 0, 0, 0])) ∧
    exec (.uartCtrlR k) s = .next (s.ok (.bytes [if u.rxEn = true then 1 else 0, 0, 0, 0]))

/-! ## Timer (R420 to R423, R455) -/

/-- Reads of a timer's and of a DMA engine's registers (R420, R421, R430, R431): each value as four little-endian bytes,
START and BUSY reading 0, no change. -/
def Obligations.TimerAndDmaReads : Prop :=
  (∀ (s : State) (k : Nat) (t : Timer), s.timers[k]? = some t →
    let get := fun n : Nat => Host.Outcome.next (ρ := Refusal) (φ := Fault) (s.ok (.bytes (packLe n 4)))
    exec (.timerCntLoR k) s = get (t.cnt.toNat % 2 ^ 32) ∧ exec (.timerCntHiR k) s = get (t.cnt.toNat / 2 ^ 32) ∧
    exec (.timerCmpLoR k) s = get (t.cmp.toNat % 2 ^ 32) ∧ exec (.timerCmpHiR k) s = get (t.cmp.toNat / 2 ^ 32) ∧
    exec (.timerCtrlR k) s = get (t.enable.toNat + 2 * t.irqEnable.toNat + 4 * t.autoReload.toNat) ∧
    exec (.timerStatusR k) s = get t.pending.toNat ∧ exec (.timerTickR k) s = get t.tick.toNat) ∧
  (∀ (s : State) (k : Nat) (d : Dma), s.dmas[k]? = some d →
    let get := fun n : Nat => Host.Outcome.next (ρ := Refusal) (φ := Fault) (s.ok (.bytes (packLe n 4)))
    exec (.dmaSrcLoR k) s = get (d.src.toNat % 2 ^ 32) ∧ exec (.dmaSrcHiR k) s = get (d.src.toNat / 2 ^ 32) ∧
    exec (.dmaDstLoR k) s = get (d.dst.toNat % 2 ^ 32) ∧ exec (.dmaDstHiR k) s = get (d.dst.toNat / 2 ^ 32) ∧
    exec (.dmaLenR k) s = get d.len.toNat ∧ exec (.dmaCtrlR k) s = get (2 * d.irqEn.toNat) ∧
    exec (.dmaStatusR k) s = get (2 * d.done.toNat + 4 * d.err.toNat))

/-- Writes of the timer's registers (R420, R421, R423, R455): a half write leaves the other half, CTRL takes bits 2..0,
STATUS clears pending when bit 0 is 1, TICK is stored; the output follows irq_enable and pending, and drives the PLIC
source it is wired to. -/
def Obligations.TimerWrites : Prop :=
  ∀ (s : State) (k : Nat) (t : Timer) (c : TimerCfg) (v : Word32), s.timers[k]? = some t → s.cfg.timers[k]? = some c →
    s.sinkFits c.sink →
    let put := fun x : Timer => Host.Outcome.next (ρ := Refusal) (φ := Fault)
      ({ s with
          timers := s.timers.set k { x with irqOut := x.irqEnable && x.pending }
          plic := s.sinkPlic c.sink t.irqOut (x.irqEnable && x.pending) }.ok .unit)
    exec (.timerCntLoW k v) s = put { t with cnt := BitVec.ofNat 64 (t.cnt.toNat / 2 ^ 32 * 2 ^ 32 + v.toNat) } ∧
    exec (.timerCntHiW k v) s = put { t with cnt := BitVec.ofNat 64 (v.toNat * 2 ^ 32 + t.cnt.toNat % 2 ^ 32) } ∧
    exec (.timerCmpLoW k v) s = put { t with cmp := BitVec.ofNat 64 (t.cmp.toNat / 2 ^ 32 * 2 ^ 32 + v.toNat) } ∧
    exec (.timerCmpHiW k v) s = put { t with cmp := BitVec.ofNat 64 (v.toNat * 2 ^ 32 + t.cmp.toNat % 2 ^ 32) } ∧
    exec (.timerCtrlW k v) s = put { t with
      enable := decide (v.toNat % 2 = 1), irqEnable := decide (v.toNat / 2 % 2 = 1)
      autoReload := decide (v.toNat / 4 % 2 = 1) } ∧
    exec (.timerStatusW k v) s = put { t with pending := t.pending && decide (v.toNat % 2 = 0) } ∧
    exec (.timerTickW k v) s = put { t with tick := v }

/-- `TIMER.advance` (R421, R422, R423, R455): an enabled timer makes n steps of adding TICK modulo 2^64, setting pending at
a non-zero compare reached and returning to 0 with auto_reload; TICK = 0 leaves CNT unchanged; a disabled one stays; the
output follows. That the compare sets pending with TICK = 0 too is DEDUCED (log 23). -/
def Obligations.TimerAdvances : Prop :=
  ∀ (s : State) (k n : Nat) (t : Timer) (c : TimerCfg), s.timers[k]? = some t → s.cfg.timers[k]? = some c →
    s.sinkFits c.sink →
    let tick := fun x : Nat × Bool =>
      let cnt := (x.1 + t.tick.toNat) % 2 ^ 64
      if t.cmp.toNat ≠ 0 ∧ t.cmp.toNat ≤ cnt then (if t.autoReload = true ∧ t.tick ≠ 0 then 0 else cnt, true) else (cnt, x.2)
    let r := if t.enable = true then tick^[n] (t.cnt.toNat, t.pending) else (t.cnt.toNat, t.pending)
    exec (.timerAdvance k n) s = .next ({ s with
      timers := s.timers.set k
        { t with cnt := BitVec.ofNat 64 r.1, pending := r.2, irqOut := t.irqEnable && r.2 }
      plic := s.sinkPlic c.sink t.irqOut (t.irqEnable && r.2) }.ok .unit)

/-! ## DMA engine (R430 to R436, R455) -/

/-- Writes of SRC, DST, LEN, STATUS and of CTRL without START (R431, R432, R433, R435, R455): a half write leaves the
other half; STATUS clears DONE and ERR where their bits are 1; CTRL stores IRQ_EN; STATUS and CTRL drive the output. -/
def Obligations.DmaWrites : Prop :=
  ∀ (s : State) (k : Nat) (d : Dma) (c : DmaCfg) (v : Word32), s.dmas[k]? = some d → s.cfg.dmas[k]? = some c →
    s.sinkFits c.sink →
    let put := fun x : Dma => Host.Outcome.next (ρ := Refusal) (φ := Fault)
      ({ s with dmas := s.dmas.set k x }.ok .unit)
    let drive := fun x : Dma => Host.Outcome.next (ρ := Refusal) (φ := Fault)
      ({ s with
          dmas := s.dmas.set k { x with irqOut := x.irqEn && (x.done || x.err) }
          plic := s.sinkPlic c.sink d.irqOut (x.irqEn && (x.done || x.err)) }.ok .unit)
    exec (.dmaSrcLoW k v) s = put { d with src := BitVec.ofNat 64 (d.src.toNat / 2 ^ 32 * 2 ^ 32 + v.toNat) } ∧
    exec (.dmaSrcHiW k v) s = put { d with src := BitVec.ofNat 64 (v.toNat * 2 ^ 32 + d.src.toNat % 2 ^ 32) } ∧
    exec (.dmaDstLoW k v) s = put { d with dst := BitVec.ofNat 64 (d.dst.toNat / 2 ^ 32 * 2 ^ 32 + v.toNat) } ∧
    exec (.dmaDstHiW k v) s = put { d with dst := BitVec.ofNat 64 (v.toNat * 2 ^ 32 + d.dst.toNat % 2 ^ 32) } ∧
    exec (.dmaLenW k v) s = put { d with len := v } ∧
    exec (.dmaStatusW k v) s = drive { d with
      done := d.done && decide (v.toNat / 2 % 2 = 0), err := d.err && decide (v.toNat / 4 % 2 = 0) } ∧
    (v.toNat % 2 = 0 → exec (.dmaCtrlW k v) s = drive { d with irqEn := decide (v.toNat / 2 % 2 = 1) })

/-- A transfer over anything but RAM with `ram_only` (R433, R434): ERR, not DONE, no chunk is moved and no byte of DRAM
changes; the write itself returns ok. -/
def Obligations.DmaRangeCheckSetsErr : Prop :=
  ∀ (s : State) (k : Nat) (d : Dma) (c : DmaCfg) (v : Word32) (a : Nat), s.dmas[k]? = some d →
    s.cfg.dmas[k]? = some c → s.sinkFits c.sink → v.toNat % 2 = 1 → c.ramOnly = true → RegionsOk s.bus →
    ((d.src.toNat ≤ a ∧ a < d.src.toNat + d.len.toNat) ∨ (d.dst.toNat ≤ a ∧ a < d.dst.toNat + d.len.toNat)) →
    s.ramOffset a = none →
    exec (.dmaCtrlW k v) s = .next ({ s with
      dmas := s.dmas.set k { d with
        irqEn := decide (v.toNat / 2 % 2 = 1), busy := false, err := true, irqOut := decide (v.toNat / 2 % 2 = 1) }
      plic := s.sinkPlic c.sink d.irqOut (decide (v.toNat / 2 % 2 = 1)) }.ok .unit)

/-- A transfer between two ranges of RAM that do not meet in DRAM, of any length (R433): the destination holds the
source's bytes, every other byte is unchanged, DONE is set and not ERR, LEN bytes are read and LEN written on the bus, and
the output follows. -/
def Obligations.DmaCopiesRam : Prop :=
  ∀ (s : State) (k : Nat) (d : Dma) (c : DmaCfg) (v : Word32) (oSrc oDst : Nat), s.dmas[k]? = some d →
    s.cfg.dmas[k]? = some c → s.sinkFits c.sink → v.toNat % 2 = 1 → RegionsOk s.bus →
    Memory.wf s.cfg.fillByte s.dram.cells → s.ramRange d.src.toNat d.len.toNat oSrc →
    s.ramRange d.dst.toNat d.len.toNat oDst → (oSrc + d.len.toNat ≤ oDst ∨ oDst + d.len.toNat ≤ oSrc) →
    ¬ (d.src.toNat < c.base.toNat + 32 ∧ c.base.toNat < d.src.toNat + d.len.toNat) →
    ¬ (d.dst.toNat < c.base.toNat + 32 ∧ c.base.toNat < d.dst.toNat + d.len.toNat) →
    ∃ dram bus, s.storedAt { s with dram := dram } oDst (s.dramBytes oSrc d.len.toNat) ∧
      bus.regions = s.bus.regions ∧ bus.faults = s.bus.faults ∧
      bus.readBytes = s.bus.readBytes + d.len.toNat ∧ bus.writeBytes = s.bus.writeBytes + d.len.toNat ∧
      exec (.dmaCtrlW k v) s = .next ({ s with
        dram := dram, bus := bus
        dmas := s.dmas.set k { d with
          irqEn := decide (v.toNat / 2 % 2 = 1), busy := false, done := true
          irqOut := decide (v.toNat / 2 % 2 = 1) }
        plic := s.sinkPlic c.sink d.irqOut (decide (v.toNat / 2 % 2 = 1)) }.ok .unit)

/-! ## ROM (R450, R451) -/

/-- ROM accesses (R450, R451): a read returns the contents; a write raises ReadOnly when the ROM is strict and drops the
bytes when it is not; nothing changes. -/
def Obligations.RomAccesses : Prop :=
  ∀ (s : State) (k : Nat) (m : Rom) (c : RomCfg) (off : Word), s.roms[k]? = some m → s.cfg.roms[k]? = some c →
    (∀ width, off.toNat + width ≤ m.contents.length →
      exec (.romRead k off width) s = .next (s.ok (.bytes ((m.contents.drop off.toNat).take width)))) ∧
    (∀ bs : List Byte, off.toNat + bs.length ≤ m.contents.length → exec (.romWrite k off bs) s =
      .next (if c.strict = true then s.err (.readOnly (c.base.toNat + off.toNat)) else s.ok .unit))
end

