-- ==== Sys2Proof/Laws/Run.lean ====
section
/-! SUPPORT. How an operation runs: one equation per way of building one, so that no proof unfolds the monad. -/

namespace Sys2Proof.Machine

variable {α β : Type}

@[simp] theorem Op.run_pure (a : α) (s : State) : (pure a : Op α) s = .ok a s := rfl

@[simp] theorem Op.run_get (s : State) : (get : Op State) s = .ok s s := rfl

@[simp] theorem Op.run_modify (f : State → State) (s : State) : (modify f : Op Unit) s = .ok () (f s) := rfl

@[simp] theorem Op.run_raise (k : ErrKind) (s : State) : (raise k : Op α) s = .error (.err { kind := k }) s := rfl

@[simp] theorem Op.run_refuse (r : Refusal) (s : State) : (refuse r : Op α) s = .error (.refuse r) s := rfl

@[simp] theorem need_some (a : α) (r : Refusal) : need (some a) r = pure a := rfl

@[simp] theorem need_none (r : Refusal) : (need none r : Op α) = refuse r := rfl

/-- A sequence runs its first part, and its second part on the state and the result of the first, if it did not end
early. -/
theorem Op.run_bind (m : Op α) (f : α → Op β) (s : State) :
    (m >>= f) s = match m s with
      | .ok a t => f a t
      | .error e t => .error e t := by
  change EStateM.bind m f s = _
  unfold EStateM.bind
  cases m s <;> rfl

/-- A sequence whose first part goes well is its second part. -/
theorem Op.bind_ok {m : Op α} {f : α → Op β} {s t : State} {a : α} (h : m s = .ok a t) : (m >>= f) s = f a t := by
  rw [Op.run_bind, h]

/-- A sequence whose first part ends early ends early with it. -/
theorem Op.bind_error {m : Op α} {f : α → Op β} {s t : State} {e : Stop} (h : m s = .error e t) :
    (m >>= f) s = .error e t := by
  rw [Op.run_bind, h]

@[simp] theorem Op.pure_bind_run (a : α) (f : α → Op β) (s : State) : ((pure a : Op α) >>= f) s = f a s := rfl

@[simp] theorem Op.get_bind_run (f : State → Op β) (s : State) : ((get : Op State) >>= f) s = f s s := rfl

@[simp] theorem Op.modify_bind_run (g : State → State) (f : Unit → Op β) (s : State) :
    ((modify g : Op Unit) >>= f) s = f () (g s) := rfl

@[simp] theorem Op.raise_bind_run (k : ErrKind) (f : α → Op β) (s : State) :
    ((raise k : Op α) >>= f) s = .error (.err { kind := k }) s := rfl

@[simp] theorem Op.refuse_bind_run (r : Refusal) (f : α → Op β) (s : State) :
    ((refuse r : Op α) >>= f) s = .error (.refuse r) s := rfl

@[simp] theorem Op.map_run (g : α → β) (m : Op α) (s : State) :
    (g <$> m) s = match m s with
      | .ok a t => .ok (g a) t
      | .error e t => .error e t := by
  change EStateM.map g m s = _
  unfold EStateM.map
  cases m s <;> rfl

/-- What a sequence answered when it went well, its first part went well with too. -/
theorem Op.ok_of_bind {m : Op α} {f : α → Op β} {s t : State} {b : β} (h : (m >>= f) s = .ok b t) :
    ∃ a u, m s = .ok a u ∧ f a u = .ok b t := by
  rw [Op.run_bind] at h
  split at h
  · exact ⟨_, _, ‹_›, h⟩
  · cases h

/-! ## Ending an operation -/

/-- An operation that goes well is a next state that records its result. -/
theorem finish_ok {m : Op Value} {s t : State} {v : Value} (h : m s = .ok v t) :
    finish m s = .next { t with result := .ok v } := by
  rw [finish, h]

/-- An operation that ends in an error is a next state that records the error. -/
theorem finish_err {m : Op Value} {s t : State} {e : Err} (h : m s = .error (.err e) t) :
    finish m s = .next { t with result := .err e } := by
  rw [finish, h]

/-- An operation that refuses stops the run. -/
theorem finish_refuse {m : Op Value} {s t : State} {r : Refusal} (h : m s = .error (.refuse r) t) :
    finish m s = .refused r := by
  rw [finish, h]

/-- An operation never ends in a fault. -/
theorem finish_ne_fault (m : Op Value) (s : State) (f : Fault) : finish m s ≠ .fault f := by
  unfold finish
  split <;> simp

/-! ## Properties an operation keeps -/

/-- An operation keeps a property when it holds after it, however it ends. -/
def Keeps (P : State → Prop) (m : Op α) : Prop :=
  ∀ s, P s → match m s with
    | .ok _ t => P t
    | .error _ t => P t

namespace Keeps

variable {P : State → Prop}

theorem pure (a : α) : Keeps P (pure a : Op α) := fun _ h => h

theorem get : Keeps P (get : Op State) := fun _ h => h

theorem raise (k : ErrKind) : Keeps P (raise k : Op α) := fun _ h => h

theorem refuse (r : Refusal) : Keeps P (refuse r : Op α) := fun _ h => h

theorem need (o : Option α) (r : Refusal) : Keeps P (need o r) := by
  cases o <;> exact fun _ h => h

theorem modify {f : State → State} (h : ∀ s, P s → P (f s)) : Keeps P (modify f : Op Unit) := fun s hs => h s hs

theorem bind {m : Op α} {f : α → Op β} (hm : Keeps P m) (hf : ∀ a, Keeps P (f a)) : Keeps P (m >>= f) := by
  intro s hs
  have h1 := hm s hs
  rw [Op.run_bind]
  cases h : m s with
  | ok a t => exact hf a t (by simpa [h] using h1)
  | error e t => simpa [h] using h1

/-- After `get`, the rest may use that the state it has is the one that holds the property. -/
theorem get_bind {f : State → Op β} (h : ∀ s, P s → Keeps P (f s)) : Keeps P (MonadState.get >>= f : Op β) :=
  fun s hs => h s hs s hs

theorem ite {c : Prop} [Decidable c] {m n : Op α} (hm : c → Keeps P m) (hn : ¬c → Keeps P n) :
    Keeps P (if c then m else n) := by
  by_cases h : c
  · simpa [h] using hm h
  · simpa [h] using hn h

theorem tagged {m : Op α} (l : Level) (b : Nat) (h : Keeps P m) : Keeps P (tagged l b m) := by
  intro s hs
  have := h s hs
  unfold Machine.tagged
  cases hm : m s with
  | ok a t => simpa [hm] using this
  | error e t => cases e <;> simpa [hm] using this

theorem attempt {m : Op α} (h : Keeps P m) : Keeps P (attempt m) := by
  intro s hs
  have := h s hs
  unfold Machine.attempt
  cases hm : m s with
  | ok a t => simpa [hm] using this
  | error e t => cases e <;> simpa [hm] using this

/-- The operation whose end is recorded keeps what it keeps, if recording a result does. -/
theorem finish {m : Op Value} (h : Keeps P m) (hr : ∀ s r, P s → P { s with result := r }) {s t : State} (hs : P s)
    (ht : finish m s = .next t) : P t := by
  have := h s hs
  unfold Machine.finish at ht
  cases hm : m s with
  | ok a u =>
    simp only [hm, Host.Outcome.next.injEq] at ht this
    exact ht ▸ hr _ _ this
  | error e u =>
    cases e with
    | err e =>
      simp only [hm, Host.Outcome.next.injEq] at ht this
      exact ht ▸ hr _ _ this
    | refuse r => simp [hm] at ht

end Keeps

end Sys2Proof.Machine
end

