-- ==== Sys2Proof/Laws/Post.lean ====
section
/-! SUPPORT. What holds after an operation: of its result and state when it goes well, of its state when it ends in an
error. A refusal stops the run, so nothing is asked of it. -/

namespace Sys2Proof.Machine

variable {α β : Type}

/-- From state s, `m` either goes well and `Q` holds of its result and state, or ends in an error and `E` holds of the
state it left, or refuses. -/
def Post (m : Op α) (s : State) (Q : α → State → Prop) (E : State → Prop) : Prop :=
  match m s with
  | .ok a t => Q a t
  | .error (.err _) t => E t
  | .error (.refuse _) _ => True

namespace Post

variable {s : State} {Q R : α → State → Prop} {E F : State → Prop}

theorem of_ok {m : Op α} {a : α} {t : State} (h : m s = .ok a t) (hq : Q a t) : Post m s Q E := by
  rw [Post, h]
  exact hq

theorem ok {m : Op α} {a : α} {t : State} (h : Post m s Q E) (hm : m s = .ok a t) : Q a t := by
  rw [Post, hm] at h
  exact h

theorem pure {a : α} (h : Q a s) : Post (pure a : Op α) s Q E := h

theorem raise {k : ErrKind} (h : E s) : Post (raise k : Op α) s Q E := h

theorem refuse {r : Refusal} : Post (refuse r : Op α) s Q E := trivial

theorem need {o : Option α} {r : Refusal} (h : ∀ a, o = some a → Q a s) : Post (need o r) s Q E := by
  cases o with
  | none => trivial
  | some a => exact h a rfl

theorem modify {f : State → State} {Q : Unit → State → Prop} (h : Q () (f s)) : Post (modify f : Op Unit) s Q E := h

theorem bind {m : Op α} {f : α → Op β} {Q : β → State → Prop}
    (h : Post m s (fun a t => Post (f a) t Q E) E) : Post (m >>= f) s Q E := by
  unfold Post at h ⊢
  rw [Op.run_bind]
  cases hm : m s with
  | ok a t => simpa [hm] using h
  | error e t =>
    cases e with
    | err e => simpa [hm] using h
    | refuse r => trivial

theorem get_bind {f : State → Op β} {Q : β → State → Prop} (h : Post (f s) s Q E) :
    Post ((get : Op State) >>= f) s Q E := h

theorem modify_bind {g : State → State} {f : Unit → Op β} {Q : β → State → Prop} (h : Post (f ()) (g s) Q E) :
    Post ((modifyGet fun s => ((), g s) : Op Unit) >>= f) s Q E := h

theorem ite {c : Prop} [Decidable c] {m n : Op α} (hm : c → Post m s Q E) (hn : ¬ c → Post n s Q E) :
    Post (if c then m else n) s Q E := by
  by_cases h : c
  · simpa [h] using hm h
  · simpa [h] using hn h

theorem mono {m : Op α} (h : Post m s Q E) (hq : ∀ a t, Q a t → R a t) (he : ∀ t, E t → F t) : Post m s R F := by
  unfold Post at h ⊢
  cases hm : m s with
  | ok a t =>
    simp only [hm] at h ⊢
    exact hq _ _ h
  | error e t =>
    cases e with
    | err e =>
      simp only [hm] at h ⊢
      exact he _ h
    | refuse r => trivial

theorem tagged {m : Op α} {l : Level} {b : Nat} (h : Post m s Q E) : Post (tagged l b m) s Q E := by
  unfold Post at h ⊢
  unfold Machine.tagged
  cases hm : m s with
  | ok a t => simpa [hm] using h
  | error e t =>
    cases e with
    | err e => simpa [hm] using h
    | refuse r => simp

theorem attempt {m : Op α} {Q : Option Err → State → Prop} (h : Post m s (fun _ => Q none) (fun t => ∀ e, Q (some e) t)) :
    Post (attempt m) s Q E := by
  unfold Post at h ⊢
  unfold Machine.attempt
  cases hm : m s with
  | ok a t => simpa [hm] using h
  | error e t =>
    cases e with
    | err e =>
      simp only [hm] at h ⊢
      exact h e
    | refuse r => trivial

theorem countFault {m : Op α}
    (h : Post m s Q (fun t => E { t with bus := { t.bus with faults := t.bus.faults + 1 } })) :
    Post (countFault m) s Q E := by
  unfold Post at h ⊢
  unfold Machine.countFault
  cases hm : m s with
  | ok a t => simpa [hm] using h
  | error e t =>
    cases e with
    | err e => simpa [hm] using h
    | refuse r => simp

/-- What holds after an operation holds, with its result recorded, of the next state it answers. -/
theorem finish {m : Op Value} {P : State → Prop} (h : Post m s (fun _ => P) P)
    (hr : ∀ u r, P u → P { u with result := r }) {t : State} (ht : Machine.finish m s = .next t) : P t := by
  unfold Post at h
  unfold Machine.finish at ht
  cases hm : m s with
  | ok a u =>
    simp only [hm, Host.Outcome.next.injEq] at ht h
    exact ht ▸ hr _ _ h
  | error e u =>
    cases e with
    | err e =>
      simp only [hm, Host.Outcome.next.injEq] at ht h
      exact ht ▸ hr _ _ h
    | refuse r => simp [hm] at ht

end Post

end Sys2Proof.Machine
end

