-- ==== Sys2Proof/Laws/Tab.lean ====
section
/-! SUPPORT. Partial maps: a look-up after a change. -/

namespace Sys2Proof.Machine

variable {κ α : Type} [DecidableEq κ] {lt : κ → κ → Bool}

@[simp] theorem Tab.get_nil (q : κ) : Tab.get ([] : List (κ × α)) q = none := rfl

/-- A look-up after setting a key. -/
theorem Tab.get_set (t : List (κ × α)) (q : κ) (v : α) (k : κ) :
    Tab.get (Tab.set lt t q v) k = if q = k then some v else Tab.get t k := by
  induction t with
  | nil => simp [Tab.set, Tab.get]
  | cons e t ih =>
    obtain ⟨j, w⟩ := e
    simp only [Tab.set]
    split
    · subst j
      by_cases h : q = k <;> simp [Tab.get, h]
    · split
      · simp [Tab.get]
      · by_cases h : j = k
        · subst h
          simp [Tab.get, show ¬ q = j from fun h => ‹¬ j = q› h.symm]
        · simp [Tab.get, h, ih]

/-- A look-up after erasing a key. -/
theorem Tab.get_erase (t : List (κ × α)) (q k : κ) :
    Tab.get (Tab.erase t q) k = if q = k then none else Tab.get t k := by
  induction t with
  | nil => simp [Tab.erase]
  | cons e t ih =>
    obtain ⟨j, w⟩ := e
    simp only [Tab.erase, List.filter_cons, decide_not] at ih ⊢
    by_cases hj : j = q
    · subst hj
      by_cases hk : j = k <;> simp_all [Tab.get]
    · by_cases hk : j = k
      · subst hk
        simp [Tab.get, hj, show ¬ q = j from fun h => hj h.symm]
      · simp [Tab.get, hj, hk, ih]

/-- A key that is found is listed. -/
theorem Tab.mem_of_get {t : List (κ × α)} {q : κ} {v : α} (h : Tab.get t q = some v) : (q, v) ∈ t := by
  induction t with
  | nil => simp at h
  | cons e t ih =>
    obtain ⟨j, w⟩ := e
    simp only [Tab.get] at h
    split at h
    · simp_all
    · exact List.mem_cons_of_mem _ (ih h)

/-- What a set map lists is the new entry or was listed. -/
theorem Tab.mem_set {t : List (κ × α)} {q : κ} {v : α} {x : κ × α} (h : x ∈ Tab.set lt t q v) : x = (q, v) ∨ x ∈ t := by
  induction t with
  | nil => simpa [Tab.set] using h
  | cons e t ih =>
    obtain ⟨j, w⟩ := e
    simp only [Tab.set] at h
    split at h
    · rcases List.mem_cons.1 h with h | h <;> simp [h]
    · split at h
      · rcases List.mem_cons.1 h with h | h
        · simp [h]
        · exact .inr h
      · rcases List.mem_cons.1 h with h | h
        · simp [h]
        · rcases ih h with h | h <;> simp [h]

/-- What an erased map lists was listed under another key. -/
theorem Tab.mem_erase {t : List (κ × α)} {q : κ} {x : κ × α} : x ∈ Tab.erase t q ↔ x ∈ t ∧ x.1 ≠ q := by
  simp [Tab.erase]

/-- Two different keys are in order one way or the other. -/
theorem pairLt_total (a b : Nat × Nat) (h : a ≠ b) : pairLt a b = true ∨ pairLt b a = true := by
  simp only [pairLt, Bool.or_eq_true, Bool.and_eq_true, decide_eq_true_eq]
  have : ¬ (a.1 = b.1 ∧ a.2 = b.2) := fun h' => h (Prod.ext h'.1 h'.2)
  omega

theorem pairLt_trans {a b c : Nat × Nat} (h : pairLt a b = true) (h' : pairLt b c = true) : pairLt a c = true := by
  simp only [pairLt, Bool.or_eq_true, Bool.and_eq_true, decide_eq_true_eq] at *
  omega

/-- A set with n in it holds n and what it held. -/
theorem mem_insertNat (n : Nat) (l : List Nat) (x : Nat) : x ∈ insertNat n l ↔ x = n ∨ x ∈ l := by
  induction l with
  | nil => simp [insertNat]
  | cons m l ih => unfold insertNat; split <;> [skip; split] <;> simp_all; tauto

/-- Setting a key keeps the keys rising. -/
theorem Tab.sorted_set {α : Type} (t : List ((Nat × Nat) × α)) (q : Nat × Nat) (v : α)
    (h : t.Pairwise fun x y => pairLt x.1 y.1 = true) : (Tab.set pairLt t q v).Pairwise fun x y => pairLt x.1 y.1 =
      true := by
  induction t with
  | nil => simp [Tab.set]
  | cons e t ih =>
    obtain ⟨k, w⟩ := e
    rw [List.pairwise_cons] at h
    simp only [Tab.set]
    split
    · subst k; exact List.pairwise_cons.2 h
    · split
      · refine List.pairwise_cons.2 ⟨fun x hx => ?_, List.pairwise_cons.2 h⟩
        rcases List.mem_cons.1 hx with rfl | hx
        · assumption
        · exact pairLt_trans ‹_› (h.1 x hx)
      · refine List.pairwise_cons.2 ⟨fun x hx => ?_, ih h.2⟩
        rcases Tab.mem_set hx with rfl | hx
        · rcases pairLt_total k q ‹_› with h | h
          · exact h
          · exact absurd h ‹_›
        · exact h.1 x hx

theorem Tab.length_set_le {α : Type} (t : List ((Nat × Nat) × α)) (q : Nat × Nat) (v : α) :
   (Tab.set pairLt t q v).length ≤ t.length + 1 := by
  induction t with
  | nil => simp [Tab.set]
  | cons e t ih => simp only [Tab.set]; split <;> [skip; split] <;> simp_all

/-- In a map whose keys rise, a listed entry is found. -/
theorem Tab.get_of_mem {α : Type} {t : List ((Nat × Nat) × α)} (h : t.Pairwise fun x y => pairLt x.1 y.1 = true)
   {x : (Nat × Nat) × α} (hx : x ∈ t) : Tab.get t x.1 = some x.2 := by
  induction t with
  | nil => simp at hx
  | cons e t ih =>
    rw [List.pairwise_cons] at h
    obtain ⟨k, w⟩ := e
    rcases List.mem_cons.1 hx with rfl | hx
    · simp [Tab.get]
    · have := h.1 x hx
      have hne : k ≠ x.1 := by rintro rfl; simp [pairLt] at this
      simp [Tab.get, hne, ih h.2 hx]

/-- Setting a key that is present adds no entry. -/
theorem Tab.length_set_of_get {α : Type} (t : List ((Nat × Nat) × α)) (q : Nat × Nat) (v e : α) 
   (h : t.Pairwise fun x y => pairLt x.1 y.1 = true) (he : Tab.get t q = some e) :
   (Tab.set pairLt t q v).length = t.length := by
  induction t with
  | nil => simp at he
  | cons x t ih =>
    obtain ⟨k, w⟩ := x
    rw [List.pairwise_cons] at h
    simp only [Tab.get] at he
    simp only [Tab.set]
    split
    · simp
    · rw [if_neg ‹_›] at he
      have hm := Tab.mem_of_get he
      have := h.1 _ hm
      split
      · have := pairLt_trans ‹pairLt q k = true› this
        simp [pairLt] at this
      · simp [ih h.2 he]

/-- Erasing a listed key leaves fewer entries. -/
theorem Tab.length_erase_lt {α : Type} (t : List ((Nat × Nat) × α)) (e) (h : e ∈ t) :
    (Tab.erase t e.1).length < t.length := by
  unfold Tab.erase
  exact List.length_filter_lt_length_iff_exists.2 ⟨e, h, by simp⟩

/-- The later of two settings of one key stands. -/
theorem Tab.set_set (t : List ((Nat × Nat) × Line)) (q x y) : Tab.set pairLt (Tab.set pairLt t q x) q y =
    Tab.set pairLt t q y := by
  induction t with
  | nil => simp [Tab.set]
  | cons e t ih =>
    obtain ⟨k, w⟩ := e
    by_cases h : k = q
    · subst h; simp [Tab.set]
    · by_cases h2 : pairLt q k
      · simp [Tab.set, h, h2]
      · simp [Tab.set, h, h2, ih]

end Sys2Proof.Machine
end

