-- ==== Sys2Proof/Laws/Atom.lean ====
section
/-! SUPPORT. The single writes that operations are made of, and that every operation is a sequence of them: what holds of a
state and is kept by every such write is kept by every operation. -/

namespace Sys2Proof.Machine

/-- The least change an operation makes to the state: one write, or a group of writes that no error can part. -/
inductive Atom : State → State → Prop
  | dramFault (s : State) : Atom s { s with dram := { s.dram with faultCount := s.dram.faultCount + 1 } }
  | cell (s : State) (a : Nat) (b : Byte) (h : a < s.cfg.dramSize) :
    Atom s { s with dram := { s.dram with cells := Memory.write s.cfg.fillByte s.dram.cells a b } }
  | busRead (s : State) : Atom s { s with bus := { s.bus with reads := s.bus.reads + 1 } }
  | busWrite (s : State) : Atom s { s with bus := { s.bus with writes := s.bus.writes + 1 } }
  | busFault (s : State) : Atom s { s with bus := { s.bus with faults := s.bus.faults + 1 } }
  | busReadChunk (s : State) (e : TraceEntry) (n : Nat) :
    Atom s { s with bus := { s.bus with trace := s.bus.trace ++ [e], readBytes := s.bus.readBytes + n } }
  | busWriteChunk (s : State) (e : TraceEntry) (n : Nat) :
    Atom s { s with bus := { s.bus with trace := s.bus.trace ++ [e], writeBytes := s.bus.writeBytes + n } }
  | region (s : State) (r : Region) (hs : r.size ≠ 0) (hw : r.base + r.size ≤ 2 ^ 64)
      (ho : ∀ q ∈ s.bus.regions, ¬ (r.base ≤ q.last ∧ q.base ≤ r.last)) :
    Atom s { s with bus := { s.bus with regions := insertRegion r s.bus.regions } }
  | plicRaised (s : State) (id : Nat) (h : 1 ≤ id ∧ id ≤ s.cfg.plic.sources) :
    Atom s { s with plic := s.plic.raised s.cfg.plic.mode id }
  | plicLowered (s : State) (id : Nat) (h : 1 ≤ id ∧ id ≤ s.cfg.plic.sources) :
    Atom s { s with plic := s.plic.lowered s.cfg.plic.mode id }
  | plicPriority (s : State) (i : Nat) (v : Word32) :
    Atom s { s with plic := { s.plic with priority := s.plic.priority.set i v } }
  | plicEnable (s : State) (c : Nat) (f : Word → Word) :
    Atom s { s with plic := { s.plic with
      enable := updateAt s.plic.enable c (fun w => maskSources s.cfg.plic.sources (f w)) } }
  | plicThreshold (s : State) (c : Nat) (v : Word32) :
    Atom s { s with plic := { s.plic with threshold := s.plic.threshold.set c v } }
  | plicClaimed (s : State) (i : Nat) (h : s.cfg.plic.mode = .latched) :
    Atom s { s with plic := { s.plic with pending := setBit s.plic.pending i false } }
  | plicCompleted (s : State) (id : Nat) : Atom s { s with plic := s.plic.completed s.cfg.plic id }
  | clint (s : State) (k : Clint) : Atom s { s with clint := k }
  | uarts (s : State) (u : List Uart) : Atom s { s with uarts := u }
  | timers (s : State) (t : List Timer) : Atom s { s with timers := t }
  | dmas (s : State) (d : List Dma) : Atom s { s with dmas := d }
  | tlbHit (s : State) (k : Nat × Nat) (e : TlbEntry) (h : Tab.get s.mmu.tlb k = some e) :
    Atom s { s with mmu := { s.mmu with
      tlb := Tab.set pairLt s.mmu.tlb k { e with tick := s.mmu.tlbClock + 1 }
      tlbClock := s.mmu.tlbClock + 1
      tlbHits := s.mmu.tlbHits + 1 } }
  | tlbMiss (s : State) : Atom s { s with mmu := { s.mmu with tlbMisses := s.mmu.tlbMisses + 1 } }
  | tlbInstall (s : State) (a v : Nat) (p : Pte) (h : s.mmu.pte a v = some p) (hp : p.present = true)
      (hn : Tab.get s.mmu.tlb (a, v) = none) :
    Atom s { s with mmu := s.mmu.tlbInstall s.cfg.tlbEntries a v p.frame }
  | pageMark (s : State) (a v : Nat) (p q : Pte) (h : s.mmu.pte a v = some p) (hf : q.frame = p.frame)
      (hp : q.present = p.present) : Atom s { s with mmu := s.mmu.setPte a v q }
  | openTable (s : State) (a : Nat) : Atom s { s with mmu := s.mmu.openTable a }
  | pageSet (s : State) (a v : Nat) (p : Pte) : Atom s { s with mmu := (s.mmu.setPte a v p).dropTlb a v }
  | pageDrop (s : State) (a v : Nat) : Atom s { s with mmu := (s.mmu.dropPte a v).dropTlb a v }
  | tlbFilter (s : State) (f : (Nat × Nat) × TlbEntry → Bool) :
    Atom s { s with mmu := { s.mmu with tlb := s.mmu.tlb.filter f } }
  | asid (s : State) (a : Nat) : Atom s { s with mmu := { s.mmu with currentAsid := a } }
  | frame (s : State) (f : Nat) (h : f < s.cfg.maxFrames) :
    Atom s { s with draws := s.draws + 1, mmu := { s.mmu with poolFrames := insertNat f s.mmu.poolFrames } }
  | lines (s : State) (l : Level) (f : List ((Nat × Nat) × Line) → List ((Nat × Nat) × Line)) : Atom s (s.withLines l f)
  | stamp (s : State) : Atom s { s with cache := { s.cache with globalCounter := s.cache.globalCounter + 1 } }
  | stat (s : State) (l : Level) (f : CacheStats → CacheStats)
      (h : f = CacheStats.hit ∨ f = CacheStats.miss ∨ f = CacheStats.fill ∨ f = CacheStats.evict ∨
        f = CacheStats.writeback ∨ f = CacheStats.prefetched) :
    Atom s { s with cache := s.cache.setLevel l { s.cache.level l with stats := f (s.cache.level l).stats } }
  | wcSeed (s : State) (b : Nat) (bs : List Byte) :
    Atom s { s with cpu := { s.cpu with wc := { base := some b, bytes := bs } } }
  | wcEmpty (s : State) : Atom s { s with cpu := { s.cpu with wc := { base := none, bytes := [] } } }
  | csr (s : State) (c : Csr) : Atom s { s with cpu := { s.cpu with csr := c } }
  | attach (s : State) (p : Option PlicAttach) (h : Option Nat) :
    Atom s { s with cpu := { s.cpu with plicAttach := p, clintAttach := h } }

/-- A property that every single write keeps. -/
def Stable (P : State → Prop) : Prop := ∀ s t, Atom s t → P s → P t

/-- A property that holds before an operation and every single write keeps holds after it. -/
abbrev Holds {α : Type} (P : State → Prop) (m : Op α) : Prop := ∀ s, P s → Post m s (fun _ => P) P

variable {α β : Type} {P : State → Prop}

namespace Holds

theorem pure (a : α) : Holds P (pure a : Op α) := fun _ h => h

theorem raise (k : ErrKind) : Holds P (raise k : Op α) := fun _ h => h

theorem refuse (r : Refusal) : Holds P (refuse r : Op α) := fun _ _ => trivial

theorem need (o : Option α) (r : Refusal) : Holds P (need o r) := fun _ h => .need fun _ _ => h

theorem bind {m : Op α} {f : α → Op β} (hm : Holds P m) (hf : ∀ a, Holds P (f a)) : Holds P (m >>= f) :=
  fun s hs => .bind ((hm s hs).mono (fun a t ht => hf a t ht) fun _ h => h)

theorem get_bind {f : State → Op β} (h : ∀ s, P s → Post (f s) s (fun _ => P) P) : Holds P ((get : Op State) >>= f) :=
  fun s hs => h s hs

theorem get_bind' {f : State → Op β} (h : ∀ s, Holds P (f s)) : Holds P ((get : Op State) >>= f) :=
  fun s hs => h s s hs

theorem modify {f : State → State} (h : ∀ s, P s → P (f s)) : Holds P (modifyGet fun s => ((), f s) : Op Unit) :=
  fun s hs => h s hs

theorem ite {c : Prop} [Decidable c] {m n : Op α} (hm : c → Holds P m) (hn : ¬ c → Holds P n) :
    Holds P (if c then m else n) := fun s hs => .ite (fun h => hm h s hs) fun h => hn h s hs

theorem tagged {m : Op α} (l : Level) (b : Nat) (h : Holds P m) : Holds P (tagged l b m) := fun s hs => .tagged (h s hs)

theorem attempt {m : Op α} (h : Holds P m) : Holds P (attempt m) :=
  fun s hs => .attempt ((h s hs).mono (fun _ _ h => h) fun _ h _ => h)

end Holds

end Sys2Proof.Machine
end

