-- ==== Sys2Proof/Laws/Bits.lean ====
section
/-! SUPPORT. The parts and the bits of a register in the terms of its value, and an entry of a bank replaced. -/

namespace Sys2Proof.Machine

/-! ## Bits -/

/-- Bit j of a word with bit i written. -/
theorem setBit_getLsbD (w : Word) (i : Nat) (b : Bool) (j : Nat) :
    (setBit w i b).getLsbD j = if j = i ∧ j < 64 then b else w.getLsbD j := by
  unfold setBit
  have e : (1#64 <<< i).getLsbD j = decide (j = i ∧ j < 64) := by
    rw [BitVec.getLsbD_shiftLeft, BitVec.getLsbD_one]
    by_cases h : j = i
    · subst h; simp
    · by_cases h' : j < i
      · simp [h, h']
      · simp [h]; omega
  cases b
  · simp only [Bool.false_eq_true, if_false, BitVec.getLsbD_and, BitVec.getLsbD_not, e]
    by_cases h' : j < 64
    · by_cases h : j = i
      · subst h; simp [h']
      · simp [h, h']
    · rw [BitVec.getLsbD_of_ge w j (by omega)]; simp
  · simp only [if_true, BitVec.getLsbD_or, e]
    by_cases h : j = i ∧ j < 64
    · obtain ⟨rfl, h'⟩ := h; simp [h']
    · simp only [h, decide_false, Bool.or_false, if_false]

/-- A bit written below bit n keeps a word below `2 ^ n`. -/
theorem setBit_toNat_lt (w : Word) (i n : Nat) (b : Bool) (h : w.toNat < 2 ^ n) (hi : i < n) :
    (setBit w i b).toNat < 2 ^ n := by
  unfold setBit
  split
  · rw [BitVec.toNat_or]
    apply Nat.or_lt_two_pow h
    rw [BitVec.toNat_shiftLeft, BitVec.toNat_ofNat, Nat.shiftLeft_eq]
    apply Nat.lt_of_le_of_lt (Nat.mod_le _ _)
    simp
    exact Nat.pow_lt_pow_right (by omega) hi
  · rw [BitVec.toNat_and]
    exact Nat.lt_of_le_of_lt Nat.and_le_left h

/-- Bit 0 of a register is its value modulo 2. -/
theorem getLsbD_zero_eq (v : Word32) : v.getLsbD 0 = decide (v.toNat % 2 = 1) := by
  simp [BitVec.getLsbD, Nat.testBit_zero]

/-- Bit k of a register. -/
theorem getLsbD_eq (v : Word32) (k) : v.getLsbD k = decide (v.toNat / 2 ^ k % 2 = 1) := by
  simp [BitVec.getLsbD, Nat.testBit, Nat.shiftRight_eq_div_pow, Nat.one_and_eq_mod_two]
  rcases Nat.mod_two_eq_zero_or_one (v.toNat / 2 ^ k) with h | h <;> simp [h]

/-- A masked word has no bit of a source above n. -/
theorem maskSources_lt (n : Nat) (w : Word) : (maskSources n w).toNat < 2 ^ n := by
  unfold maskSources
  rw [BitVec.toNat_and, BitVec.toNat_ofNat]
  refine Nat.lt_of_le_of_lt Nat.and_le_right (Nat.lt_of_le_of_lt (Nat.mod_le _ _) ?_)
  have := Nat.two_pow_pos n
  omega

/-- Masking to n sources is the value modulo `2 ^ n`. -/
theorem maskSources_eq (n : Nat) (hn : n ≤ 64) (w : Word) : maskSources n w = BitVec.ofNat 64 (w.toNat % 2 ^ n) := by
  apply BitVec.eq_of_toNat_eq
  have h1 : 2 ^ n ≤ 2 ^ 64 := Nat.pow_le_pow_right (by omega) hn
  have := Nat.two_pow_pos n
  have h2 := Nat.mod_lt w.toNat this
  rw [maskSources, BitVec.toNat_and, BitVec.toNat_ofNat, BitVec.toNat_ofNat, Nat.mod_eq_of_lt (a := 2 ^ n - 1)
    (by omega),
    Nat.mod_eq_of_lt (a := w.toNat % 2 ^ n) (by omega), Nat.and_two_pow_sub_one_eq_mod]

theorem ofNat_mod (x n : Nat) (hn : n ≤ 64) : BitVec.ofNat 64 ((BitVec.ofNat 64 x).toNat % 2 ^ n) =
    BitVec.ofNat 64 (x % 2 ^ n) := by
  rw [BitVec.toNat_ofNat, Nat.mod_mod_of_dvd]
  exact Nat.pow_dvd_pow 2 hn

/-! ## Halves -/

theorem lo32_toNat (w : Word) : (lo32 w).toNat = w.toNat % 2 ^ 32 := by simp [lo32]

theorem hi32_toNat (w : Word) : (hi32 w).toNat = w.toNat / 2 ^ 32 := by
  have := w.isLt
  simp [hi32, Nat.shiftRight_eq_div_pow]; omega

/-- Two halves joined. -/
theorem append32_eq (h l : Word32) : (h ++ l : Word) = BitVec.ofNat 64 (h.toNat * 2 ^ 32 + l.toNat) := by
  have := h.isLt; have := l.isLt
  apply BitVec.eq_of_toNat_eq
  rw [BitVec.toNat_append, ← Nat.shiftLeft_add_eq_or_of_lt l.isLt, Nat.shiftLeft_eq, BitVec.toNat_ofNat,
    Nat.mod_eq_of_lt (by omega)]

/-- The low half written, the high half kept. -/
theorem setLo32_eq (w : Word) (v : Word32) : setLo32 w v = BitVec.ofNat 64 (w.toNat / 2 ^ 32 * 2 ^ 32 + v.toNat) := by
  rw [setLo32, append32_eq, hi32_toNat]

/-- The high half written, the low half kept. -/
theorem setHi32_eq (w : Word) (v : Word32) : setHi32 w v = BitVec.ofNat 64 (v.toNat * 2 ^ 32 + w.toNat % 2 ^ 32) := by
  rw [setHi32, append32_eq, lo32_toNat]

theorem lo32_setWidth (v : Word32) : lo32 (v.setWidth 64) = v := by
  apply BitVec.eq_of_toNat_eq; rw [lo32_toNat]; have := v.isLt; simp; try omega

/-! ## Banks -/

/-- An entry that exists is replaced by its image. -/
theorem updateAt_set {α : Type} {l : List α} {i : Nat} {a : α} (f : α → α) (h : l[i]? = some a) : updateAt l i f =
    l.set i (f a) := by
  simp [updateAt, h]

theorem updateAt_length {α : Type} (l : List α) (i : Nat) (f : α → α) : (updateAt l i f).length = l.length := by
  unfold updateAt; split <;> simp

/-- What an updated bank holds is an image or was held. -/
theorem mem_updateAt {α : Type} {l : List α} {i : Nat} {f : α → α} {x : α} (h : x ∈ updateAt l i f) :
    (∃ a ∈ l, x = f a) ∨ x ∈ l := by
  unfold updateAt at h
  split at h
  · rename_i a ha
    rcases List.mem_or_eq_of_mem_set h with h | h
    · exact .inr h
    · exact .inl ⟨a, List.mem_of_getElem? ha, h⟩
  · exact .inr h

end Sys2Proof.Machine
end

