-- ==== Sys2Proof/Laws/Memory.lean ====
section
/-! SUPPORT. Memory: a read after a write, the canonical form kept by every memory operation, and what a run of bytes
reads and writes. -/

namespace Sys2Proof.Machine

variable {fill : Byte}

@[simp] theorem Memory.read_nil (a : Nat) : Memory.read fill [] a = fill := rfl

theorem Memory.wf_nil : Memory.wf fill [] := by simp [Memory.wf]

theorem Memory.wf.tail {e : Host.Cell} {m : Memory} (h : Memory.wf fill (e :: m)) : Memory.wf fill m :=
  ⟨h.1.tail, fun x hx => h.2 x (List.mem_cons_of_mem _ hx)⟩

theorem Memory.wf.head_lt {e x : Host.Cell} {m : Memory} (h : Memory.wf fill (e :: m)) (hx : x ∈ m) : e.1 < x.1 :=
  List.rel_of_pairwise_cons h.1 hx

/-- An address below every listed one reads as the fill byte. -/
theorem Memory.read_of_lt {m : Memory} {a : Nat} (h : ∀ x ∈ m, a < x.1) : Memory.read fill m a = fill := by
  induction m with
  | nil => rfl
  | cons e m ih =>
    have := h e (by simp)
    rw [Memory.read, if_neg (by omega), ih fun x hx => h x (List.mem_cons_of_mem _ hx)]

/-- A write lists no address but its own and those listed before. -/
theorem Memory.mem_write {m : Memory} {a : Nat} {b : Byte} {x : Host.Cell} (h : x ∈ Memory.write fill m a b) :
    x ∈ m ∨ (x = (a, b) ∧ b ≠ fill) := by
  induction m with
  | nil =>
    by_cases hb : b = fill <;> simp_all [Memory.write]
  | cons e m ih =>
    simp only [Memory.write] at h
    split at h
    · split at h <;> simp_all
      rcases h with h | h | h <;> simp [h]
    · split at h
      · split at h <;> simp_all
        rcases h with h | h <;> simp [h]
      · rcases List.mem_cons.1 h with h | h
        · simp [h]
        · rcases ih h with h | h
          · simp [h]
          · exact .inr h

/-- A write keeps the canonical form. -/
theorem Memory.wf_write {m : Memory} (h : Memory.wf fill m) (a : Nat) (b : Byte) :
    Memory.wf fill (Memory.write fill m a b) := by
  refine ⟨?_, fun x hx => ?_⟩
  · induction m with
    | nil => by_cases hb : b = fill <;> simp [Memory.write, hb]
    | cons e m ih =>
      simp only [Memory.write]
      split
      · split
        · exact h.1
        · refine List.pairwise_cons.2 ⟨fun x hx => ?_, h.1⟩
          rcases List.mem_cons.1 hx with rfl | hx
          · assumption
          · exact Nat.lt_trans ‹_› (h.head_lt hx)
      · split
        · split
          · exact h.1.tail
          · refine List.pairwise_cons.2 ⟨fun x hx => ?_, h.1.tail⟩
            have := h.head_lt hx
            simp_all
        · refine List.pairwise_cons.2 ⟨fun x hx => ?_, ih h.tail⟩
          rcases Memory.mem_write hx with hx | ⟨rfl, -⟩
          · exact h.head_lt hx
          · simp only
            omega
  · rcases Memory.mem_write hx with hx | ⟨rfl, hb⟩
    · exact h.2 x hx
    · exact hb

/-- A read after a write: the byte written at its address, what was there before elsewhere. -/
theorem Memory.read_write {m : Memory} (h : Memory.wf fill m) (a : Nat) (b : Byte) (c : Nat) :
    Memory.read fill (Memory.write fill m a b) c = if c = a then b else Memory.read fill m c := by
  induction m with
  | nil =>
    by_cases hb : b = fill <;> by_cases hc : c = a <;> simp_all [Memory.write, Memory.read]
    exact fun h => absurd h.symm hc
  | cons e m ih =>
    have hlt : ∀ x ∈ m, e.1 < x.1 := fun x hx => h.head_lt hx
    simp only [Memory.write]
    split
    · have hbelow : Memory.read fill (e :: m) a = fill := by
        apply Memory.read_of_lt
        intro x hx
        rcases List.mem_cons.1 hx with rfl | hx
        · assumption
        · exact Nat.lt_trans ‹_› (hlt x hx)
      by_cases hb : b = fill
      · by_cases hc : c = a <;> simp_all
      · by_cases hc : c = a
        · simp [hb, hc, Memory.read]
        · simp [hb, hc, Memory.read, show ¬ a = c from fun h => hc h.symm]
    · split
      · rename_i heq
        subst heq
        have hbelow : Memory.read fill m e.1 = fill := Memory.read_of_lt hlt
        by_cases hb : b = fill
        · by_cases hc : c = e.1
          · simp_all
          · simp [hb, hc, Memory.read, show ¬ e.1 = c from fun h => hc h.symm]
        · by_cases hc : c = e.1
          · simp [hb, hc, Memory.read]
          · simp [hb, hc, Memory.read, show ¬ e.1 = c from fun h => hc h.symm]
      · rename_i hne
        by_cases hec : e.1 = c
        · have : ¬ c = a := by omega
          simp [Memory.read, hec, this]
        · simp only [Memory.read, if_neg hec, ih h.tail]

/-- Writing bytes keeps the canonical form. -/
theorem Memory.wf_writeBytes {m : Memory} (h : Memory.wf fill m) (a : Nat) (bs : List Byte) :
    Memory.wf fill (Memory.writeBytes fill m a bs) := by
  induction bs generalizing m a with
  | nil => exact h
  | cons b bs ih => exact ih (Memory.wf_write h a b) (a + 1)

/-- A read after writing bytes. -/
theorem Memory.read_writeBytes {m : Memory} (h : Memory.wf fill m) (a : Nat) (bs : List Byte) (c : Nat) :
    Memory.read fill (Memory.writeBytes fill m a bs) c =
      if a ≤ c ∧ c < a + bs.length then bs.getD (c - a) 0 else Memory.read fill m c := by
  induction bs generalizing m a with
  | nil => simp [Memory.writeBytes, show ¬ (a ≤ c ∧ c < a) by omega]
  | cons b bs ih =>
    rw [Memory.writeBytes, ih (Memory.wf_write h a b), Memory.read_write h, List.length_cons]
    by_cases hc : c = a
    · subst hc
      simp
    · by_cases hin : a + 1 ≤ c ∧ c < a + 1 + bs.length
      · rw [if_pos hin, if_pos (by omega), show c - a = (c - (a + 1)) + 1 by omega]
        simp
      · rw [if_neg hin, if_neg hc, if_neg (by omega)]

@[simp] theorem Memory.length_readBytes (m : Memory) (a n : Nat) : (Memory.readBytes fill m a n).length = n := by
  simp [Memory.readBytes]

/-- Byte i of the bytes read from an address on. -/
theorem Memory.getD_readBytes (m : Memory) (a n i : Nat) (h : i < n) (d : Byte) :
    (Memory.readBytes fill m a n).getD i d = Memory.read fill m (a + i) := by
  simp [Memory.readBytes, List.getD, h]

end Sys2Proof.Machine
end

