-- ==== Sys2Proof/Laws/Dram.lean ====
section
/-! SUPPORT. What the DRAM's shared operations do: in bounds and out of them; and its copy,
  which keeps the canonical form. -/

namespace Sys2Proof.Machine

/-! ## Bounds -/

theorem dramBounds_ok {s : State} {a n : Nat} (h : a + n ≤ s.cfg.dramSize) : dramBounds a n s = .ok () s := by
  simp [dramBounds, show ¬ s.cfg.dramSize < a + n by omega]

theorem dramBounds_err {s : State} {a n : Nat} (h : s.cfg.dramSize < a + n) : dramBounds a n s =
   .error (.err {kind := .accessViolation a n})
     { s with dram := { s.dram with faultCount := s.dram.faultCount + 1 } } := by
  simp [dramBounds, h]

/-! ## Reads and writes -/

theorem dramRead_ok {s : State} {a n : Nat} (h : a + n ≤ s.cfg.dramSize) : dramRead a n s =
    .ok (s.dramBytes a n) s := by
  rw [dramRead, Op.bind_ok (dramBounds_ok h)]; rfl

theorem dramRead_err {s : State} {a n : Nat} (h : s.cfg.dramSize < a + n) : dramRead a n s =
   .error (.err {kind := .accessViolation a n})
     { s with dram := { s.dram with faultCount := s.dram.faultCount + 1 } } := by
  rw [dramRead, Op.bind_error (dramBounds_err h)]

theorem dramWrite_ok {s : State} {a : Nat} {bs : List Byte} (h : a + bs.length ≤ s.cfg.dramSize) : 
   dramWrite a bs s = .ok ()
     { s with dram := { s.dram with cells := Memory.writeBytes s.cfg.fillByte s.dram.cells a bs } } := by
  rw [dramWrite, Op.bind_ok (dramBounds_ok h)]; rfl

theorem dramWrite_err {s : State} {a : Nat} {bs : List Byte} (h : s.cfg.dramSize < a + bs.length) : dramWrite a bs s =
   .error (.err {kind := .accessViolation a bs.length})
     { s with dram := { s.dram with faultCount := s.dram.faultCount + 1 } } := by
  rw [dramWrite, Op.bind_error (dramBounds_err h)]

/-- After bytes are written to canonical cells they stand where they were written, and every other byte is unchanged. -/
theorem storedAt_writeBytes {s : State} {a : Nat} {bs : List Byte} (h : Memory.wf s.cfg.fillByte s.dram.cells) :
  s.storedAt { s with dram := { s.dram with cells := Memory.writeBytes s.cfg.fillByte s.dram.cells a bs } } a bs :=
  ⟨rfl, fun x => Memory.read_writeBytes h a bs x⟩

/-! ## Copies -/

/-- An ascending copy to a lower place keeps the canonical form and moves the source's bytes. -/
theorem read_copyUp {fill : Byte} (dest src n : Nat) (hd : dest < src) : ∀ i (m : Memory), Memory.wf fill m → 
   Memory.wf fill (copyUp fill dest src n i m) ∧
   ∀ x, Memory.read fill (copyUp fill dest src n i m) x = if dest + i ≤ x ∧
     x < dest + i + n then Memory.read fill m (src + (x - dest)) else Memory.read fill m x := by
  induction n with
  | zero => intro i m h; refine ⟨h, fun x => ?_⟩; simp [copyUp]
  | succ n ih =>
    intro i m h
    obtain ⟨a, b⟩ := ih (i+1) _ (Memory.wf_write h (dest + i) (Memory.read fill m (src + i)))
    refine ⟨a, fun x => ?_⟩
    rw [copyUp, b]
    simp only [Memory.read_write h]
    by_cases h1 : x = dest + i
    · subst h1; simp
    · by_cases h2 : dest + i ≤ x ∧ x < dest + i + (n+1)
      · rw [if_pos (by omega), if_pos h2, if_neg (by omega)]
      · rw [if_neg (by omega), if_neg h2, if_neg h1]

/-- A descending copy to a higher place keeps the canonical form and moves the source's bytes. -/
theorem read_copyDown {fill : Byte} (dest src n : Nat) (hd : src ≤ dest) : ∀ (m : Memory), Memory.wf fill m → 
   Memory.wf fill (copyDown fill dest src n m) ∧
   ∀ x, Memory.read fill (copyDown fill dest src n m) x = if dest ≤ x ∧
     x < dest + n then Memory.read fill m (src + (x - dest)) else Memory.read fill m x := by
  induction n with
  | zero => intro m h; refine ⟨h, fun x => ?_⟩; simp [copyDown]
  | succ n ih =>
    intro m h
    obtain ⟨a, b⟩ := ih _ (Memory.wf_write h (dest + n) (Memory.read fill m (src + n)))
    refine ⟨a, fun x => ?_⟩
    rw [copyDown, b]
    simp only [Memory.read_write h]
    by_cases h1 : x = dest + n
    · subst h1; simp
    · by_cases h2 : dest ≤ x ∧ x < dest + (n+1)
      · rw [if_pos (by omega), if_pos h2, if_neg (by omega)]
      · rw [if_neg (by omega), if_neg h2, if_neg h1]

/-- The reset state's memory has the canonical form. -/
theorem wf_reset : Memory.wf State.reset.cfg.fillByte State.reset.dram.cells := Memory.wf_nil

end Sys2Proof.Machine
end

