-- ==== Sys2Proof/Laws/State.lean ====
section
/-! SUPPORT. What each named update of the state leaves of each field: one lemma per field and update. -/

namespace Sys2Proof.Machine

variable (s : State)

/-! ## A result recorded -/

@[simp] theorem State.ok_cfg (v : Value) : (s.ok v).cfg = s.cfg := rfl

@[simp] theorem State.ok_dram (v : Value) : (s.ok v).dram = s.dram := rfl

@[simp] theorem State.ok_bus (v : Value) : (s.ok v).bus = s.bus := rfl

@[simp] theorem State.ok_mmu (v : Value) : (s.ok v).mmu = s.mmu := rfl

@[simp] theorem State.ok_cache (v : Value) : (s.ok v).cache = s.cache := rfl

@[simp] theorem State.ok_cpu (v : Value) : (s.ok v).cpu = s.cpu := rfl

@[simp] theorem State.ok_plic (v : Value) : (s.ok v).plic = s.plic := rfl

@[simp] theorem State.ok_clint (v : Value) : (s.ok v).clint = s.clint := rfl

@[simp] theorem State.ok_uarts (v : Value) : (s.ok v).uarts = s.uarts := rfl

@[simp] theorem State.ok_timers (v : Value) : (s.ok v).timers = s.timers := rfl

@[simp] theorem State.ok_dmas (v : Value) : (s.ok v).dmas = s.dmas := rfl

@[simp] theorem State.ok_roms (v : Value) : (s.ok v).roms = s.roms := rfl

@[simp] theorem State.ok_draws (v : Value) : (s.ok v).draws = s.draws := rfl

@[simp] theorem State.ok_calls (v : Value) : (s.ok v).calls = s.calls := rfl

@[simp] theorem State.ok_result (v : Value) : (s.ok v).result = .ok v := rfl

/-! ## An error recorded -/

@[simp] theorem State.err_cfg (k : ErrKind) : (s.err k).cfg = s.cfg := rfl

@[simp] theorem State.err_dram (k : ErrKind) : (s.err k).dram = s.dram := rfl

@[simp] theorem State.err_bus (k : ErrKind) : (s.err k).bus = s.bus := rfl

@[simp] theorem State.err_mmu (k : ErrKind) : (s.err k).mmu = s.mmu := rfl

@[simp] theorem State.err_cache (k : ErrKind) : (s.err k).cache = s.cache := rfl

@[simp] theorem State.err_cpu (k : ErrKind) : (s.err k).cpu = s.cpu := rfl

@[simp] theorem State.err_plic (k : ErrKind) : (s.err k).plic = s.plic := rfl

@[simp] theorem State.err_clint (k : ErrKind) : (s.err k).clint = s.clint := rfl

@[simp] theorem State.err_uarts (k : ErrKind) : (s.err k).uarts = s.uarts := rfl

@[simp] theorem State.err_timers (k : ErrKind) : (s.err k).timers = s.timers := rfl

@[simp] theorem State.err_dmas (k : ErrKind) : (s.err k).dmas = s.dmas := rfl

@[simp] theorem State.err_roms (k : ErrKind) : (s.err k).roms = s.roms := rfl

@[simp] theorem State.err_draws (k : ErrKind) : (s.err k).draws = s.draws := rfl

@[simp] theorem State.err_calls (k : ErrKind) : (s.err k).calls = s.calls := rfl

@[simp] theorem State.err_result (k : ErrKind) : (s.err k).result = .err { kind := k } := rfl

/-! ## A translation that hit -/

@[simp] theorem State.afterHit_cfg (va : Nat) : (s.afterHit va).cfg = s.cfg := rfl

@[simp] theorem State.afterHit_dram (va : Nat) : (s.afterHit va).dram = s.dram := rfl

@[simp] theorem State.afterHit_bus (va : Nat) : (s.afterHit va).bus = s.bus := rfl

@[simp] theorem State.afterHit_cache (va : Nat) : (s.afterHit va).cache = s.cache := rfl

@[simp] theorem State.afterHit_cpu (va : Nat) : (s.afterHit va).cpu = s.cpu := rfl

@[simp] theorem State.afterHit_plic (va : Nat) : (s.afterHit va).plic = s.plic := rfl

@[simp] theorem State.afterHit_clint (va : Nat) : (s.afterHit va).clint = s.clint := rfl

@[simp] theorem State.afterHit_uarts (va : Nat) : (s.afterHit va).uarts = s.uarts := rfl

@[simp] theorem State.afterHit_timers (va : Nat) : (s.afterHit va).timers = s.timers := rfl

@[simp] theorem State.afterHit_dmas (va : Nat) : (s.afterHit va).dmas = s.dmas := rfl

@[simp] theorem State.afterHit_roms (va : Nat) : (s.afterHit va).roms = s.roms := rfl

@[simp] theorem State.afterHit_draws (va : Nat) : (s.afterHit va).draws = s.draws := rfl

@[simp] theorem State.afterHit_calls (va : Nat) : (s.afterHit va).calls = s.calls := rfl

@[simp] theorem State.afterHit_result (va : Nat) : (s.afterHit va).result = s.result := rfl

@[simp] theorem State.afterHit_clock (va : Nat) : (s.afterHit va).mmu.tlbClock = s.mmu.tlbClock + 1 := rfl

@[simp] theorem State.afterHit_hits (va : Nat) : (s.afterHit va).mmu.tlbHits = s.mmu.tlbHits + 1 := rfl

@[simp] theorem State.afterHit_tables (va : Nat) : (s.afterHit va).mmu.tables = s.mmu.tables := rfl

@[simp] theorem State.afterHit_asid (va : Nat) : (s.afterHit va).mmu.currentAsid = s.mmu.currentAsid := rfl

@[simp] theorem State.afterHit_pte (va a v : Nat) : (s.afterHit va).mmu.pte a v = s.mmu.pte a v := rfl

/-! ## A level's slots replaced -/

@[simp] theorem State.withLines_cfg (l : Level) (f : List ((Nat × Nat) × Line) → List ((Nat × Nat) × Line)) :
    (s.withLines l f).cfg = s.cfg := rfl

@[simp] theorem State.withLines_dram (l : Level) (f : List ((Nat × Nat) × Line) → List ((Nat × Nat) × Line)) :
    (s.withLines l f).dram = s.dram := rfl

@[simp] theorem State.withLines_bus (l : Level) (f : List ((Nat × Nat) × Line) → List ((Nat × Nat) × Line)) :
    (s.withLines l f).bus = s.bus := rfl

@[simp] theorem State.withLines_mmu (l : Level) (f : List ((Nat × Nat) × Line) → List ((Nat × Nat) × Line)) :
    (s.withLines l f).mmu = s.mmu := rfl

@[simp] theorem State.withLines_cache (l : Level) (f : List ((Nat × Nat) × Line) → List ((Nat × Nat) × Line)) :
    (s.withLines l f).cache = s.cache.setLevel l { s.cache.level l with lines := f (s.cache.level l).lines } := rfl

@[simp] theorem State.withLines_cpu (l : Level) (f : List ((Nat × Nat) × Line) → List ((Nat × Nat) × Line)) :
    (s.withLines l f).cpu = s.cpu := rfl

@[simp] theorem State.withLines_plic (l : Level) (f : List ((Nat × Nat) × Line) → List ((Nat × Nat) × Line)) :
    (s.withLines l f).plic = s.plic := rfl

@[simp] theorem State.withLines_clint (l : Level) (f : List ((Nat × Nat) × Line) → List ((Nat × Nat) × Line)) :
    (s.withLines l f).clint = s.clint := rfl

@[simp] theorem State.withLines_uarts (l : Level) (f : List ((Nat × Nat) × Line) → List ((Nat × Nat) × Line)) :
    (s.withLines l f).uarts = s.uarts := rfl

@[simp] theorem State.withLines_timers (l : Level) (f : List ((Nat × Nat) × Line) → List ((Nat × Nat) × Line)) :
    (s.withLines l f).timers = s.timers := rfl

@[simp] theorem State.withLines_dmas (l : Level) (f : List ((Nat × Nat) × Line) → List ((Nat × Nat) × Line)) :
    (s.withLines l f).dmas = s.dmas := rfl

@[simp] theorem State.withLines_roms (l : Level) (f : List ((Nat × Nat) × Line) → List ((Nat × Nat) × Line)) :
    (s.withLines l f).roms = s.roms := rfl

@[simp] theorem State.withLines_draws (l : Level) (f : List ((Nat × Nat) × Line) → List ((Nat × Nat) × Line)) :
    (s.withLines l f).draws = s.draws := rfl

@[simp] theorem State.withLines_calls (l : Level) (f : List ((Nat × Nat) × Line) → List ((Nat × Nat) × Line)) :
    (s.withLines l f).calls = s.calls := rfl

@[simp] theorem State.withLines_result (l : Level) (f : List ((Nat × Nat) × Line) → List ((Nat × Nat) × Line)) :
    (s.withLines l f).result = s.result := rfl

/-! ## The bus after a transfer -/

@[simp] theorem Bus.afterRead_regions (b : Bus) (a : Nat) (bs : List Byte) : (b.afterRead a bs).regions =
    b.regions := rfl

@[simp] theorem Bus.afterRead_faults (b : Bus) (a : Nat) (bs : List Byte) : (b.afterRead a bs).faults = b.faults := rfl

@[simp] theorem Bus.afterRead_reads (b : Bus) (a : Nat) (bs : List Byte) : (b.afterRead a bs).reads = b.reads + 1 := rfl

@[simp] theorem Bus.afterRead_writes (b : Bus) (a : Nat) (bs : List Byte) : (b.afterRead a bs).writes = b.writes := rfl

@[simp] theorem Bus.afterRead_readBytes (b : Bus) (a : Nat) (bs : List Byte) : (b.afterRead a bs).readBytes =
    b.readBytes + bs.length := rfl

@[simp] theorem Bus.afterRead_writeBytes (b : Bus) (a : Nat) (bs : List Byte) : (b.afterRead a bs).writeBytes =
    b.writeBytes := rfl

@[simp] theorem Bus.afterRead_trace (b : Bus) (a : Nat) (bs : List Byte) : (b.afterRead a bs).trace =
    b.trace ++ [⟨.R, a, bs⟩] := rfl

@[simp] theorem Bus.afterWrite_regions (b : Bus) (a : Nat) (bs : List Byte) : (b.afterWrite a bs).regions =
    b.regions := rfl

@[simp] theorem Bus.afterWrite_faults (b : Bus) (a : Nat) (bs : List Byte) : (b.afterWrite a bs).faults =
    b.faults := rfl

@[simp] theorem Bus.afterWrite_reads (b : Bus) (a : Nat) (bs : List Byte) : (b.afterWrite a bs).reads = b.reads := rfl

@[simp] theorem Bus.afterWrite_writes (b : Bus) (a : Nat) (bs : List Byte) : (b.afterWrite a bs).writes =
    b.writes + 1 := rfl

@[simp] theorem Bus.afterWrite_readBytes (b : Bus) (a : Nat) (bs : List Byte) : (b.afterWrite a bs).readBytes =
    b.readBytes := rfl

@[simp] theorem Bus.afterWrite_writeBytes (b : Bus) (a : Nat) (bs : List Byte) : (b.afterWrite a bs).writeBytes =
    b.writeBytes + bs.length := rfl

@[simp] theorem Bus.afterWrite_trace (b : Bus) (a : Nat) (bs : List Byte) : (b.afterWrite a bs).trace =
    b.trace ++ [⟨.W, a, bs⟩] := rfl

/-! ## Trap entry and return -/

@[simp] theorem Csr.trapEnter_mie (c : Csr) (k : Nat) (b : Bool) : (c.trapEnter k b).mie = false := rfl

@[simp] theorem Csr.trapEnter_mpie (c : Csr) (k : Nat) (b : Bool) : (c.trapEnter k b).mpie = c.mie := rfl

@[simp] theorem Csr.trapEnter_msie (c : Csr) (k : Nat) (b : Bool) : (c.trapEnter k b).msie = c.msie := rfl

@[simp] theorem Csr.trapEnter_mtie (c : Csr) (k : Nat) (b : Bool) : (c.trapEnter k b).mtie = c.mtie := rfl

@[simp] theorem Csr.trapEnter_meie (c : Csr) (k : Nat) (b : Bool) : (c.trapEnter k b).meie = c.meie := rfl

@[simp] theorem Csr.trapEnter_msip (c : Csr) (k : Nat) (b : Bool) : (c.trapEnter k b).msip = c.msip := rfl

@[simp] theorem Csr.trapEnter_mtip (c : Csr) (k : Nat) (b : Bool) : (c.trapEnter k b).mtip = c.mtip := rfl

@[simp] theorem Csr.trapEnter_meip (c : Csr) (k : Nat) (b : Bool) : (c.trapEnter k b).meip = c.meip := rfl

@[simp] theorem Csr.trapEnter_mcause (c : Csr) (k : Nat) (b : Bool) : (c.trapEnter k b).mcause = k := rfl

@[simp] theorem Csr.trapEnter_mcauseIsInterrupt (c : Csr) (k : Nat) (b : Bool) :
    (c.trapEnter k b).mcauseIsInterrupt = b := rfl

@[simp] theorem Csr.trapReturn_mie (c : Csr) : c.trapReturn.mie = c.mpie := rfl

@[simp] theorem Csr.trapReturn_mpie (c : Csr) : c.trapReturn.mpie = true := rfl

@[simp] theorem Csr.trapReturn_msie (c : Csr) : c.trapReturn.msie = c.msie := rfl

@[simp] theorem Csr.trapReturn_mtie (c : Csr) : c.trapReturn.mtie = c.mtie := rfl

@[simp] theorem Csr.trapReturn_meie (c : Csr) : c.trapReturn.meie = c.meie := rfl

@[simp] theorem Csr.trapReturn_msip (c : Csr) : c.trapReturn.msip = c.msip := rfl

@[simp] theorem Csr.trapReturn_mtip (c : Csr) : c.trapReturn.mtip = c.mtip := rfl

@[simp] theorem Csr.trapReturn_meip (c : Csr) : c.trapReturn.meip = c.meip := rfl

@[simp] theorem Csr.trapReturn_mcause (c : Csr) : c.trapReturn.mcause = 0 := rfl

@[simp] theorem Csr.trapReturn_mcauseIsInterrupt (c : Csr) : c.trapReturn.mcauseIsInterrupt = false := rfl

/-! ## A level of the cache replaced -/

@[simp] theorem Cache.level_setLevel (c : Cache) (l k : Level) (x : LevelState) :
    (c.setLevel l x).level k = if k = l then x else c.level k := by
  cases l <;> cases k <;> rfl

@[simp] theorem Cache.globalCounter_setLevel (c : Cache) (l : Level) (x : LevelState) :
    (c.setLevel l x).globalCounter = c.globalCounter := by
  cases l <;> rfl

@[simp] theorem Cache.setLevel_setLevel (c : Cache) (l : Level) (x y : LevelState) :
    (c.setLevel l x).setLevel l y = c.setLevel l y := by
  cases l <;> rfl

@[simp] theorem Cache.level_stamp (c : Cache) (g : Nat) (k : Level) :
    ({ c with globalCounter := g } : Cache).level k = c.level k := by
  cases k <;> rfl

theorem Cache.setLevel_stamp (c : Cache) (g : Nat) (k : Level) (x : LevelState) :
    ({ c with globalCounter := g } : Cache).setLevel k x = { c.setLevel k x with globalCounter := g } := by
  cases k <;> rfl

@[simp] theorem Cache.setLevel_level (c : Cache) (k : Level) : c.setLevel k (c.level k) = c := by
  cases k <;> rfl

end Sys2Proof.Machine
end

