-- ==== Sys2Proof/Laws/Bus.lean ====
section
/-! SUPPORT. What the bus's shared operations do: registration, the decoder, a chunk,
  a transfer within one RAM region, and the coverage check. -/

namespace Sys2Proof.Machine

/-! ## Registration -/

theorem mem_insertRegion (r : Region) (rs : List Region) (x : Region) : x ∈ insertRegion r rs ↔ x = r ∨ x ∈ rs := by
  induction rs with
  | nil => simp [insertRegion]
  | cons q rs ih => unfold insertRegion; split <;> simp [ih]; tauto

theorem insertRegion_perm (r : Region) (rs : List Region) : (insertRegion r rs).Perm (r :: rs) := by
  induction rs with
  | nil => exact .refl _
  | cons q rs ih =>
    unfold insertRegion; split
    · exact .refl _
    · exact (ih.cons q).trans (.swap r q rs)

theorem insertRegion_sorted (r : Region) (rs : List Region) (h : rs.Pairwise (fun q r => q.base ≤ r.base)) :
   (insertRegion r rs).Pairwise (fun q r => q.base ≤ r.base) := by
  induction rs with
  | nil => simp [insertRegion]
  | cons q rs ih =>
    rw [List.pairwise_cons] at h
    unfold insertRegion; split
    · refine List.pairwise_cons.2 ⟨fun x hx => ?_, List.pairwise_cons.2 h⟩
      rcases List.mem_cons.1 hx with rfl | hx
      · assumption
      · have := h.1 x hx; omega
    · refine List.pairwise_cons.2 ⟨fun x hx => ?_, ih h.2⟩
      rcases List.mem_cons.1 ((insertRegion_perm r rs).mem_iff.1 hx) with rfl | hx
      · omega
      · exact h.1 x hx

/-- A region that meets no other keeps the regions apart. -/
theorem regions_insert (r : Region) (rs : List Region) (hp : rs.Pairwise (fun q r => q.base + q.size ≤ r.base))
    (h1 : ∀ q ∈ rs, 1 ≤ q.size ∧ q.base + q.size ≤ 2 ^ 64) (hs : r.size ≠ 0)
    (ho : ∀ q ∈ rs, ¬ (r.base ≤ q.last ∧ q.base ≤ r.last)) :
    (insertRegion r rs).Pairwise (fun q r => q.base + q.size ≤ r.base) := by
  induction rs with
  | nil => simp [insertRegion]
  | cons q rs ih =>
    have hq := ho q (by simp); have hq1 := h1 q (by simp)
    unfold Region.last at hq
    rw [List.pairwise_cons] at hp
    unfold insertRegion
    split
    · refine List.pairwise_cons.2 ⟨fun x hx => ?_, List.pairwise_cons.2 hp⟩
      rcases List.mem_cons.1 hx with rfl | hx
      · omega
      · have := hp.1 x hx; omega
    · refine List.pairwise_cons.2 ⟨fun x hx => ?_, ih hp.2 (fun q h => h1 q (by simp [h]))
      (fun q h => ho q (by simp [h]))⟩
      rcases (mem_insertRegion _ _ _).1 hx with rfl | hx
      · omega
      · exact hp.1 x hx

theorem addRegion_ok {s : State} {r : Region} (hs : r.size ≠ 0) (hw : r.base + r.size ≤ 2 ^ 64) 
   (ho : ∀ q ∈ s.bus.regions, ¬ (r.base ≤ q.last ∧ q.base ≤ r.base + r.size - 1)) :
   addRegion r s = .ok () { s with bus := { s.bus with regions := insertRegion r s.bus.regions } } := by
  have : s.bus.regions.find? (fun q => r.base ≤ q.last && q.base ≤ r.last) = none := by
    rw [List.find?_eq_none]; intro q hq; have := ho q hq; rw [Bool.and_eq_true, decide_eq_true_eq,
      decide_eq_true_eq]; exact this
  have h2 : ¬ 2 ^ 64 < r.base + r.size := by omega
  rw [addRegion, if_neg hs]; beta_reduce; rw [if_neg h2]; beta_reduce; rw [Op.get_bind_run, this]; rfl

theorem addRegion_overlap {s : State} {r : Region} (hs : r.size ≠ 0) (hw : r.base + r.size ≤ 2 ^ 64) 
   (ho : ∃ q ∈ s.bus.regions, (r.base ≤ q.last ∧ q.base ≤ r.base + r.size - 1)) :
   ∃ q ∈ s.bus.regions, (r.base ≤ q.last ∧ q.base ≤ r.base + r.size - 1) ∧
   addRegion r s = .error (.err {kind := .overlap r.name q.name r.base r.size}) s := by
  obtain ⟨q, hq, ho⟩ := ho
  have h2 : ¬ 2 ^ 64 < r.base + r.size := by omega
  cases hf : s.bus.regions.find? (fun q => r.base ≤ q.last && q.base ≤ r.last) with
  | none =>
    have := List.find?_eq_none.1 hf q hq
    rw [Bool.and_eq_true, decide_eq_true_eq, decide_eq_true_eq] at this
    exact absurd ho this
  | some q' =>
    have h1 := List.mem_of_find?_eq_some hf
    have h3 := List.find?_some hf
    rw [Bool.and_eq_true, decide_eq_true_eq, decide_eq_true_eq] at h3
    refine ⟨q', h1, h3, ?_⟩
    rw [addRegion, if_neg hs]; beta_reduce; rw [if_neg h2]; beta_reduce; rw [Op.get_bind_run, hf]; rfl

/-- `deviceRegion` answers a device's deviceRegion_of_shape. -/
theorem deviceRegion_of_shape {s : State} {d : DevRef} {base size : Nat} {caps : Caps} (h : s.deviceShape d =
    some (base, size, caps)) :
   deviceRegion d s = .ok (base, size, caps) s ∧ caps.align ≠ 0 := by
  cases d <;> simp [State.deviceShape] at h
  case plic =>
    obtain ⟨rfl, rfl, rfl⟩ := h
    simp [deviceRegion, plicRegionSize]
    cases s.cfg.plic.layout <;> rfl
  case clint =>
    obtain ⟨rfl, rfl, rfl⟩ := h
    simp [deviceRegion]
  case rom k =>
    split at h
    · rename_i h1 h2
      simp at h; obtain ⟨rfl, rfl, rfl⟩ := h
      simp [deviceRegion, h1, getRom, Op.run_bind, h2]
    · simp at h
  all_goals
    obtain ⟨c, h1, rfl, rfl, rfl⟩ := h
    simp [deviceRegion, h1]

/-! ## Decoder -/

theorem Bus.find_mem {b : Bus} {a : Nat} {r : Region} (h : b.find a = some r) : r ∈ b.regions ∧ r.base ≤ a ∧
    a ≤ r.last := by
  have h1 := List.mem_of_find?_eq_some h
  have h2 := List.find?_some h
  simp at h2
  exact ⟨h1, h2⟩

/-- The region that holds an address is the one found. -/
theorem Bus.find_of_mem {b : Bus} (hR : RegionsOk b) {r : Region} (hm : r ∈ b.regions) {x : Nat} (h1 : r.base ≤ x)
    (h2 : x ≤ r.last) : b.find x = some r := by
  unfold Bus.find
  obtain ⟨as, bs, heq⟩ := List.append_of_mem hm
  rw [List.find?_eq_some_iff_append]
  refine ⟨by simp [h1, h2], as, bs, heq, fun q hq => ?_⟩
  have := hR.1
  rw [heq, List.pairwise_append] at this
  have := this.2.2 q hq r (by simp)
  have hq2 := hR.2 q (by rw [heq]; simp [hq])
  rw [Bool.not_eq_true', Bool.and_eq_false_iff]; right
  rw [decide_eq_false_iff_not]; unfold Region.last; omega

theorem decodeAddress_ok {s : State} {a : Nat} {r : Region} (ha : a < 2 ^ 64) (h : s.bus.find a = some r) :
    decodeAddress a s = .ok r s := by
  unfold decodeAddress
  rw [Op.get_bind_run, if_neg (by omega)]; beta_reduce; rw [h]; rfl

theorem decodeAddress_none {s : State} {a : Nat} (h : s.bus.find a = none) : decodeAddress a s =
    .error (.err {kind := .unmapped a}) s := by
  unfold decodeAddress
  rw [Op.get_bind_run]
  split
  · rfl
  · beta_reduce; rw [h]; rfl

/-- What it takes for a range to lie in one RAM region. -/
theorem ramRange_elim {s : State} {a n o : Nat} (h : s.ramRange a n o) : ∃ r o', s.bus.find a = some r ∧ r.kind =
    .ram o' ∧
   o = o' + (a - r.base) ∧ a + n ≤ r.base + r.size ∧ r.base ≤ a ∧ 1 ≤ n ∧ a < 2 ^ 64 ∧ o + n ≤ s.cfg.dramSize := by
  obtain ⟨h1, h2, h3, h4, r, h5, h6⟩ := h
  simp only [State.ramOffset, h5] at h3
  split at h3
  · rename_i o' ho
    exact ⟨r, o', h5, ho, by simpa using h3.symm, h6, (Bus.find_mem h5).2.1, h1, h2, h4⟩
  · simp at h3

/-- A part of a range in one RAM region. -/
theorem ramRange_sub {s : State} (hR : RegionsOk s.bus) {a n o i m : Nat} (h : s.ramRange a n o) (hi : i + m ≤ n)
    (hm : 1 ≤ m) : s.ramRange (a + i) m (o + i) := by
  obtain ⟨r, o', h1, h2, rfl, h4, h5, h6, h7, h8⟩ := ramRange_elim h
  obtain ⟨hmem, hb1, hb2⟩ := Bus.find_mem h1
  have hsz := hR.2 r hmem
  have hf := Bus.find_of_mem hR hmem (x := a + i) (by omega) (by unfold Region.last; omega)
  refine ⟨hm, by omega, ?_, by omega, r, hf, by omega⟩
  simp [State.ramOffset, hf, h2]; omega

/-! ## Chunks -/

theorem countFault_ok {α} {m : Op α} {s t : State} {a : α} (h : m s = .ok a t) : countFault m s = .ok a t := by
  simp [countFault, h]

theorem countFault_err {α} {m : Op α} {s t : State} {e : Err} (h : m s = .error (.err e) t) : 
   countFault m s = .error (.err e) { t with bus := { t.bus with faults := t.bus.faults + 1 } } := by
  simp [countFault, h]

theorem readChunks_zero (f a : Nat) : readChunks f a 0 = pure [] := by cases f <;> rfl

theorem writeChunks_nil (c f a) : writeChunks c f a [] = pure () := by cases f <;> rfl

theorem readChunks_succ (f a n : Nat) (h : n ≠ 0) : readChunks (f + 1) a n = (do
    let r ← countFault (decodeAddress a)
    let bs ← countFault (do chunkCheck r a (min n (r.last - a + 1)); chunkRead r a (min n (r.last - a + 1)))
    recordRead a bs
    let rest ← readChunks f (a + min n (r.last - a + 1)) (n - min n (r.last - a + 1))
    return bs ++ rest) := by
  cases n with
  | zero => exact absurd rfl h
  | succ n => rfl

theorem writeChunks_succ (c) (f a : Nat) (bs : List Byte) (h : bs ≠ []) : writeChunks c (f + 1) a bs = (do
    let r ← countFault (decodeAddress a)
    countFault (do chunkCheck r a (min bs.length (r.last - a + 1)); chunkWriteWith c r a (bs.take (min bs.length (r.last - a + 1))))
    recordWrite a (bs.take (min bs.length (r.last - a + 1)))
    writeChunks c f (a + min bs.length (r.last - a + 1)) (bs.drop (min bs.length (r.last - a + 1)))) := by
  cases bs with
  | nil => exact absurd rfl h
  | cons b bs => rfl

/-- One chunk of a read, and the rest. -/
theorem readChunks_step {s t u : State} {f a n : Nat} {r : Region} {bs rest : List Byte} (hn : 1 ≤ n) (ha :
    a < 2 ^ 64) (hf : s.bus.find a = some r)
   (hc : (do chunkCheck r a (min n (r.last - a + 1)); chunkRead r a (min n (r.last - a + 1)) : Op (List Byte)) s =
     .ok bs t) 
   (hr : readChunks f (a + min n (r.last - a + 1)) (n - min n (r.last - a + 1)) { t with bus := { t.bus with
      trace := t.bus.trace ++ [{ dir := .R, pa := a, bytes := bs }]
      readBytes := t.bus.readBytes + bs.length } } = .ok rest u) :
   readChunks (f + 1) a n s = .ok (bs ++ rest) u := by
  rw [readChunks_succ _ _ _ (by omega)]
  rw [Op.bind_ok (countFault_ok (decodeAddress_ok ha hf)), Op.bind_ok (countFault_ok hc)]
  unfold recordRead
  rw [Op.modify_bind_run, Op.bind_ok hr]; rfl

/-- One chunk of a write, and the rest. -/
theorem writeChunks_step {c} {s t u : State} {f a : Nat} {r : Region} {bs : List Byte} (hn : bs ≠ []) (ha :
    a < 2 ^ 64) (hf : s.bus.find a = some r)
   (hc : (do chunkCheck r a (min bs.length (r.last - a + 1)); chunkWriteWith c r a (bs.take (min bs.length (r.last - a + 1))) : Op Unit) s = .ok () t) 
   (hr : writeChunks c f (a + min bs.length (r.last - a + 1)) (bs.drop (min bs.length (r.last - a + 1)))
     { t with bus := { t.bus with
      trace := t.bus.trace ++ [{ dir := .W, pa := a, bytes := bs.take (min bs.length (r.last - a + 1)) }]
      writeBytes := t.bus.writeBytes + (bs.take (min bs.length (r.last - a + 1))).length } } = .ok () u) :
   writeChunks c (f + 1) a bs s = .ok () u := by
  rw [writeChunks_succ _ _ _ _ hn, Op.bind_ok (countFault_ok (decodeAddress_ok ha hf)), Op.bind_ok (countFault_ok hc)]
  unfold recordWrite
  rw [Op.modify_bind_run]; exact hr

/-- Turns past the bytes of a read change nothing. -/
theorem readChunks_fuel (f : Nat) : ∀ g a n, n ≤ f → n ≤ g → readChunks f a n = readChunks g a n := by
  induction f with
  | zero => intro g a n h1 h2; obtain rfl : n = 0 := by omega
            rw [readChunks_zero, readChunks_zero]
  | succ f ih =>
    intro g a n h1 h2
    by_cases h0 : n = 0
    · subst h0; rw [readChunks_zero, readChunks_zero]
    · obtain ⟨g, rfl⟩ : ∃ m, g = m + 1 := ⟨g - 1, by omega⟩
      rw [readChunks_succ _ _ _ h0, readChunks_succ _ _ _ h0]
      congr 1; funext r; congr 1; funext bs; congr 1; funext _; rw [ih g _ _ (by omega) (by omega)]

/-- Turns past the bytes of a write change nothing. -/
theorem writeChunks_fuel (c) (f : Nat) : ∀ g a bs, bs.length ≤ f → bs.length ≤ g →
    writeChunks c f a bs = writeChunks c g a bs := by
  induction f with
  | zero => intro g a bs h1 h2; obtain rfl : bs = [] := List.length_eq_zero_iff.1 (by omega)
            rw [writeChunks_nil, writeChunks_nil]
  | succ f ih =>
    intro g a bs h1 h2
    by_cases h0 : bs = []
    · subst h0; rw [writeChunks_nil, writeChunks_nil]
    · have hl := List.length_pos_iff.2 h0
      obtain ⟨g, rfl⟩ : ∃ m, g = m + 1 := ⟨g - 1, by omega⟩
      rw [writeChunks_succ _ _ _ _ h0, writeChunks_succ _ _ _ _ h0]
      congr 1; funext r; congr 1; funext _; congr 1; funext _; rw [ih g _ _ (by simp; omega) (by simp; omega)]

/-! ## Transfers in one RAM region -/

theorem busRead_ram {s : State} {pa n o : Nat} (h : s.ramRange pa n o) :
   busRead pa n s = .ok (s.dramBytes o n) { s with bus := s.bus.afterRead pa (s.dramBytes o n) } := by
  obtain ⟨r, o', h1, h2, rfl, h4, h5, h6, h7, h8⟩ := ramRange_elim h
  unfold busRead countRead
  rw [Op.modify_bind_run]
  obtain ⟨n, rfl⟩ : ∃ m, n = m + 1 := ⟨n - 1, by omega⟩
  have hmin : min (n+1) (r.last - pa + 1) = n + 1 := by unfold Region.last; omega
  have := @readChunks_step { s with bus := { s.bus with reads := s.bus.reads + 1 } } { s with bus := { s.bus with reads := s.bus.reads + 1 } } { s with bus := s.bus.afterRead pa (s.dramBytes (o' + (pa - r.base)) (n+1)) }
    n pa (n+1) r (s.dramBytes (o' + (pa - r.base)) (n+1)) [] (by omega) h7 h1 ?_ ?_
  · simpa using this
  · simp only [hmin, chunkCheck, chunkRead, h2, Op.run_bind, Op.run_get, Op.run_pure]
    rw [dramRead_ok (by exact h8)]; rfl
  · rw [hmin, Nat.sub_self, readChunks_zero]; rfl

theorem busWriteWith_ram {c} {s : State} {pa o : Nat} {bs : List Byte} (h : s.ramRange pa bs.length o) :
   busWriteWith c pa bs s = .ok ()
     { s with bus := s.bus.afterWrite pa bs, dram := { s.dram with cells := Memory.writeBytes s.cfg.fillByte s.dram.cells o bs } } := by
  obtain ⟨r, o', h1, h2, rfl, h4, h5, h6, h7, h8⟩ := ramRange_elim h
  unfold busWriteWith countWrite
  rw [Op.modify_bind_run]
  have hne : bs ≠ [] := by rintro rfl; simp at h6
  have hmin : min bs.length (r.last - pa + 1) = bs.length := by unfold Region.last; omega
  obtain ⟨n, hn⟩ : ∃ m, bs.length = m + 1 := ⟨bs.length - 1, by omega⟩
  rw [hn]
  refine @writeChunks_step c { s with bus := { s.bus with writes := s.bus.writes + 1 } } { s with bus := { s.bus with writes := s.bus.writes + 1 }, dram := { s.dram with cells := Memory.writeBytes s.cfg.fillByte s.dram.cells (o' + (pa - r.base)) bs } } _
    n pa r bs hne h7 h1 ?_ ?_
  · simp only [hmin, chunkCheck, chunkWriteWith, h2, Op.run_bind, Op.run_get, Op.run_pure, List.take_length]
    rw [dramWrite_ok (by exact h8)]
  · rw [hmin, List.drop_length, writeChunks_nil, List.take_length]; rfl

/-! ## Coverage -/

/-- A covered range has a RAM region at every address. -/
theorem coveredFrom_spec (rs : List Region) (stop : Nat) : ∀ a, coveredFrom a stop rs = true → ∀ x, a ≤ x →
    x < stop → ∃ r ∈ rs, ∃ o, r.kind = .ram o ∧ r.base ≤ x ∧ x ≤ r.last := by
  induction rs with
  | nil => intro a h x h1 h2; simp [coveredFrom] at h; omega
  | cons r rs ih =>
    intro a h x h1 h2
    unfold coveredFrom at h
    rw [if_neg (by omega)] at h
    split at h
    · obtain ⟨q, hq, o, h⟩ := ih a h x h1 h2
      exact ⟨q, by simp [hq], o, h⟩
    · split at h
      · rename_i o hk
        simp at h
        by_cases hx : x ≤ r.last
        · exact ⟨r, by simp, o, hk, by omega, hx⟩
        · obtain ⟨q, hq, o, h⟩ := ih _ h.2 x (by omega) h2
          exact ⟨q, by simp [hq], o, h⟩
      · simp at h

/-- A range in one RAM region is covered. -/
theorem Bus.ramCovered_of_region (b : Bus) (hR : RegionsOk b) (r : Region) (o : Nat) (hm : r ∈ b.regions) (hk :
    r.kind = .ram o) (a n : Nat) (h1 : r.base ≤ a) (h2 : a + n ≤ r.base + r.size) :
   b.ramCovered a n = true := by
  unfold Bus.ramCovered
  by_cases hn : n = 0
  · simp [hn]
  have hb := hR.2 r hm
  have : coveredFrom a (a + n) b.regions = true := by
    have hp := hR.1
    have hall := hR.2
    generalize b.regions = rs at *
    induction rs with
    | nil => simp at hm
    | cons q rs ih =>
      rw [List.pairwise_cons] at hp
      have hq := hall q (by simp)
      unfold coveredFrom
      rw [if_neg (by omega)]
      rcases List.mem_cons.1 hm with rfl | hm'
      · rw [if_neg (by unfold Region.last; omega), hk]
        have : coveredFrom (r.last + 1) (a + n) rs = true := by
          cases rs with
          | nil => exact decide_eq_true (by unfold Region.last; omega)
          | cons q' rs => unfold coveredFrom; rw [if_pos (by unfold Region.last; omega)]
        simp [this, h1]
      · have := hp.1 r hm'
        rw [if_pos (by unfold Region.last; omega)]
        exact ih hm' hp.2 (fun r hr => hall r (by simp [hr]))
  rw [Bool.or_eq_true, Bool.and_eq_true]; right
  exact ⟨decide_eq_true (by omega), this⟩

end Sys2Proof.Machine
end

