-- ==== Sys2Proof/Laws/Cache.lean ====
section
/-! SUPPORT. What the cache's shared operations do: a probe, an installation into a free way,
  a read that hits or that misses every level, a write and a prefetch. -/

namespace Sys2Proof.Machine

/-! ## Probes -/

/-- The state after a probe that hit: the line stamped, a hit counted. -/
def stamped (s : State) (q : Nat × Nat) (l : Level) (w : Bool) : State :=
  { s with cache := { s.cache.setLevel l
        { lines := Tab.set pairLt (s.cache.level l).lines q { s.line l q with lru := s.cache.globalCounter + 1, dirty := (s.line l q).dirty || w }
          stats := { (s.cache.level l).stats with hits := (s.cache.level l).stats.hits + 1 } } with
          globalCounter := s.cache.globalCounter + 1 } }

theorem accessLine_hit {s : State} {a : Nat} {l : Level} {q : Nat × Nat} (w : Bool) (h : s.lookup a l = some q) :
  accessLine a l w s = .ok (some q) (stamped s q l w) := by
  unfold accessLine
  rw [Op.get_bind_run, h]
  dsimp only
  unfold nextStamp getLine putLine countAt stamped State.withLines
  simp [Op.run_bind]
  cases l <;> simp [Cache.setLevel, Cache.level, State.line, CacheStats.hit]

theorem line_stamped (s : State) (q l w k r) : (stamped s q l w).line k r = if k = l ∧
    r = q then { s.line l q with lru := s.cache.globalCounter + 1, dirty := (s.line l q).dirty || w } else s.line k r := by
  unfold stamped
  by_cases hk : k = l
  · subst hk
    by_cases hr : r = q
    · subst hr; simp [State.line, Tab.get_set]
    · simp [State.line, Tab.get_set, hr, Ne.symm hr]
  · simp [State.line, hk]

theorem lookup_stamped (s : State) (q l w a k) (h : s.lookup a l = some q) : (stamped s q l w).lookup a k =
    s.lookup a k := by
  unfold State.lookup at *
  simp only
  have hcfg : (stamped s q l w).cfg = s.cfg := rfl
  rw [hcfg]
  have : ∀ r, ((stamped s q l w).line k r).valid = (s.line k r).valid ∧ ((stamped s q l w).line k r).tag =
    (s.line k r).tag := by
    intro r
    rw [line_stamped]
    by_cases hh : k = l ∧ r = q
    · obtain ⟨rfl, rfl⟩ := hh; simp
    · simp [hh]
  simp only [fun r => (this r).1, fun r => (this r).2]

/-- The state after a probe that missed. -/
def missed (s : State) (l : Level) : State :=
  { s with cache := s.cache.setLevel l { s.cache.level l with stats := (s.cache.level l).stats.miss } }

theorem accessLine_miss {s : State} {a l w} (h : s.lookup a l = none) : accessLine a l w s = .ok none (missed s l) := by
  unfold accessLine; rw [Op.get_bind_run, h]; rfl

theorem line_missed (s l k r) : (missed s l).line k r = s.line k r := by
  unfold missed State.line; simp; split <;> simp_all

/-- A look-up depends on the valid flags and tags of the level only. -/
theorem lookup_congr {s t : State} (hc : t.cfg = s.cfg) {l} (h : ∀ r, (t.line l r).valid = (s.line l r).valid ∧
    (t.line l r).tag = (s.line l r).tag) (a) : t.lookup a l = s.lookup a l := by
  unfold State.lookup
  simp only [hc, fun r => (h r).1, fun r => (h r).2]

theorem wayFree_congr {s t : State} (hc : t.cfg = s.cfg) {l a} (h : ∀ r, (t.line l r).valid = (s.line l r).valid) :
    t.wayFree l a ↔ s.wayFree l a := by
  unfold State.wayFree; simp only [hc, h]

theorem lookup_missed (s l a k) : (missed s l).lookup a k = s.lookup a k := lookup_congr (s := s)
    (t := missed s l) rfl (fun r => by simp [line_missed]) _

theorem wayFree_missed {s l a k} : (missed s l).wayFree k a ↔ s.wayFree k a := wayFree_congr (s := s)
    (t := missed s l) rfl (fun r => by simp [line_missed])

theorem stats_missed (s l k) : ((missed s l).cache.level k).stats = if k =
    l then (s.cache.level k).stats.miss else (s.cache.level k).stats := by
  simp [missed]; split <;> simp_all

theorem level_missed (s l k) (h : k ≠ l): ((missed s l).cache.level k) = (s.cache.level k) := by
  simp [missed, h]

/-- What a look-up finds is valid and of the block. -/
theorem lookup_valid {s : State} {a l q} (h : s.lookup a l = some q) : (s.line l q).valid = true ∧ (s.line l q).tag =
    Config.tagOf s.cfg l a ∧ q.1 = Config.setOf s.cfg l a ∧ q.2 < s.cfg.ways l := by
  unfold State.lookup at h
  rw [Option.map_eq_some_iff] at h
  obtain ⟨w, hw, rfl⟩ := h
  have := List.find?_some hw
  have hm := List.mem_of_find?_eq_some hw
  simp at this hm
  simp [this, hm]

/-! ## Reads and writes that hit -/

theorem cacheRead_hit {s : State} {a : Nat} {c : Side} {q : Nat × Nat} (h : s.lookup a c.level = some q) :
   cacheRead a c s = .ok (s.line c.level q).data (stamped s q c.level false) := by
  unfold cacheRead
  rw [Op.get_bind_run]; dsimp only
  rw [Op.bind_ok (accessLine_hit false h)]
  dsimp only
  simp [getLine, Op.run_bind, line_stamped]

/-- The state after bytes are patched into a line that was hit. -/
def patchedState (s : State) (q : Nat × Nat) (l : Level) (off : Nat) (bs : List Byte) : State :=
  { s with cache := { s.cache.setLevel l
        { lines := Tab.set pairLt (s.cache.level l).lines q ({ s.line l q with lru := s.cache.globalCounter + 1 } |>.patched off bs)
          stats := { (s.cache.level l).stats with hits := (s.cache.level l).stats.hits + 1 } } with
          globalCounter := s.cache.globalCounter + 1 } }

theorem cacheWriteChunk_hit {s : State} {a : Nat} {bs : List Byte} {c : Side} {q : Nat × Nat} (h :
    s.lookup a c.level = some q) :
   cacheWriteChunk a bs c s = .ok () (patchedState s q c.level (a % s.cfg.lineSize) bs) := by
  unfold cacheWriteChunk
  rw [Op.bind_ok (cacheRead_hit h), Op.get_bind_run, lookup_stamped _ _ _ _ _ _ h, h]
  dsimp only
  unfold putLine State.withLines
  rw [Op.run_modify]
  rw [line_stamped]
  simp [patchedState, stamped, Cache.setLevel_stamp, Tab.set_set]

theorem line_patched (s : State) (q l off bs k r) : (patchedState s q l off bs).line k r = if k = l ∧
    r = q then ({ s.line l q with lru := s.cache.globalCounter + 1 } : Line).patched off bs else s.line k r := by
  unfold patchedState
  by_cases hk : k = l
  · subst hk
    by_cases hr : r = q
    · subst hr; simp [State.line, Tab.get_set]
    · simp [State.line, Tab.get_set, hr, Ne.symm hr]
  · simp [State.line, hk]

theorem cacheWrite_hit {s : State} {a : Nat} {bs : List Byte} {c : Side} {q : Nat × Nat} (h : s.lookup a c.level =
    some q)
   (hne : bs ≠ []) (hfit : a % s.cfg.lineSize + bs.length ≤ s.cfg.lineSize) :
   cacheWrite a bs c s = .ok () (patchedState s q c.level (a % s.cfg.lineSize) bs) := by
  unfold cacheWrite
  cases bs with
  | nil => exact absurd rfl hne
  | cons b t =>
  simp only [List.length_cons, cacheWriteLoop]
  rw [Op.get_bind_run]
  have hm : min (s.cfg.lineSize - a % s.cfg.lineSize) (t.length + 1) = t.length + 1 := by
    simp at hfit; omega
  rw [hm]
  have : List.take (t.length + 1) (b :: t) = b :: t := by simp
  rw [this, Op.bind_ok (cacheWriteChunk_hit h)]
  have : List.drop (t.length + 1) (b :: t) = [] := by simp
  rw [this]
  cases t <;> rfl

theorem getD_patched (x : List Byte) (off n : Nat) (bs : List Byte) (i : Nat) (hx : x.length = n) (hf :
    off + bs.length ≤ n) (hi : i < n) :
   (x.take off ++ bs ++ x.drop (off + bs.length)).getD i 0 = if off ≤ i ∧
     i < off + bs.length then bs.getD (i - off) 0 else x.getD i 0 := by
  have hlen : (x.take off).length = off := by simp; omega
  simp only [List.getD_eq_getElem?_getD]
  by_cases h1 : i < off
  · rw [if_neg (by omega), List.append_assoc, List.getElem?_append_left (by omega), List.getElem?_take_of_lt h1]
  · by_cases h2 : i < off + bs.length
    · rw [if_pos (by omega), List.append_assoc, List.getElem?_append_right (by omega), hlen,
      List.getElem?_append_left (by omega)]
    · rw [if_neg (by omega), List.getElem?_append_right (by simp; omega)]
      simp [hlen]
      congr 2; omega

/-! ## Installation into a free way -/

/-- The slot an installation takes. -/
def slotOf (s : State) (l : Level) (b : Nat) : Nat × Nat := (Config.setOf s.cfg l b,
    s.chooseVictim l (Config.setOf s.cfg l b))

/-- The line an installation puts there. -/
def newLine (s : State) (l : Level) (b : Nat) (d : List Byte) (w : Bool) : Line :=
  { valid := true, dirty := w, tag := Config.tagOf s.cfg l b, data := d, lru := s.cache.globalCounter + 1,
                presentL1d := false, presentL1i := false, presentL2 := false }

/-- The state with it put there. -/
def installed (s : State) (l : Level) (b : Nat) (d : List Byte) (w : Bool) : State :=
  { s with cache := { s.cache.setLevel l
        { lines := Tab.set pairLt (s.cache.level l).lines (slotOf s l b) (newLine s l b d w)
          stats := (s.cache.level l).stats.fill } with
          globalCounter := s.cache.globalCounter + 1 } }

theorem slotOf_free {s : State} {l : Level} {b : Nat} (h : s.wayFree l b) : (s.line l (slotOf s l b)).valid = false ∧
    (slotOf s l b).2 < s.cfg.ways l := by
  obtain ⟨w, hw, hv⟩ := h
  unfold slotOf State.chooseVictim
  dsimp only
  cases hf : (List.range (s.cfg.ways l)).find? (fun w => !(s.line l (Config.setOf s.cfg l b, w)).valid) with
  | some w' => 
    have h1 := List.find?_some hf
    have h2 := List.mem_of_find?_eq_some hf
    simp at h1 h2
    exact ⟨h1, h2⟩
  | none => 
    rw [List.find?_eq_none] at hf
    exact absurd hv (by simpa using hf w (by simpa using hw))

/-- The state after a presence flag is written. -/
def marked (s : State) (l : Level) (b : Nat) (v : Bool) : State :=
  match Level.parent l with
  | none => s
  | some p => match s.lookup b p with
    | some q => s.withLines p (Tab.set pairLt · q ((s.line p q).withPresence l v))
    | none => s

theorem markPresence_run (s l b v) : markPresence l b v s = .ok () (marked s l b v) := by
  unfold markPresence marked
  rw [Op.get_bind_run]
  cases Level.parent l with
  | none => rfl
  | some p => dsimp only; cases s.lookup b p <;> rfl

theorem installWith_free {ev} {s : State} {l : Level} {b : Nat} {d w} (h : s.wayFree l b) :
   installWith ev l b d w s = .ok () (marked (installed s l b d w) l b true) := by
  unfold installWith
  rw [Op.get_bind_run]; dsimp only
  have := (slotOf_free h).1
  unfold slotOf at this
  rw [this, if_neg (by simp)]
  unfold nextStamp putLine countAt State.withLines
  simp only [Op.run_bind, Op.run_get, Op.run_modify, Op.run_pure]
  rw [markPresence_run]
  simp only [installed, newLine, slotOf]
  simp [Cache.setLevel_stamp]

theorem line_installed (s : State) (l b d w k r) : (installed s l b d w).line k r = if k = l ∧ r =
    slotOf s l b then newLine s l b d w else s.line k r := by
  unfold installed
  by_cases hk : k = l
  · subst hk
    by_cases hr : r = slotOf s k b
    · subst hr; simp [State.line, Tab.get_set]
    · simp [State.line, Tab.get_set, hr, Ne.symm hr]
  · simp [State.line, hk]

theorem line_marked (s : State) (l b v k r) : (marked s l b v).line k r = if Level.parent l = some k ∧ s.lookup b k =
    some r then (s.line k r).withPresence l v else s.line k r := by
  unfold marked
  cases hp : Level.parent l with
  | none => simp
  | some p =>
    dsimp only
    cases hl : s.lookup b p with
    | none =>
      by_cases hk : p = k
      · subst hk; simp [hl]
      · simp [hk]
    | some q =>
      by_cases hk : p = k
      · subst hk
        simp only [hl, true_and, Option.some.injEq]
        by_cases hr : q = r
        · subst hr; simp [State.line, State.withLines, Tab.get_set]
        · simp [State.line, State.withLines, Tab.get_set, hr]
      · simp [hk, State.line, State.withLines, Ne.symm hk]

@[simp] theorem withPresence_valid (x : Line) (l v) : (x.withPresence l v).valid = x.valid ∧
    (x.withPresence l v).tag = x.tag ∧ (x.withPresence l v).data = x.data ∧ (x.withPresence l v).dirty = x.dirty := by
  cases l <;> simp [Line.withPresence]

theorem marked_cfg (s l b v) : (marked s l b v).cfg = s.cfg := by
  unfold marked; cases Level.parent l with
  | none => rfl
  | some p => dsimp only; cases s.lookup b p <;> rfl

theorem lookup_marked (s l b v a k) : (marked s l b v).lookup a k = s.lookup a k := by
  apply lookup_congr (marked_cfg ..)
  intro r; rw [line_marked]; split <;> simp

theorem lookup_other {s : State} {l b d w a k} (h : k ≠ l) : (installed s l b d w).lookup a k = s.lookup a k := by
  apply lookup_congr (s := s) (t := installed s l b d w) rfl
  intro r; rw [line_installed, if_neg (by simp [h])]; simp

/-- A block that was absent is found in the slot it was installed in. -/
theorem lookup_installed {s : State} {l b d w} (hn : s.lookup b l = none) (h : s.wayFree l b) :
    (installed s l b d w).lookup b l = some (slotOf s l b) := by
  have hv := slotOf_free h
  unfold State.lookup at hn ⊢
  rw [Option.map_eq_none_iff, List.find?_eq_none] at hn
  rw [Option.map_eq_some_iff]
  refine ⟨(slotOf s l b).2, ?_, rfl⟩
  have hc : (installed s l b d w).cfg = s.cfg := rfl
  simp only [hc]
  simp only [line_installed]
  rw [List.find?_eq_some_iff_append]
  refine ⟨?_, ?_⟩
  · rw [if_pos ⟨by trivial, rfl⟩]; simp [newLine]
  · obtain ⟨as, bs, hab⟩ := List.append_of_mem (List.mem_range.2 hv.2)
    refine ⟨as, bs, hab, ?_⟩
    intro x hx
    have hxr : x ∈ List.range (s.cfg.ways l) := by rw [hab]; simp [hx]
    have hne : x ≠ (slotOf s l b).2 := by
      rintro rfl
      have := List.nodup_range (n := s.cfg.ways l)
      rw [hab] at this
      simp [List.nodup_append] at this
      exact (this.2.2 _ hx).1 rfl
    rw [if_neg (by rintro ⟨-, h⟩; exact hne (congrArg Prod.snd h))]
    have := hn x hxr
    rw [Bool.not_eq_true] at this
    simp [this]

theorem wayFree_marked {s l b v k a} : (marked s l b v).wayFree k a ↔ s.wayFree k a := by
  apply wayFree_congr (marked_cfg ..)
  intro r; rw [line_marked]; split <;> simp

theorem wayFree_installed {s : State} {l b d w k a} (h : k ≠ l) :
    (installed s l b d w).wayFree k a ↔ s.wayFree k a := by
  apply wayFree_congr (s := s) (t := installed s l b d w) rfl
  intro r; rw [line_installed, if_neg (by simp [h])]

theorem stats_marked (s l b v k) : ((marked s l b v).cache.level k).stats = (s.cache.level k).stats := by
  unfold marked
  cases hp : Level.parent l with
  | none => simp
  | some p =>
    dsimp only
    cases hl : s.lookup b p with
    | none => rfl
    | some q => simp [State.withLines]; split <;> simp_all

theorem level_marked (s l b v k) (h : Level.parent l ≠ some k): ((marked s l b v).cache.level k) =
    (s.cache.level k) := by
  unfold marked
  cases hp : Level.parent l with
  | none => simp
  | some p =>
    dsimp only
    cases hl : s.lookup b p with
    | none => rfl
    | some q => simp [State.withLines]; rintro rfl; exact absurd hp h

theorem stats_installed (s l b d w k) : ((installed s l b d w).cache.level k).stats = if k =
    l then (s.cache.level k).stats.fill else (s.cache.level k).stats := by
  simp [installed]; split <;> simp_all

theorem level_installed (s l b d w k) (h : k ≠ l): ((installed s l b d w).cache.level k) = (s.cache.level k) := by
  simp [installed, h]

/-- Only the cache changed. -/
def onlyCache (s t : State) : Prop := t = { s with cache := t.cache }

theorem onlyCache_marked (s l b v) : onlyCache s (marked s l b v) := by
  unfold marked; cases Level.parent l with
  | none => rfl
  | some p => dsimp only; cases s.lookup b p <;> rfl

theorem onlyCache_installed (s l b d w) : onlyCache s (installed s l b d w) := rfl

theorem onlyCache.trans {s t u} (h : onlyCache s t) (g : onlyCache t u) : onlyCache s u := by
  unfold onlyCache at *; rw [g, h]

/-- The state after a clean line is installed into a free way. -/
def filled (s : State) (l : Level) (b : Nat) (d : List Byte) : State := marked (installed s l b d false) l b true

theorem installWith_clean {ev} {s : State} {l : Level} {b : Nat} {d} (h : s.wayFree l b) :
    installWith ev l b d false s = .ok () (filled s l b d) := installWith_free h

theorem onlyCache_inst (s l b d) :
    onlyCache s (filled s l b d) := (onlyCache_installed s l b d false).trans (onlyCache_marked _ l b true)

theorem stats_inst (s l b d k) : ((filled s l b d).cache.level k).stats = if k =
    l then (s.cache.level k).stats.fill else (s.cache.level k).stats := by
  rw [filled, stats_marked, stats_installed]

theorem level_inst (s l b d k) (h : k ≠ l) (h' : Level.parent l ≠ some k): ((filled s l b d).cache.level k) =
    (s.cache.level k) := by
  rw [filled, level_marked _ _ _ _ _ h', level_installed _ _ _ _ _ _ h]

theorem lookup_inst_other {s : State} {l b d a k} (h : k ≠ l) : (filled s l b d).lookup a k = s.lookup a k := by
  rw [filled, lookup_marked, lookup_other h]

theorem wayFree_inst {s : State} {l b d a k} (h : k ≠ l) : (filled s l b d).wayFree k a ↔ s.wayFree k a := by
  rw [filled, wayFree_marked, wayFree_installed h]

/-- A block another level holds stays held. -/
theorem holds_inst {s : State} {l b d k a d'} (h : k ≠ l) (hh : s.holdsClean k a d') :
    (filled s l b d).holdsClean k a d' := by
  obtain ⟨q, h1, h2, h3⟩ := hh
  refine ⟨q, by rw [lookup_inst_other h]; exact h1, ?_⟩
  rw [filled, line_marked]
  split <;> simp [line_installed, h, h2, h3]

/-- The block installed is held. -/
theorem holds_inst_self {s : State} {l b d} (hn : s.lookup b l = none) (h : s.wayFree l b) :
    (filled s l b d).holdsClean l b d := by
  refine ⟨slotOf s l b, by rw [filled, lookup_marked, lookup_installed hn h], ?_⟩
  rw [filled, line_marked]
  split <;> simp [line_installed, newLine]

/-! ## Blocks -/

theorem block_eq {c : Config} (h : 0 < c.lineSize) (a : Nat) (l : Level) : Config.setOf c l (Config.block c a) =
    Config.setOf c l a ∧ Config.tagOf c l (Config.block c a) = Config.tagOf c l a := by
  have : Config.block c a / c.lineSize = a / c.lineSize := by
    unfold Config.block
    have := Nat.div_add_mod a c.lineSize
    have e : a - a % c.lineSize = c.lineSize * (a / c.lineSize) := by omega
    rw [e, Nat.mul_div_cancel_left _ h]
  simp [Config.setOf, Config.tagOf, this]

theorem lookup_block {s : State} (h : 0 < s.cfg.lineSize) (a l) : s.lookup (Config.block s.cfg a) l = s.lookup a l := by
  unfold State.lookup; simp only [block_eq h]

theorem wayFree_block {s : State} (h : 0 < s.cfg.lineSize) (a l) :
    s.wayFree l (Config.block s.cfg a) ↔ s.wayFree l a := by
  unfold State.wayFree; simp only [block_eq h]

/-- A legal line size is not 0. -/
theorem lineSize_pos {c : Config} (h : ConfigLegal c) : 0 < c.lineSize := by
  obtain ⟨n, hn⟩ := (h.geometry .l1d).1
  have : c.lineSize = 2 ^ n := hn
  rw [this]; positivity

theorem holds_block {s : State} (h : 0 < s.cfg.lineSize) {a l d} (hh : s.holdsClean l (Config.block s.cfg a) d) :
    s.holdsClean l a d := by
  obtain ⟨q, h1, h2⟩ := hh
  exact ⟨q, by rw [← lookup_block h]; exact h1, h2⟩

end Sys2Proof.Machine
end

