-- ==== Sys2Proof/Laws/Config.lean ====
section
/-! SUPPORT. The configuration checks: `firstBad` names a violation exactly when a legal value of spec/00_scope.md R8 is
violated. -/

namespace Sys2Proof.Machine

/-- `isPow2` says that a number is a power of two. -/
theorem isPow2_iff {n : Nat} : isPow2 n = true ↔ ∃ k, n = 2 ^ k := by
  simp only [isPow2, Bool.and_eq_true, decide_eq_true_eq, ne_eq]
  constructor
  · exact fun h => ⟨_, h.2.symm⟩
  · rintro ⟨k, rfl⟩
    exact ⟨by positivity, by rw [Nat.log2_two_pow]⟩

/-- The geometry check of one level. -/
theorem LevelCfg.ok_iff {g : LevelCfg} : g.ok = true ↔ (∃ n, g.lineSize = 2 ^ n) ∧ 1 ≤ g.associativity ∧
    ∃ n, 1 ≤ n ∧ g.size = n * (g.lineSize * g.associativity) := by
  simp only [LevelCfg.ok, Bool.and_eq_true, decide_eq_true_eq, isPow2_iff, and_assoc]
  refine and_congr_right fun hl => and_congr_right fun ha => ?_
  constructor
  · exact fun h => ⟨_, h.2, (Nat.div_mul_cancel (Nat.dvd_of_mod_eq_zero h.1)).symm⟩
  · rintro ⟨n, hn, h⟩
    obtain ⟨k, hk⟩ := hl
    have : 0 < g.lineSize * g.associativity := Nat.mul_pos (by rw [hk]; positivity) ha
    rw [h]
    exact ⟨Nat.mul_mod_left _ _, by rw [Nat.mul_div_cancel _ this]; exact hn⟩

/-- A sink check. -/
theorem sinkOk_iff {n : Nat} {o : Option Nat} : sinkOk n o = true ↔ ∀ id ∈ o, 1 ≤ id ∧ id ≤ n := by
  cases o <;> simp [sinkOk]

/-- A check that names its parameter passes when it does not hold and the rest passes. -/
theorem check_eq_none {b : Prop} [Decidable b] {p : BadParam} {o : Option BadParam} :
    (if b then some p else o) = none ↔ ¬ b ∧ o = none := by
  split <;> simp [*]

/-- `firstBad` finds nothing exactly when the configuration is legal (R8, R9). -/
theorem firstBad_none_iff {c : Config} : c.firstBad = none ↔ ConfigLegal c := by
  unfold Config.firstBad
  simp only [check_eq_none, Bool.not_eq_true', Bool.not_eq_false, Bool.and_eq_true, decide_eq_true_eq, List.all_eq_true,
    sinkOk_iff, isPow2_iff, LevelCfg.ok_iff, and_true]
  constructor
  · rintro ⟨⟨⟨⟨h1, h2⟩, h3⟩, h4⟩, ⟨⟨h5, h6⟩, h7⟩, h8, h9, h10, h11, h12, h13, h14, ⟨⟨h15, h16⟩, h17⟩⟩
    exact ⟨fun l => by cases l <;> assumption, fun l => by cases l <;> first | rfl | assumption, h8, by omega, by omega, h11,
      h12, h13, h14, h15, h16, h17⟩
  · intro h
    exact ⟨⟨⟨⟨h.geometry .l1d, h.geometry .l1i⟩, h.geometry .l2⟩, h.geometry .l3⟩,
      ⟨⟨h.lineSizes .l1i, h.lineSizes .l2⟩, h.lineSizes .l3⟩, h.pageSize, by have := h.tlb; omega,
      by have := h.dram; omega, h.target, h.sources, h.contexts, h.harts, ⟨⟨h.uartSinks, h.timerSinks⟩, h.dmaSinks⟩⟩

/-- A configuration that a check rejects is not legal. -/
theorem firstBad_some_iff {c : Config} : (∃ p, c.firstBad = some p) ↔ ¬ ConfigLegal c := by
  rw [← firstBad_none_iff, ← ne_eq, Option.ne_none_iff_exists']

end Sys2Proof.Machine
end

