-- ==== Sys2Proof/Laws/Count.lean ====
section
/-! SUPPORT. No operation reads the bus's transfer counters or the last result: with these changed, every shared operation
of the bus and its devices answers the same and leaves the same state, changed in the same way. -/

namespace Sys2Proof.Machine

/-- The state whose bus has counted x more read transfers and y more write transfers, and whose last result is `res`, if one
is given. -/
def State.counted (x y : Nat) (res : Option OpResult) (s : State) : State :=
  { s with
    bus := { s.bus with reads := s.bus.reads + x, writes := s.bus.writes + y }
    result := res.getD s.result }

/-- An operation that depends neither on the transfer counters nor on the last result, and keeps what they were changed
by. -/
def Counts (x y : Nat) (res : Option OpResult) {α : Type} (m : Op α) : Prop :=
  ∀ s, m (s.counted x y res) = match m s with
    | .ok a t => .ok a (t.counted x y res)
    | .error e t => .error e (t.counted x y res)

variable {α β : Type} {x y : Nat} {res : Option OpResult}

namespace Counts

/-! ## Ways of building an operation -/

theorem pure (a : α) : Counts x y res (pure a : Op α) := fun _ => rfl

theorem raise (k : ErrKind) : Counts x y res (raise k : Op α) := fun _ => rfl

theorem refuse (r : Refusal) : Counts x y res (refuse r : Op α) := fun _ => rfl

theorem need (o : Option α) (r : Refusal) : Counts x y res (need o r) := by
  cases o <;> exact fun _ => rfl

theorem modify {f : State → State} (h : ∀ s : State, f (s.counted x y res) = (f s).counted x y res) :
    Counts x y res (modify f : Op Unit) := fun s => by
  simp only [Op.run_modify, h]

theorem bind {m : Op α} {f : α → Op β} (hm : Counts x y res m) (hf : ∀ a, Counts x y res (f a)) : Counts x y res (m >>= f) := by
  intro s
  rw [Op.run_bind, Op.run_bind, hm s]
  cases m s with
  | ok a t => exact hf a t
  | error e t => rfl

/-- What follows a `get` must not depend on the counters of the state it has. -/
theorem get_bind {f : State → Op β} (h : ∀ s : State, f (s.counted x y res) = f s) (hf : ∀ s, Counts x y res (f s)) :
    Counts x y res (MonadState.get >>= f : Op β) := fun s => by
  rw [Op.get_bind_run, Op.get_bind_run, h s]
  exact hf s s

theorem ite {c : Prop} [Decidable c] {m n : Op α} (hm : Counts x y res m) (hn : Counts x y res n) :
    Counts x y res (if c then m else n) := by
  split <;> assumption

theorem attempt {m : Op α} (h : Counts x y res m) : Counts x y res (attempt m) := by
  intro s
  unfold Machine.attempt
  rw [h s]
  cases m s with
  | ok a t => rfl
  | error e t => cases e <;> rfl

theorem countFault {m : Op α} (h : Counts x y res m) : Counts x y res (countFault m) := by
  intro s
  unfold Machine.countFault
  rw [h s]
  cases m s with
  | ok a t => rfl
  | error e t => cases e <;> rfl

/-! ## DRAM, PLIC, CLINT -/

theorem dramBounds (a n : Nat) : Counts x y res (dramBounds a n) :=
  .get_bind (fun _ => rfl) fun _ => .ite (.bind (.modify fun _ => rfl) fun _ => .raise _) (.pure _)

theorem dramRead (a n : Nat) : Counts x y res (dramRead a n) :=
  .bind (dramBounds a n) fun _ => .get_bind (fun _ => rfl) fun _ => .pure _

theorem dramWrite (a : Nat) (bs : List Byte) : Counts x y res (dramWrite a bs) :=
  .bind (dramBounds a _) fun _ => .modify fun _ => rfl

theorem plicRaise (id : Nat) : Counts x y res (plicRaise id) :=
  .get_bind (fun _ => rfl) fun _ => .ite (.modify fun _ => rfl) (.refuse _)

theorem plicLower (id : Nat) : Counts x y res (plicLower id) :=
  .get_bind (fun _ => rfl) fun _ => .ite (.modify fun _ => rfl) (.refuse _)

theorem driveSink (sink : Option Nat) (level : Bool) : Counts x y res (driveSink sink level) := by
  cases sink with
  | none => exact .pure _
  | some id => exact .ite (plicRaise id) (plicLower id)

theorem plicRead (r : PlicReg) : Counts x y res (plicRead r) := by
  unfold Machine.plicRead
  refine .get_bind (fun _ => rfl) fun s => ?_
  cases r <;> dsimp only
  case pendLo => exact .pure _
  case pendHi => exact .pure _
  case claim => exact .ite (.ite (.bind (.modify fun _ => rfl) fun _ => .pure _) (.pure _)) (.refuse _)
  all_goals exact .ite (.pure _) (.refuse _)

theorem plicWrite (r : PlicReg) (v : Word32) : Counts x y res (plicWrite r v) := by
  unfold Machine.plicWrite
  refine .get_bind (fun _ => rfl) fun s => ?_
  cases r <;> dsimp only
  case pendLo => exact .refuse _
  case pendHi => exact .refuse _
  all_goals exact .ite (.modify fun _ => rfl) (.refuse _)

theorem clintRead (r : ClintReg) : Counts x y res (clintRead r) := by
  unfold Machine.clintRead
  refine .get_bind (fun _ => rfl) fun s => ?_
  cases r <;> dsimp only
  case mtime => exact .pure _
  all_goals exact .ite (.pure _) (.refuse _)

theorem clintWrite (r : ClintReg) (v : Word) : Counts x y res (clintWrite r v) := by
  unfold Machine.clintWrite
  refine .get_bind (fun _ => rfl) fun s => ?_
  cases r <;> dsimp only
  case mtime => exact .modify fun _ => rfl
  all_goals exact .ite (.modify fun _ => rfl) (.refuse _)

/-! ## UART, timer, ROM, DMA registers -/

theorem getUart (k : Nat) : Counts x y res (getUart k) := .get_bind (fun _ => rfl) fun _ => .need _ _

theorem updateUartIrq (k : Nat) : Counts x y res (updateUartIrq k) :=
  .bind (getUart k) fun _ => .get_bind (fun _ => rfl) fun _ =>
    .ite (.bind (.modify fun _ => rfl) fun _ => driveSink _ _) (.pure _)

theorem uartRead (k : Nat) (r : UartReg) : Counts x y res (uartRead k r) := by
  unfold Machine.uartRead
  refine .bind (getUart k) fun u => ?_
  cases r <;> dsimp only
  case data => exact .bind (.modify fun _ => rfl) fun _ => .bind (updateUartIrq k) fun _ => .pure _
  all_goals exact .pure _

theorem uartWrite (k : Nat) (r : UartReg) (v : Word32) : Counts x y res (uartWrite k r v) := by
  unfold Machine.uartWrite
  refine .bind (getUart k) fun u => ?_
  cases r <;> dsimp only
  case data => exact .modify fun _ => rfl
  case status => exact .refuse _
  case ctrl => exact .bind (.modify fun _ => rfl) fun _ => updateUartIrq k

theorem getTimer (k : Nat) : Counts x y res (getTimer k) := .get_bind (fun _ => rfl) fun _ => .need _ _

theorem updateTimerIrq (k : Nat) : Counts x y res (updateTimerIrq k) :=
  .bind (getTimer k) fun _ => .get_bind (fun _ => rfl) fun _ =>
    .ite (.bind (.modify fun _ => rfl) fun _ => driveSink _ _) (.pure _)

theorem timerRead (k : Nat) (r : TimerReg) : Counts x y res (timerRead k r) := .bind (getTimer k) fun _ => .pure _

theorem timerWrite (k : Nat) (r : TimerReg) (v : Word32) : Counts x y res (timerWrite k r v) :=
  .bind (getTimer k) fun _ => .bind (.modify fun _ => rfl) fun _ => updateTimerIrq k

theorem getRom (k : Nat) : Counts x y res (getRom k) := .get_bind (fun _ => rfl) fun _ => .need _ _

theorem romRead (k off width : Nat) : Counts x y res (romRead k off width) :=
  .bind (getRom k) fun _ => .ite (.pure _) (.refuse _)

theorem romWrite (k off : Nat) (bs : List Byte) : Counts x y res (romWrite k off bs) := by
  unfold Machine.romWrite
  refine .bind (getRom k) fun _ => .get_bind (fun _ => rfl) fun u => .ite ?_ (.refuse _)
  cases u.cfg.roms[k]? with
  | none => exact .refuse _
  | some c => exact .ite (.raise _) (.pure _)

theorem getDma (k : Nat) : Counts x y res (getDma k) := .get_bind (fun _ => rfl) fun _ => .need _ _

theorem modifyDma (k : Nat) (f : Dma → Dma) : Counts x y res (modifyDma k f) := .modify fun _ => rfl

theorem updateDmaIrq (k : Nat) : Counts x y res (updateDmaIrq k) :=
  .bind (getDma k) fun _ => .get_bind (fun _ => rfl) fun _ =>
    .ite (.bind (modifyDma k _) fun _ => driveSink _ _) (.pure _)

theorem dmaRead (k : Nat) (r : DmaReg) : Counts x y res (dmaRead k r) := .bind (getDma k) fun _ => .pure _

theorem noRow (d : DevRef) (off width : Nat) : Counts x y res (noRow d off width) := by
  unfold Machine.noRow
  refine .get_bind (fun _ => rfl) fun u => ?_
  cases d <;> dsimp only
  case uart k => exact .ite (.bind (.need _ _) fun _ => .raise _) (.refuse _)
  all_goals exact .refuse _

theorem deviceRead (d : DevRef) (off width : Nat) : Counts x y res (deviceRead d off width) := by
  unfold Machine.deviceRead
  refine .get_bind (fun _ => rfl) fun u => ?_
  cases d <;> dsimp only
  case rom k => exact romRead k off width
  all_goals split
  any_goals exact .bind (noRow _ _ _) fun _ => .pure _
  · exact plicRead _
  · exact clintRead _
  · exact uartRead _ _
  · exact timerRead _ _
  · exact dmaRead _ _

/-! ## Transfers -/

variable {ctrl : Nat → Word32 → Op Unit} (hc : ∀ k v, Counts x y res (ctrl k v))

include hc in
theorem deviceWriteWith (d : DevRef) (off : Nat) (bs : List Byte) : Counts x y res (deviceWriteWith ctrl d off bs) := by
  unfold Machine.deviceWriteWith
  refine .get_bind (fun _ => rfl) fun u => ?_
  cases d <;> dsimp only
  case rom k => exact romWrite k off bs
  all_goals split
  any_goals exact noRow _ _ _
  · exact plicWrite _ _
  · exact clintWrite _ _
  · exact uartWrite _ _ _
  · exact timerWrite _ _ _
  · unfold Machine.dmaWriteWith
    refine .bind (getDma _) fun _ => ?_
    split
    · exact hc _ _
    · exact .bind (modifyDma _ _) fun _ => updateDmaIrq _
    · exact modifyDma _ _

theorem chunkCheck (r : Region) (a width : Nat) : Counts x y res (chunkCheck r a width) := by
  unfold Machine.chunkCheck
  refine .get_bind (fun _ => rfl) fun u => ?_
  cases r.kind with
  | ram off => exact .pure _
  | mmio d caps => exact .ite (.raise _) (.pure _)

theorem chunkRead (r : Region) (a width : Nat) : Counts x y res (chunkRead r a width) := by
  unfold Machine.chunkRead
  cases r.kind with
  | ram off => exact dramRead _ _
  | mmio d caps => exact deviceRead d _ _

include hc in
theorem chunkWriteWith (r : Region) (a : Nat) (bs : List Byte) : Counts x y res (chunkWriteWith ctrl r a bs) := by
  unfold Machine.chunkWriteWith
  cases r.kind with
  | ram off => exact dramWrite _ _
  | mmio d caps => exact deviceWriteWith hc d _ _

theorem decodeAddress (a : Nat) : Counts x y res (decodeAddress a) := by
  unfold Machine.decodeAddress
  refine .get_bind (fun _ => rfl) fun u => .ite (.bind (.raise _) fun _ => ?_) ?_
  all_goals cases u.bus.find a with
    | none => exact .raise _
    | some r => exact .pure _

theorem readChunks (fuel a n : Nat) : Counts x y res (readChunks fuel a n) := by
  induction fuel generalizing a n with
  | zero => exact .pure _
  | succ fuel ih =>
    cases n with
    | zero => exact .pure _
    | succ n =>
      exact .bind (.countFault (decodeAddress a)) fun r =>
        .bind (.countFault (.bind (chunkCheck r a _) fun _ => chunkRead r a _)) fun bs =>
          .bind (.modify fun _ => rfl) fun _ => .bind (ih _ _) fun _ => .pure _

theorem busRead (pa n : Nat) : Counts x y res (busRead pa n) :=
  .bind (.modify fun s => by simp [State.counted, Nat.add_right_comm]) fun _ => readChunks n pa n

include hc in
theorem writeChunks (fuel a : Nat) (bs : List Byte) : Counts x y res (writeChunks ctrl fuel a bs) := by
  induction fuel generalizing a bs with
  | zero => exact .pure _
  | succ fuel ih =>
    cases bs with
    | nil => exact .pure _
    | cons b bs =>
      exact .bind (.countFault (decodeAddress a)) fun r =>
        .bind (.countFault (.bind (chunkCheck r a _) fun _ => chunkWriteWith hc r a _)) fun _ =>
          .bind (.modify fun _ => rfl) fun _ => ih _ _

include hc in
theorem busWriteWith (pa : Nat) (bs : List Byte) : Counts x y res (busWriteWith ctrl pa bs) :=
  .bind (.modify fun s => by simp [State.counted, Nat.add_right_comm]) fun _ => writeChunks hc _ _ _

include hc in
theorem dmaLoop (k fuel done : Nat) : Counts x y res (dmaLoop ctrl k fuel done) := by
  induction fuel generalizing done with
  | zero => exact .pure _
  | succ fuel ih =>
    refine .bind (getDma k) fun d => .ite ?_ (.pure _)
    refine .bind (.attempt (.bind (busRead _ _) fun _ => .bind (getDma k) fun _ => busWriteWith hc _ _)) fun e => ?_
    cases e with
    | some e => exact .pure _
    | none => exact ih _

include hc in
theorem dmaCtrlWith (k : Nat) (v : Word32) : Counts x y res (dmaCtrlWith ctrl k v) := by
  unfold Machine.dmaCtrlWith
  refine .bind (modifyDma k _) fun _ => ?_
  have last : Counts x y res (Machine.updateDmaIrq k) := updateDmaIrq k
  split
  · refine .bind (modifyDma k _) fun _ => .bind (getDma k) fun d => .get_bind (fun _ => rfl) fun s =>
      .bind (.need _ _) fun c => ?_
    dsimp only
    have go : Counts x y res (do
        let ok ← Machine.dmaLoop ctrl k (2 ^ 32) 0
        if ok = true then Machine.modifyDma k fun d => { d with done := true, busy := false }
        else Machine.modifyDma k fun d => { d with err := true, busy := false }
        Machine.updateDmaIrq k : Op Unit) :=
      .bind (dmaLoop hc k _ 0) fun ok => .ite (.bind (modifyDma k _) fun _ => last) (.bind (modifyDma k _) fun _ => last)
    exact .ite (.bind (modifyDma k _) fun _ => last) (.ite (.bind (.refuse _) fun _ => go) go)
  · exact last

theorem dmaCtrl (nest k : Nat) (v : Word32) : Counts x y res (dmaCtrl nest k v) := by
  induction nest generalizing k v with
  | zero => exact .refuse _
  | succ nest ih => exact dmaCtrlWith ih k v

theorem busWrite (pa : Nat) (bs : List Byte) : Counts x y res (busWrite pa bs) := busWriteWith (dmaCtrl _) pa bs

end Counts

end Sys2Proof.Machine
end

