-- ==== Sys2Proof/Laws/Frame.lean ====
section
/-! SUPPORT. What each shared operation leaves unchanged, however it ends: one lemma per operation. -/

namespace Sys2Proof.Machine

/-- Nothing but what a bus transfer reaches (DRAM, the bus itself, the PLIC, the CLINT, the UARTs, the timers and the
DMA engines) differs. -/
def BusFrame (s t : State) : Prop :=
  t.cfg = s.cfg ∧ t.mmu = s.mmu ∧ t.cache = s.cache ∧ t.cpu = s.cpu ∧ t.roms = s.roms ∧ t.draws = s.draws ∧
    t.calls = s.calls ∧ t.result = s.result

/-- Nothing but what a cache operation reaches (the cache, and what a bus transfer reaches) differs. -/
def CacheFrame (s t : State) : Prop :=
  t.cfg = s.cfg ∧ t.mmu = s.mmu ∧ t.cpu = s.cpu ∧ t.roms = s.roms ∧ t.draws = s.draws ∧ t.calls = s.calls ∧
    t.result = s.result

/-- Nothing but the MMU and the count of drawn frames differs. -/
def MmuFrame (s t : State) : Prop :=
  t.cfg = s.cfg ∧ t.dram = s.dram ∧ t.bus = s.bus ∧ t.cache = s.cache ∧ t.cpu = s.cpu ∧ t.plic = s.plic ∧
    t.clint = s.clint ∧ t.uarts = s.uarts ∧ t.timers = s.timers ∧ t.dmas = s.dmas ∧ t.roms = s.roms ∧
    t.calls = s.calls ∧ t.result = s.result

/-- Nothing but what a CPU access reaches (the MMU, the write-combining buffer, and what a cache operation reaches)
differs. -/
def AccessFrame (s t : State) : Prop :=
  t.cfg = s.cfg ∧ t.cpu.csr = s.cpu.csr ∧ t.cpu.plicAttach = s.cpu.plicAttach ∧
    t.cpu.clintAttach = s.cpu.clintAttach ∧ t.roms = s.roms ∧ t.calls = s.calls ∧ t.result = s.result

theorem BusFrame.cache {s t : State} (h : BusFrame s t) : CacheFrame s t := by
  obtain ⟨h1, h2, -, h4, h5, h6, h7, h8⟩ := h
  exact ⟨h1, h2, h4, h5, h6, h7, h8⟩

theorem CacheFrame.access {s t : State} (h : CacheFrame s t) : AccessFrame s t := by
  obtain ⟨h1, -, h4, h5, -, h7, h8⟩ := h
  exact ⟨h1, by rw [h4], by rw [h4], by rw [h4], h5, h7, h8⟩

theorem MmuFrame.access {s t : State} (h : MmuFrame s t) : AccessFrame s t := by
  obtain ⟨h1, -, -, -, h4, -, -, -, -, -, h5, h7, h8⟩ := h
  exact ⟨h1, by rw [h4], by rw [h4], by rw [h4], h5, h7, h8⟩

theorem BusFrame.refl (s : State) : BusFrame s s := ⟨rfl, rfl, rfl, rfl, rfl, rfl, rfl, rfl⟩

theorem CacheFrame.refl (s : State) : CacheFrame s s := (BusFrame.refl s).cache

theorem AccessFrame.refl (s : State) : AccessFrame s s := (CacheFrame.refl s).access

theorem BusFrame.trans {s t u : State} (h : BusFrame s t) (g : BusFrame t u) : BusFrame s u := by
  unfold BusFrame at *
  simp_all

theorem CacheFrame.trans {s t u : State} (h : CacheFrame s t) (g : CacheFrame t u) : CacheFrame s u := by
  unfold CacheFrame at *
  simp_all

theorem AccessFrame.trans {s t u : State} (h : AccessFrame s t) (g : AccessFrame t u) : AccessFrame s u := by
  unfold AccessFrame at *
  simp_all

variable {s : State} {α : Type}

/-! ## Devices -/

theorem plicRaise_frame (id : Nat) : Keeps (BusFrame s) (plicRaise id) := by
  unfold plicRaise
  exact .bind .get fun _ => .ite (fun _ => .modify fun _ h => h) fun _ => .refuse _

theorem plicLower_frame (id : Nat) : Keeps (BusFrame s) (plicLower id) := by
  unfold plicLower
  exact .bind .get fun _ => .ite (fun _ => .modify fun _ h => h) fun _ => .refuse _

theorem plicContextIrq_frame {P : State → Prop} (c : Nat) : Keeps P (plicContextIrq c) := by
  unfold plicContextIrq
  exact .bind .get fun _ => .ite (fun _ => .pure _) fun _ => .refuse _

theorem driveSink_frame (sink : Option Nat) (level : Bool) : Keeps (BusFrame s) (driveSink sink level) := by
  unfold driveSink
  cases sink with
  | none => exact .pure _
  | some id => exact .ite (fun _ => plicRaise_frame id) fun _ => plicLower_frame id

theorem plicRead_frame (r : PlicReg) : Keeps (BusFrame s) (plicRead r) := by
  unfold plicRead
  refine .bind .get fun u => ?_
  cases r <;> dsimp only
  case prio => exact .ite (fun _ => .pure _) fun _ => .refuse _
  case pendLo => exact .pure _
  case pendHi => exact .pure _
  case enableLo => exact .ite (fun _ => .pure _) fun _ => .refuse _
  case enableHi => exact .ite (fun _ => .pure _) fun _ => .refuse _
  case threshold => exact .ite (fun _ => .pure _) fun _ => .refuse _
  case claim =>
    exact .ite (fun _ => .ite (fun _ => .bind (.modify fun _ h => h) fun _ => .pure _) fun _ => .pure _) fun _ => .refuse _

theorem plicWrite_frame (r : PlicReg) (v : Word32) : Keeps (BusFrame s) (plicWrite r v) := by
  unfold plicWrite
  refine .bind .get fun u => ?_
  cases r <;> dsimp only
  case pendLo => exact .refuse _
  case pendHi => exact .refuse _
  all_goals exact .ite (fun _ => .modify fun _ h => h) fun _ => .refuse _

theorem clintRead_frame {P : State → Prop} (r : ClintReg) : Keeps P (clintRead r) := by
  unfold clintRead
  refine .bind .get fun u => ?_
  cases r <;> dsimp only
  case mtime => exact .pure _
  all_goals exact .ite (fun _ => .pure _) fun _ => .refuse _

theorem clintWrite_frame (r : ClintReg) (v : Word) : Keeps (BusFrame s) (clintWrite r v) := by
  unfold clintWrite
  refine .bind .get fun u => ?_
  cases r <;> dsimp only
  case mtime => exact .modify fun _ h => h
  all_goals exact .ite (fun _ => .modify fun _ h => h) fun _ => .refuse _

theorem getUart_frame {P : State → Prop} (k : Nat) : Keeps P (getUart k) := by
  unfold getUart
  exact .bind .get fun _ => .need _ _

theorem modifyUart_frame (k : Nat) (f : Uart → Uart) : Keeps (BusFrame s) (modifyUart k f) := .modify fun _ h => h

theorem updateUartIrq_frame (k : Nat) : Keeps (BusFrame s) (updateUartIrq k) := by
  unfold updateUartIrq
  exact .bind (getUart_frame k) fun _ => .bind .get fun _ =>
    .ite (fun _ => .bind (modifyUart_frame k _) fun _ => driveSink_frame _ _) fun _ => .pure _

theorem uartRead_frame (k : Nat) (r : UartReg) : Keeps (BusFrame s) (uartRead k r) := by
  unfold uartRead
  refine .bind (getUart_frame k) fun u => ?_
  cases r <;> dsimp only
  case data => exact .bind (modifyUart_frame k _) fun _ => .bind (updateUartIrq_frame k) fun _ => .pure _
  all_goals exact .pure _

theorem uartWrite_frame (k : Nat) (r : UartReg) (v : Word32) : Keeps (BusFrame s) (uartWrite k r v) := by
  unfold uartWrite
  refine .bind (getUart_frame k) fun u => ?_
  cases r <;> dsimp only
  case data => exact modifyUart_frame k _
  case status => exact .refuse _
  case ctrl => exact .bind (modifyUart_frame k _) fun _ => updateUartIrq_frame k

theorem getTimer_frame {P : State → Prop} (k : Nat) : Keeps P (getTimer k) := by
  unfold getTimer
  exact .bind .get fun _ => .need _ _

theorem modifyTimer_frame (k : Nat) (f : Timer → Timer) : Keeps (BusFrame s) (modifyTimer k f) := .modify fun _ h => h

theorem updateTimerIrq_frame (k : Nat) : Keeps (BusFrame s) (updateTimerIrq k) := by
  unfold updateTimerIrq
  exact .bind (getTimer_frame k) fun _ => .bind .get fun _ =>
    .ite (fun _ => .bind (modifyTimer_frame k _) fun _ => driveSink_frame _ _) fun _ => .pure _

theorem timerRead_frame {P : State → Prop} (k : Nat) (r : TimerReg) : Keeps P (timerRead k r) := by
  unfold timerRead
  exact .bind (getTimer_frame k) fun _ => .pure _

theorem timerWrite_frame (k : Nat) (r : TimerReg) (v : Word32) : Keeps (BusFrame s) (timerWrite k r v) := by
  unfold timerWrite
  exact .bind (getTimer_frame k) fun _ => .bind (modifyTimer_frame k _) fun _ => updateTimerIrq_frame k

theorem getRom_frame {P : State → Prop} (k : Nat) : Keeps P (getRom k) := by
  unfold getRom
  exact .bind .get fun _ => .need _ _

theorem romRead_frame {P : State → Prop} (k off width : Nat) : Keeps P (romRead k off width) := by
  unfold romRead
  exact .bind (getRom_frame k) fun _ => .ite (fun _ => .pure _) fun _ => .refuse _

theorem romWrite_frame {P : State → Prop} (k off : Nat) (bs : List Byte) : Keeps P (romWrite k off bs) := by
  unfold romWrite
  refine .bind (getRom_frame k) fun _ => .bind .get fun u => .ite (fun _ => ?_) fun _ => .refuse _
  cases u.cfg.roms[k]? with
  | none => exact .refuse _
  | some c => exact .ite (fun _ => .raise _) fun _ => .pure _

/-! ## DRAM and bus -/

theorem dramBounds_frame (addr n : Nat) : Keeps (BusFrame s) (dramBounds addr n) := by
  unfold dramBounds
  exact .bind .get fun _ => .ite (fun _ => .bind (.modify fun _ h => h) fun _ => .raise _) fun _ => .pure _

theorem dramRead_frame (addr n : Nat) : Keeps (BusFrame s) (dramRead addr n) := by
  unfold dramRead
  exact .bind (dramBounds_frame addr n) fun _ => .bind .get fun _ => .pure _

theorem dramWrite_frame (addr : Nat) (bs : List Byte) : Keeps (BusFrame s) (dramWrite addr bs) := by
  unfold dramWrite
  exact .bind (dramBounds_frame addr _) fun _ => .bind .get fun _ => .modify fun _ h => h

theorem noRow_frame {P : State → Prop} (d : DevRef) (off width : Nat) : Keeps P (noRow d off width) := by
  unfold noRow
  refine .bind .get fun u => ?_
  cases d <;> dsimp only
  case uart k => exact .ite (fun _ => .bind (.need _ _) fun _ => .raise _) fun _ => .refuse _
  all_goals exact .refuse _

theorem getDma_frame {P : State → Prop} (k : Nat) : Keeps P (getDma k) := by
  unfold getDma
  exact .bind .get fun _ => .need _ _

theorem modifyDma_frame (k : Nat) (f : Dma → Dma) : Keeps (BusFrame s) (modifyDma k f) := .modify fun _ h => h

theorem updateDmaIrq_frame (k : Nat) : Keeps (BusFrame s) (updateDmaIrq k) := by
  unfold updateDmaIrq
  exact .bind (getDma_frame k) fun _ => .bind .get fun _ =>
    .ite (fun _ => .bind (modifyDma_frame k _) fun _ => driveSink_frame _ _) fun _ => .pure _

theorem dmaRead_frame {P : State → Prop} (k : Nat) (r : DmaReg) : Keeps P (dmaRead k r) := by
  unfold dmaRead
  exact .bind (getDma_frame k) fun _ => .pure _

theorem deviceRead_frame (d : DevRef) (off width : Nat) : Keeps (BusFrame s) (deviceRead d off width) := by
  unfold deviceRead
  refine .bind .get fun u => ?_
  cases d <;> dsimp only
  case plic =>
    split
    · exact plicRead_frame _
    · exact .bind (noRow_frame _ _ _) fun _ => .pure _
  case clint =>
    split
    · exact clintRead_frame _
    · exact .bind (noRow_frame _ _ _) fun _ => .pure _
  case uart k =>
    split
    · exact uartRead_frame k _
    · exact .bind (noRow_frame _ _ _) fun _ => .pure _
  case timer k =>
    split
    · exact timerRead_frame k _
    · exact .bind (noRow_frame _ _ _) fun _ => .pure _
  case dma k =>
    split
    · exact dmaRead_frame k _
    · exact .bind (noRow_frame _ _ _) fun _ => .pure _
  case rom k => exact romRead_frame k off width

theorem dmaWriteWith_frame {ctrl : Nat → Word32 → Op Unit} (hc : ∀ k v, Keeps (BusFrame s) (ctrl k v)) (k : Nat)
    (r : DmaReg) (v : Word32) : Keeps (BusFrame s) (dmaWriteWith ctrl k r v) := by
  unfold dmaWriteWith
  refine .bind (getDma_frame k) fun _ => ?_
  cases r <;> dsimp only
  case ctrl => exact hc k v
  case status => exact .bind (modifyDma_frame k _) fun _ => updateDmaIrq_frame k
  all_goals exact modifyDma_frame k _

theorem deviceWriteWith_frame {ctrl : Nat → Word32 → Op Unit} (hc : ∀ k v, Keeps (BusFrame s) (ctrl k v)) (d : DevRef)
    (off : Nat) (bs : List Byte) : Keeps (BusFrame s) (deviceWriteWith ctrl d off bs) := by
  unfold deviceWriteWith
  refine .bind .get fun u => ?_
  cases d <;> dsimp only
  case plic =>
    split
    · exact plicWrite_frame _ _
    · exact noRow_frame _ _ _
  case clint =>
    split
    · exact clintWrite_frame _ _
    · exact noRow_frame _ _ _
  case uart k =>
    split
    · exact uartWrite_frame k _ _
    · exact noRow_frame _ _ _
  case timer k =>
    split
    · exact timerWrite_frame k _ _
    · exact noRow_frame _ _ _
  case dma k =>
    split
    · exact dmaWriteWith_frame hc k _ _
    · exact noRow_frame _ _ _
  case rom k => exact romWrite_frame k off bs

theorem chunkCheck_frame {P : State → Prop} (r : Region) (a width : Nat) : Keeps P (chunkCheck r a width) := by
  unfold chunkCheck
  refine .bind .get fun u => ?_
  cases r.kind with
  | ram off => exact .pure _
  | mmio d caps => exact .ite (fun _ => .raise _) fun _ => .pure _

theorem chunkRead_frame (r : Region) (a width : Nat) : Keeps (BusFrame s) (chunkRead r a width) := by
  unfold chunkRead
  cases r.kind with
  | ram off => exact dramRead_frame _ _
  | mmio d caps => exact deviceRead_frame d _ _

theorem chunkWriteWith_frame {ctrl : Nat → Word32 → Op Unit} (hc : ∀ k v, Keeps (BusFrame s) (ctrl k v)) (r : Region)
    (a : Nat) (bs : List Byte) : Keeps (BusFrame s) (chunkWriteWith ctrl r a bs) := by
  unfold chunkWriteWith
  cases r.kind with
  | ram off => exact dramWrite_frame _ _
  | mmio d caps => exact deviceWriteWith_frame hc d _ _

theorem decodeAddress_frame {P : State → Prop} (a : Nat) : Keeps P (decodeAddress a) := by
  unfold decodeAddress
  refine .bind .get fun u => .ite (fun _ => .bind (.raise _) fun _ => ?_) fun _ => ?_
  all_goals cases u.bus.find a with
    | none => exact .raise _
    | some r => exact .pure _

/-- Counting a fault keeps what an operation and one more fault keep. -/
theorem Keeps.countFault {P : State → Prop} {m : Op α} (h : Keeps P m)
    (hf : ∀ t, P t → P { t with bus := { t.bus with faults := t.bus.faults + 1 } }) : Keeps P (countFault m) := by
  intro t ht
  have := h t ht
  unfold Machine.countFault
  cases hm : m t with
  | ok a u => simpa [hm] using this
  | error e u => cases e <;> simp only [hm] at this ⊢ <;> first | exact hf _ this | exact this

theorem readChunks_frame (fuel a n : Nat) : Keeps (BusFrame s) (readChunks fuel a n) := by
  induction fuel generalizing a n with
  | zero => exact .pure _
  | succ fuel ih =>
    cases n with
    | zero => exact .pure _
    | succ n =>
      exact .bind (.countFault (decodeAddress_frame a) fun _ h => h) fun r =>
        .bind (.countFault (.bind (chunkCheck_frame r a _) fun _ => chunkRead_frame r a _) fun _ h => h) fun bs =>
          .bind (.modify fun _ h => h) fun _ => .bind (ih _ _) fun _ => .pure _

/-- A bus read moves nothing outside what a bus transfer reaches (R181, R182). -/
theorem busRead_frame (pa n : Nat) : Keeps (BusFrame s) (busRead pa n) := by
  unfold busRead
  exact .bind (.modify fun _ h => h) fun _ => readChunks_frame n pa n

theorem writeChunks_frame {ctrl : Nat → Word32 → Op Unit} (hc : ∀ k v, Keeps (BusFrame s) (ctrl k v)) (fuel a : Nat)
    (bs : List Byte) : Keeps (BusFrame s) (writeChunks ctrl fuel a bs) := by
  induction fuel generalizing a bs with
  | zero => exact .pure _
  | succ fuel ih =>
    cases bs with
    | nil => exact .pure _
    | cons b bs =>
      exact .bind (.countFault (decodeAddress_frame a) fun _ h => h) fun r =>
        .bind (.countFault (.bind (chunkCheck_frame r a _) fun _ => chunkWriteWith_frame hc r a _) fun _ h => h)
          fun _ => .bind (.modify fun _ h => h) fun _ => ih _ _

theorem busWriteWith_frame {ctrl : Nat → Word32 → Op Unit} (hc : ∀ k v, Keeps (BusFrame s) (ctrl k v)) (pa : Nat)
    (bs : List Byte) : Keeps (BusFrame s) (busWriteWith ctrl pa bs) := by
  unfold busWriteWith
  exact .bind (.modify fun _ h => h) fun _ => writeChunks_frame hc _ _ _

theorem dmaLoop_frame {ctrl : Nat → Word32 → Op Unit} (hc : ∀ k v, Keeps (BusFrame s) (ctrl k v)) (k fuel done : Nat) :
    Keeps (BusFrame s) (dmaLoop ctrl k fuel done) := by
  induction fuel generalizing done with
  | zero => exact .pure _
  | succ fuel ih =>
    refine .bind (getDma_frame k) fun d => .ite (fun _ => ?_) fun _ => .pure _
    refine .bind (.attempt (.bind (busRead_frame _ _) fun _ => .bind (getDma_frame k) fun _ =>
      busWriteWith_frame hc _ _)) fun e => ?_
    cases e with
    | none => exact ih _
    | some e => exact .pure _

theorem dmaCtrlWith_frame {ctrl : Nat → Word32 → Op Unit} (hc : ∀ k v, Keeps (BusFrame s) (ctrl k v)) (k : Nat)
    (v : Word32) : Keeps (BusFrame s) (dmaCtrlWith ctrl k v) := by
  unfold dmaCtrlWith
  refine .bind (modifyDma_frame k _) fun _ => .ite (fun _ => ?_) fun _ => updateDmaIrq_frame k
  refine .bind (modifyDma_frame k _) fun _ => .bind (getDma_frame k) fun d => .bind .get fun u =>
    .bind (.need _ _) fun c => .ite (fun _ => .bind (modifyDma_frame k _) fun _ => updateDmaIrq_frame k) fun _ => ?_
  refine .ite (fun _ => .bind (.refuse _) fun _ => ?_) fun _ => ?_
  all_goals
    refine .bind (dmaLoop_frame hc k _ _) fun ok => .ite (fun _ => ?_) fun _ => ?_
    all_goals exact .bind (modifyDma_frame k _) fun _ => updateDmaIrq_frame k

theorem dmaCtrl_frame (nest k : Nat) (v : Word32) : Keeps (BusFrame s) (dmaCtrl nest k v) := by
  induction nest generalizing k v with
  | zero => exact .refuse _
  | succ nest ih => exact dmaCtrlWith_frame ih k v

theorem dmaCtrlWrite_frame (k : Nat) (v : Word32) : Keeps (BusFrame s) (dmaCtrlWrite k v) := dmaCtrl_frame _ k v

theorem dmaWrite_frame (k : Nat) (r : DmaReg) (v : Word32) : Keeps (BusFrame s) (dmaWrite k r v) :=
  dmaWriteWith_frame dmaCtrlWrite_frame k r v

/-- A bus write moves nothing outside what a bus transfer reaches (R181, R183). -/
theorem busWrite_frame (pa : Nat) (bs : List Byte) : Keeps (BusFrame s) (busWrite pa bs) :=
  busWriteWith_frame dmaCtrlWrite_frame pa bs

end Sys2Proof.Machine
end

