-- ==== Sys2Proof/Laws/CpuFrame.lean ====
section
/-! SUPPORT. What each shared operation of the cache, the MMU and the CPU leaves unchanged, however it ends. -/

namespace Sys2Proof.Machine

variable {s : State} {α : Type}

/-- What an operation that stays within a frame keeps: whatever the frame's relation carries over. -/
theorem Keeps.widen {R : State → State → Prop} {P : State → Prop} {m : Op α} (h : ∀ t, Keeps (R t) m)
    (refl : ∀ t, R t t) (imp : ∀ t u, P t → R t u → P u) : Keeps P m := by
  intro t ht
  have := h t t (refl t)
  cases hm : m t with
  | ok a u => exact imp t u ht (by simpa [hm] using this)
  | error e u => exact imp t u ht (by simpa [hm] using this)

/-! ## Cache -/

theorem busRead_cacheFrame (pa n : Nat) : Keeps (CacheFrame s) (busRead pa n) :=
  .widen (fun t => busRead_frame (s := t) pa n) BusFrame.refl fun _ _ h g => h.trans g.cache

theorem busWrite_cacheFrame (pa : Nat) (bs : List Byte) : Keeps (CacheFrame s) (busWrite pa bs) :=
  .widen (fun t => busWrite_frame (s := t) pa bs) BusFrame.refl fun _ _ h g => h.trans g.cache

theorem putLine_frame (l : Level) (q : Nat × Nat) (x : Line) : Keeps (CacheFrame s) (putLine l q x) :=
  .modify fun _ h => h

theorem invalidate_frame (l : Level) (q : Nat × Nat) : Keeps (CacheFrame s) (invalidate l q) := .modify fun _ h => h

theorem countAt_frame (l : Level) (f : CacheStats → CacheStats) : Keeps (CacheFrame s) (countAt l f) :=
  .modify fun _ h => h

theorem getLine_frame {P : State → Prop} (l : Level) (q : Nat × Nat) : Keeps P (getLine l q) := by
  unfold getLine
  exact .bind .get fun _ => .pure _

theorem nextStamp_frame : Keeps (CacheFrame s) nextStamp := by
  unfold nextStamp
  exact .bind (.modify fun _ h => h) fun _ => .bind .get fun _ => .pure _

theorem accessLine_frame (a : Nat) (l : Level) (w : Bool) : Keeps (CacheFrame s) (accessLine a l w) := by
  unfold accessLine
  refine .bind .get fun u => ?_
  split
  · exact .bind nextStamp_frame fun _ => .bind (getLine_frame _ _) fun _ => .bind (putLine_frame _ _ _) fun _ =>
      .bind (countAt_frame _ _) fun _ => .pure _
  · exact .bind (countAt_frame _ _) fun _ => .pure _

theorem markPresence_frame (l : Level) (b : Nat) (v : Bool) : Keeps (CacheFrame s) (markPresence l b v) := by
  unfold markPresence
  refine .bind .get fun u => ?_
  split
  · exact .pure _
  · split
    · exact putLine_frame _ _ _
    · exact .pure _

theorem installWith_frame {evict : Nat × Nat → Op Unit} (he : ∀ q, Keeps (CacheFrame s) (evict q)) (l : Level) (b : Nat)
    (d : List Byte) (w : Bool) : Keeps (CacheFrame s) (installWith evict l b d w) := by
  unfold installWith
  refine .bind .get fun u => .ite (fun _ => .bind (he _) fun _ => ?_) fun _ => ?_
  all_goals exact .bind nextStamp_frame fun _ => .bind (putLine_frame _ _ _) fun _ => .bind (countAt_frame _ _) fun _ =>
    markPresence_frame _ _ _

theorem takeChild_frame (c : Side) (q : Nat × Nat) (b : Nat) : Keeps (CacheFrame s) (takeChild c q b) := by
  unfold takeChild
  refine .bind .get fun u => ?_
  split
  · exact .pure _
  · refine .ite (fun _ => .bind (putLine_frame _ _ _) fun _ => .bind (countAt_frame _ _) fun _ => ?_) fun _ => ?_
    all_goals exact .bind (invalidate_frame _ _) fun _ => countAt_frame _ _

theorem drainChild_frame (c : Side) (q : Nat × Nat) (b : Nat) : Keeps (CacheFrame s) (drainChild c q b) :=
  .bind (getLine_frame _ _) fun _ => .ite (fun _ => .bind (takeChild_frame _ _ _) fun _ =>
    .bind (getLine_frame _ _) fun _ => putLine_frame _ _ _) fun _ => .pure _

theorem drainChildren_frame (q : Nat × Nat) (b : Nat) : Keeps (CacheFrame s) (drainChildren q b) :=
  .bind (drainChild_frame _ _ _) fun _ => drainChild_frame _ _ _

theorem takeL2Child_frame (q : Nat × Nat) (b : Nat) : Keeps (CacheFrame s) (takeL2Child q b) := by
  unfold takeL2Child
  refine .bind .get fun u => ?_
  split
  · exact .pure _
  · refine .bind (drainChildren_frame _ _) fun _ => .bind (getLine_frame _ _) fun x => ?_
    refine .ite (fun _ => .bind (getLine_frame _ _) fun _ => .bind (putLine_frame _ _ _) fun _ =>
      .bind (countAt_frame _ _) fun _ => ?_) fun _ => ?_
    all_goals exact .bind (invalidate_frame _ _) fun _ => countAt_frame _ _

theorem drainL2Child_frame (q : Nat × Nat) (b : Nat) : Keeps (CacheFrame s) (drainL2Child q b) :=
  .bind (takeL2Child_frame _ _) fun _ => .bind (getLine_frame _ _) fun _ => putLine_frame _ _ _

theorem writebackL3_frame (b : Nat) (d : List Byte) : Keeps (CacheFrame s) (writebackL3 b d) :=
  .bind (countAt_frame _ _) fun _ => .tagged _ _ (busWrite_cacheFrame _ _)

theorem evictL3_frame (q : Nat × Nat) : Keeps (CacheFrame s) (evictL3 q) := by
  unfold evictL3
  refine .bind (countAt_frame _ _) fun _ => .bind .get fun u =>
    .ite (fun _ => .bind (drainL2Child_frame _ _) fun _ => ?_) fun _ => ?_
  all_goals exact .bind (getLine_frame _ _) fun v => .ite (fun _ => .bind (writebackL3_frame _ _) fun _ =>
    .bind (getLine_frame _ _) fun _ => putLine_frame _ _ _) fun _ => .pure _

theorem writeParent_frame {install : Nat → List Byte → Bool → Op Unit}
    (hi : ∀ b d w, Keeps (CacheFrame s) (install b d w)) (p : Level) (b : Nat) (d : List Byte) :
    Keeps (CacheFrame s) (writeParent install p b d) := by
  unfold writeParent
  refine .bind .get fun u => ?_
  split
  · exact .bind nextStamp_frame fun _ => .bind (getLine_frame _ _) fun _ => putLine_frame _ _ _
  · exact hi _ _ _

theorem installL3_frame (b : Nat) (d : List Byte) (w : Bool) : Keeps (CacheFrame s) (installL3 b d w) :=
  installWith_frame evictL3_frame _ _ _ _

theorem writebackL2_frame (b : Nat) (d : List Byte) : Keeps (CacheFrame s) (writebackL2 b d) :=
  .bind (countAt_frame _ _) fun _ => writeParent_frame installL3_frame _ _ _

theorem evictL2_frame (q : Nat × Nat) : Keeps (CacheFrame s) (evictL2 q) := by
  unfold evictL2
  refine .bind (countAt_frame _ _) fun _ => .bind .get fun u => .bind (drainChildren_frame _ _) fun _ =>
    .bind (getLine_frame _ _) fun _ => .ite (fun _ => .bind (writebackL2_frame _ _) fun _ => ?_) fun _ => ?_
  all_goals exact markPresence_frame _ _ _

theorem installL2_frame (b : Nat) (d : List Byte) (w : Bool) : Keeps (CacheFrame s) (installL2 b d w) :=
  installWith_frame evictL2_frame _ _ _ _

theorem writebackL1_frame (c : Side) (b : Nat) (d : List Byte) : Keeps (CacheFrame s) (writebackL1 c b d) :=
  .bind (countAt_frame _ _) fun _ => .bind (writeParent_frame installL2_frame _ _ _) fun _ => markPresence_frame _ _ _

theorem evictL1_frame (c : Side) (q : Nat × Nat) : Keeps (CacheFrame s) (evictL1 c q) := by
  unfold evictL1
  refine .bind (countAt_frame _ _) fun _ => .bind .get fun u =>
    .ite (fun _ => .bind (writebackL1_frame _ _ _) fun _ => ?_) fun _ => ?_
  all_goals exact markPresence_frame _ _ _

theorem installL1_frame (c : Side) (b : Nat) (d : List Byte) (w : Bool) : Keeps (CacheFrame s) (installL1 c b d w) :=
  installWith_frame (evictL1_frame c) _ _ _ _

theorem handleEviction_frame (l : Level) (q : Nat × Nat) : Keeps (CacheFrame s) (handleEviction l q) := by
  cases l
  · exact evictL1_frame _ _
  · exact evictL1_frame _ _
  · exact evictL2_frame _
  · exact evictL3_frame _

theorem fetchLine_frame (l : Level) (b : Nat) : Keeps (CacheFrame s) (fetchLine l b) :=
  .bind .get fun _ => .tagged _ _ (busRead_cacheFrame _ _)

/-- A cache read moves nothing outside what a cache operation reaches (R256). -/
theorem cacheRead_frame (pa : Nat) (c : Side) : Keeps (CacheFrame s) (cacheRead pa c) := by
  unfold cacheRead
  refine .bind .get fun u => .bind (accessLine_frame _ _ _) fun r => ?_
  cases r with
  | some q => exact .bind (getLine_frame _ _) fun _ => .pure _
  | none =>
    refine .bind (accessLine_frame _ _ _) fun r => ?_
    cases r with
    | some q => exact .bind (getLine_frame _ _) fun _ => .bind (installL1_frame _ _ _ _) fun _ => .pure _
    | none =>
      refine .bind (accessLine_frame _ _ _) fun r => ?_
      cases r with
      | some q =>
        exact .bind (getLine_frame _ _) fun _ => .bind (installL2_frame _ _ _) fun _ =>
          .bind (installL1_frame _ _ _ _) fun _ => .pure _
      | none =>
        exact .bind (fetchLine_frame _ _) fun _ => .bind (installL3_frame _ _ _) fun _ =>
          .bind (installL2_frame _ _ _) fun _ => .bind (installL1_frame _ _ _ _) fun _ => .pure _

theorem cacheWriteChunk_frame (a : Nat) (bs : List Byte) (c : Side) : Keeps (CacheFrame s) (cacheWriteChunk a bs c) := by
  unfold cacheWriteChunk
  refine .bind (cacheRead_frame _ _) fun _ => .bind .get fun u => ?_
  split
  · exact putLine_frame _ _ _
  · exact .pure _

theorem cacheWriteLoop_frame (c : Side) (fuel a : Nat) (bs : List Byte) :
    Keeps (CacheFrame s) (cacheWriteLoop c fuel a bs) := by
  induction fuel generalizing a bs with
  | zero => exact .pure _
  | succ fuel ih =>
    cases bs with
    | nil => exact .pure _
    | cons b bs => exact .bind .get fun _ => .bind (cacheWriteChunk_frame _ _ _) fun _ => ih _ _

/-- A cache write moves nothing outside what a cache operation reaches (R257). -/
theorem cacheWrite_frame (pa : Nat) (bs : List Byte) (c : Side) : Keeps (CacheFrame s) (cacheWrite pa bs c) :=
  cacheWriteLoop_frame c _ _ _

theorem prefetchL3_frame (l : Level) (b : Nat) : Keeps (CacheFrame s) (prefetchL3 l b) := by
  unfold prefetchL3
  refine .bind .get fun u => ?_
  split
  · exact .pure _
  · exact .bind (fetchLine_frame _ _) fun _ => .bind (installL3_frame _ _ _) fun _ => .pure _

theorem prefetchL2_frame (l : Level) (b : Nat) : Keeps (CacheFrame s) (prefetchL2 l b) := by
  unfold prefetchL2
  refine .bind .get fun u => ?_
  split
  · exact .pure _
  · exact .bind (prefetchL3_frame _ _) fun _ => .bind (installL2_frame _ _ _) fun _ => .pure _

theorem prefetchInto_frame (l : Level) (b : Nat) : Keeps (CacheFrame s) (prefetchInto l b) := by
  cases l
  · exact .bind (prefetchL2_frame _ _) fun _ => installL1_frame _ _ _ _
  · exact .bind (prefetchL2_frame _ _) fun _ => installL1_frame _ _ _ _
  · exact .bind (prefetchL2_frame _ _) fun _ => .pure _
  · exact .bind (prefetchL3_frame _ _) fun _ => .pure _

/-- A prefetch moves nothing outside what a cache operation reaches (R259). -/
theorem prefetchLine_frame (l : Level) (a : Nat) : Keeps (CacheFrame s) (prefetchLine l a) := by
  unfold prefetchLine
  refine .bind .get fun u => ?_
  dsimp only
  split
  · exact .pure _
  · exact .bind (countAt_frame _ _) fun _ => prefetchInto_frame _ _

theorem flushSlot_frame (l : Level) (q : Nat × Nat) : Keeps (CacheFrame s) (flushSlot l q) :=
  .bind (handleEviction_frame _ _) fun _ => invalidate_frame _ _

/-- A flush of a line moves nothing outside what a cache operation reaches (R269). -/
theorem flushLine_frame (a : Nat) (l : Level) : Keeps (CacheFrame s) (flushLine a l) := by
  unfold flushLine
  refine .bind .get fun u => ?_
  split
  · exact flushSlot_frame _ _
  · exact .pure _

theorem flushSlots_frame (l : Level) (qs : List (Nat × Nat)) : Keeps (CacheFrame s) (flushSlots l qs) := by
  induction qs with
  | nil => exact .pure _
  | cons q qs ih =>
    unfold flushSlots
    refine .bind (getLine_frame _ _) fun x => .ite (fun _ => .bind (flushSlot_frame _ _) fun _ => ih) fun _ => ih

/-- A flush of a level moves nothing outside what a cache operation reaches (R270). -/
theorem flushAll_frame (l : Level) : Keeps (CacheFrame s) (flushAll l) :=
  .bind .get fun _ => .bind (flushSlots_frame _ _) fun _ => .modify fun _ h => h

/-! ## MMU -/

theorem modifyMmu_frame (f : Mmu → Mmu) : Keeps (MmuFrame s) (modifyMmu f) := .modify fun _ h => h

theorem physical_frame {P : State → Prop} (frame va : Nat) : Keeps P (physical frame va) := by
  unfold physical
  exact .bind .get fun _ => .ite (fun _ => .refuse _) fun _ => .pure _

/-- A translation moves nothing but the MMU (R210). -/
theorem translate_frame (va : Nat) : Keeps (MmuFrame s) (translate va) := by
  unfold translate
  refine .bind .get fun u => ?_
  dsimp only
  split
  · exact .bind (modifyMmu_frame _) fun _ => .bind (.need _ _) fun _ => .bind (physical_frame _ _) fun _ => .pure _
  · refine .bind (modifyMmu_frame _) fun _ => ?_
    split
    · exact .raise _
    · refine .ite (fun _ => .bind (.raise _) fun _ => ?_) fun _ => ?_
      all_goals
        exact .bind (modifyMmu_frame _) fun _ => .bind (modifyMmu_frame _) fun _ =>
          .bind (physical_frame _ _) fun _ => .pure _

theorem setDirty_frame (va : Nat) : Keeps (MmuFrame s) (setDirty va) := by
  unfold setDirty
  refine .bind .get fun u => ?_
  split
  · exact modifyMmu_frame _
  · exact .pure _

theorem allocFrame_frame : Keeps (MmuFrame s) allocFrame := by
  unfold allocFrame
  refine .bind .get fun u => ?_
  split
  · exact .raise _
  · exact .bind (.modify fun _ h => h) fun _ => .bind (modifyMmu_frame _) fun _ => .pure _

theorem mapPage_frame (vpn : Nat) (f : Option Nat) (p : Option Perm) (a : Option Nat) :
    Keeps (MmuFrame s) (mapPage vpn f p a) := by
  unfold mapPage
  refine .bind .get fun u => .bind (modifyMmu_frame _) fun _ => ?_
  cases f with
  | some f =>
    exact .bind (.pure _) fun _ => .bind (modifyMmu_frame _) fun _ => .bind (modifyMmu_frame _) fun _ => .pure _
  | none =>
    exact .bind allocFrame_frame fun _ => .bind (modifyMmu_frame _) fun _ => .bind (modifyMmu_frame _) fun _ => .pure _

theorem mappedPte_frame {P : State → Prop} (asid vpn : Nat) : Keeps P (mappedPte asid vpn) := by
  unfold mappedPte
  refine .bind .get fun u => ?_
  split
  · exact .pure _
  · exact .raise _

theorem unmapPage_frame (vpn : Nat) (a : Option Nat) : Keeps (MmuFrame s) (unmapPage vpn a) :=
  .bind .get fun _ => .bind (mappedPte_frame _ _) fun _ => .bind (modifyMmu_frame _) fun _ => modifyMmu_frame _

theorem setPageAttributes_frame (vpn : Nat) (at' : Attrs) (a : Option Nat) :
    Keeps (MmuFrame s) (setPageAttributes vpn at' a) :=
  .bind .get fun _ => .bind (mappedPte_frame _ _) fun _ => .bind (modifyMmu_frame _) fun _ => modifyMmu_frame _

theorem flushTlb_frame (a : Option Nat) : Keeps (MmuFrame s) (flushTlb a) := by
  unfold flushTlb
  cases a <;> exact .modify fun _ h => h

theorem checkAccess_frame (va : Nat) (k : AccessKind) : Keeps (MmuFrame s) (checkAccess va k) := by
  unfold checkAccess
  refine .bind (translate_frame va) fun r => ?_
  cases k <;> dsimp only
  · exact .pure _
  · exact .ite (fun _ => .bind (.raise _) fun _ => .pure _) fun _ => .pure _
  · exact .ite (fun _ => .bind (.raise _) fun _ => .pure _) fun _ => .pure _

/-! ## CPU accesses -/

theorem Keeps.access_of_mmu {m : Op α} (h : ∀ t, Keeps (MmuFrame t) m) : Keeps (AccessFrame s) m :=
  .widen h (fun _ => ⟨rfl, rfl, rfl, rfl, rfl, rfl, rfl, rfl, rfl, rfl, rfl, rfl, rfl⟩) fun _ _ h g => h.trans g.access

theorem Keeps.access_of_cache {m : Op α} (h : ∀ t, Keeps (CacheFrame t) m) : Keeps (AccessFrame s) m :=
  .widen h CacheFrame.refl fun _ _ h g => h.trans g.access

theorem Keeps.access_of_bus {m : Op α} (h : ∀ t, Keeps (BusFrame t) m) : Keeps (AccessFrame s) m :=
  .widen h BusFrame.refl fun _ _ h g => h.trans g.cache.access

theorem accessChecks_frame {P : State → Prop} (va size : Nat) : Keeps P (accessChecks va size) := by
  unfold accessChecks
  refine .bind .get fun u => .ite (fun _ => .bind (.refuse _) fun _ => ?_) fun _ => ?_
  all_goals
    refine .ite (fun _ => .bind (.refuse _) fun _ => ?_) fun _ => ?_
    all_goals exact .ite (fun _ => .refuse _) fun _ => .pure _

theorem cachedReadLoop_frame (c : Side) (fuel a n : Nat) : Keeps (CacheFrame s) (cachedReadLoop c fuel a n) := by
  induction fuel generalizing a n with
  | zero => exact .pure _
  | succ fuel ih =>
    cases n with
    | zero => exact .pure _
    | succ n => exact .bind .get fun _ => .bind (cacheRead_frame _ _) fun _ => .bind (ih _ _) fun _ => .pure _

theorem prefetchAfter_frame (pa : Nat) : Keeps (CacheFrame s) (prefetchAfter pa) := by
  unfold prefetchAfter
  exact .bind .get fun _ => .ite (fun _ => .ite (fun _ => prefetchLine_frame _ _) fun _ => .pure _) fun _ => .pure _

theorem readPath_frame (pa n : Nat) (p : Pte) (c : Side) : Keeps (CacheFrame s) (readPath pa n p c) := by
  unfold readPath
  exact .ite (fun _ => .bind (cachedReadLoop_frame _ _ _ _) fun _ => .bind (prefetchAfter_frame _) fun _ => .pure _)
    fun _ => busRead_cacheFrame _ _

theorem setWc_frame (w : WcBuffer) : Keeps (AccessFrame s) (setWc w) := .modify fun _ h => h

theorem busWrite_accessFrame (pa : Nat) (bs : List Byte) : Keeps (AccessFrame s) (busWrite pa bs) :=
  .access_of_bus fun _ => busWrite_frame pa bs

theorem wcFlush_frame : Keeps (AccessFrame s) wcFlush := by
  unfold wcFlush
  refine .bind .get fun u => ?_
  split
  · exact .pure _
  · exact .bind (setWc_frame _) fun _ => busWrite_accessFrame _ _

theorem wcPost_frame (pa : Nat) (bs : List Byte) : Keeps (AccessFrame s) (wcPost pa bs) := by
  unfold wcPost
  refine .bind .get fun u => ?_
  split
  · exact setWc_frame _
  · exact .ite (fun _ => setWc_frame _) fun _ => .bind wcFlush_frame fun _ => setWc_frame _

/-- A load moves nothing outside what a CPU access reaches (R314). -/
theorem load_frame (va size : Nat) (sg : Bool) : Keeps (AccessFrame s) (load va size sg) := by
  unfold load
  exact .bind (accessChecks_frame _ _) fun _ => .bind (.access_of_mmu fun _ => translate_frame va) fun r =>
    .bind (.access_of_cache fun _ => readPath_frame _ _ _ _) fun _ => .bind .get fun _ => .pure _

/-- A fetch moves nothing outside what a CPU access reaches (R313). -/
theorem fetch_frame (va size : Nat) : Keeps (AccessFrame s) (fetch va size) := by
  unfold fetch
  refine .bind (accessChecks_frame _ _) fun _ => .bind (.access_of_mmu fun _ => translate_frame va) fun r => ?_
  refine .ite (fun _ => .bind (.raise _) fun _ => ?_) fun _ => ?_
  all_goals exact .access_of_cache fun _ => readPath_frame _ _ _ _

theorem storePath_frame (va pa : Nat) (bs : List Byte) (p : Pte) : Keeps (AccessFrame s) (storePath va pa bs p) := by
  unfold storePath
  split
  · exact .bind wcFlush_frame fun _ => busWrite_accessFrame _ _
  · exact wcPost_frame _ _
  · refine .ite (fun _ => ?_) fun _ => ?_
    · exact .bind (.access_of_cache fun _ => cacheWrite_frame _ _ _) fun _ =>
        .bind (.access_of_mmu fun _ => setDirty_frame va) fun _ => .access_of_cache fun _ => prefetchAfter_frame _
    · exact .bind (busWrite_accessFrame _ _) fun _ => .access_of_mmu fun _ => setDirty_frame va

/-- A store moves nothing outside what a CPU access reaches (R315). -/
theorem store_frame (va size : Nat) (v : Int) : Keeps (AccessFrame s) (store va size v) := by
  unfold store
  refine .bind (accessChecks_frame _ _) fun _ => .bind (.access_of_mmu fun _ => translate_frame va) fun r => ?_
  refine .ite (fun _ => .bind (.raise _) fun _ => ?_) fun _ => ?_
  all_goals exact .bind .get fun _ => storePath_frame _ _ _ _

end Sys2Proof.Machine
end

