-- ==== Sys2Proof/Laws/Decode.lean ====
section
/-! SUPPORT. Decoding: how each operand's parser reads its own value, and that the register maps read back the offsets they
give. -/

namespace Sys2Proof

/-- Little-endian bytes give back the value they pack. -/
theorem unpackLe_packLe : ∀ (n v : Nat), v < 256 ^ n → unpackLe (packLe v n) = v
  | 0, v, h => by simp [packLe, unpackLe] at *; omega
  | n + 1, v, h => by
    have : v / 256 < 256 ^ n := by rw [Nat.div_lt_iff_lt_mul (by omega)]; rw [pow_succ] at h; exact h
    simp only [packLe, unpackLe, unpackLe_packLe n _ this, BitVec.toNat_ofNat]; omega

@[simp] theorem length_packLe (n v : Nat) : (packLe v n).length = n := by
  induction n generalizing v <;> simp [packLe, *]

@[simp] theorem data32_packLe (v : Word32) : data32 (packLe v.toNat 4) = v := by
  simp [data32, unpackLe_packLe 4 v.toNat (by have := v.isLt; omega)]

@[simp] theorem data64_packLe (v : Word) : data64 (packLe v.toNat 8) = v := by
  simp [data64, unpackLe_packLe 8 v.toNat (by have := v.isLt; omega)]

/-! ## Parsers -/

/-- A parser after one that went well. -/
theorem Parser.bind {α β} {p : Parser α} {f : α → Parser β} {ts us : List Token} {a : α} (h : p ts = .ok (a, us)) :
  (p >>= f) ts = f a us := by simp [Bind.bind, StateT.bind, h, Except.bind]

theorem pWord_run (v : Word) (ts) : pWord (.nat v.toNat :: ts) = .ok (v, ts) := by
  have := v.isLt; unfold pWord; simp [this]

theorem pByte_run (v : Byte) (ts) : pByte (.nat v.toNat :: ts) = .ok (v, ts) := by
  have := v.isLt; unfold pByte; simp [this]

theorem pNat_run (v) (ts) : pNat (.nat v :: ts) = .ok (v, ts) := rfl

/-- An optional operand reads back what it was written as. -/
theorem pOpt_run {α} (p : Parser α) (f : α → Token) (o : Option α) (ts) (h : ∀ a ts, p (f a :: ts) = .ok (a, ts))
   (h' : ∀ a, f a ≠ .absent) :
   pOpt p (optTok f o :: ts) = .ok (o, ts) := by 
  cases o with
  | none => rfl
  | some a => 
    have : ∀ u us, u ≠ Token.absent → pOpt p (u :: us) = match p (u :: us) with
    | .ok (a, ts') => .ok (some a, ts')
    | .error e => .error e := by intro u us hu; cases u <;> first | rfl | exact absurd rfl hu
    simp only [optTok]; rw [this _ _ (h' a), h]

theorem pLevel_run (l : Level) (ts) : pLevel (.nat l.number :: ts) = .ok (l, ts) := by cases l <;> rfl

theorem pSide_run (l : Side) (ts) : pSide (.nat l.number :: ts) = .ok (l, ts) := by cases l <;> rfl

theorem pKind_run (l : AccessKind) (ts) : pKind (.nat l.number :: ts) = .ok (l, ts) := by cases l <;> rfl

theorem pField_run (l : CsrField) (ts) : pField (.nat l.number :: ts) = .ok (l, ts) := by cases l <;> rfl

theorem pOpt_nat (o : Option Nat) (ts) : pOpt pNat (optTok .nat o :: ts) = .ok (o,
    ts) := pOpt_run _ _ _ _ (fun _ _ => rfl) (by simp)

theorem pOpt_bool (o : Option Bool) (ts) : pOpt pBool (optTok .bool o :: ts) = .ok (o,
    ts) := pOpt_run _ _ _ _ (fun _ _ => rfl) (by simp)

/-- A field reads back what it was written as. -/
theorem optField_map {α} (p : Scalar → Except Reject α) (f : α → Scalar) (h : ∀ a, p (f a) = .ok a) (o : Option α) :
    optField p (o.map f) = .ok o := by
  cases o with
  | none => rfl
  | some a => simp [optField, h, Except.map]

/-- A boolean field reads back. -/
theorem boolField_run (o : Option Bool) : optField boolValue (o.map .bool) = .ok o :=
  optField_map boolValue Scalar.bool (fun _ => rfl) o

/-- A memory type reads back. -/
theorem memTypeField_run (o : Option MemType) :
    optField memTypeValue (o.map fun t => .nat t.number) = .ok o :=
  optField_map memTypeValue (fun t => Scalar.nat t.number) (fun t => by cases t <;> rfl) o

/-- The record `perm` reads back. -/
theorem toPerm_toRecord (p : Perm) : p.toRecord.toPerm = .ok p := by
  simp only [Record.toPerm, Perm.toRecord, boolField_run, memTypeField_run, ne_eq, not_true_eq_false, if_false]
  rfl

/-- The record `attrs` reads back. -/
theorem toAttrs_toRecord (a : Attrs) : a.toRecord.toAttrs = .ok a := by
  simp only [Record.toAttrs, Attrs.toRecord, boolField_run, memTypeField_run, ne_eq, not_true_eq_false, if_false]
  rfl

theorem pPerm_run (p : Perm) (ts) : pPerm (.record p.toRecord :: ts) = .ok (p, ts) := by
  simp [pPerm, pRecord, toPerm_toRecord, Except.map]

theorem pAttrs_run (a : Attrs) (ts) : pAttrs (.record a.toRecord :: ts) = .ok (a, ts) := by
  simp [pAttrs, pRecord, toAttrs_toRecord, Except.map]

/-- The record `{layout, ctx_id}` reads back. -/
theorem pPlicContext_run (l : Layout) (c : Nat) (ts) :
    pRecord Record.toPlicContext (.record { layout := some (.nat l.number), ctxId := some (.nat c) } :: ts) =
      .ok ((l, c), ts) := by
  cases l <;> simp [pRecord, Record.toPlicContext, needField, layoutValue, enumValue, natValue, Layout.number,
    Layout.ofNumber, Except.map, bind, Except.bind, pure, Except.pure]

/-- The record `{hart}` reads back. -/
theorem pHart_run (h : Nat) (ts) : pRecord Record.toHart (.record { hart := some (.nat h) } :: ts) = .ok (h, ts) := by
  simp [pRecord, Record.toHart, needField, natValue, Except.map]

theorem pOpt_perm (o : Option Perm) (ts) : pOpt pPerm (optTok (.record ·.toRecord) o :: ts) = .ok (o, ts) :=
  pOpt_run _ _ _ _ pPerm_run (by simp)

theorem pOpt_side (o : Option Side) (ts) : pOpt pSide (optTok (fun x => .nat x.number) o :: ts) = .ok (o,
    ts) := pOpt_run _ _ _ _ pSide_run (by simp)

theorem pHandler_run (h ts) : pHandler (.handler (List.length h) :: (h ++ ts)) = .ok (h, ts) := by
  unfold pHandler; simp

/-- A command whose operands end where another call begins is decoded to what its code and operands name. -/
theorem decode_command {c : Byte} {ts rest : List Token} {i : Instr} (h : decodeCmd c.toNat ts = .ok (i, rest))
    (he : endsCommand rest = true) : decode (.code c :: ts) = .ok (i, rest) := by
  simp [decode, h, he]

/-! ## Register accesses -/

theorem decode_rd4 (f : Format) (off : Nat) (i : Instr) (rest) (h : decodeRead f 4 (BitVec.ofNat 64 off) = some i) : 
   decode (rd4 f off ++ rest) = .ok (i, rest) := by
  simp [rd4, decode, decodeAccess, h]

theorem decode_rd8 (f : Format) (off : Nat) (i : Instr) (rest) (h : decodeRead f 8 (BitVec.ofNat 64 off) = some i) : 
   decode (rd8 f off ++ rest) = .ok (i, rest) := by
  simp [rd8, decode, decodeAccess, h]

theorem decode_wr4 (f : Format) (off : Nat) (v : Word32) (i : Instr) (rest) (h : decodeWrite f (BitVec.ofNat 64 off)
    (packLe v.toNat 4) = some i) : 
   decode (wr4 f off v ++ rest) = .ok (i, rest) := by
  simp [wr4, decode, decodeAccess, h]

theorem decode_wr8 (f : Format) (off : Nat) (v : Word) (i : Instr) (rest) (h : decodeWrite f (BitVec.ofNat 64 off)
    (packLe v.toNat 8) = some i) : 
   decode (wr8 f off v ++ rest) = .ok (i, rest) := by
  simp [wr8, decode, decodeAccess, h]

theorem plicReg_prio (l : Layout) (id : Nat) (h : prioIdOk l id = true) : plicReg l (plicOff l (.prio id)) =
    some (.prio id) := by
  unfold prioIdOk at h
  simp at h
  cases l <;> simp [Layout.maxPrioId] at h <;> simp [plicReg, plicOff, Layout.pendLo] <;>
   rw [if_pos (by omega)] <;> congr <;> omega

theorem plicReg_ctx (l : Layout) (c : Nat) (h : contextOk c = true) : plicReg l (plicOff l (.enableLo c)) =
    some (.enableLo c) 
  ∧ plicReg l (plicOff l (.enableHi c)) = some (.enableHi c) ∧ plicReg l (plicOff l (.threshold c)) =
    some (.threshold c)
  ∧ plicReg l (plicOff l (.claim c)) = some (.claim c) := by
  simp [contextOk] at h
  cases l <;> interval_cases c <;> decide

/-- The offset of a PLIC register that the encoding can carry fits its 64 bits. -/
theorem plicOff_toNat (l : Layout) (r : PlicReg)
    (h : match r with
      | .prio id => prioIdOk l id = true
      | .enableLo c => c < 8
      | .enableHi c => c < 8
      | .threshold c => c < 8
      | .claim c => c < 8
      | _ => True) : (BitVec.ofNat 64 (plicOff l r)).toNat = plicOff l r := by
  rw [BitVec.toNat_ofNat, Nat.mod_eq_of_lt]
  cases r with
  | prio id =>
    have h : (decide (1 ≤ id) && decide (id ≤ l.maxPrioId)) = true := h
    rw [Bool.and_eq_true, decide_eq_true_eq, decide_eq_true_eq] at h
    cases l <;> simp only [Layout.maxPrioId] at h <;> simp only [plicOff] <;> omega
  | _ =>
    cases l <;> simp only [plicOff, Layout.pendLo, Layout.pendHi, Layout.ctxBase, Layout.stride] <;>
      (try dsimp only at h) <;> omega

theorem clintReg_msip (h : Nat) (hh : h < 4096) : clintReg (clintOff (.msip h)) 4 = some (.msip h) := by
  unfold clintReg clintOff
  dsimp only
  rw [if_pos (by omega), if_pos (by omega)]; exact congrArg (fun x => some (ClintReg.msip x)) (by omega)

theorem clintReg_mtimecmp (h : Nat) (p : Part) (hh : h < 4095) : clintReg (clintOff (.mtimecmp h p)) p.width =
    some (.mtimecmp h p) := by
  have e : clintOff (.mtimecmp h p) = 0x4000 + 8 * h + p.off := rfl
  have e1 : ¬ 0x4000 + 8 * h + p.off < 0x4000 := by omega
  have e2 : 0x4000 + 8 * h + p.off < 0xBFF8 := by cases p <;> simp only [Part.off] <;> omega
  have e3 : (0x4000 + 8 * h + p.off - 0x4000) % 8 = p.off := by cases p <;> simp only [Part.off] <;> omega
  have e4 : (0x4000 + 8 * h + p.off - 0x4000) / 8 = h := by cases p <;> simp only [Part.off] <;> omega
  rw [e]; unfold clintReg
  rw [if_neg e1, if_pos e2]
  simp only [e3, e4]
  cases p <;> simp [Part.off, Part.width]

/-- The offset of a CLINT register that the encoding can carry fits its 64 bits. -/
theorem clintOff_toNat (r : ClintReg)
    (h : match r with
      | .msip h => h < 4096
      | .mtimecmp h _ => h < 4095
      | _ => True) : (BitVec.ofNat 64 (clintOff r)).toNat = clintOff r := by
  rw [BitVec.toNat_ofNat, Nat.mod_eq_of_lt]
  cases r with
  | msip h => simp [clintOff] at *; omega
  | mtimecmp h p => cases p <;> simp [clintOff, Part.off] at * <;> omega
  | mtime p => cases p <;> simp [clintOff, Part.off]

end Sys2Proof
end

