-- ==== Sys2Proof/Laws/Inclusion.lean ====
section
/-! SUPPORT. The cache as a set of lines by level and block: what the inclusion invariants say of it, and what a line that
leaves its level for its parent's line changes. -/

namespace Sys2Proof.Machine

/-! ## Lines by block -/

/-- The block of the line in a slot. -/
def State.addr (s : State) (l : Level) (q : Nat × Nat) : Nat := Config.addrOf s.cfg l q (s.line l q)

/-- Whether a line says that a child level holds its block. -/
def Line.present (x : Line) : Level → Bool
  | .l1d => x.presentL1d
  | .l1i => x.presentL1i
  | .l2 => x.presentL2
  | .l3 => false

theorem Line.presentIn_eq (x : Line) (c : Side) : x.presentIn c = x.present c.level := by cases c <;> rfl

theorem Side.parent_level (c : Side) : Level.parent c.level = some .l2 := by cases c <;> rfl

/-- The inclusion invariants in terms of slots: valid slots are in range, a level holds a block once, a line's parent holds
its block and says so, and says so only then. -/
structure Shape (s : State) : Prop where
  range : ∀ l q, (s.line l q).valid = true → q.1 < s.cfg.numSets l ∧ q.2 < s.cfg.ways l
  inj : ∀ l q r, (s.line l q).valid = true → (s.line l r).valid = true → s.addr l q = s.addr l r → q = r
  up : ∀ l p, Level.parent l = some p → ∀ q, (s.line l q).valid = true →
    ∃ r, (s.line p r).valid = true ∧ s.addr p r = s.addr l q ∧ (s.line p r).present l = true
  down : ∀ l p, Level.parent l = some p → ∀ r, (s.line p r).valid = true → (s.line p r).present l = true →
    ∃ q, (s.line l q).valid = true ∧ s.addr l q = s.addr p r

/-- The lists of a cache are in order: sorted by slot, every listed line valid. -/
def Lists (s : State) : Prop := ∀ l, ((s.cache.level l).lines.Pairwise fun x y => pairLt x.1 y.1 = true) ∧
  ∀ q x, (q, x) ∈ (s.cache.level l).lines → x.valid = true

/-- A slot's set and tag are those of its line's block. -/
theorem addrOf_set_tag {c : Config} (h : 0 < c.lineSize) {l : Level} {q : Nat × Nat} {x : Line} (hq : q.1 < c.numSets l) :
    Config.setOf c l (Config.addrOf c l q x) = q.1 ∧ Config.tagOf c l (Config.addrOf c l q x) = x.tag := by
  unfold Config.setOf Config.tagOf Config.addrOf
  rw [Nat.mul_div_cancel _ h, Nat.add_comm, Nat.add_mul_mod_self_right, Nat.mod_eq_of_lt hq,
    Nat.add_mul_div_right _ _ (by omega), Nat.div_eq_of_lt hq]
  exact ⟨rfl, by omega⟩

/-- A line whose set and tag are those of an address holds the address's block. -/
theorem addrOf_eq_block {c : Config} {l : Level} {q : Nat × Nat} {x : Line} {a : Nat} (h1 : q.1 = Config.setOf c l a)
    (h2 : x.tag = Config.tagOf c l a) : Config.addrOf c l q x = Config.block c a := by
  unfold Config.addrOf Config.block
  rw [h1, h2]
  unfold Config.setOf Config.tagOf
  have h3 := Nat.div_add_mod (a / c.lineSize) (c.numSets l)
  rw [Nat.mul_comm] at h3
  rw [h3]
  have h4 := Nat.div_add_mod a c.lineSize
  rw [Nat.mul_comm] at h4
  omega

theorem block_block {c : Config} (a : Nat) : Config.block c (Config.block c a) = Config.block c a := by
  unfold Config.block
  have h4 := Nat.div_add_mod a c.lineSize
  have : a - a % c.lineSize = c.lineSize * (a / c.lineSize) := by omega
  rw [this, Nat.mul_mod_right]; omega

theorem block_addrOf {c : Config} (l : Level) (q : Nat × Nat) (x : Line) :
    Config.block c (Config.addrOf c l q x) = Config.addrOf c l q x := by
  unfold Config.block Config.addrOf; simp

/-- The slot that a look-up finds is the valid one of the block. -/
theorem Shape.lookup {s : State} (h : Shape s) (hl : 0 < s.cfg.lineSize) {a : Nat} {l : Level} {q : Nat × Nat} :
    s.lookup a l = some q ↔ (s.line l q).valid = true ∧ s.addr l q = Config.block s.cfg a := by
  have one : ∀ {r}, s.lookup a l = some r → (s.line l r).valid = true ∧ s.addr l r = Config.block s.cfg a := by
    intro r hr
    obtain ⟨h1, h2, h3, -⟩ := lookup_valid hr
    exact ⟨h1, addrOf_eq_block h3 h2⟩
  refine ⟨one, fun ⟨hv, ha⟩ => ?_⟩
  obtain ⟨hq1, hq2⟩ := h.range l q hv
  have h2 := addrOf_set_tag (x := s.line l q) hl hq1
  change Config.setOf s.cfg l (s.addr l q) = q.1 ∧ Config.tagOf s.cfg l (s.addr l q) = _ at h2
  rw [ha, (block_eq hl a l).1, (block_eq hl a l).2] at h2
  cases hf : s.lookup a l with
  | some r =>
    obtain ⟨h3, h4⟩ := one hf
    rw [h.inj l q r hv h3 (ha.trans h4.symm)]
  | none =>
    unfold State.lookup at hf
    rw [Option.map_eq_none_iff, List.find?_eq_none] at hf
    have := hf q.2 (List.mem_range.2 hq2)
    rw [h2.1] at this
    simp [hv, h2.2] at this

theorem Shape.lookup_none {s : State} (h : Shape s) (hl : 0 < s.cfg.lineSize) {a : Nat} {l : Level} :
    s.lookup a l = none ↔ ∀ q, (s.line l q).valid = true → s.addr l q ≠ Config.block s.cfg a := by
  constructor
  · intro hn q hv he
    rw [(h.lookup hl).2 ⟨hv, he⟩] at hn; cases hn
  · intro hq
    cases hf : s.lookup a l with
    | none => rfl
    | some q => obtain ⟨h1, h2⟩ := (h.lookup hl).1 hf; exact absurd h2 (hq q h1)

/-- A slot that holds a valid line is listed with it. -/
theorem mem_of_valid {s : State} {l : Level} {q : Nat × Nat} (h : (s.line l q).valid = true) :
    (q, s.line l q) ∈ (s.cache.level l).lines := by
  unfold State.line at h ⊢
  cases hg : Tab.get (s.cache.level l).lines q with
  | none => rw [hg] at h; simp [Line.reset] at h
  | some x => exact Tab.mem_of_get hg

/-- A listed line is its slot's. -/
theorem line_of_mem {s : State} (hL : Lists s) {l : Level} {q : Nat × Nat} {x : Line}
    (h : (q, x) ∈ (s.cache.level l).lines) : s.line l q = x ∧ (s.line l q).valid = true := by
  have h1 := Tab.get_of_mem (hL l).1 h
  have : s.line l q = x := by unfold State.line; rw [h1]; rfl
  exact ⟨this, this ▸ (hL l).2 q x h⟩

/-- The inclusion invariants are the two parts: the lists in order, and the shape. -/
theorem inclusion_iff {s : State} (hl : 0 < s.cfg.lineSize) : Inclusion s ↔ Lists s ∧ Shape s := by
  constructor
  · intro h
    have hL : Lists s := fun l => ⟨h.sorted l, fun q x hx => (h.slot l q x hx).1⟩
    have hlk : ∀ l q, (s.line l q).valid = true → s.lookup (s.addr l q) l = some q := fun l q hv =>
      (h.slot l q _ (mem_of_valid hv)).2.2.2
    have toAddr : ∀ {l q k r}, s.lookup (s.addr l q) k = some r → (s.line k r).valid = true ∧ s.addr k r = s.addr l q := by
      intro l q k r hr
      obtain ⟨h1, h2, h3, -⟩ := lookup_valid hr
      exact ⟨h1, (addrOf_eq_block h3 h2).trans (block_addrOf ..)⟩
    refine ⟨hL, ⟨fun l q hv => ?_, fun l q r hv hr ha => ?_, fun l p hp q hv => ?_, fun l p hp r hv hpr => ?_⟩⟩
    · have := h.slot l q _ (mem_of_valid hv); exact ⟨this.2.1, this.2.2.1⟩
    · have h1 := hlk l q hv
      rw [ha, hlk l r hr] at h1
      exact (Option.some.inj h1).symm
    · cases l <;> cases hp
      · obtain ⟨r, h1, h2⟩ := h.l1 .l1d q _ (mem_of_valid hv)
        exact ⟨r, (toAddr h1).1, (toAddr h1).2, h2⟩
      · obtain ⟨r, h1, h2⟩ := h.l1 .l1i q _ (mem_of_valid hv)
        exact ⟨r, (toAddr h1).1, (toAddr h1).2, h2⟩
      · obtain ⟨r, h1, h2⟩ := h.l2 q _ (mem_of_valid hv)
        exact ⟨r, (toAddr h1).1, (toAddr h1).2, h2⟩
    · cases l <;> cases hp
      · obtain ⟨q, h1⟩ := h.l1Back .l1d r _ (mem_of_valid hv) hpr
        exact ⟨q, toAddr h1⟩
      · obtain ⟨q, h1⟩ := h.l1Back .l1i r _ (mem_of_valid hv) hpr
        exact ⟨q, toAddr h1⟩
      · obtain ⟨q, h1⟩ := h.l2Back r _ (mem_of_valid hv) hpr
        exact ⟨q, toAddr h1⟩
  · rintro ⟨hL, hS⟩
    have toLk : ∀ {l q k r}, (s.line k r).valid = true → s.addr k r = s.addr l q → s.lookup (s.addr l q) k = some r :=
      fun hv ha => (hS.lookup hl).2 ⟨hv, ha.trans (block_addrOf ..).symm⟩
    refine ⟨fun l => (hL l).1, fun l q x hx => ?_, fun c q x hx => ?_, fun q x hx => ?_, fun c q x hx hp => ?_,
      fun q x hx hp => ?_⟩
    · obtain ⟨rfl, hv⟩ := line_of_mem hL hx
      exact ⟨hv, (hS.range l q hv).1, (hS.range l q hv).2, toLk hv rfl⟩
    · obtain ⟨rfl, hv⟩ := line_of_mem hL hx
      obtain ⟨r, h1, h2, h3⟩ := hS.up c.level .l2 (Side.parent_level c) q hv
      exact ⟨r, toLk h1 h2, (Line.presentIn_eq _ c).trans h3⟩
    · obtain ⟨rfl, hv⟩ := line_of_mem (l := .l2) hL hx
      obtain ⟨r, h1, h2, h3⟩ := hS.up .l2 .l3 rfl q hv
      exact ⟨r, toLk h1 h2, h3⟩
    · obtain ⟨rfl, hv⟩ := line_of_mem (l := .l2) hL hx
      obtain ⟨r, h1, h2⟩ := hS.down c.level .l2 (Side.parent_level c) q hv ((Line.presentIn_eq _ c).symm.trans hp)
      exact ⟨r, toLk h1 h2⟩
    · obtain ⟨rfl, hv⟩ := line_of_mem (l := .l3) hL hx
      obtain ⟨r, h1, h2⟩ := hS.down .l2 .l3 rfl q hv hp
      exact ⟨r, toLk h1 h2⟩

end Sys2Proof.Machine
end

