-- ==== Sys2Proof/Laws/Evict.lean ====
section
/-! SUPPORT. A line that leaves its level for its parent's line: what changes, that the inclusion invariants stay, and that no
byte's newest value changes; and that this is what an eviction and a drain do. -/

namespace Sys2Proof.Machine

/-! ## Single writes -/

/-- The state after `putLine`. -/
def put (s : State) (l : Level) (q : Nat × Nat) (x : Line) : State := s.withLines l (Tab.set pairLt · q x)

/-- The state after `invalidate`. -/
def inv (s : State) (l : Level) (q : Nat × Nat) : State := s.withLines l (Tab.erase · q)

/-- The state after `countAt`. -/
def cnt (s : State) (l : Level) (f : CacheStats → CacheStats) : State :=
  { s with cache := s.cache.setLevel l { s.cache.level l with stats := f (s.cache.level l).stats } }

/-- The state after `nextStamp`. -/
def stamp (s : State) : State := { s with cache := { s.cache with globalCounter := s.cache.globalCounter + 1 } }

variable (s : State) (l : Level) (q : Nat × Nat) (x : Line) (f : CacheStats → CacheStats)

theorem putLine_run : putLine l q x s = .ok () (put s l q x) := rfl

theorem invalidate_run : invalidate l q s = .ok () (inv s l q) := rfl

theorem countAt_run : countAt l f s = .ok () (cnt s l f) := rfl

theorem getLine_run : getLine l q s = .ok (s.line l q) s := rfl

theorem nextStamp_run : nextStamp s = .ok (s.cache.globalCounter + 1) (stamp s) := rfl

theorem line_put (k : Level) (r : Nat × Nat) : (put s l q x).line k r = if k = l ∧ r = q then x else s.line k r := by
  unfold put State.withLines
  by_cases hk : k = l
  · subst hk
    by_cases hr : r = q
    · subst hr; simp [State.line, Tab.get_set]
    · simp [State.line, Tab.get_set, hr, Ne.symm hr]
  · simp [State.line, hk]

theorem line_inv (k : Level) (r : Nat × Nat) :
    (inv s l q).line k r = if k = l ∧ r = q then Line.reset s.cfg.lineSize else s.line k r := by
  unfold inv State.withLines State.line
  by_cases hk : k = l
  · subst hk; simp [Tab.get_erase]; by_cases hr : r = q
    · subst hr; simp
    · simp [hr, Ne.symm hr]
  · simp [hk]

theorem line_cnt (k : Level) (r : Nat × Nat) : (cnt s l f).line k r = s.line k r := by
  unfold cnt State.line; simp; split <;> simp_all

theorem line_stamp (k : Level) (r : Nat × Nat) : (stamp s).line k r = s.line k r := by
  unfold stamp State.line; simp

theorem stats_put (k : Level) : ((put s l q x).cache.level k).stats = (s.cache.level k).stats := by
  simp only [put, State.withLines, Cache.level_setLevel]; split <;> simp_all

theorem stats_inv (k : Level) : ((inv s l q).cache.level k).stats = (s.cache.level k).stats := by
  simp only [inv, State.withLines, Cache.level_setLevel]; split <;> simp_all

theorem stats_cnt (k : Level) :
    ((cnt s l f).cache.level k).stats = if k = l then f (s.cache.level k).stats else (s.cache.level k).stats := by
  simp only [cnt, Cache.level_setLevel]; split <;> simp_all

theorem stats_stamp (k : Level) : ((stamp s).cache.level k).stats = (s.cache.level k).stats := by
  simp [stamp]

theorem globalCounter_put : (put s l q x).cache.globalCounter = s.cache.globalCounter := by
  unfold put State.withLines; simp

theorem globalCounter_cnt : (cnt s l f).cache.globalCounter = s.cache.globalCounter := by
  unfold cnt; simp

theorem level_put (k : Level) (h : k ≠ l) : (put s l q x).cache.level k = s.cache.level k := by
  unfold put State.withLines; simp [h]

theorem level_cnt (k : Level) (h : k ≠ l) : (cnt s l f).cache.level k = s.cache.level k := by
  unfold cnt; simp [h]

theorem level_stamp (k : Level) : (stamp s).cache.level k = s.cache.level k := by
  unfold stamp; simp

/-- The victim of a set depends on the lines of the level only. -/
theorem chooseVictim_congr {t : State} (hc : t.cfg = s.cfg) (h : ∀ r, t.line l r = s.line l r) (set : Nat) :
    t.chooseVictim l set = s.chooseVictim l set := by
  unfold State.chooseVictim; simp only [hc, h]

variable {s l q x f}

theorem Lists.put (h : Lists s) (hx : x.valid = true) : Lists (put s l q x) := by
  intro k
  unfold Machine.put State.withLines
  simp only [Cache.level_setLevel]
  split
  · refine ⟨Tab.sorted_set _ _ _ (h l).1, fun r y hy => ?_⟩
    rcases Tab.mem_set hy with he | hy
    · cases he; exact hx
    · exact (h l).2 r y hy
  · exact h k

theorem Lists.inv (h : Lists s) : Lists (inv s l q) := by
  intro k
  unfold Machine.inv State.withLines
  simp only [Cache.level_setLevel]
  split
  · exact ⟨(h l).1.sublist List.filter_sublist, fun r y hy => (h l).2 r y (Tab.mem_erase.1 hy).1⟩
  · exact h k

theorem Lists.cnt (h : Lists s) : Lists (cnt s l f) := by
  intro k
  have := h k
  unfold Machine.cnt
  simp only [Cache.level_setLevel]
  split
  · rename_i hk; subst hk; exact this
  · exact this

theorem Lists.stamp (h : Lists s) : Lists (stamp s) := by
  intro k
  have := h k
  unfold Machine.stamp
  simpa using this

theorem lookup_put {b : Nat} {k : Level} (hv : x.valid = (s.line l q).valid) (ht : x.tag = (s.line l q).tag) :
    (put s l q x).lookup b k = s.lookup b k :=
  lookup_congr (s := s) (t := put s l q x) rfl (fun r => by
    rw [line_put]; split
    · rename_i h; obtain ⟨rfl, rfl⟩ := h; exact ⟨hv, ht⟩
    · simp) _

theorem lookup_cnt {b : Nat} {k : Level} : (cnt s l f).lookup b k = s.lookup b k :=
  lookup_congr (s := s) (t := cnt s l f) rfl (fun r => by simp [line_cnt]) _

theorem lookup_stamp {b : Nat} {k : Level} : (stamp s).lookup b k = s.lookup b k :=
  lookup_congr (s := s) (t := stamp s) rfl (fun r => by simp [line_stamp]) _

@[simp] theorem withPresence_idem (c : Level) (b b' : Bool) :
    (x.withPresence c b).withPresence c b' = x.withPresence c b' := by
  cases c <;> rfl

theorem present_withPresence (c k : Level) (b : Bool) (hc : c ≠ .l3) :
    (x.withPresence c b).present k = if k = c then b else x.present k := by
  cases c <;> cases k <;> first | rfl | exact absurd rfl hc

/-! ## A line that leaves for its parent -/

/-- The parent's line after a child's line has left for it: it has the child's bytes if these are dirty. -/
def Line.merged (v y : Line) (l : Level) (g : Nat) : Line :=
  (if y.dirty then { v with data := y.data, dirty := true, lru := g } else v).withPresence l false

theorem merged_valid (v y : Line) (l : Level) (g : Nat) : (v.merged y l g).valid = v.valid ∧
    (v.merged y l g).tag = v.tag ∧ (v.merged y l g).dirty = (y.dirty || v.dirty) ∧
    (v.merged y l g).data = if y.dirty then y.data else v.data := by
  unfold Line.merged
  obtain ⟨h1, h2, h3, h4⟩ := withPresence_valid (if y.dirty then { v with data := y.data, dirty := true, lru := g } else v)
    l false
  refine ⟨h1.trans ?_, h2.trans ?_, h4.trans ?_, h3.trans ?_⟩ <;> split <;> simp_all

theorem merged_present (v y : Line) (l k : Level) (g : Nat) (hl : l ≠ .l3) :
    (v.merged y l g).present k = if k = l then false else v.present k := by
  unfold Line.merged
  rw [present_withPresence _ _ _ hl]
  split
  · rfl
  · split <;> cases k <;> rfl

/-- t is s with the line of slot q, at level l, gone to the line of slot r of the parent level p. -/
structure Merged (s t : State) (l p : Level) (q r : Nat × Nat) : Prop where
  cache : onlyCache s t
  child : t.line l q = Line.reset s.cfg.lineSize
  parent : ∃ g, t.line p r = (s.line p r).merged (s.line l q) l g
  rest : ∀ k u, (k, u) ≠ (l, q) → (k, u) ≠ (p, r) → t.line k u = s.line k u
  lists : Lists s → Lists t

theorem Level.parent_ne {l p : Level} (h : Level.parent l = some p) : l ≠ p ∧ l ≠ .l3 := by
  cases l <;> cases h <;> decide

/-- What a line's leaving needs: both slots hold the block, and no child of the leaving line does. -/
structure Leaves (s : State) (l p : Level) (q r : Nat × Nat) : Prop where
  parent : Level.parent l = some p
  valid : (s.line l q).valid = true
  validP : (s.line p r).valid = true
  addr : s.addr p r = s.addr l q
  free : ∀ k, Level.parent k = some l → (s.line l q).present k = false

namespace Merged

variable {t : State} {p : Level} {r : Nat × Nat}

theorem cfg (m : Merged s t l p q r) : t.cfg = s.cfg := by rw [m.cache]

/-- Apart from the line that left, the valid lines and their blocks are the same. -/
theorem slots (m : Merged s t l p q r) (h : Leaves s l p q r) (k : Level) (u : Nat × Nat) :
    ((t.line k u).valid = true ↔ (s.line k u).valid = true ∧ (k, u) ≠ (l, q)) ∧
    ((k, u) ≠ (l, q) → t.addr k u = s.addr k u) := by
  have hne := (Level.parent_ne h.parent).1
  by_cases h1 : (k, u) = (l, q)
  · cases h1
    rw [m.child]
    exact ⟨by simp [Line.reset], fun hc => absurd rfl hc⟩
  · by_cases h2 : (k, u) = (p, r)
    · cases h2
      obtain ⟨g, hg⟩ := m.parent
      obtain ⟨e1, e2, -, -⟩ := merged_valid (s.line p r) (s.line l q) l g
      refine ⟨by rw [hg, e1]; simp [h1], fun _ => ?_⟩
      unfold State.addr Config.addrOf
      rw [hg, e2, m.cfg]
    · refine ⟨by rw [m.rest k u h1 h2]; simp [h1], fun _ => ?_⟩
      unfold State.addr Config.addrOf
      rw [m.rest k u h1 h2, m.cfg]

/-- The presence flags are the same but for the parent's flag of the level left, which is cleared. -/
theorem present (m : Merged s t l p q r) (h : Leaves s l p q r) {k : Level} {u : Nat × Nat} (hv : (k, u) ≠ (l, q))
    (c : Level) : (t.line k u).present c = if (k, u) = (p, r) ∧ c = l then false else (s.line k u).present c := by
  have hne := Level.parent_ne h.parent
  by_cases h2 : (k, u) = (p, r)
  · cases h2
    obtain ⟨g, hg⟩ := m.parent
    rw [hg, merged_present _ _ _ _ _ hne.2]
    simp
  · rw [m.rest k u hv h2]; simp [h2]

/-- The shape stays. -/
theorem shape (m : Merged s t l p q r) (h : Leaves s l p q r) (hS : Shape s) : Shape t := by
  have hne := Level.parent_ne h.parent
  refine ⟨fun k u hv => ?_, fun k u v hu hv ha => ?_, fun k k' hp u hv => ?_, fun k k' hp u hv hpr => ?_⟩
  · obtain ⟨h1, -⟩ := (m.slots h k u).1.1 hv
    rw [m.cfg]; exact hS.range k u h1
  · obtain ⟨h1, h2⟩ := (m.slots h k u).1.1 hu
    obtain ⟨h3, h4⟩ := (m.slots h k v).1.1 hv
    rw [(m.slots h k u).2 h2, (m.slots h k v).2 h4] at ha
    exact hS.inj k u v h1 h3 ha
  · obtain ⟨h1, h2⟩ := (m.slots h k u).1.1 hv
    obtain ⟨w, h3, h4, h5⟩ := hS.up k k' hp u h1
    have hw : (k', w) ≠ (l, q) := by
      rintro he; cases he
      rw [h.free k hp] at h5; cases h5
    refine ⟨w, (m.slots h k' w).1.2 ⟨h3, hw⟩, ?_, ?_⟩
    · rw [(m.slots h k' w).2 hw, (m.slots h k u).2 h2, h4]
    · rw [m.present h hw, if_neg, h5]
      rintro ⟨he, rfl⟩
      cases he
      exact h2 (by rw [hS.inj k u q h1 h.valid (by rw [← h4, h.addr])])
  · obtain ⟨h1, h2⟩ := (m.slots h k' u).1.1 hv
    rw [m.present h h2] at hpr
    split at hpr
    · cases hpr
    · rename_i hn
      obtain ⟨w, h3, h4⟩ := hS.down k k' hp u h1 hpr
      have hw : (k, w) ≠ (l, q) := by
        intro he
        cases he
        have hk : k' = p := Option.some.inj (hp.symm.trans h.parent)
        subst hk
        refine hn ⟨?_, rfl⟩
        rw [hS.inj k' u r h1 h.validP (by rw [h.addr]; exact h4.symm)]
      exact ⟨w, (m.slots h k w).1.2 ⟨h3, hw⟩, by rw [(m.slots h k w).2 hw, (m.slots h k' u).2 h2, h4]⟩

/-- What a look-up finds afterwards. -/
theorem lookup (m : Merged s t l p q r) (h : Leaves s l p q r) (hS : Shape s) (hl : 0 < s.cfg.lineSize) (a : Nat)
    (k : Level) : t.lookup a k = if k = l ∧ Config.block s.cfg a = s.addr l q then none else s.lookup a k := by
  have hT := m.shape h hS
  have hlt : 0 < t.cfg.lineSize := by rw [m.cfg]; exact hl
  have hb : Config.block t.cfg a = Config.block s.cfg a := by rw [m.cfg]
  split
  · rename_i hk
    obtain ⟨rfl, hk⟩ := hk
    rw [hT.lookup_none hlt]
    intro u hu ha
    obtain ⟨h1, h2⟩ := (m.slots h k u).1.1 hu
    rw [(m.slots h k u).2 h2, hb, hk] at ha
    exact h2 (by rw [hS.inj k u q h1 h.valid ha])
  · rename_i hk
    cases hs : s.lookup a k with
    | none =>
      rw [hT.lookup_none hlt]
      intro u hu ha
      obtain ⟨h1, h2⟩ := (m.slots h k u).1.1 hu
      rw [(m.slots h k u).2 h2, hb] at ha
      exact (hS.lookup_none hl).1 hs u h1 ha
    | some u =>
      obtain ⟨h1, h2⟩ := (hS.lookup hl).1 hs
      have hu : (k, u) ≠ (l, q) := by
        rintro he; cases he
        exact hk ⟨rfl, h2.symm⟩
      exact (hT.lookup hlt).2 ⟨(m.slots h k u).1.2 ⟨h1, hu⟩, by rw [(m.slots h k u).2 hu, hb, h2]⟩

/-- The dirty bytes afterwards: the child's block is gone from its level, its parent's line has its dirty byte, and nothing
else moves. -/
theorem dirtyByte (m : Merged s t l p q r) (h : Leaves s l p q r) (hS : Shape s) (hl : 0 < s.cfg.lineSize) (a : Nat)
    (k : Level) : t.dirtyByte k a =
      if Config.block s.cfg a = s.addr l q ∧ k = l then none
      else if Config.block s.cfg a = s.addr l q ∧ k = p then (s.dirtyByte l a).or (s.dirtyByte p a)
      else s.dirtyByte k a := by
  have hne := (Level.parent_ne h.parent).1
  have hlk := m.lookup h hS hl a
  by_cases hb : Config.block s.cfg a = s.addr l q
  · by_cases hk : k = l
    · subst hk
      rw [if_pos ⟨hb, rfl⟩]
      unfold State.dirtyByte
      rw [hlk, if_pos ⟨rfl, hb⟩]
    · rw [if_neg (by simp [hk])]
      by_cases hp : k = p
      · subst hp
        rw [if_pos ⟨hb, rfl⟩]
        have h1 : s.lookup a l = some q := (hS.lookup hl).2 ⟨h.valid, hb.symm⟩
        have h2 : s.lookup a k = some r := (hS.lookup hl).2 ⟨h.validP, by rw [h.addr, hb]⟩
        obtain ⟨g, hg⟩ := m.parent
        obtain ⟨-, -, e3, e4⟩ := merged_valid (s.line k r) (s.line l q) l g
        unfold State.dirtyByte
        rw [hlk, if_neg (by simp [hk]), h1, h2]
        dsimp only
        rw [hg, e3, e4, m.cfg]
        cases hd : (s.line l q).dirty <;> simp
      · rw [if_neg (by simp [hp])]
        unfold State.dirtyByte
        rw [hlk, if_neg (by simp [hk])]
        cases hs : s.lookup a k with
        | none => rfl
        | some u =>
          dsimp only
          rw [m.rest k u (by simp [hk]) (by simp [hp]), m.cfg]
  · rw [if_neg (by simp [hb]), if_neg (by simp [hb])]
    unfold State.dirtyByte
    rw [hlk, if_neg (by simp [hb])]
    cases hs : s.lookup a k with
    | none => rfl
    | some u =>
      dsimp only
      obtain ⟨-, h2⟩ := (hS.lookup hl).1 hs
      rw [m.rest k u (by rintro he; cases he; exact hb h2.symm) (by rintro he; cases he; exact hb (by rw [← h2, h.addr])),
        m.cfg]

/-- No byte's newest value changes, unless a dirty line of L1I leaves. -/
theorem newest (m : Merged s t l p q r) (h : Leaves s l p q r) (hS : Shape s) (hl : 0 < s.cfg.lineSize)
    (hi : l = .l1i → (s.line l q).dirty = false) (a : Nat) : t.newest a = s.newest a := by
  have hd := m.dirtyByte h hS hl a
  have hr : t.ramOffset a = s.ramOffset a := by rw [m.cache]; rfl
  have hb : t.dramByte = s.dramByte := by funext o; rw [m.cache]; rfl
  have hp := h.parent
  unfold State.newest
  simp only [hd, hr, hb]
  by_cases hba : Config.block s.cfg a = s.addr l q
  · cases l <;> cases hp <;> simp only [hba, true_and, reduceCtorEq, if_true, if_false]
    · cases s.dirtyByte .l1d a <;> simp
    · have : s.dirtyByte .l1i a = none := by
        unfold State.dirtyByte
        rw [(hS.lookup hl).2 ⟨h.valid, hba.symm⟩]
        simp [hi rfl]
      rw [this]; simp
    · cases s.dirtyByte .l1d a <;> cases s.dirtyByte .l2 a <;> simp
  · simp only [hba, false_and, if_false]

end Merged

/-! ## A sound cache -/

/-- What a sound cache says of its slots. -/
theorem CacheSound.slots {s : State} (h : CacheSound s) : 0 < s.cfg.lineSize ∧ Lists s ∧ Shape s ∧
    (∀ l q, (s.line l q).valid = true → (s.line l q).data.length = s.cfg.lineSize) ∧
    (∀ q, (s.line .l1i q).dirty = false) ∧
    ∀ q, (s.line .l3 q).valid = true → ∃ o, s.ramRange (s.addr .l3 q) s.cfg.lineSize o := by
  have hl := lineSize_pos h.legal
  obtain ⟨hL, hS⟩ := (inclusion_iff hl).1 h.inclusion
  refine ⟨hl, hL, hS, fun l q hv => h.length l q _ (mem_of_valid hv), fun q => ?_, fun q hv => h.backed q _ (mem_of_valid hv)⟩
  unfold State.line
  cases hg : Tab.get (s.cache.level .l1i).lines q with
  | none => rfl
  | some x => exact h.codeClean q x (Tab.mem_of_get hg)

theorem CacheSound.of_slots {s : State} (hc : ConfigLegal s.cfg) (hL : Lists s) (hS : Shape s)
    (hlen : ∀ l q, (s.line l q).valid = true → (s.line l q).data.length = s.cfg.lineSize)
    (hi : ∀ q, (s.line .l1i q).dirty = false)
    (hb : ∀ q, (s.line .l3 q).valid = true → ∃ o, s.ramRange (s.addr .l3 q) s.cfg.lineSize o)
    (hm : Memory.wf s.cfg.fillByte s.dram.cells) (hr : RegionsOk s.bus)
    (hinj : ∀ a b o, s.ramOffset a = some o → s.ramOffset b = some o → a = b) : CacheSound s where
  legal := hc
  inclusion := (inclusion_iff (lineSize_pos hc)).2 ⟨hL, hS⟩
  length l q x hx := by obtain ⟨rfl, hv⟩ := line_of_mem hL hx; exact hlen l q hv
  codeClean q x hx := by obtain ⟨rfl, -⟩ := line_of_mem (l := .l1i) hL hx; exact hi q
  backed q x hx := by obtain ⟨rfl, hv⟩ := line_of_mem (l := .l3) hL hx; exact hb q hv
  memory := hm
  regions := hr
  injective := hinj

/-- What t has under its cache is what s has, but for the bytes of DRAM that some address reaches and the counts of transfers. -/
def Under (s t : State) : Prop := t.bus.regions = s.bus.regions ∧ t.bus.faults = s.bus.faults ∧
  t.dram.faultCount = s.dram.faultCount ∧ ∀ o, (∀ a, s.ramOffset a ≠ some o) → t.dramByte o = s.dramByte o

theorem Under.refl (s : State) : Under s s := ⟨rfl, rfl, rfl, fun _ _ => rfl⟩

theorem Under.of_cache {s t : State} (h : onlyCache s t) : Under s t := by rw [h]; exact .refl s

/-- t is s after lines have left their levels: the cache is sound, no byte's newest value changed, and t has no line that s
has not. -/
structure Settled (s t : State) : Prop where
  sound : CacheSound t
  newest : ∀ a, t.newest a = s.newest a
  shrunk : ∀ k u, (t.line k u).valid = true → (s.line k u).valid = true ∧ t.addr k u = s.addr k u
  frame : t = { s with cache := t.cache, dram := t.dram, bus := t.bus }
  offsets : ∀ a, t.ramOffset a = s.ramOffset a
  under : Under s t

theorem Settled.refl {s : State} (h : CacheSound s) : Settled s s :=
  ⟨h, fun _ => rfl, fun _ _ h => ⟨h, rfl⟩, rfl, fun _ => rfl, .refl s⟩

theorem Settled.trans {s t u : State} (h : Settled s t) (g : Settled t u) : Settled s u where
  sound := g.sound
  newest a := (g.newest a).trans (h.newest a)
  shrunk k v hv := ⟨(h.shrunk k v (g.shrunk k v hv).1).1, (g.shrunk k v hv).2.trans (h.shrunk k v (g.shrunk k v hv).1).2⟩
  frame := by rw [g.frame, h.frame]
  offsets a := (g.offsets a).trans (h.offsets a)
  under := ⟨g.under.1.trans h.under.1, g.under.2.1.trans h.under.2.1, g.under.2.2.1.trans h.under.2.2.1, fun o ho =>
    (g.under.2.2.2 o fun a => by rw [h.offsets]; exact ho a).trans (h.under.2.2.2 o ho)⟩

theorem Settled.cfg {s t : State} (h : Settled s t) : t.cfg = s.cfg := by rw [h.frame]

/-- A line that leaves for its parent leaves a sound cache behind. -/
theorem Merged.settled {s t : State} {l p : Level} {q r : Nat × Nat} (m : Merged s t l p q r) (h : Leaves s l p q r)
    (hC : CacheSound s) : Settled s t := by
  obtain ⟨hl, hL, hS, hlen, hi, hb⟩ := hC.slots
  have hne := Level.parent_ne h.parent
  have hro : ∀ a, t.ramOffset a = s.ramOffset a := by rw [m.cache]; exact fun _ => rfl
  have hcfg := m.cfg
  have hbus : t.bus = s.bus := by rw [m.cache]
  have hdram : t.dram = s.dram := by rw [m.cache]
  have hdirty : ∀ u, (t.line .l1i u).dirty = false := by
    intro u
    by_cases h1 : (.l1i, u) = (l, q)
    · cases h1; rw [m.child]; rfl
    · by_cases h2 : (.l1i, u) = (p, r)
      · cases h2; cases l <;> cases h.parent
      · rw [m.rest _ _ h1 h2, hi u]
  refine ⟨.of_slots (by rw [hcfg]; exact hC.legal) (m.lists hL) (m.shape h hS) (fun k u hv => ?_) hdirty (fun u hv => ?_)
    (by rw [hcfg, hdram]; exact hC.memory) (by rw [hbus]; exact hC.regions)
    (fun a b o ha hb => hC.injective a b o (by rw [← hro, ha]) (by rw [← hro, hb])),
    m.newest h hS hl (fun he => by subst he; exact hi q),
    fun k u hv => ⟨((m.slots h k u).1.1 hv).1, (m.slots h k u).2 ((m.slots h k u).1.1 hv).2⟩,
    by rw [m.cache], hro, .of_cache m.cache⟩
  · obtain ⟨h1, h2⟩ := (m.slots h k u).1.1 hv
    rw [hcfg]
    by_cases h3 : (k, u) = (p, r)
    · cases h3
      obtain ⟨g, hg⟩ := m.parent
      rw [hg, (merged_valid _ _ _ _).2.2.2]
      split
      · exact hlen l q h.valid
      · exact hlen p r h1
    · rw [m.rest k u h2 h3]; exact hlen k u h1
  · obtain ⟨h1, h2⟩ := (m.slots h .l3 u).1.1 hv
    obtain ⟨o, ho⟩ := hb u h1
    refine ⟨o, ?_⟩
    rw [(m.slots h .l3 u).2 h2, m.cache]
    exact ho

/-! ## Evictions and drains -/

/-- The parent's slot of a line. -/
theorem leaves_of_valid {s : State} (hS : Shape s) {l p : Level} {q : Nat × Nat} (hp : Level.parent l = some p)
    (hv : (s.line l q).valid = true) (hf : ∀ k, Level.parent k = some l → (s.line l q).present k = false) :
    ∃ r, Leaves s l p q r := by
  obtain ⟨r, h1, h2, -⟩ := hS.up l p hp q hv
  exact ⟨r, hp, hv, h1, h2, hf⟩

theorem parent_side {k : Level} (c : Side) : Level.parent k ≠ some c.level := by
  cases c <;> cases k <;> simp [Level.parent, Side.level]

theorem onlyCache_put (s : State) (l : Level) (q : Nat × Nat) (x : Line) : onlyCache s (put s l q x) := rfl
theorem onlyCache_inv (s : State) (l : Level) (q : Nat × Nat) : onlyCache s (inv s l q) := rfl
theorem onlyCache_cnt (s : State) (l : Level) (f : CacheStats → CacheStats) : onlyCache s (cnt s l f) := rfl
theorem onlyCache_stamp (s : State) : onlyCache s (stamp s) := rfl

/-- The state after a child's line has given its parent's line its bytes, if dirty, and has been invalidated (R264, R268). -/
def taken (s : State) (l p : Level) (q r : Nat × Nat) : State :=
  cnt (inv (if (s.line l q).dirty then
      cnt (put s p r { s.line p r with data := (s.line l q).data, dirty := true }) l (·.writeback) else s) l q) l (·.evict)

theorem line_taken (s : State) {l p : Level} (hne : l ≠ p) (q r : Nat × Nat) (k : Level) (u : Nat × Nat) :
    (taken s l p q r).line k u = if k = l ∧ u = q then Line.reset s.cfg.lineSize
      else if k = p ∧ u = r then
        (if (s.line l q).dirty then { s.line p r with data := (s.line l q).data, dirty := true } else s.line p r)
      else s.line k u := by
  unfold taken
  rw [line_cnt, line_inv]
  by_cases h1 : k = l ∧ u = q
  · rw [if_pos h1, if_pos h1]; split <;> rfl
  · rw [if_neg h1, if_neg h1]
    split
    · rw [line_cnt, line_put]
    · split
      · rename_i h; obtain ⟨rfl, rfl⟩ := h; rfl
      · rfl

/-- A taken line whose parent's presence flag is then cleared has left. -/
theorem merged_taken {s : State} {l p : Level} {q r : Nat × Nat} (h : Leaves s l p q r) :
    Merged s (put (taken s l p q r) p r (((taken s l p q r).line p r).withPresence l false)) l p q r := by
  have hne := (Level.parent_ne h.parent).1
  refine ⟨?_, ?_, ⟨(s.line p r).lru, ?_⟩, fun k u h3 h4 => ?_, fun hL => ?_⟩
  · unfold taken; split <;> rfl
  · rw [line_put, if_neg (by simp [hne]), line_taken s hne, if_pos ⟨rfl, rfl⟩]
  · rw [line_put, if_pos ⟨rfl, rfl⟩, line_taken s hne, if_neg (by simp [hne.symm]), if_pos ⟨rfl, rfl⟩]
    unfold Line.merged
    split <;> rfl
  · rw [line_put, if_neg (by simpa using h4), line_taken s hne, if_neg (by simpa using h3), if_neg (by simpa using h4)]
  · refine Lists.put ?_ ?_
    · unfold taken
      split
      · refine Lists.cnt (Lists.inv (Lists.cnt (Lists.put hL ?_)))
        exact h.validP
      · exact hL.inv.cnt
    · rw [(withPresence_valid ..).1, line_taken s hne, if_neg (by simp [hne.symm]), if_pos ⟨rfl, rfl⟩]
      split <;> exact h.validP

/-- One child of an L2 line is drained. -/
theorem drainChild_run {s : State} (hl : 0 < s.cfg.lineSize) (hS : Shape s) (c : Side) {r : Nat × Nat} {b : Nat}
    (hv : (s.line .l2 r).valid = true) (hb : s.addr .l2 r = b) :
    ((s.line .l2 r).presentIn c = false ∧ drainChild c r b s = .ok () s) ∨
    ∃ q t, Leaves s c.level .l2 q r ∧ Merged s t c.level .l2 q r ∧ drainChild c r b s = .ok () t := by
  cases hp : (s.line .l2 r).presentIn c with
  | false =>
    left
    refine ⟨rfl, ?_⟩
    unfold drainChild
    rw [Op.bind_ok (getLine_run ..), hp]; rfl
  | true =>
    right
    obtain ⟨q, h1, h2⟩ := hS.down c.level .l2 (Side.parent_level c) r hv ((Line.presentIn_eq _ c).symm.trans hp)
    have hlv : Leaves s c.level .l2 q r := ⟨Side.parent_level c, h1, hv, h2.symm, fun k hk => absurd hk (parent_side c)⟩
    have hlk : s.lookup b c.level = some q :=
      (hS.lookup hl).2 ⟨h1, by rw [h2, hb]; exact (by rw [← hb]; exact (block_addrOf ..).symm)⟩
    refine ⟨q, _, hlv, merged_taken hlv, ?_⟩
    have ht : takeChild c r b s = .ok () (taken s c.level .l2 q r) := by
      unfold takeChild taken
      rw [Op.get_bind_run, hlk]; dsimp only
      cases (s.line c.level q).dirty <;> rfl
    unfold drainChild
    rw [Op.bind_ok (getLine_run ..), hp, if_pos rfl, Op.bind_ok ht]; rfl

/-- A write of the presence flag of a child level in the parent's line of a block that the parent holds. -/
theorem markPresence_hit {s : State} {l p : Level} {b : Nat} {v : Bool} {r : Nat × Nat} (hp : Level.parent l = some p)
    (h : s.lookup b p = some r) : markPresence l b v s = .ok () (put s p r ((s.line p r).withPresence l v)) := by
  unfold markPresence
  rw [Op.get_bind_run, hp]; dsimp only
  rw [h]; rfl

/-- What a line's bytes do to its parent's line, if they are dirty. -/
def handed (s : State) (l p : Level) (q r : Nat × Nat) : State :=
  if (s.line l q).dirty then
    put (stamp (cnt s l (·.writeback))) p r { s.line p r with
      data := (s.line l q).data, dirty := true, lru := s.cache.globalCounter + 1 }
  else s

theorem line_handed (s : State) (l p : Level) (q r : Nat × Nat) (k : Level) (u : Nat × Nat) :
    (handed s l p q r).line k u = if k = p ∧ u = r then
      (if (s.line l q).dirty then { s.line p r with data := (s.line l q).data, dirty := true, lru := s.cache.globalCounter + 1 }
        else s.line p r) else s.line k u := by
  unfold handed
  split
  · rw [line_put, line_stamp, line_cnt]
  · split
    · rename_i h; obtain ⟨rfl, rfl⟩ := h; rfl
    · rfl

theorem lookup_handed (s : State) (l p : Level) (q r : Nat × Nat) (b : Nat) (k : Level) :
    (handed s l p q r).lookup b k = s.lookup b k := by
  unfold handed
  split
  · rw [lookup_put (by simp [line_stamp, line_cnt]) (by simp [line_stamp, line_cnt]), lookup_stamp, lookup_cnt]
  · rfl

theorem stats_handed (s : State) (l p : Level) (q r : Nat × Nat) (k : Level) : ((handed s l p q r).cache.level k).stats =
    if (s.line l q).dirty = true ∧ k = l then (s.cache.level k).stats.writeback else (s.cache.level k).stats := by
  unfold handed
  by_cases h : (s.line l q).dirty = true
  · rw [if_pos h, stats_put, stats_stamp, stats_cnt]; simp [h]
  · rw [if_neg h, if_neg (by simp [h])]

theorem globalCounter_handed (s : State) (l p : Level) (q r : Nat × Nat) : (handed s l p q r).cache.globalCounter =
    s.cache.globalCounter + if (s.line l q).dirty = true then 1 else 0 := by
  unfold handed
  split
  · rw [globalCounter_put]; unfold stamp; simp [globalCounter_cnt]
  · rfl

theorem level_handed (s : State) (l p : Level) (q r : Nat × Nat) (k : Level) (h : k ≠ l) (h' : k ≠ p) :
    (handed s l p q r).cache.level k = s.cache.level k := by
  unfold handed
  split
  · rw [level_put _ _ _ _ _ h', level_stamp, level_cnt _ _ _ _ h]
  · rfl

theorem Lists.handed {s : State} (hL : Lists s) {l p : Level} {q r : Nat × Nat} (hv : (s.line p r).valid = true) :
    Lists (handed s l p q r) := by
  unfold Machine.handed
  split
  · exact hL.cnt.stamp.put hv
  · exact hL

/-- Handing its bytes over, having its presence flag cleared any number of times, and being invalidated is leaving. -/
theorem merged_handed {s : State} {l p : Level} {q r : Nat × Nat} (h : Leaves s l p q r) :
    Merged s (inv (put (handed s l p q r) p r (((handed s l p q r).line p r).withPresence l false)) l q) l p q r := by
  have hne := (Level.parent_ne h.parent).1
  have hcfg : (handed s l p q r).cfg = s.cfg := by unfold handed; split <;> rfl
  refine ⟨?_, ?_, ⟨s.cache.globalCounter + 1, ?_⟩, fun k u h3 h4 => ?_, fun hL => ?_⟩
  · unfold handed; split <;> rfl
  · rw [line_inv, if_pos ⟨rfl, rfl⟩]; exact congrArg (fun c : Config => Line.reset c.lineSize) hcfg
  · rw [line_inv, if_neg (by simp [hne.symm]), line_put, if_pos ⟨rfl, rfl⟩, line_handed, if_pos ⟨rfl, rfl⟩]
    rfl
  · rw [line_inv, if_neg (by simpa using h3), line_put, if_neg (by simpa using h4), line_handed, if_neg (by simpa using h4)]
  · refine ((hL.handed h.validP).put ?_).inv
    rw [(withPresence_valid ..).1, line_handed, if_pos ⟨rfl, rfl⟩]
    split <;> exact h.validP

theorem put_put (s : State) (l : Level) (q : Nat × Nat) (x y : Line) : put (put s l q x) l q y = put s l q y := by
  unfold put State.withLines
  simp [Tab.set_set]

theorem inv_cnt (s : State) (l k : Level) (q : Nat × Nat) (f : CacheStats → CacheStats) :
    inv (cnt s k f) l q = cnt (inv s l q) k f := by
  unfold inv cnt State.withLines
  cases l <;> cases k <;> rfl

/-- Counting a statistic changes nothing that a line's leaving needs or does. -/
theorem Merged.of_cnt {s t : State} {l p : Level} {q r : Nat × Nat} {k : Level} {f : CacheStats → CacheStats}
    (m : Merged (cnt s k f) t l p q r) : Merged s t l p q r where
  cache := (onlyCache_cnt s k f).trans m.cache
  child := m.child
  parent := by
    obtain ⟨g, hg⟩ := m.parent
    exact ⟨g, by rw [hg, line_cnt, line_cnt]⟩
  rest k u h1 h2 := by rw [m.rest k u h1 h2, line_cnt]
  lists hL := m.lists hL.cnt

theorem Leaves.cnt {s : State} {l p : Level} {q r : Nat × Nat} (h : Leaves s l p q r) (k : Level)
    (f : CacheStats → CacheStats) : Leaves (cnt s k f) l p q r := by
  obtain ⟨h1, h2, h3, h4, h5⟩ := h
  refine ⟨h1, by rw [line_cnt]; exact h2, by rw [line_cnt]; exact h3, ?_, fun k' hk => by rw [line_cnt]; exact h5 k' hk⟩
  unfold State.addr at *
  rw [line_cnt, line_cnt]; exact h4

theorem Shape.cnt {s : State} (h : Shape s) (k : Level) (f : CacheStats → CacheStats) : Shape (cnt s k f) := by
  have ha : ∀ l q, (Machine.cnt s k f).addr l q = s.addr l q := fun l q => by unfold State.addr; rw [line_cnt]; rfl
  obtain ⟨h1, h2, h3, h4⟩ := h
  refine ⟨?_, ?_, ?_, ?_⟩ <;> simp only [line_cnt, ha] <;> assumption

/-- The parent's part of a write-back of a block the parent holds. -/
theorem writeParent_hit {s : State} {install : Nat → List Byte → Bool → Op Unit} {p : Level} {b : Nat} {d : List Byte}
    {r : Nat × Nat} (h : s.lookup b p = some r) : writeParent install p b d s = .ok ()
      (put (stamp s) p r { s.line p r with data := d, dirty := true, lru := s.cache.globalCounter + 1 }) := by
  unfold writeParent
  rw [Op.get_bind_run, h]; dsimp only
  rw [Op.bind_ok (nextStamp_run s), Op.bind_ok (getLine_run ..), line_stamp]; rfl

theorem Leaves.lookup {s : State} {l p : Level} {q r : Nat × Nat} (h : Leaves s l p q r) (hl : 0 < s.cfg.lineSize)
    (hS : Shape s) : s.lookup (s.addr l q) p = some r :=
  (hS.lookup hl).2 ⟨h.validP, by rw [h.addr]; exact (block_addrOf ..).symm⟩

/-- t is what the eviction of the line of slot q of level l leaves: with that line invalidated, lines have left their levels,
and every other line of the level and every line of its parent stays. -/
structure Evicted (s t : State) (l : Level) (q : Nat × Nat) : Prop where
  lists : Lists t
  settled : Settled s (inv t l q)
  near : l ≠ .l3 → onlyCache s t
  keeps : ∀ k u, k = l ∨ Level.parent l = some k → (k, u) ≠ (l, q) → (s.line k u).valid = true →
    ((inv t l q).line k u).valid = true

/-- What the eviction of a first-level line does, its block's L2 line being that of slot r: it is counted, the L2 line takes its
bytes if they are dirty, and loses its presence flag. -/
theorem evictL1_eq {s : State} (c : Side) {q r : Nat × Nat} (h : s.lookup (s.addr c.level q) .l2 = some r) :
    let s0 := Machine.cnt s c.level (·.evict)
    evictL1 c q s = .ok () (put (handed s0 c.level .l2 q r) .l2 r
      (((handed s0 c.level .l2 q r).line .l2 r).withPresence c.level false)) := by
  intro s0
  have hl0 : s0.line c.level q = s.line c.level q := line_cnt ..
  have hlk : s0.lookup (s0.addr c.level q) .l2 = some r := by
    have : s0.addr c.level q = s.addr c.level q := by unfold State.addr; rw [hl0]; rfl
    rw [this, lookup_cnt]; exact h
  unfold evictL1
  rw [Op.bind_ok (countAt_run ..), Op.get_bind_run]; dsimp only
  change (do
    if (s0.line c.level q).dirty = true then writebackL1 c (s0.addr c.level q) (s0.line c.level q).data
    markPresence c.level (s0.addr c.level q) false : Op Unit) s0 = _
  have last : ∀ u : State,
      (∀ b k, u.lookup b k = s0.lookup b k) →
      markPresence c.level (s0.addr c.level q) false u = .ok () (put u .l2 r ((u.line .l2 r).withPresence c.level false)) :=
    fun u hu => markPresence_hit (Side.parent_level c) (by rw [hu]; exact hlk)
  by_cases hd : (s0.line c.level q).dirty = true
  · rw [if_pos hd]
    have hw : writebackL1 c (s0.addr c.level q) (s0.line c.level q).data s0 = .ok () (put (handed s0 c.level .l2 q r) .l2 r
        (((handed s0 c.level .l2 q r).line .l2 r).withPresence c.level false)) := by
      unfold writebackL1
      rw [Op.bind_ok (countAt_run ..), Op.bind_ok (writeParent_hit (by rw [lookup_cnt]; exact hlk))]
      have : put (stamp (cnt s0 c.level fun x => x.writeback)) .l2 r
          { (cnt s0 c.level fun x => x.writeback).line .l2 r with
            data := (s0.line c.level q).data, dirty := true, lru := (cnt s0 c.level fun x => x.writeback).cache.globalCounter + 1 } =
          handed s0 c.level .l2 q r := by
        unfold handed
        rw [if_pos hd, line_cnt]
        have : (cnt s0 c.level fun x => x.writeback).cache.globalCounter = s0.cache.globalCounter := by
          unfold cnt; simp
        rw [this]
      rw [this]
      exact last _ fun b k => lookup_handed ..
    rw [Op.bind_ok hw]
    refine (last _ fun b k => ?_).trans (by rw [put_put, line_put, if_pos ⟨rfl, rfl⟩, withPresence_idem])
    rw [lookup_put (withPresence_valid ..).1 (withPresence_valid ..).2.1, lookup_handed]
  · rw [if_neg hd]
    have : handed s0 c.level .l2 q r = s0 := by unfold handed; rw [if_neg hd]
    rw [this]
    exact last _ fun _ _ => rfl

/-- A first-level line is evicted. -/
theorem evictL1_run {s : State} (hC : CacheSound s) (c : Side) {q : Nat × Nat} (hv : (s.line c.level q).valid = true) :
    ∃ t, evictL1 c q s = .ok () t ∧ Evicted s t c.level q := by
  obtain ⟨hl, hL, hS, -⟩ := hC.slots
  obtain ⟨r, h⟩ := leaves_of_valid hS (Side.parent_level c) hv fun k hk => absurd hk (parent_side c)
  obtain ⟨s0, e0⟩ : ∃ t, t = cnt s c.level (·.evict) := ⟨_, rfl⟩
  have h0 : Leaves s0 c.level .l2 q r := e0 ▸ h.cnt ..
  have hm := Merged.of_cnt (k := c.level) (f := (·.evict)) (by rw [← e0]; exact merged_handed h0)
  refine ⟨_, by rw [evictL1_eq c (h.lookup hl hS), ← e0], ?_, hm.settled h hC, fun _ => ?_,
    fun k u _ hne hu => (hm.slots h k u).1.2 ⟨hu, hne⟩⟩
  · refine Lists.put (Lists.handed (e0 ▸ hL.cnt) h0.validP) ?_
    rw [(withPresence_valid ..).1, line_handed, if_pos ⟨rfl, rfl⟩]
    split <;> exact h0.validP
  · rw [e0]; unfold handed; split <;> rfl

theorem CacheSound.cnt {s : State} (h : CacheSound s) (k : Level) (f : CacheStats → CacheStats) :
    Settled s (cnt s k f) := by
  obtain ⟨hl, hL, hS, hlen, hi, hb⟩ := h.slots
  have ha : ∀ l q, (Machine.cnt s k f).addr l q = s.addr l q := fun l q => by unfold State.addr; rw [line_cnt]; rfl
  refine ⟨.of_slots h.legal hL.cnt (hS.cnt k f) (fun l q hv => ?_) (fun q => by rw [line_cnt]; exact hi q) (fun q hv => ?_)
    h.memory h.regions h.injective, fun a => ?_, fun l q hv => ⟨by rw [line_cnt] at hv; exact hv, ha l q⟩, rfl,
    fun _ => rfl, .of_cache (onlyCache_cnt s k f)⟩
  · rw [line_cnt] at hv ⊢; exact hlen l q hv
  · rw [line_cnt] at hv; rw [ha]; exact hb q hv
  · unfold State.newest State.dirtyByte
    simp only [lookup_cnt, line_cnt]; rfl

/-- The children of an L2 line are drained: it stays, and no first-level cache holds its block. -/
theorem drainChildren_run {s : State} (hC : CacheSound s) {r : Nat × Nat} {b : Nat} (hv : (s.line .l2 r).valid = true)
    (hb : s.addr .l2 r = b) : ∃ t, drainChildren r b s = .ok () t ∧ Settled s t ∧ onlyCache s t ∧
      (t.line .l2 r).valid = true ∧ t.addr .l2 r = b ∧
      (∀ k, Level.parent k = some .l2 → (t.line .l2 r).present k = false) ∧ (∀ u, t.line .l3 u = s.line .l3 u) ∧
      ∀ u, (s.line .l2 u).valid = true → (t.line .l2 u).valid = true := by
  have one : ∀ (c : Side) {u : State}, CacheSound u → (u.line .l2 r).valid = true → u.addr .l2 r = b →
      ∃ t, drainChild c r b u = .ok () t ∧ Settled u t ∧ onlyCache u t ∧ (t.line .l2 r).valid = true ∧ t.addr .l2 r = b ∧
        (∀ k, (t.line .l2 r).present k = if k = c.level then false else (u.line .l2 r).present k) ∧
        (∀ v, t.line .l3 v = u.line .l3 v) ∧ ∀ v, (u.line .l2 v).valid = true → (t.line .l2 v).valid = true := by
    intro c u hC hv hb
    obtain ⟨hl, hL, hS, -⟩ := hC.slots
    rcases drainChild_run hl hS c hv hb with ⟨hp, hr⟩ | ⟨q, t, hlv, hm, hr⟩
    · refine ⟨u, hr, .refl hC, rfl, hv, hb, fun k => ?_, fun _ => rfl, fun _ h => h⟩
      split
      · rename_i hk; subst hk; exact (Line.presentIn_eq _ c).symm.trans hp
      · rfl
    · have hne := (Level.parent_ne hlv.parent).1
      have h2 : (.l2, r) ≠ (c.level, q) := by simp [hne.symm]
      refine ⟨t, hr, hm.settled hlv hC, hm.cache, (hm.slots hlv .l2 r).1.2 ⟨hv, h2⟩, ((hm.slots hlv .l2 r).2 h2).trans hb,
        fun k => ?_, fun v => hm.rest _ _ (by cases c <;> simp [Side.level]) (by simp),
        fun v hv => (hm.slots hlv .l2 v).1.2 ⟨hv, by simp [hne.symm]⟩⟩
      rw [hm.present hlv h2]; simp
  obtain ⟨t1, r1, s1, c1, v1, a1, p1, l1, m1⟩ := one .l1d hC hv hb
  obtain ⟨t2, r2, s2, c2, v2, a2, p2, l2, m2⟩ := one .l1i s1.sound v1 a1
  refine ⟨t2, ?_, s1.trans s2, c1.trans c2, v2, a2, fun k hk => ?_, fun u => (l2 u).trans (l1 u), fun u h => m2 u (m1 u h)⟩
  · unfold drainChildren; rw [Op.bind_ok r1, r2]
  · rw [p2, p1]
    cases k <;> cases hk <;> rfl

/-- An L2 line that no first-level cache holds leaves for an L3 line. -/
theorem drainL2Child_run {s : State} (hC : CacheSound s) {r : Nat × Nat} {b : Nat} (hv : (s.line .l3 r).valid = true)
    (hb : s.addr .l3 r = b) (hp : (s.line .l3 r).presentL2 = true) : ∃ t, drainL2Child r b s = .ok () t ∧ Settled s t ∧
      onlyCache s t ∧ (t.line .l3 r).valid = true ∧ t.addr .l3 r = b ∧ (t.line .l3 r).presentL2 = false ∧
      ∀ u, (s.line .l3 u).valid = true → (t.line .l3 u).valid = true := by
  obtain ⟨hl, hL, hS, -⟩ := hC.slots
  obtain ⟨q, h1, h2⟩ := hS.down .l2 .l3 rfl r hv hp
  have hlk : s.lookup b .l2 = some q :=
    (hS.lookup hl).2 ⟨h1, by rw [h2, hb]; exact (by rw [← hb]; exact (block_addrOf ..).symm)⟩
  obtain ⟨t1, r1, s1, c1, v1, a1, p1, l1, -⟩ := drainChildren_run hC h1 (h2.trans hb)
  have hv1 : (t1.line .l3 r).valid = true := by rw [l1]; exact hv
  have ha1 : t1.addr .l3 r = b := by unfold State.addr; rw [l1, s1.cfg]; exact hb
  have hlv : Leaves t1 .l2 .l3 q r := ⟨rfl, v1, hv1, ha1.trans a1.symm, p1⟩
  have hm := merged_taken hlv
  have h3 : ((.l3, r) : Level × (Nat × Nat)) ≠ (.l2, q) := by simp
  refine ⟨_, ?_, s1.trans (hm.settled hlv s1.sound), c1.trans hm.cache, (hm.slots hlv .l3 r).1.2 ⟨hv1, h3⟩,
    ((hm.slots hlv .l3 r).2 h3).trans ha1, (hm.present hlv h3 .l2).trans (by simp),
    fun u hu => (hm.slots hlv .l3 u).1.2 ⟨by rw [l1]; exact hu, by simp⟩⟩
  have ht : takeL2Child r b s = .ok () (taken t1 .l2 .l3 q r) := by
    unfold takeL2Child taken
    rw [Op.get_bind_run, hlk]; dsimp only
    rw [Op.bind_ok r1, Op.bind_ok (getLine_run ..)]
    cases (t1.line .l2 q).dirty <;> rfl
  unfold drainL2Child
  rw [Op.bind_ok ht]; rfl

/-- An L2 line is evicted, its children before it. -/
theorem evictL2_run {s : State} (hC : CacheSound s) {q : Nat × Nat} (hv : (s.line .l2 q).valid = true) :
    ∃ t, evictL2 q s = .ok () t ∧ Evicted s t .l2 q := by
  have hc0 := hC.cnt .l2 (·.evict)
  obtain ⟨s0, e0⟩ : ∃ t, t = cnt s .l2 (·.evict) := ⟨_, rfl⟩
  rw [← e0] at hc0
  have hl0 : ∀ k u, s0.line k u = s.line k u := fun k u => by rw [e0]; exact line_cnt s .l2 (·.evict) k u
  obtain ⟨t1, r1, s1, c1, v1, a1, p1, k1, m1⟩ := drainChildren_run hc0.sound (by rw [hl0]; exact hv) rfl
  obtain ⟨hl, hL, hS, -⟩ := s1.sound.slots
  obtain ⟨r, hlv⟩ := leaves_of_valid hS (p := .l3) rfl v1 p1
  have hm := merged_handed hlv
  have hlk := hlv.lookup hl hS
  rw [a1] at hlk
  refine ⟨put (handed t1 .l2 .l3 q r) .l3 r (((handed t1 .l2 .l3 q r).line .l3 r).withPresence .l2 false), ?_, ?_,
    hc0.trans (s1.trans (hm.settled hlv s1.sound)), fun _ => ?_, fun k u hk hne hu => ?_⟩
  · have hmark : ∀ u : State, (∀ b k, u.lookup b k = t1.lookup b k) →
        markPresence .l2 (s0.addr .l2 q) false u = .ok () (put u .l3 r ((u.line .l3 r).withPresence .l2 false)) :=
      fun u hu => markPresence_hit rfl (by rw [hu]; exact hlk)
    unfold evictL2
    rw [Op.bind_ok (countAt_run ..), ← e0, Op.get_bind_run]; dsimp only
    change (do
      drainChildren q (s0.addr .l2 q)
      let x ← getLine .l2 q
      if x.dirty = true then writebackL2 (s0.addr .l2 q) x.data
      markPresence .l2 (s0.addr .l2 q) false : Op Unit) s0 = _
    rw [Op.bind_ok r1, Op.bind_ok (getLine_run ..)]
    by_cases hd : (t1.line .l2 q).dirty = true
    · rw [if_pos hd]
      have hw : writebackL2 (s0.addr .l2 q) (t1.line .l2 q).data t1 = .ok () (handed t1 .l2 .l3 q r) := by
        unfold writebackL2
        rw [Op.bind_ok (countAt_run ..), writeParent_hit (by rw [lookup_cnt]; exact hlk)]
        unfold handed
        rw [if_pos hd, line_cnt]
        have : (cnt t1 .l2 fun x => x.writeback).cache.globalCounter = t1.cache.globalCounter := by
          unfold cnt; simp
        rw [this]
      rw [Op.bind_ok hw]
      exact hmark _ fun b k => lookup_handed ..
    · rw [if_neg hd]
      have : handed t1 .l2 .l3 q r = t1 := by unfold handed; rw [if_neg hd]
      rw [this]
      exact hmark _ fun _ _ => rfl
  · refine Lists.put (hL.handed hlv.validP) ?_
    rw [(withPresence_valid ..).1, line_handed, if_pos ⟨rfl, rfl⟩]
    split <;> exact hlv.validP
  · have : onlyCache t1 (put (handed t1 .l2 .l3 q r) .l3 r
        (((handed t1 .l2 .l3 q r).line .l3 r).withPresence .l2 false)) := by unfold handed; split <;> rfl
    exact (e0 ▸ onlyCache_cnt s .l2 (·.evict) : onlyCache s s0).trans (c1.trans this)
  · refine (hm.slots hlv k u).1.2 ⟨?_, hne⟩
    rw [← hl0] at hu
    rcases hk with rfl | hk
    · exact m1 u hu
    · cases hk
      rw [k1]; exact hu

/-! ## An L3 line that leaves for DRAM -/

/-- An address of a block lies its offset past the block. -/
theorem block_add {c : Config} (a : Nat) : Config.block c a + a % c.lineSize = a := by
  unfold Config.block
  have := Nat.mod_le a c.lineSize
  omega

theorem block_of_add {c : Config} {l : Level} {q : Nat × Nat} {x : Line} {i : Nat} (hi : i < c.lineSize) :
    Config.block c (Config.addrOf c l q x + i) = Config.addrOf c l q x := by
  unfold Config.block Config.addrOf
  rw [Nat.mul_add_mod_self_right, Nat.mod_eq_of_lt hi]; omega

/-- Inside a range of RAM, the offset of an address. -/
theorem ramRange_offset {s : State} (hR : RegionsOk s.bus) {a n o i : Nat} (h : s.ramRange a n o) (hi : i < n) :
    s.ramOffset (a + i) = some (o + i) := (ramRange_sub hR h (i := i) (m := 1) (by omega) (by omega)).2.2.1

/-- t is s with the line of slot q, which no child holds, gone from L3 to DRAM. -/
structure Sunk (s t : State) (q : Nat × Nat) : Prop where
  frame : t = { s with cache := t.cache, dram := t.dram, bus := t.bus }
  lines : ∀ k u, t.line k u = if k = .l3 ∧ u = q then Line.reset s.cfg.lineSize else s.line k u
  lists : Lists s → Lists t
  regions : t.bus.regions = s.bus.regions
  faults : t.bus.faults = s.bus.faults ∧ t.dram.faultCount = s.dram.faultCount
  memory : Memory.wf t.cfg.fillByte t.dram.cells
  clean : (s.line .l3 q).dirty = false → ∀ o, t.dramByte o = s.dramByte o
  dirty : (s.line .l3 q).dirty = true → ∃ o, s.ramRange (s.addr .l3 q) s.cfg.lineSize o ∧
    ∀ x, t.dramByte x = if o ≤ x ∧ x < o + s.cfg.lineSize then (s.line .l3 q).data.getD (x - o) 0 else s.dramByte x

theorem Sunk.settled {s t : State} {q : Nat × Nat} (m : Sunk s t q) (hC : CacheSound s)
    (hv : (s.line .l3 q).valid = true) (hp : (s.line .l3 q).presentL2 = false) : Settled s t := by
  obtain ⟨hl, hL, hS, hlen, hi, hb⟩ := hC.slots
  have hcfg : t.cfg = s.cfg := by rw [m.frame]
  have hro : ∀ a, t.ramOffset a = s.ramOffset a := fun a => by
    unfold State.ramOffset Bus.find; rw [m.regions]
  have hval : ∀ k u, (t.line k u).valid = true ↔ (s.line k u).valid = true ∧ ¬ (k = .l3 ∧ u = q) := by
    intro k u
    rw [m.lines]
    split
    · rename_i h; simp [Line.reset, h]
    · rename_i h; simp [h]
  have hln : ∀ {k u}, (t.line k u).valid = true → t.line k u = s.line k u := fun h => by
    rw [m.lines, if_neg ((hval _ _).1 h).2]
  have had : ∀ {k u}, (t.line k u).valid = true → t.addr k u = s.addr k u := fun h => by
    unfold State.addr; rw [hln h, hcfg]
  -- no level above holds the block
  have h2 : ∀ u, (s.line .l2 u).valid = true → s.addr .l2 u ≠ s.addr .l3 q := by
    intro u hu he
    obtain ⟨r, e1, e2, e3⟩ := hS.up .l2 .l3 rfl u hu
    rw [hS.inj .l3 r q e1 hv (by rw [e2, he])] at e3
    exact absurd (hp.symm.trans e3) (by simp)
  have h1 : ∀ u, (s.line .l1d u).valid = true → s.addr .l1d u ≠ s.addr .l3 q := by
    intro u hu he
    obtain ⟨r, e1, e2, -⟩ := hS.up .l1d .l2 rfl u hu
    exact h2 r e1 (by rw [e2, he])
  have hST : Shape t := by
    refine ⟨fun k u h => by rw [hcfg]; exact hS.range k u ((hval k u).1 h).1,
      fun k u v hu hv' he => hS.inj k u v ((hval k u).1 hu).1 ((hval k v).1 hv').1 (by rw [← had hu, ← had hv', he]),
      fun k k' hk u hu => ?_, fun k k' hk u hu hpr => ?_⟩
    · obtain ⟨r, e1, e2, e3⟩ := hS.up k k' hk u ((hval k u).1 hu).1
      have hr : ¬ (k' = .l3 ∧ r = q) := by
        rintro ⟨rfl, rfl⟩
        cases k <;> cases hk
        exact h2 u ((hval _ u).1 hu).1 e2.symm
      have hrv := (hval k' r).2 ⟨e1, hr⟩
      exact ⟨r, hrv, by rw [had hrv, had hu, e2], by rw [hln hrv, e3]⟩
    · rw [hln hu] at hpr
      obtain ⟨w, e1, e2⟩ := hS.down k k' hk u ((hval k' u).1 hu).1 hpr
      have hw : (t.line k w).valid = true := (hval k w).2 ⟨e1, by rintro ⟨rfl, -⟩; cases hk⟩
      exact ⟨w, hw, by rw [had hw, had hu, e2]⟩
  refine ⟨.of_slots (by rw [hcfg]; exact hC.legal) (m.lists hL) hST (fun k u h => ?_) (fun u => ?_) (fun u h => ?_) m.memory
    ?_ (fun a b o ha hb => hC.injective a b o (by rw [← hro, ha]) (by rw [← hro, hb])), fun a => ?_,
    fun k u h => ⟨((hval k u).1 h).1, had h⟩, m.frame, hro, m.regions, m.faults.1, m.faults.2, fun o ho => ?_⟩
  · rw [hln h, hcfg]; exact hlen k u ((hval k u).1 h).1
  · rw [m.lines, if_neg (by simp)]; exact hi u
  · obtain ⟨o, e1, e2, e3, e4, r, e5, e6⟩ := hb u ((hval _ u).1 h).1
    have hf : t.bus.find = s.bus.find := by funext x; unfold Bus.find; rw [m.regions]
    refine ⟨o, by rw [hcfg]; exact e1, by rw [had h]; exact e2, by rw [had h, hro]; exact e3, by rw [hcfg]; exact e4, r, ?_, ?_⟩
    · rw [hf, had h]; exact e5
    · rw [had h, hcfg]; exact e6
  · have := hC.regions
    unfold RegionsOk at *
    rw [m.regions]; exact this
  · -- the newest byte
    have hlt : 0 < t.cfg.lineSize := by rw [hcfg]; exact hl
    have hbl : Config.block t.cfg a = Config.block s.cfg a := by rw [hcfg]
    have same : ∀ k, ¬ (k = .l3 ∧ Config.block s.cfg a = s.addr .l3 q) → t.dirtyByte k a = s.dirtyByte k a := by
      intro k hk
      unfold State.dirtyByte
      cases hs : s.lookup a k with
      | none =>
        have : t.lookup a k = none := by
          rw [hST.lookup_none hlt]
          intro u hu
          rw [had hu, hbl]
          exact (hS.lookup_none hl).1 hs u ((hval k u).1 hu).1
        rw [this]
      | some u =>
        obtain ⟨e1, e2⟩ := (hS.lookup hl).1 hs
        have hu : (t.line k u).valid = true := (hval k u).2 ⟨e1, by rintro ⟨rfl, rfl⟩; exact hk ⟨rfl, e2.symm⟩⟩
        have : t.lookup a k = some u := (hST.lookup hlt).2 ⟨hu, by rw [had hu, hbl, e2]⟩
        rw [this]; dsimp only
        rw [hln hu, hcfg]
    unfold State.newest
    rw [hro]
    by_cases hba : Config.block s.cfg a = s.addr .l3 q
    · have e3 : s.lookup a .l3 = some q := (hS.lookup hl).2 ⟨hv, hba.symm⟩
      have d1 : s.dirtyByte .l1d a = none := by
        unfold State.dirtyByte
        rw [(hS.lookup_none hl).2 fun u hu => by rw [hba]; exact h1 u hu]
      have d2 : s.dirtyByte .l2 a = none := by
        unfold State.dirtyByte
        rw [(hS.lookup_none hl).2 fun u hu => by rw [hba]; exact h2 u hu]
      have d3 : t.dirtyByte .l3 a = none := by
        unfold State.dirtyByte
        have : t.lookup a .l3 = none := by
          rw [hST.lookup_none hlt]
          intro u hu
          rw [had hu, hbl, hba]
          exact fun he => ((hval _ u).1 hu).2 ⟨rfl, hS.inj _ u q ((hval _ u).1 hu).1 hv he⟩
        rw [this]
      rw [same .l1d (by simp), same .l2 (by simp), d1, d2, d3]
      unfold State.dirtyByte
      rw [e3]; dsimp only
      cases hd : (s.line .l3 q).dirty with
      | false =>
        have : t.dramByte = s.dramByte := funext (m.clean hd)
        simp [this]
      | true =>
        obtain ⟨o, ho, hx⟩ := m.dirty hd
        have hlt' := Nat.mod_lt a hl
        have := ramRange_offset hC.regions ho hlt'
        rw [← hba, block_add] at this
        rw [this]
        simp only [if_true, Option.none_or, Option.getD_some, Option.getD_none, Option.elim_some]
        rw [hx, if_pos (by omega), Nat.add_sub_cancel_left]
    · rw [same .l1d (by simp), same .l2 (by simp), same .l3 (by simp [hba])]
      cases hra : s.ramOffset a with
      | none => rfl
      | some o' =>
        have : t.dramByte o' = s.dramByte o' := by
          cases hd : (s.line .l3 q).dirty with
          | false => exact m.clean hd o'
          | true =>
            obtain ⟨o, ho, hx⟩ := m.dirty hd
            rw [hx, if_neg]
            rintro ⟨g1, g2⟩
            have h3 := ramRange_offset hC.regions ho (i := o' - o) (by omega)
            rw [show o + (o' - o) = o' by omega] at h3
            have := hC.injective _ _ _ hra h3
            apply hba
            rw [this]
            exact block_of_add (by omega)
        simp [this]
  · cases hd : (s.line .l3 q).dirty with
    | false => exact m.clean hd o
    | true =>
      obtain ⟨o', ho', hx⟩ := m.dirty hd
      rw [hx, if_neg]
      rintro ⟨g1, g2⟩
      have h3 := ramRange_offset hC.regions ho' (i := o - o') (by omega)
      rw [show o' + (o - o') = o by omega] at h3
      exact ho _ h3

/-- What an L3 eviction does after the drain of its child: the line is written to DRAM if it is dirty. -/
theorem sink_run {s : State} (hC : CacheSound s) {q : Nat × Nat} (hv : (s.line .l3 q).valid = true)
    (hp : (s.line .l3 q).presentL2 = false) : ∃ t, Lists t ∧ Sunk s (inv t .l3 q) q ∧
      (do
        let v ← getLine .l3 q
        if v.dirty then
          writebackL3 (s.addr .l3 q) v.data
          let v ← getLine .l3 q
          putLine .l3 q { v with dirty := false } : Op Unit) s = .ok () t := by
  obtain ⟨hl, hL, hS, hlen, hi, hb⟩ := hC.slots
  rw [Op.bind_ok (getLine_run ..)]
  by_cases hd : (s.line .l3 q).dirty = true
  · obtain ⟨o, ho⟩ := hb q hv
    have hlen' := hlen _ q hv
    obtain ⟨s1, e1⟩ : ∃ t, t = cnt s .l3 (·.writeback) := ⟨_, rfl⟩
    obtain ⟨s2, e2⟩ : ∃ t : State, t = { s1 with
      bus := s1.bus.afterWrite (s.addr .l3 q) (s.line .l3 q).data
      dram := { s1.dram with cells := Memory.writeBytes s1.cfg.fillByte s1.dram.cells o (s.line .l3 q).data } } := ⟨_, rfl⟩
    have hw : writebackL3 (s.addr .l3 q) (s.line .l3 q).data s = .ok () s2 := by
      unfold writebackL3
      rw [Op.bind_ok (countAt_run ..), ← e1]
      unfold tagged busWrite
      have : s1.ramRange (s.addr .l3 q) (s.line .l3 q).data.length o := by rw [hlen', e1]; exact ho
      rw [busWriteWith_ram this, e2]
    have hl2 : ∀ k u, s2.line k u = s.line k u := fun k u => by
      rw [e2, e1]; exact line_cnt s .l3 (·.writeback) k u
    obtain ⟨x, hx⟩ : ∃ x, x = { s2.line .l3 q with dirty := false } := ⟨_, rfl⟩
    have hL2 : Lists s → Lists (put s2 .l3 q x) := fun hL => by
      refine Lists.put ?_ ?_
      · rw [e2, e1]; exact hL.cnt
      · rw [hx]; exact (congrArg Line.valid (hl2 .l3 q)).trans hv
    refine ⟨put s2 .l3 q x, hL2 hL,
      ⟨by rw [e2, e1]; rfl, fun k u => ?_, fun hL => (hL2 hL).inv, by rw [e2, e1]; rfl, by rw [e2, e1]; exact ⟨rfl, rfl⟩, ?_, fun hc => ?_,
        fun _ => ⟨o, ho, fun y => ?_⟩⟩, ?_⟩
    · have : (put s2 .l3 q x).cfg.lineSize = s.cfg.lineSize := by rw [e2, e1]; rfl
      rw [line_inv, line_put, hl2, this]
      by_cases h : k = .l3 ∧ u = q
      · rw [if_pos h, if_pos h]
      · rw [if_neg h, if_neg h, if_neg h]
    · rw [e2, e1]; exact Memory.wf_writeBytes hC.memory _ _
    · rw [hd] at hc; cases hc
    · rw [e2, e1, ← hlen']
      exact Memory.read_writeBytes hC.memory o (s.line .l3 q).data y
    · rw [if_pos hd, Op.bind_ok hw, Op.bind_ok (getLine_run ..), hx]; rfl
  · have hd' : (s.line .l3 q).dirty = false := by simpa using hd
    refine ⟨s, hL, ⟨rfl, fun k u => line_inv s .l3 q k u, fun hL => hL.inv, rfl, ⟨rfl, rfl⟩, hC.memory, fun _ _ => rfl, fun hc => ?_⟩, ?_⟩
    · rw [hd'] at hc; cases hc
    · rw [if_neg hd]; rfl

/-- An L3 line is evicted, its child before it. -/
theorem evictL3_run {s : State} (hC : CacheSound s) {q : Nat × Nat} (hv : (s.line .l3 q).valid = true) :
    ∃ t, evictL3 q s = .ok () t ∧ Evicted s t .l3 q := by
  have hc0 := hC.cnt .l3 (·.evict)
  obtain ⟨s0, e0⟩ : ∃ t, t = cnt s .l3 (·.evict) := ⟨_, rfl⟩
  rw [← e0] at hc0
  have hl0 : ∀ k u, s0.line k u = s.line k u := fun k u => by rw [e0]; exact line_cnt s .l3 (·.evict) k u
  have hv0 : (s0.line .l3 q).valid = true := by rw [hl0]; exact hv
  have done : ∀ t1 t, Settled s0 t1 → (∀ u, (s0.line .l3 u).valid = true → (t1.line .l3 u).valid = true) →
      (t1.line .l3 q).valid = true → (t1.line .l3 q).presentL2 = false → Lists t → Sunk t1 (inv t .l3 q) q →
      Evicted s t .l3 q := by
    intro t1 t s1 m1 v1 p1 hL m
    refine ⟨hL, hc0.trans (s1.trans (m.settled s1.sound v1 p1)), fun h => absurd rfl h, fun k u hk hne hu => ?_⟩
    rcases hk with rfl | hk
    · rw [m.lines, if_neg (by simpa using hne)]
      exact m1 u (by rw [hl0]; exact hu)
    · cases hk
  unfold evictL3
  rw [Op.bind_ok (countAt_run ..), ← e0, Op.get_bind_run]
  by_cases hp : (s0.line .l3 q).presentL2 = true
  · obtain ⟨t1, r1, s1, -, v1, a1, p1, m1⟩ := drainL2Child_run hc0.sound hv0 rfl hp
    obtain ⟨t, hL, m, rt⟩ := sink_run s1.sound v1 p1
    rw [a1] at rt
    refine ⟨t, ?_, done t1 t s1 m1 v1 p1 hL m⟩
    dsimp only
    rw [if_pos hp]
    exact (Op.bind_ok r1).trans rt
  · have hp' : (s0.line .l3 q).presentL2 = false := by simpa using hp
    obtain ⟨t, hL, m, rt⟩ := sink_run hc0.sound hv0 hp'
    refine ⟨t, ?_, done s0 t (.refl hc0.sound) (fun _ h => h) hv0 hp' hL m⟩
    dsimp only
    rw [if_neg hp]
    exact rt

/-- A line of any level is evicted. -/
theorem handleEviction_run {s : State} (hC : CacheSound s) {l : Level} {q : Nat × Nat} (hv : (s.line l q).valid = true) :
    ∃ t, handleEviction l q s = .ok () t ∧ Evicted s t l q := by
  cases l with
  | l1d => exact evictL1_run hC .l1d hv
  | l1i => exact evictL1_run hC .l1i hv
  | l2 => exact evictL2_run hC hv
  | l3 => exact evictL3_run hC hv

/-! ## Flushing a level -/

/-- A line of any level is evicted and invalidated: it is gone, the cache is sound, and no byte's newest value changed; a level
but L3 touches neither the bus nor DRAM. -/
theorem flushSlot_run {s : State} (hC : CacheSound s) {l : Level} {q : Nat × Nat} (hv : (s.line l q).valid = true) :
    ∃ t, flushSlot l q s = .ok () t ∧ Settled s t ∧ (t.line l q).valid = false ∧ (l ≠ .l3 → onlyCache s t) := by
  obtain ⟨t, hr, he⟩ := handleEviction_run hC hv
  refine ⟨inv t l q, ?_, he.settled, by rw [line_inv, if_pos ⟨rfl, rfl⟩]; rfl, fun h => (he.near h).trans rfl⟩
  unfold flushSlot
  rw [Op.bind_ok hr]; rfl

/-- The loop over some slots: none of them holds a line afterwards. -/
theorem flushSlots_run {l : Level} (qs : List (Nat × Nat)) : ∀ {s : State}, CacheSound s → ∃ t,
    flushSlots l qs s = .ok () t ∧ Settled s t ∧ (∀ q ∈ qs, (t.line l q).valid = false) ∧ (l ≠ .l3 → onlyCache s t) := by
  induction qs with
  | nil => exact fun hC => ⟨_, rfl, .refl hC, by simp, fun _ => rfl⟩
  | cons q qs ih =>
    intro s hC
    have one : ∃ t, (if (s.line l q).valid then flushSlot l q else pure () : Op Unit) s = .ok () t ∧ Settled s t ∧
        (t.line l q).valid = false ∧ (l ≠ .l3 → onlyCache s t) := by
      by_cases hv : (s.line l q).valid = true
      · rw [if_pos hv]; exact flushSlot_run hC hv
      · rw [if_neg hv]; exact ⟨s, rfl, .refl hC, by simpa using hv, fun _ => rfl⟩
    obtain ⟨t, r1, s1, v1, c1⟩ := one
    obtain ⟨u, r2, s2, v2, c2⟩ := ih s1.sound
    refine ⟨u, ?_, s1.trans s2, fun r hr => ?_, fun h => (c1 h).trans (c2 h)⟩
    · unfold flushSlots
      rw [Op.bind_ok (getLine_run ..)]
      by_cases hv : (s.line l q).valid = true
      · rw [if_pos hv] at r1
        rw [if_pos hv]
        exact (Op.bind_ok r1).trans r2
      · rw [if_neg hv] at r1
        rw [if_neg hv]
        cases r1
        exact r2
    · rcases List.mem_cons.1 hr with rfl | hr
      · by_contra hc
        have := (s2.shrunk l r (by simpa using hc)).1
        rw [v1] at this; cases this
      · exact v2 r hr

/-- A level whose slots hold no line may have its list emptied. -/
theorem settled_clear {s : State} (hC : CacheSound s) {l : Level} (h : ∀ q, (s.line l q).valid = false) :
    Settled s (s.withLines l fun _ => []) := by
  obtain ⟨-, hL, -⟩ := hC.slots
  have hempty : (s.cache.level l).lines = [] := by
    cases hc : (s.cache.level l).lines with
    | nil => rfl
    | cons e t =>
      have := (line_of_mem hL (l := l) (q := e.1) (x := e.2) (by rw [hc]; simp)).2
      rw [h] at this; cases this
  have : s.withLines l (fun _ => []) = s := by
    unfold State.withLines
    rw [← hempty]
    have : ({ s.cache.level l with lines := (s.cache.level l).lines } : LevelState) = s.cache.level l := rfl
    rw [this, Cache.setLevel_level]
  rw [this]
  exact .refl hC

/-- `flush_all` of a sound cache: the level is empty, the cache is sound, and no byte's newest value changed. -/
theorem flushAll_run {s : State} (hC : CacheSound s) (l : Level) : ∃ t, flushAll l s = .ok () t ∧ Settled s t ∧
    (∀ q, t.line l q = Line.reset s.cfg.lineSize) ∧ (l ≠ .l3 → onlyCache s t) := by
  obtain ⟨t, r1, s1, v1, c1⟩ := flushSlots_run (s.listedSlots l) hC (l := l)
  have hall : ∀ q, (t.line l q).valid = false := by
    intro q
    by_contra hc
    have hv : (t.line l q).valid = true := by simpa using hc
    have hs := (s1.shrunk l q hv).1
    obtain ⟨-, -, hS, -⟩ := hC.slots
    have hr := hS.range l q hs
    refine hc (v1 q ?_)
    unfold State.listedSlots
    refine List.mem_filter.2 ⟨List.mem_map.2 ⟨_, mem_of_valid hs, rfl⟩, ?_⟩
    simp [hr]
  have s2 := settled_clear s1.sound hall
  refine ⟨_, ?_, s1.trans s2, fun q => ?_, fun h => (c1 h).trans rfl⟩
  · unfold flushAll
    rw [Op.get_bind_run, Op.bind_ok r1]; rfl
  · unfold State.line State.withLines
    simp [s1.cfg]

end Sys2Proof.Machine
end

