-- ==== Sys2Proof/Laws/Holds.lean ====
section
/-! SUPPORT. Every operation is a sequence of single writes: one lemma per shared operation, that it keeps what every
single write keeps, and from them the same of every operation of the block. -/

namespace Sys2Proof.Machine

variable {α : Type} {P : State → Prop} (h : Stable P)
include h

namespace Stable

/-! ## DRAM -/

theorem writeBytes (bs : List Byte) : ∀ (s : State) (a : Nat), P s → a + bs.length ≤ s.cfg.dramSize →
    P { s with dram := { s.dram with cells := Memory.writeBytes s.cfg.fillByte s.dram.cells a bs } } := by
  induction bs with
  | nil => intro s a hs _; exact hs
  | cons b bs ih =>
    intro s a hs ha
    simp only [List.length_cons] at ha
    exact ih _ (a + 1) (h _ _ (.cell s a b (by omega)) hs) (by simp only; omega)

theorem copyUp (dest src n : Nat) : ∀ (s : State) (i : Nat), P s → dest + i + n ≤ s.cfg.dramSize →
    P { s with dram := { s.dram with cells := Machine.copyUp s.cfg.fillByte dest src n i s.dram.cells } } := by
  induction n with
  | zero => intro s i hs _; exact hs
  | succ n ih =>
    intro s i hs hi
    exact ih _ (i + 1) (h _ _ (.cell s (dest + i) _ (by omega)) hs) (by simp only; omega)

theorem copyDown (dest src n : Nat) : ∀ s : State, P s → dest + n ≤ s.cfg.dramSize →
    P { s with dram := { s.dram with cells := Machine.copyDown s.cfg.fillByte dest src n s.dram.cells } } := by
  induction n with
  | zero => intro s hs _; exact hs
  | succ n ih =>
    intro s hs hi
    exact ih _ (h _ _ (.cell s (dest + n) _ (by omega)) hs) (by simp only; omega)

/-- The bounds check goes well in bounds, and then changes nothing (R170). -/
theorem bounds (addr n : Nat) (s : State) (hs : P s) :
    Post (dramBounds addr n) s (fun _ t => t = s ∧ addr + n ≤ s.cfg.dramSize) P := by
  unfold dramBounds
  refine .get_bind (.ite (fun _ => .bind (.modify ?_)) fun hb => .pure ⟨rfl, by omega⟩)
  exact .raise (h _ _ (.dramFault s) hs)

theorem dramRead (addr n : Nat) : Holds P (dramRead addr n) := by
  unfold Machine.dramRead
  intro s hs
  exact .bind ((bounds h addr n s hs).mono (fun _ t ht => .get_bind (.pure (ht.1 ▸ hs))) fun _ h => h)

theorem dramWrite (addr : Nat) (bs : List Byte) : Holds P (dramWrite addr bs) := by
  unfold Machine.dramWrite
  intro s hs
  refine .bind ((bounds h addr _ s hs).mono (fun _ t ht => ?_) fun _ h => h)
  obtain ⟨rfl, hb⟩ := ht
  exact writeBytes h bs t addr hs hb

theorem opDramFill (addr : Word) (n : Nat) (v : Byte) : Holds P (opDramFill addr n v) := by
  unfold Machine.opDramFill
  intro s hs
  refine .bind ((bounds h addr.toNat _ s hs).mono (fun _ t ht => ?_) fun _ h => h)
  obtain ⟨rfl, hb⟩ := ht
  exact writeBytes h (List.replicate n v) t addr.toNat hs (by simpa using hb)

theorem opDramCopy (dest src n : Nat) : Holds P (opDramCopy dest src n) := by
  unfold Machine.opDramCopy
  refine .get_bind fun s hs => ?_
  dsimp only
  split
  · refine .bind ((bounds h src n s hs).mono (fun _ t ht => ?_) fun _ h => h)
    omega
  · refine .bind ((bounds h dest n s hs).mono (fun _ t ht => ?_) fun _ h => h)
    obtain ⟨rfl, hb⟩ := ht
    exact .ite (fun _ => copyUp h dest src n t 0 hs hb) fun _ => copyDown h dest src n t hs hb

/-! ## PLIC and CLINT -/

theorem plicRaise (id : Nat) : Holds P (plicRaise id) := by
  unfold Machine.plicRaise
  refine .get_bind fun s hs => .ite (fun hi => ?_) fun _ => .refuse
  exact h _ _ (.plicRaised s id (by simpa [Config.sourceOk] using hi)) hs

theorem plicLower (id : Nat) : Holds P (plicLower id) := by
  unfold Machine.plicLower
  refine .get_bind fun s hs => .ite (fun hi => ?_) fun _ => .refuse
  exact h _ _ (.plicLowered s id (by simpa [Config.sourceOk] using hi)) hs

theorem driveSink (sink : Option Nat) (level : Bool) : Holds P (driveSink sink level) := by
  cases sink with
  | none => exact .pure _
  | some id => exact .ite (fun _ => plicRaise h id) fun _ => plicLower h id

theorem plicRead (r : PlicReg) : Holds P (plicRead r) := by
  unfold Machine.plicRead
  refine .get_bind fun s hs => ?_
  cases r <;> dsimp only
  case prio => exact .ite (fun _ => hs) fun _ => .refuse
  case pendLo => exact hs
  case pendHi => exact hs
  case enableLo => exact .ite (fun _ => hs) fun _ => .refuse
  case enableHi => exact .ite (fun _ => hs) fun _ => .refuse
  case threshold => exact .ite (fun _ => hs) fun _ => .refuse
  case claim =>
    exact .ite (fun _ => .ite (fun hc => h _ _ (.plicClaimed s _ hc.1) hs) fun _ => hs) fun _ => .refuse

theorem plicWrite (r : PlicReg) (v : Word32) : Holds P (plicWrite r v) := by
  unfold Machine.plicWrite
  refine .get_bind fun s hs => ?_
  cases r <;> dsimp only
  case pendLo => exact .refuse
  case pendHi => exact .refuse
  case prio => exact .ite (fun _ => h _ _ (.plicPriority s _ v) hs) fun _ => .refuse
  case enableLo c => exact .ite (fun _ => h _ _ (.plicEnable s c fun w => setLo32 w v) hs) fun _ => .refuse
  case enableHi c => exact .ite (fun _ => h _ _ (.plicEnable s c fun w => setHi32 w v) hs) fun _ => .refuse
  case threshold c => exact .ite (fun _ => h _ _ (.plicThreshold s c v) hs) fun _ => .refuse
  case claim c => exact .ite (fun _ => h _ _ (.plicCompleted s _) hs) fun _ => .refuse

omit h in
theorem clintRead (r : ClintReg) : Holds P (clintRead r) := by
  unfold Machine.clintRead
  refine .get_bind' fun s => ?_
  cases r <;> dsimp only
  case mtime => exact .pure _
  all_goals exact .ite (fun _ => .pure _) fun _ => .refuse _

theorem clintWrite (r : ClintReg) (v : Word) : Holds P (clintWrite r v) := by
  unfold Machine.clintWrite
  refine .get_bind' fun s => ?_
  cases r <;> dsimp only
  case mtime => exact .modify fun s hs => h _ _ (.clint s _) hs
  all_goals exact .ite (fun _ => .modify fun s hs => h _ _ (.clint s _) hs) fun _ => .refuse _

/-! ## UART, timer, ROM -/

omit h in
theorem getUart (k : Nat) : Holds P (getUart k) := .get_bind' fun _ => .need _ _

theorem modifyUart (k : Nat) (f : Uart → Uart) : Holds P (modifyUart k f) := .modify fun s hs => h _ _ (.uarts s _) hs

theorem updateUartIrq (k : Nat) : Holds P (updateUartIrq k) :=
  .bind (getUart k) fun _ => .get_bind' fun _ =>
    .ite (fun _ => .bind (modifyUart h k _) fun _ => driveSink h _ _) fun _ => .pure _

theorem uartRead (k : Nat) (r : UartReg) : Holds P (uartRead k r) := by
  unfold Machine.uartRead
  refine .bind (getUart k) fun u => ?_
  cases r <;> dsimp only
  case data => exact .bind (modifyUart h k _) fun _ => .bind (updateUartIrq h k) fun _ => .pure _
  all_goals exact .pure _

theorem uartWrite (k : Nat) (r : UartReg) (v : Word32) : Holds P (uartWrite k r v) := by
  unfold Machine.uartWrite
  refine .bind (getUart k) fun u => ?_
  cases r <;> dsimp only
  case data => exact modifyUart h k _
  case status => exact .refuse _
  case ctrl => exact .bind (modifyUart h k _) fun _ => updateUartIrq h k

omit h in
theorem getTimer (k : Nat) : Holds P (getTimer k) := .get_bind' fun _ => .need _ _

theorem modifyTimer (k : Nat) (f : Timer → Timer) : Holds P (modifyTimer k f) :=
  .modify fun s hs => h _ _ (.timers s _) hs

theorem updateTimerIrq (k : Nat) : Holds P (updateTimerIrq k) :=
  .bind (getTimer k) fun _ => .get_bind' fun _ =>
    .ite (fun _ => .bind (modifyTimer h k _) fun _ => driveSink h _ _) fun _ => .pure _

omit h in
theorem timerRead (k : Nat) (r : TimerReg) : Holds P (timerRead k r) := .bind (getTimer k) fun _ => .pure _

theorem timerWrite (k : Nat) (r : TimerReg) (v : Word32) : Holds P (timerWrite k r v) :=
  .bind (getTimer k) fun _ => .bind (modifyTimer h k _) fun _ => updateTimerIrq h k

omit h in
theorem getRom (k : Nat) : Holds P (getRom k) := .get_bind' fun _ => .need _ _

omit h in
theorem romRead (k off width : Nat) : Holds P (romRead k off width) :=
  .bind (getRom k) fun _ => .ite (fun _ => .pure _) fun _ => .refuse _

omit h in
theorem romWrite (k off : Nat) (bs : List Byte) : Holds P (romWrite k off bs) := by
  unfold Machine.romWrite
  refine .bind (getRom k) fun _ => .get_bind' fun u => .ite (fun _ => ?_) fun _ => .refuse _
  cases u.cfg.roms[k]? with
  | none => exact .refuse _
  | some c => exact .ite (fun _ => .raise _) fun _ => .pure _

/-! ## Bus and DMA -/

theorem addRegion (r : Region) : Holds P (addRegion r) := by
  unfold Machine.addRegion
  refine fun s hs => .ite (fun _ => .bind (.raise hs)) fun hsz => ?_
  refine .ite (fun _ => .bind (.raise hs)) fun hw => .get_bind ?_
  split
  · exact .raise hs
  · rename_i hf
    refine h _ _ (.region s r hsz (by omega) fun q hq hm => ?_) hs
    have := List.find?_eq_none.1 hf q hq
    simp [hm.1, hm.2] at this

omit h in
theorem noRow (d : DevRef) (off width : Nat) : Holds P (noRow d off width) := by
  unfold Machine.noRow
  refine .get_bind' fun u => ?_
  cases d <;> dsimp only
  case uart k => exact .ite (fun _ => .bind (.need _ _) fun _ => .raise _) fun _ => .refuse _
  all_goals exact .refuse _

omit h in
theorem getDma (k : Nat) : Holds P (getDma k) := .get_bind' fun _ => .need _ _

theorem modifyDma (k : Nat) (f : Dma → Dma) : Holds P (modifyDma k f) := .modify fun s hs => h _ _ (.dmas s _) hs

theorem updateDmaIrq (k : Nat) : Holds P (updateDmaIrq k) :=
  .bind (getDma k) fun _ => .get_bind' fun _ =>
    .ite (fun _ => .bind (modifyDma h k _) fun _ => driveSink h _ _) fun _ => .pure _

omit h in
theorem dmaRead (k : Nat) (r : DmaReg) : Holds P (dmaRead k r) := .bind (getDma k) fun _ => .pure _

theorem deviceRead (d : DevRef) (off width : Nat) : Holds P (deviceRead d off width) := by
  unfold Machine.deviceRead
  refine .get_bind' fun u => ?_
  cases d <;> dsimp only
  case rom k => exact romRead k off width
  all_goals split
  any_goals exact .bind (noRow _ _ _) fun _ => .pure _
  · exact plicRead h _
  · exact clintRead _
  · exact uartRead h _ _
  · exact timerRead _ _
  · exact dmaRead _ _

theorem dmaWriteWith {ctrl : Nat → Word32 → Op Unit} (hc : ∀ k v, Holds P (ctrl k v)) (k : Nat) (r : DmaReg)
    (v : Word32) : Holds P (dmaWriteWith ctrl k r v) := by
  unfold Machine.dmaWriteWith
  refine .bind (getDma k) fun _ => ?_
  cases r <;> dsimp only
  case ctrl => exact hc k v
  case status => exact .bind (modifyDma h k _) fun _ => updateDmaIrq h k
  all_goals exact modifyDma h k _

theorem deviceWriteWith {ctrl : Nat → Word32 → Op Unit} (hc : ∀ k v, Holds P (ctrl k v)) (d : DevRef) (off : Nat)
    (bs : List Byte) : Holds P (deviceWriteWith ctrl d off bs) := by
  unfold Machine.deviceWriteWith
  refine .get_bind' fun u => ?_
  cases d <;> dsimp only
  case rom k => exact romWrite k off bs
  all_goals split
  any_goals exact noRow _ _ _
  · exact plicWrite h _ _
  · exact clintWrite h _ _
  · exact uartWrite h _ _ _
  · exact timerWrite h _ _ _
  · exact dmaWriteWith h hc _ _ _

omit h in
theorem chunkCheck (r : Region) (a width : Nat) : Holds P (chunkCheck r a width) := by
  unfold Machine.chunkCheck
  refine .get_bind' fun u => ?_
  cases r.kind with
  | ram off => exact .pure _
  | mmio d caps => exact .ite (fun _ => .raise _) fun _ => .pure _

theorem chunkRead (r : Region) (a width : Nat) : Holds P (chunkRead r a width) := by
  unfold Machine.chunkRead
  cases r.kind with
  | ram off => exact dramRead h _ _
  | mmio d caps => exact deviceRead h d _ _

theorem chunkWriteWith {ctrl : Nat → Word32 → Op Unit} (hc : ∀ k v, Holds P (ctrl k v)) (r : Region) (a : Nat)
    (bs : List Byte) : Holds P (chunkWriteWith ctrl r a bs) := by
  unfold Machine.chunkWriteWith
  cases r.kind with
  | ram off => exact dramWrite h _ _
  | mmio d caps => exact deviceWriteWith h hc d _ _

omit h in
theorem decodeAddress (a : Nat) : Holds P (decodeAddress a) := by
  unfold Machine.decodeAddress
  refine .get_bind' fun u => .ite (fun _ => .bind (.raise _) fun _ => ?_) fun _ => ?_
  all_goals cases u.bus.find a with
    | none => exact .raise _
    | some r => exact .pure _

theorem countFault {m : Op α} (hm : Holds P m) : Holds P (countFault m) :=
  fun s hs => .countFault ((hm s hs).mono (fun _ _ h => h) fun t ht => h _ _ (.busFault t) ht)

theorem readChunks (fuel a n : Nat) : Holds P (readChunks fuel a n) := by
  induction fuel generalizing a n with
  | zero => exact .pure _
  | succ fuel ih =>
    cases n with
    | zero => exact .pure _
    | succ n =>
      exact .bind (countFault h (decodeAddress a)) fun r =>
        .bind (countFault h (.bind (chunkCheck r a _) fun _ => chunkRead h r a _)) fun bs =>
          .bind (.modify fun s hs => h _ _ (.busReadChunk s _ _) hs) fun _ => .bind (ih _ _) fun _ => .pure _

theorem busRead (pa n : Nat) : Holds P (busRead pa n) :=
  .bind (.modify fun s hs => h _ _ (.busRead s) hs) fun _ => readChunks h n pa n

theorem writeChunks {ctrl : Nat → Word32 → Op Unit} (hc : ∀ k v, Holds P (ctrl k v)) (fuel a : Nat)
    (bs : List Byte) : Holds P (writeChunks ctrl fuel a bs) := by
  induction fuel generalizing a bs with
  | zero => exact .pure _
  | succ fuel ih =>
    cases bs with
    | nil => exact .pure _
    | cons b bs =>
      exact .bind (countFault h (decodeAddress a)) fun r =>
        .bind (countFault h (.bind (chunkCheck r a _) fun _ => chunkWriteWith h hc r a _)) fun _ =>
          .bind (.modify fun s hs => h _ _ (.busWriteChunk s _ _) hs) fun _ => ih _ _

theorem busWriteWith {ctrl : Nat → Word32 → Op Unit} (hc : ∀ k v, Holds P (ctrl k v)) (pa : Nat) (bs : List Byte) :
    Holds P (busWriteWith ctrl pa bs) :=
  .bind (.modify fun s hs => h _ _ (.busWrite s) hs) fun _ => writeChunks h hc _ _ _

theorem dmaLoop {ctrl : Nat → Word32 → Op Unit} (hc : ∀ k v, Holds P (ctrl k v)) (k fuel done : Nat) :
    Holds P (dmaLoop ctrl k fuel done) := by
  induction fuel generalizing done with
  | zero => exact .pure _
  | succ fuel ih =>
    refine .bind (getDma k) fun d => .ite (fun _ => ?_) fun _ => .pure _
    refine .bind (.attempt (.bind (busRead h _ _) fun _ => .bind (getDma k) fun _ => busWriteWith h hc _ _)) fun e => ?_
    cases e with
    | none => exact ih _
    | some e => exact .pure _

theorem dmaCtrlWith {ctrl : Nat → Word32 → Op Unit} (hc : ∀ k v, Holds P (ctrl k v)) (k : Nat) (v : Word32) :
    Holds P (dmaCtrlWith ctrl k v) := by
  unfold Machine.dmaCtrlWith
  refine .bind (modifyDma h k _) fun _ => .ite (fun _ => ?_) fun _ => updateDmaIrq h k
  refine .bind (modifyDma h k _) fun _ => .bind (getDma k) fun d => .get_bind' fun u =>
    .bind (.need _ _) fun c => .ite (fun _ => .bind (modifyDma h k _) fun _ => updateDmaIrq h k) fun _ => ?_
  refine .ite (fun _ => .bind (.refuse _) fun _ => ?_) fun _ => ?_
  all_goals
    refine .bind (dmaLoop h hc k _ _) fun ok => .ite (fun _ => ?_) fun _ => ?_
    all_goals exact .bind (modifyDma h k _) fun _ => updateDmaIrq h k

theorem dmaCtrl (nest k : Nat) (v : Word32) : Holds P (dmaCtrl nest k v) := by
  induction nest generalizing k v with
  | zero => exact .refuse _
  | succ nest ih => exact dmaCtrlWith h ih k v

theorem dmaCtrlWrite (k : Nat) (v : Word32) : Holds P (dmaCtrlWrite k v) := dmaCtrl h _ k v

theorem dmaWrite (k : Nat) (r : DmaReg) (v : Word32) : Holds P (dmaWrite k r v) :=
  dmaWriteWith h (dmaCtrlWrite h) k r v

theorem busWrite (pa : Nat) (bs : List Byte) : Holds P (busWrite pa bs) := busWriteWith h (dmaCtrlWrite h) pa bs

/-! ## MMU -/

omit h in
theorem physical (frame va : Nat) : Holds P (physical frame va) :=
  .get_bind' fun _ => .ite (fun _ => .refuse _) fun _ => .pure _

theorem installPage (u : State) (a v va : Nat) (p : Pte) (hu : P u) (hp : u.mmu.pte a v = some p) (hpr : p.present = true)
    (hn : Tab.get u.mmu.tlb (a, v) = none) :
    Post (do
      modifyMmu (·.tlbInstall u.cfg.tlbEntries a v p.frame)
      modifyMmu (·.setPte a v { p with accessed := true })
      let pa ← Machine.physical p.frame va
      return (pa, { p with accessed := true }) : Op (Nat × Pte)) u (fun _ => P) P := by
  have h1 := h _ _ (.tlbInstall u a v p hp hpr hn) hu
  have h2 := h _ _ (.pageMark { u with mmu := u.mmu.tlbInstall u.cfg.tlbEntries a v p.frame } a v p
    { p with accessed := true } hp rfl rfl) h1
  exact Holds.bind (physical p.frame va) (fun pa => .pure (pa, { p with accessed := true })) _ h2

theorem translate (va : Nat) : Holds P (translate va) := by
  unfold Machine.translate
  refine .get_bind fun s hs => ?_
  dsimp only
  split
  · rename_i e he
    have h1 := h _ _ (.tlbHit s _ e he) hs
    exact Holds.bind (.need _ _) (fun _ => .bind (physical _ _) fun _ => .pure _) _ h1
  · rename_i hn
    have hm := h _ _ (.tlbMiss s) hs
    refine .bind (.modify ?_)
    split
    · exact .raise hm
    · rename_i p hp
      exact .ite (fun _ => .bind (.raise hm)) fun hpr => installPage h _ _ _ va p hm hp (by simpa using hpr) hn

theorem setDirty (va : Nat) : Holds P (setDirty va) := by
  unfold Machine.setDirty
  refine .get_bind fun s hs => ?_
  split
  · rename_i p hp
    exact h _ _ (.pageMark s _ _ p _ hp rfl rfl) hs
  · exact hs

/-- `alloc_frame` returns a frame below `max_frames` (R220). -/
theorem allocFrame : Holds P allocFrame := by
  unfold Machine.allocFrame
  refine .get_bind fun s hs => ?_
  split
  · exact .raise hs
  · rename_i f fs hf
    refine h _ _ (.frame s _ ?_) hs
    have hm : (f :: fs).getD (Config.frameDraw s.draws % (f :: fs).length) f ∈ freeFrames s.cfg s.mmu := by
      rw [hf]
      have hlt : Config.frameDraw s.draws % (f :: fs).length < (f :: fs).length := Nat.mod_lt _ (by simp)
      rw [List.getD_eq_getElem _ _ hlt]
      exact List.getElem_mem hlt
    simp only [freeFrames, List.mem_filter, List.mem_range] at hm
    exact hm.1

theorem mapPage (vpn : Nat) (f : Option Nat) (p : Option Perm) (a : Option Nat) : Holds P (mapPage vpn f p a) := by
  unfold Machine.mapPage
  refine .get_bind' fun u => .bind (.modify fun s hs => h _ _ (.openTable s _) hs) fun _ => ?_
  have last : ∀ f, Holds P (do
      modifyMmu (·.setPte (asidOr a u) vpn (newPte f p))
      modifyMmu (·.dropTlb (asidOr a u) vpn)
      return f : Op Nat) := fun f s hs => h _ _ (.pageSet s _ _ _) hs
  cases f with
  | some f => exact .bind (.pure _) last
  | none => exact .bind (allocFrame h) last

omit h in
theorem mappedPte (asid vpn : Nat) : Holds P (mappedPte asid vpn) := by
  unfold Machine.mappedPte
  refine .get_bind' fun u => ?_
  split
  · exact .pure _
  · exact .raise _

theorem unmapPage (vpn : Nat) (a : Option Nat) : Holds P (unmapPage vpn a) :=
  .get_bind' fun _ => .bind (mappedPte _ _) fun _ s hs => h _ _ (.pageDrop s _ _) hs

theorem setPageAttributes (vpn : Nat) (at' : Attrs) (a : Option Nat) : Holds P (setPageAttributes vpn at' a) :=
  .get_bind' fun _ => .bind (mappedPte _ _) fun _ s hs => h _ _ (.pageSet s _ _ _) hs

theorem flushTlb (a : Option Nat) : Holds P (flushTlb a) := by
  unfold Machine.flushTlb
  cases a with
  | some a => exact .modify fun s hs => h _ _ (.tlbFilter s _) hs
  | none =>
    refine .modify fun s hs => ?_
    have := h _ _ (.tlbFilter s fun _ => false) hs
    rwa [List.filter_false] at this

theorem setAsid (a : Nat) : Holds P (setAsid a) :=
  .modify fun s hs => h _ _ (.openTable { s with mmu := { s.mmu with currentAsid := a } } a) (h _ _ (.asid s a) hs)

theorem checkAccess (va : Nat) (k : AccessKind) : Holds P (checkAccess va k) := by
  unfold Machine.checkAccess
  refine .bind (translate h va) fun r => ?_
  cases k <;> dsimp only
  · exact .pure _
  · exact .ite (fun _ => .bind (.raise _) fun _ => .pure _) fun _ => .pure _
  · exact .ite (fun _ => .bind (.raise _) fun _ => .pure _) fun _ => .pure _

/-! ## Cache -/

theorem putLine (l : Level) (q : Nat × Nat) (x : Line) : Holds P (putLine l q x) :=
  .modify fun s hs => h _ _ (.lines s l _) hs

omit h in
theorem getLine (l : Level) (q : Nat × Nat) : Holds P (getLine l q) := .get_bind' fun _ => .pure _

theorem invalidate (l : Level) (q : Nat × Nat) : Holds P (invalidate l q) := .modify fun s hs => h _ _ (.lines s l _) hs

theorem nextStamp : Holds P nextStamp := .bind (.modify fun s hs => h _ _ (.stamp s) hs) fun _ => .get_bind' fun _ => .pure _

theorem countAt (l : Level) {f : CacheStats → CacheStats}
    (hf : f = CacheStats.hit ∨ f = CacheStats.miss ∨ f = CacheStats.fill ∨ f = CacheStats.evict ∨
      f = CacheStats.writeback ∨ f = CacheStats.prefetched) : Holds P (countAt l f) :=
  .modify fun s hs => h _ _ (.stat s l f hf) hs

theorem accessLine (a : Nat) (l : Level) (w : Bool) : Holds P (accessLine a l w) := by
  unfold Machine.accessLine
  refine .get_bind' fun u => ?_
  split
  · exact .bind (nextStamp h) fun _ => .bind (getLine _ _) fun _ => .bind (putLine h _ _ _) fun _ =>
      .bind (countAt h _ (by simp)) fun _ => .pure _
  · exact .bind (countAt h _ (by simp)) fun _ => .pure _

theorem markPresence (l : Level) (b : Nat) (v : Bool) : Holds P (markPresence l b v) := by
  unfold Machine.markPresence
  refine .get_bind' fun u => ?_
  split
  · exact .pure _
  · split
    · exact putLine h _ _ _
    · exact .pure _

theorem installWith {evict : Nat × Nat → Op Unit} (he : ∀ q, Holds P (evict q)) (l : Level) (b : Nat) (d : List Byte)
    (w : Bool) : Holds P (installWith evict l b d w) := by
  unfold Machine.installWith
  refine .get_bind' fun u => .ite (fun _ => .bind (he _) fun _ => ?_) fun _ => ?_
  all_goals exact .bind (nextStamp h) fun _ => .bind (putLine h _ _ _) fun _ => .bind (countAt h _ (by simp)) fun _ =>
    markPresence h _ _ _

theorem takeChild (c : Side) (q : Nat × Nat) (b : Nat) : Holds P (takeChild c q b) := by
  unfold Machine.takeChild
  refine .get_bind' fun u => ?_
  split
  · exact .pure _
  · refine .ite (fun _ => .bind (putLine h _ _ _) fun _ => .bind (countAt h _ (by simp)) fun _ => ?_) fun _ => ?_
    all_goals exact .bind (invalidate h _ _) fun _ => countAt h _ (by simp)

theorem drainChild (c : Side) (q : Nat × Nat) (b : Nat) : Holds P (drainChild c q b) :=
  .bind (getLine _ _) fun _ => .ite (fun _ => .bind (takeChild h _ _ _) fun _ => .bind (getLine _ _) fun _ =>
    putLine h _ _ _) fun _ => .pure _

theorem drainChildren (q : Nat × Nat) (b : Nat) : Holds P (drainChildren q b) :=
  .bind (drainChild h _ _ _) fun _ => drainChild h _ _ _

theorem takeL2Child (q : Nat × Nat) (b : Nat) : Holds P (takeL2Child q b) := by
  unfold Machine.takeL2Child
  refine .get_bind' fun u => ?_
  split
  · exact .pure _
  · refine .bind (drainChildren h _ _) fun _ => .bind (getLine _ _) fun x => ?_
    refine .ite (fun _ => .bind (getLine _ _) fun _ => .bind (putLine h _ _ _) fun _ =>
      .bind (countAt h _ (by simp)) fun _ => ?_) fun _ => ?_
    all_goals exact .bind (invalidate h _ _) fun _ => countAt h _ (by simp)

theorem drainL2Child (q : Nat × Nat) (b : Nat) : Holds P (drainL2Child q b) :=
  .bind (takeL2Child h _ _) fun _ => .bind (getLine _ _) fun _ => putLine h _ _ _

theorem writebackL3 (b : Nat) (d : List Byte) : Holds P (writebackL3 b d) :=
  .bind (countAt h _ (by simp)) fun _ => .tagged _ _ (busWrite h _ _)

theorem evictL3 (q : Nat × Nat) : Holds P (evictL3 q) := by
  unfold Machine.evictL3
  refine .bind (countAt h _ (by simp)) fun _ => .get_bind' fun u =>
    .ite (fun _ => .bind (drainL2Child h _ _) fun _ => ?_) fun _ => ?_
  all_goals exact .bind (getLine _ _) fun v => .ite (fun _ => .bind (writebackL3 h _ _) fun _ =>
    .bind (getLine _ _) fun _ => putLine h _ _ _) fun _ => .pure _

theorem writeParent {install : Nat → List Byte → Bool → Op Unit} (hi : ∀ b d w, Holds P (install b d w)) (p : Level)
    (b : Nat) (d : List Byte) : Holds P (writeParent install p b d) := by
  unfold Machine.writeParent
  refine .get_bind' fun u => ?_
  split
  · exact .bind (nextStamp h) fun _ => .bind (getLine _ _) fun _ => putLine h _ _ _
  · exact hi _ _ _

theorem installL3 (b : Nat) (d : List Byte) (w : Bool) : Holds P (installL3 b d w) :=
  installWith h (evictL3 h) _ _ _ _

theorem writebackL2 (b : Nat) (d : List Byte) : Holds P (writebackL2 b d) :=
  .bind (countAt h _ (by simp)) fun _ => writeParent h (installL3 h) _ _ _

theorem evictL2 (q : Nat × Nat) : Holds P (evictL2 q) := by
  unfold Machine.evictL2
  refine .bind (countAt h _ (by simp)) fun _ => .get_bind' fun u => .bind (drainChildren h _ _) fun _ =>
    .bind (getLine _ _) fun _ => .ite (fun _ => .bind (writebackL2 h _ _) fun _ => ?_) fun _ => ?_
  all_goals exact markPresence h _ _ _

theorem installL2 (b : Nat) (d : List Byte) (w : Bool) : Holds P (installL2 b d w) :=
  installWith h (evictL2 h) _ _ _ _

theorem writebackL1 (c : Side) (b : Nat) (d : List Byte) : Holds P (writebackL1 c b d) :=
  .bind (countAt h _ (by simp)) fun _ => .bind (writeParent h (installL2 h) _ _ _) fun _ => markPresence h _ _ _

theorem evictL1 (c : Side) (q : Nat × Nat) : Holds P (evictL1 c q) := by
  unfold Machine.evictL1
  refine .bind (countAt h _ (by simp)) fun _ => .get_bind' fun u =>
    .ite (fun _ => .bind (writebackL1 h _ _ _) fun _ => ?_) fun _ => ?_
  all_goals exact markPresence h _ _ _

theorem installL1 (c : Side) (b : Nat) (d : List Byte) (w : Bool) : Holds P (installL1 c b d w) :=
  installWith h (evictL1 h c) _ _ _ _

theorem handleEviction (l : Level) (q : Nat × Nat) : Holds P (handleEviction l q) := by
  cases l
  · exact evictL1 h _ _
  · exact evictL1 h _ _
  · exact evictL2 h _
  · exact evictL3 h _

theorem fetchLine (l : Level) (b : Nat) : Holds P (fetchLine l b) := .get_bind' fun _ => .tagged _ _ (busRead h _ _)

theorem cacheRead (pa : Nat) (c : Side) : Holds P (cacheRead pa c) := by
  unfold Machine.cacheRead
  refine .get_bind' fun u => .bind (accessLine h _ _ _) fun r => ?_
  cases r with
  | some q => exact .bind (getLine _ _) fun _ => .pure _
  | none =>
    refine .bind (accessLine h _ _ _) fun r => ?_
    cases r with
    | some q => exact .bind (getLine _ _) fun _ => .bind (installL1 h _ _ _ _) fun _ => .pure _
    | none =>
      refine .bind (accessLine h _ _ _) fun r => ?_
      cases r with
      | some q =>
        exact .bind (getLine _ _) fun _ => .bind (installL2 h _ _ _) fun _ =>
          .bind (installL1 h _ _ _ _) fun _ => .pure _
      | none =>
        exact .bind (fetchLine h _ _) fun _ => .bind (installL3 h _ _ _) fun _ =>
          .bind (installL2 h _ _ _) fun _ => .bind (installL1 h _ _ _ _) fun _ => .pure _

theorem cacheWriteChunk (a : Nat) (bs : List Byte) (c : Side) : Holds P (cacheWriteChunk a bs c) := by
  unfold Machine.cacheWriteChunk
  refine .bind (cacheRead h _ _) fun _ => .get_bind' fun u => ?_
  split
  · exact putLine h _ _ _
  · exact .pure _

theorem cacheWriteLoop (c : Side) (fuel a : Nat) (bs : List Byte) : Holds P (cacheWriteLoop c fuel a bs) := by
  induction fuel generalizing a bs with
  | zero => exact .pure _
  | succ fuel ih =>
    cases bs with
    | nil => exact .pure _
    | cons b bs => exact .get_bind' fun _ => .bind (cacheWriteChunk h _ _ _) fun _ => ih _ _

theorem cacheWrite (pa : Nat) (bs : List Byte) (c : Side) : Holds P (cacheWrite pa bs c) := cacheWriteLoop h c _ _ _

theorem prefetchL3 (l : Level) (b : Nat) : Holds P (prefetchL3 l b) := by
  unfold Machine.prefetchL3
  refine .get_bind' fun u => ?_
  split
  · exact .pure _
  · exact .bind (fetchLine h _ _) fun _ => .bind (installL3 h _ _ _) fun _ => .pure _

theorem prefetchL2 (l : Level) (b : Nat) : Holds P (prefetchL2 l b) := by
  unfold Machine.prefetchL2
  refine .get_bind' fun u => ?_
  split
  · exact .pure _
  · exact .bind (prefetchL3 h _ _) fun _ => .bind (installL2 h _ _ _) fun _ => .pure _

theorem prefetchInto (l : Level) (b : Nat) : Holds P (prefetchInto l b) := by
  cases l
  · exact .bind (prefetchL2 h _ _) fun _ => installL1 h _ _ _ _
  · exact .bind (prefetchL2 h _ _) fun _ => installL1 h _ _ _ _
  · exact .bind (prefetchL2 h _ _) fun _ => .pure _
  · exact .bind (prefetchL3 h _ _) fun _ => .pure _

theorem prefetchLine (l : Level) (a : Nat) : Holds P (prefetchLine l a) := by
  unfold Machine.prefetchLine
  refine .get_bind' fun u => ?_
  dsimp only
  split
  · exact .pure _
  · exact .bind (countAt h _ (by simp)) fun _ => prefetchInto h _ _

theorem flushSlot (l : Level) (q : Nat × Nat) : Holds P (flushSlot l q) :=
  .bind (handleEviction h _ _) fun _ => invalidate h _ _

theorem flushLine (a : Nat) (l : Level) : Holds P (flushLine a l) := by
  unfold Machine.flushLine
  refine .get_bind' fun u => ?_
  split
  · exact flushSlot h _ _
  · exact .pure _

theorem flushSlots (l : Level) (qs : List (Nat × Nat)) : Holds P (flushSlots l qs) := by
  induction qs with
  | nil => exact .pure _
  | cons q qs ih =>
    exact .bind (getLine _ _) fun x => .ite (fun _ => .bind (flushSlot h _ _) fun _ => ih) fun _ => ih

theorem flushAll (l : Level) : Holds P (flushAll l) :=
  .get_bind' fun _ => .bind (flushSlots h _ _) fun _ => .modify fun s hs => h _ _ (.lines s l _) hs

/-! ## CPU -/

omit h in
theorem accessChecks (va size : Nat) : Holds P (accessChecks va size) := by
  unfold Machine.accessChecks
  refine .get_bind' fun u => .ite (fun _ => .bind (.refuse _) fun _ => ?_) fun _ => ?_
  all_goals
    refine .ite (fun _ => .bind (.refuse _) fun _ => ?_) fun _ => ?_
    all_goals exact .ite (fun _ => .refuse _) fun _ => .pure _

theorem cachedReadLoop (c : Side) (fuel a n : Nat) : Holds P (cachedReadLoop c fuel a n) := by
  induction fuel generalizing a n with
  | zero => exact .pure _
  | succ fuel ih =>
    cases n with
    | zero => exact .pure _
    | succ n => exact .get_bind' fun _ => .bind (cacheRead h _ _) fun _ => .bind (ih _ _) fun _ => .pure _

theorem prefetchAfter (pa : Nat) : Holds P (prefetchAfter pa) :=
  .get_bind' fun _ => .ite (fun _ => .ite (fun _ => prefetchLine h _ _) fun _ => .pure _) fun _ => .pure _

theorem readPath (pa n : Nat) (p : Pte) (c : Side) : Holds P (readPath pa n p c) :=
  .ite (fun _ => .bind (cachedReadLoop h _ _ _ _) fun _ => .bind (prefetchAfter h _) fun _ => .pure _)
    fun _ => busRead h _ _

theorem wcSeed (b : Nat) (bs : List Byte) : Holds P (setWc { base := some b, bytes := bs }) :=
  .modify fun s hs => h _ _ (.wcSeed s b bs) hs

theorem wcFlush : Holds P wcFlush := by
  unfold Machine.wcFlush
  refine .get_bind' fun u => ?_
  split
  · exact .pure _
  · exact .bind (.modify fun s hs => h _ _ (.wcEmpty s) hs) fun _ => busWrite h _ _

theorem wcPost (pa : Nat) (bs : List Byte) : Holds P (wcPost pa bs) := by
  unfold Machine.wcPost
  refine .get_bind' fun u => ?_
  split
  · exact wcSeed h _ _
  · exact .ite (fun _ => wcSeed h _ _) fun _ => .bind (wcFlush h) fun _ => wcSeed h _ _

theorem fetch (va size : Nat) : Holds P (fetch va size) := by
  unfold Machine.fetch
  refine .bind (accessChecks _ _) fun _ => .bind (translate h va) fun r => ?_
  exact .ite (fun _ => .bind (.raise _) fun _ => readPath h _ _ _ _) fun _ => readPath h _ _ _ _

theorem load (va size : Nat) (sg : Bool) : Holds P (load va size sg) :=
  .bind (accessChecks _ _) fun _ => .bind (translate h va) fun _ => .bind (readPath h _ _ _ _) fun _ =>
    .get_bind' fun _ => .pure _

theorem storePath (va pa : Nat) (bs : List Byte) (p : Pte) : Holds P (storePath va pa bs p) := by
  unfold Machine.storePath
  split
  · exact .bind (wcFlush h) fun _ => busWrite h _ _
  · exact wcPost h _ _
  · refine .ite (fun _ => ?_) fun _ => ?_
    · exact .bind (cacheWrite h _ _ _) fun _ => .bind (setDirty h va) fun _ => prefetchAfter h _
    · exact .bind (busWrite h _ _) fun _ => setDirty h va

theorem store (va size : Nat) (v : Int) : Holds P (store va size v) := by
  unfold Machine.store
  refine .bind (accessChecks _ _) fun _ => .bind (translate h va) fun r => ?_
  exact .ite (fun _ => .bind (.raise _) fun _ => .get_bind' fun _ => storePath h _ _ _ _)
    fun _ => .get_bind' fun _ => storePath h _ _ _ _

theorem modifyCsr (f : Csr → Csr) : Holds P (modifyCsr f) := .modify fun s hs => h _ _ (.csr s _) hs

omit h in
theorem plicContextIrq (c : Nat) : Holds P (plicContextIrq c) :=
  .get_bind' fun _ => .ite (fun _ => .pure _) fun _ => .refuse _

theorem sampleClint : Holds P sampleClint := by
  unfold Machine.sampleClint
  refine .get_bind' fun u => ?_
  split
  · exact .pure _
  · exact .ite (fun _ => .bind (.refuse _) fun _ => modifyCsr h _) fun _ => modifyCsr h _

theorem samplePlic : Holds P samplePlic := by
  unfold Machine.samplePlic
  refine .get_bind' fun u => ?_
  split
  · exact .pure _
  · exact .bind (plicContextIrq _) fun _ => modifyCsr h _

omit h in
theorem deviceRegion (d : DevRef) : Holds P (deviceRegion d) := by
  unfold Machine.deviceRegion
  refine .get_bind' fun u => ?_
  cases d <;> dsimp only
  case plic => exact .pure _
  case clint => exact .pure _
  case rom => exact .bind (.need _ _) fun _ => .bind (getRom _) fun _ => .pure _
  all_goals exact .bind (.need _ _) fun _ => .pure _

omit h in
theorem rejectedCall (r : Reject) : Holds P (rejectedCall r) := by
  unfold Machine.rejectedCall
  split
  · exact .bind (noRow _ _ _) fun _ => .pure _
  · exact .refuse _

/-! ## Every operation -/

theorem opDramReadBytes (a n : Nat) : Holds P (Machine.opDramReadBytes a n) := .bind (dramRead h a n) fun _ => .pure _

theorem opDramWriteBytes (a : Word) (bs : List Byte) : Holds P (Machine.opDramWriteBytes a bs) := .bind (dramWrite h a.toNat bs) fun _ => .pure _

theorem opDramPeek (a : Word) : Holds P (Machine.opDramPeek a) := .bind (dramRead h a.toNat 1) fun _ => .pure _

theorem opDramLoadImage (a : Word) (bs : List Byte) : Holds P (Machine.opDramLoadImage a bs) := .bind (dramWrite h a.toNat bs) fun _ => .pure _

theorem opBusMapRam (name : String) (base : Word) (size off : Nat) : Holds P (Machine.opBusMapRam name base size off) := .bind (addRegion h _) fun _ => .pure _

theorem opBusRegisterMmio (name : String) (d : DevRef) : Holds P (Machine.opBusRegisterMmio name d) := by
  unfold Machine.opBusRegisterMmio
  refine .bind (deviceRegion d) fun r => ?_
  dsimp only
  exact .ite (fun _ => .bind (.raise _) fun _ => .bind (addRegion h _) fun _ => .pure _)
    fun _ => .bind (addRegion h _) fun _ => .pure _

theorem opBusReadBytes (pa : Word) (n : Nat) : Holds P (Machine.opBusReadBytes pa n) := .bind (busRead h _ _) fun _ => .pure _

theorem opBusWriteBytes (pa : Word) (bs : List Byte) : Holds P (Machine.opBusWriteBytes pa bs) := .bind (busWrite h _ _) fun _ => .pure _

theorem opMmuSetAsid (a : Nat) : Holds P (Machine.opMmuSetAsid a) := .bind (setAsid h a) fun _ => .pure _

theorem opMmuMapPage (v : Nat) (f : Option Nat) (p : Option Perm) (a : Option Nat) : Holds P (Machine.opMmuMapPage v f p a) := .bind (mapPage h v f p a) fun _ => .pure _

theorem opMmuUnmapPage (v : Nat) (a : Option Nat) : Holds P (Machine.opMmuUnmapPage v a) := .bind (unmapPage h v a) fun _ => .pure _

theorem opMmuSetPageAttributes (v : Nat) (x : Attrs) (a : Option Nat) : Holds P (Machine.opMmuSetPageAttributes v x a) := .bind (setPageAttributes h v x a) fun _ => .pure _

theorem opMmuFlushTlb (a : Option Nat) : Holds P (Machine.opMmuFlushTlb a) := .bind (flushTlb h a) fun _ => .pure _

theorem opCpuMapPage (v : Nat) (f : Option Nat) (p : Option Perm) (a : Option Nat) : Holds P (Machine.opCpuMapPage v f p a) := .bind (mapPage h v f p a) fun _ => .pure _

theorem opCpuUnmapPage (v : Nat) (a : Option Nat) : Holds P (Machine.opCpuUnmapPage v a) := .bind (unmapPage h v a) fun _ => .pure _

theorem opCpuSetPageAttributes (v : Nat) (x : Attrs) (a : Option Nat) : Holds P (Machine.opCpuSetPageAttributes v x a) := .bind (setPageAttributes h v x a) fun _ => .pure _

theorem opCpuFlushTlb (a : Option Nat) : Holds P (Machine.opCpuFlushTlb a) := .bind (flushTlb h a) fun _ => .pure _

theorem opMmuTranslate (va : Word) : Holds P (Machine.opMmuTranslate va) := .bind (translate h _) fun _ => .pure _

theorem opMmuFlushTlbEntry (v : Nat) (a : Option Nat) : Holds P (Machine.opMmuFlushTlbEntry v a) := .get_bind' fun _ =>
  .bind (.modify fun s hs => h _ _ (.tlbFilter s _) hs) fun _ => .pure _

theorem opMmuCheckAccess (va : Word) (k : AccessKind) : Holds P (Machine.opMmuCheckAccess va k) := .bind (checkAccess h _ k) fun _ => .pure _

theorem opCacheRead (pa : Word) (c : Side) : Holds P (Machine.opCacheRead pa c) := .bind (cacheRead h _ c) fun _ => .pure _

theorem opCacheWriteBytes (pa : Word) (bs : List Byte) (c : Option Side) : Holds P (Machine.opCacheWriteBytes pa bs c) := .bind (cacheWrite h _ bs _) fun _ => .pure _

theorem opCachePrefetchLine (l : Level) (b : Word) : Holds P (Machine.opCachePrefetchLine l b) := .bind (prefetchLine h l _) fun _ => .pure _

theorem opCacheFlushLine (a : Word) (l : Level) : Holds P (Machine.opCacheFlushLine a l) := .bind (flushLine h _ l) fun _ => .pure _

theorem opCacheFlushAll (l : Level) : Holds P (Machine.opCacheFlushAll l) := .bind (flushAll h l) fun _ => .pure _

omit h in
theorem opCacheStats (l : Level) : Holds P (Machine.opCacheStats l) := .get_bind' fun _ => .pure _

theorem opCpuFetch (va : Word) (n : Option Nat) : Holds P (Machine.opCpuFetch va n) := .bind (fetch h _ _) fun _ => .pure _

theorem opCpuLoad (va : Word) (n : Nat) (sg : Bool) : Holds P (Machine.opCpuLoad va n sg) := .bind (load h _ n sg) fun _ => .pure _

theorem opCpuStore (va : Word) (n : Nat) (x : Int) (sg : Bool) : Holds P (Machine.opCpuStore va n x sg) := .bind (store h _ n x) fun _ => .pure _

theorem opCpuMemoryBarrier : Holds P (Machine.opCpuMemoryBarrier) := .bind (wcFlush h) fun _ => .pure _

theorem opCpuPrefetchData (va : Word) : Holds P (Machine.opCpuPrefetchData va) := by
  unfold Machine.opCpuPrefetchData
  refine .bind (translate h _) fun r => ?_
  dsimp only
  exact .ite (fun _ => .bind (prefetchLine h _ _) fun _ => .pure _) fun _ => .pure _

theorem opCpuPrefetchInst (va : Word) : Holds P (Machine.opCpuPrefetchInst va) := by
  unfold Machine.opCpuPrefetchInst
  refine .bind (translate h _) fun r => ?_
  dsimp only
  have : ∀ c : Bool, Holds P (do
      if c then Machine.prefetchLine .l1i r.1
      return Value.unit : Op Value) := fun c =>
    .ite (fun _ => .bind (prefetchLine h _ _) fun _ => .pure _) fun _ => .pure _
  exact .ite (fun _ => .bind (.raise _) fun _ => this _) fun _ => this _

theorem opCpuFlushIcache : Holds P (Machine.opCpuFlushIcache) := .bind (flushAll h .l1i) fun _ => .pure _

theorem opCpuFlushDcache : Holds P (Machine.opCpuFlushDcache) := .bind (flushAll h .l1d) fun _ => .pure _

theorem opCpuFlushL2 : Holds P (Machine.opCpuFlushL2) := .bind (flushAll h .l2) fun _ => .pure _

theorem opCpuFlushL3 : Holds P (Machine.opCpuFlushL3) := .bind (flushAll h .l3) fun _ => .pure _

theorem opCpuSetAsid (a : Nat) : Holds P (Machine.opCpuSetAsid a) := .bind (setAsid h a) fun _ => .pure _

theorem opCpuAttachPlic (b : Word) (l : Layout) (c : Nat) : Holds P (Machine.opCpuAttachPlic b l c) := .bind (.modify fun s hs => h _ _ (.attach s _ s.cpu.clintAttach) hs) fun _ => .pure _

theorem opCpuAttachClint (k : Nat) : Holds P (Machine.opCpuAttachClint k) := by
  unfold Machine.opCpuAttachClint
  refine .get_bind fun s hs => .ite (fun _ => .bind .refuse) fun _ => ?_
  exact h _ _ (.attach s s.cpu.plicAttach _) hs

theorem opCpuSampleIrqs : Holds P (Machine.opCpuSampleIrqs) := .bind (sampleClint h) fun _ => .bind (samplePlic h) fun _ => .pure _

theorem opCpuMaybeTakeInterrupt : Holds P (Machine.opCpuMaybeTakeInterrupt) := by
  unfold Machine.opCpuMaybeTakeInterrupt
  refine .get_bind' fun u => ?_
  split
  · exact .pure _
  · exact .bind (.modify fun s hs => h _ _ (.csr s _) hs) fun _ => .pure _

theorem opCpuCompleteTrap : Holds P (Machine.opCpuCompleteTrap) := .bind (.modify fun s hs => h _ _ (.csr s _) hs) fun _ => .pure _

theorem opCpuTrapEnter (c : Nat) (b : Option Bool) : Holds P (Machine.opCpuTrapEnter c b) := .bind (.modify fun s hs => h _ _ (.csr s _) hs) fun _ => .pure _

theorem opCpuMret : Holds P (Machine.opCpuMret) := .bind (.modify fun s hs => h _ _ (.csr s _) hs) fun _ => .pure _

omit h in
theorem opCpuShouldTakeInterrupt : Holds P (Machine.opCpuShouldTakeInterrupt) := .get_bind' fun _ => .pure _

omit h in
theorem opCpuCsrRead (f : CsrField) : Holds P (Machine.opCpuCsrRead f) := .get_bind' fun _ => .pure _

theorem opCpuCsrWrite (f : CsrField) (v : Nat) : Holds P (Machine.opCpuCsrWrite f v) := .get_bind' fun _ => .bind (.need _ _) fun _ =>
  .bind (modifyCsr h _) fun _ => .pure _

theorem opPlicRaise (id : Nat) : Holds P (Machine.opPlicRaise id) := .bind (plicRaise h id) fun _ => .pure _

theorem opPlicLower (id : Nat) : Holds P (Machine.opPlicLower id) := .bind (plicLower h id) fun _ => .pure _

omit h in
theorem opPlicGetContextIrq (c : Nat) : Holds P (Machine.opPlicGetContextIrq c) := .bind (plicContextIrq c) fun _ => .pure _

theorem opClintAdvance (n : Nat) : Holds P (Machine.opClintAdvance n) := .get_bind' fun _ =>
  .bind (.modify fun s hs => h _ _ (.clint s _) hs) fun _ => .pure _

omit h in
theorem opClintGetIrqLevels (k : Nat) : Holds P (Machine.opClintGetIrqLevels k) := .bind (.get_bind' fun _ => .ite (fun _ => .pure _) fun _ => .refuse _)
  fun _ => .pure _

theorem opTimerAdvance (k n : Nat) : Holds P (Machine.opTimerAdvance k n) := by
  unfold Machine.opTimerAdvance
  refine .bind (getTimer k) fun t => ?_
  exact .ite (fun _ => .bind (modifyTimer h k _) fun _ => .bind (updateTimerIrq h k) fun _ => .pure _)
    fun _ => .bind (updateTimerIrq h k) fun _ => .pure _

theorem opUartPushRx (k : Nat) (b : Byte) : Holds P (Machine.opUartPushRx k b) := .bind (getUart k) fun _ =>
  .bind (modifyUart h k _) fun _ => .bind (updateUartIrq h k) fun _ => .pure _

omit h in
theorem opRomRead (k : Nat) (o : Word) (w : Nat) : Holds P (Machine.opRomRead k o w) := .bind (romRead k _ w) fun _ => .pure _

omit h in
theorem opRomWrite (k : Nat) (o : Word) (bs : List Byte) : Holds P (Machine.opRomWrite k o bs) := .bind (romWrite k _ bs) fun _ => .pure _

theorem opPlicRead (l : Layout) (r : PlicReg) : Holds P (Machine.opPlicRead l r) := by
  unfold Machine.opPlicRead
  exact .bind (.get_bind' fun _ => .ite (fun _ => .pure _) fun _ => .refuse _) fun _ => .bind (plicRead h r) fun _ => .pure _

theorem opPlicWrite (l : Layout) (r : PlicReg) (v : Word32) : Holds P (Machine.opPlicWrite l r v) := by
  unfold Machine.opPlicWrite
  exact .bind (.get_bind' fun _ => .ite (fun _ => .pure _) fun _ => .refuse _) fun _ => .bind (plicWrite h r v) fun _ => .pure _

omit h in
theorem opClintRead (r : ClintReg) : Holds P (Machine.opClintRead r) := .bind (clintRead r) fun _ => .pure _

theorem opClintWrite (r : ClintReg) (v : Word) : Holds P (Machine.opClintWrite r v) := .bind (clintWrite h r v) fun _ => .pure _

theorem opUartRead (k : Nat) (r : UartReg) : Holds P (Machine.opUartRead k r) := .bind (uartRead h k r) fun _ => .pure _

theorem opUartWrite (k : Nat) (r : UartReg) (v : Word32) : Holds P (Machine.opUartWrite k r v) := .bind (uartWrite h k r v) fun _ => .pure _

omit h in
theorem opTimerRead (k : Nat) (r : TimerReg) : Holds P (Machine.opTimerRead k r) := .bind (timerRead k r) fun _ => .pure _

theorem opTimerWrite (k : Nat) (r : TimerReg) (v : Word32) : Holds P (Machine.opTimerWrite k r v) := .bind (timerWrite h k r v) fun _ => .pure _

omit h in
theorem opDmaRead (k : Nat) (r : DmaReg) : Holds P (Machine.opDmaRead k r) := .bind (dmaRead k r) fun _ => .pure _

theorem opDmaWrite (k : Nat) (r : DmaReg) (v : Word32) : Holds P (Machine.opDmaWrite k r v) := .bind (dmaWrite h k r v) fun _ => .pure _

/-- Every operation keeps what every single write keeps, if `poll` does. -/
theorem opOf {poll : Nat → Option (List Token) → Op Value} (hp : ∀ c t, Holds P (poll c t)) (i : Instr) :
    Holds P (opOf poll i) := by
  cases i with
  | dramReadBytes => exact opDramReadBytes h _ _
  | dramWriteBytes => exact opDramWriteBytes h _ _
  | dramFill => exact opDramFill h _ _ _
  | dramCopy => exact opDramCopy h _ _ _
  | dramPeek => exact opDramPeek h _
  | dramLoadImage => exact opDramLoadImage h _ _
  | busMapRam => exact opBusMapRam h _ _ _ _
  | busRegisterMmio => exact opBusRegisterMmio h _ _
  | busReadBytes => exact opBusReadBytes h _ _
  | busWriteBytes => exact opBusWriteBytes h _ _
  | mmuSetAsid => exact opMmuSetAsid h _
  | mmuMapPage => exact opMmuMapPage h _ _ _ _
  | mmuUnmapPage => exact opMmuUnmapPage h _ _
  | mmuTranslate => exact opMmuTranslate h _
  | mmuSetPageAttributes => exact opMmuSetPageAttributes h _ _ _
  | mmuFlushTlb => exact opMmuFlushTlb h _
  | mmuFlushTlbEntry => exact opMmuFlushTlbEntry h _ _
  | mmuCheckAccess => exact opMmuCheckAccess h _ _
  | cacheRead => exact opCacheRead h _ _
  | cacheWriteBytes => exact opCacheWriteBytes h _ _ _
  | cachePrefetchLine => exact opCachePrefetchLine h _ _
  | cacheFlushLine => exact opCacheFlushLine h _ _
  | cacheFlushAll => exact opCacheFlushAll h _
  | cacheStats => exact opCacheStats _
  | cpuFetch => exact opCpuFetch h _ _
  | cpuLoad => exact opCpuLoad h _ _ _
  | cpuStore va size value signed => exact opCpuStore h va size value signed
  | cpuMemoryBarrier => exact opCpuMemoryBarrier h
  | cpuPrefetchData => exact opCpuPrefetchData h _
  | cpuPrefetchInst => exact opCpuPrefetchInst h _
  | cpuFlushIcache => exact opCpuFlushIcache h
  | cpuFlushDcache => exact opCpuFlushDcache h
  | cpuFlushL2 => exact opCpuFlushL2 h
  | cpuFlushL3 => exact opCpuFlushL3 h
  | cpuFlushTlb => exact opCpuFlushTlb h _
  | cpuMapPage => exact opCpuMapPage h _ _ _ _
  | cpuUnmapPage => exact opCpuUnmapPage h _ _
  | cpuSetPageAttributes => exact opCpuSetPageAttributes h _ _ _
  | cpuSetAsid => exact opCpuSetAsid h _
  | cpuAttachPlic => exact opCpuAttachPlic h _ _ _
  | cpuAttachClint => exact opCpuAttachClint h _
  | cpuSampleIrqs => exact opCpuSampleIrqs h
  | cpuMaybeTakeInterrupt => exact opCpuMaybeTakeInterrupt h
  | cpuCompleteTrap => exact opCpuCompleteTrap h
  | cpuPollInterrupts => exact hp _ _
  | cpuTrapEnter => exact opCpuTrapEnter h _ _
  | cpuMret => exact opCpuMret h
  | cpuShouldTakeInterrupt => exact opCpuShouldTakeInterrupt
  | cpuCsrRead => exact opCpuCsrRead _
  | cpuCsrWrite => exact opCpuCsrWrite h _ _
  | plicRaise => exact opPlicRaise h _
  | plicLower => exact opPlicLower h _
  | plicGetContextIrq => exact opPlicGetContextIrq _
  | clintAdvance => exact opClintAdvance h _
  | clintGetIrqLevels => exact opClintGetIrqLevels _
  | timerAdvance => exact opTimerAdvance h _ _
  | uartPushRx => exact opUartPushRx h _ _
  | plicPrioR => exact opPlicRead h _ _
  | plicPrioW => exact opPlicWrite h _ _ _
  | plicPendLoR => exact opPlicRead h _ _
  | plicPendHiR => exact opPlicRead h _ _
  | plicEnableLoR => exact opPlicRead h _ _
  | plicEnableLoW => exact opPlicWrite h _ _ _
  | plicEnableHiR => exact opPlicRead h _ _
  | plicEnableHiW => exact opPlicWrite h _ _ _
  | plicThresholdR => exact opPlicRead h _ _
  | plicThresholdW => exact opPlicWrite h _ _ _
  | plicClaimR => exact opPlicRead h _ _
  | plicCompleteW => exact opPlicWrite h _ _ _
  | clintMsipR => exact opClintRead _
  | clintMsipW => exact opClintWrite h _ _
  | clintMtimecmpR => exact opClintRead _
  | clintMtimecmpLoR => exact opClintRead _
  | clintMtimecmpHiR => exact opClintRead _
  | clintMtimecmpW => exact opClintWrite h _ _
  | clintMtimecmpLoW => exact opClintWrite h _ _
  | clintMtimecmpHiW => exact opClintWrite h _ _
  | clintMtimeR => exact opClintRead _
  | clintMtimeLoR => exact opClintRead _
  | clintMtimeHiR => exact opClintRead _
  | clintMtimeW => exact opClintWrite h _ _
  | clintMtimeLoW => exact opClintWrite h _ _
  | clintMtimeHiW => exact opClintWrite h _ _
  | uartDataR => exact opUartRead h _ _
  | uartDataW => exact opUartWrite h _ _ _
  | uartStatusR => exact opUartRead h _ _
  | uartCtrlR => exact opUartRead h _ _
  | uartCtrlW => exact opUartWrite h _ _ _
  | timerCntLoR => exact opTimerRead _ _
  | timerCntLoW => exact opTimerWrite h _ _ _
  | timerCntHiR => exact opTimerRead _ _
  | timerCntHiW => exact opTimerWrite h _ _ _
  | timerCmpLoR => exact opTimerRead _ _
  | timerCmpLoW => exact opTimerWrite h _ _ _
  | timerCmpHiR => exact opTimerRead _ _
  | timerCmpHiW => exact opTimerWrite h _ _ _
  | timerCtrlR => exact opTimerRead _ _
  | timerCtrlW => exact opTimerWrite h _ _ _
  | timerStatusR => exact opTimerRead _ _
  | timerStatusW => exact opTimerWrite h _ _ _
  | timerTickR => exact opTimerRead _ _
  | timerTickW => exact opTimerWrite h _ _ _
  | dmaSrcLoR => exact opDmaRead _ _
  | dmaSrcLoW => exact opDmaWrite h _ _ _
  | dmaSrcHiR => exact opDmaRead _ _
  | dmaSrcHiW => exact opDmaWrite h _ _ _
  | dmaDstLoR => exact opDmaRead _ _
  | dmaDstLoW => exact opDmaWrite h _ _ _
  | dmaDstHiR => exact opDmaRead _ _
  | dmaDstHiW => exact opDmaWrite h _ _ _
  | dmaLenR => exact opDmaRead _ _
  | dmaLenW => exact opDmaWrite h _ _ _
  | dmaCtrlR => exact opDmaRead _ _
  | dmaCtrlW => exact opDmaWrite h _ _ _
  | dmaStatusR => exact opDmaRead _ _
  | dmaStatusW => exact opDmaWrite h _ _ _
  | romRead => exact opRomRead _ _ _
  | romWrite => exact opRomWrite _ _ _

/-! ## `poll_interrupts` and its handler -/

omit h in
theorem callOf {op : Instr → Op Value} (ho : ∀ i, Holds P (op i)) (ts : List Token) : Holds P (callOf op ts).1 := by
  unfold Machine.callOf
  split
  · exact ho _
  · exact rejectedCall _

omit h in
theorem runCalls {op : Instr → Op Value} (ho : ∀ i, Holds P (op i)) (fuel : Nat) (ts : List Token) :
    Holds P (runCalls op fuel ts) := by
  induction fuel generalizing ts with
  | zero => exact .pure _
  | succ fuel ih =>
    cases ts with
    | nil => exact .pure _
    | cons x ts =>
      have one : Holds P (do
          let _ ← (Machine.callOf op (x :: ts)).1
          Machine.runCalls op fuel (Machine.callOf op (x :: ts)).2 : Op Unit) := .bind (callOf ho _) fun _ => ih _
      cases x with
      | attempt => exact .bind (.attempt (callOf ho _)) fun _ => ih _
      | _ => exact one

theorem pollWith {run : List Token → Op Unit} (hr : ∀ ts, Holds P (run ts)) (c : Nat) (ts : Option (List Token)) :
    Holds P (pollWith run c ts) := by
  have last : ∀ va (id : Int), Holds P (do
      Machine.store va 4 id
      return Value.int id : Op Value) := fun va id => .bind (store h va 4 id) fun _ => .pure _
  unfold Machine.pollWith
  refine .get_bind' fun s => .bind (.need _ _) fun p => .bind (load h _ _ _) fun id => .ite (fun _ => ?_) fun _ => .pure _
  cases ts with
  | none => exact last _ _
  | some ts => exact .bind (.attempt (hr ts)) fun _ => last _ _

theorem runHandler (depth : Nat) (ts : List Token) : Holds P (runHandler depth ts) := by
  induction depth generalizing ts with
  | zero => exact .pure _
  | succ depth ih => exact runCalls (opOf h (pollWith h ih)) _ _

theorem opCpuPollInterrupts (c : Nat) (ts : Option (List Token)) : Holds P (opCpuPollInterrupts c ts) :=
  pollWith h (runHandler h _) c ts

end Stable

omit h

/-- Every meaning is its operation, its end recorded. -/
theorem exec_eq (i : Instr) (s : State) : exec i s = finish (opOf opCpuPollInterrupts i) s := by
  cases i <;> rfl

/-- What every single write keeps, every operation keeps. -/
theorem Stable.exec (h : Stable P) (hr : ∀ s r, P s → P { s with result := r }) {i : Instr} {s t : State} (hs : P s)
    (ht : exec i s = .next t) : P t := by
  rw [exec_eq] at ht
  exact (h.opOf h.opCpuPollInterrupts i s hs).finish hr ht

/-- A step answers a next state by staying, by running an operation, or by the error of a call that does not decode. -/
theorem step_cases {s t : State} (h : step s = .next t) :
    (s.calls = [] ∧ t = s) ∨
    ConfigLegal s.cfg ∧
      ((∃ i rest, decode s.calls = .ok (i, rest) ∧ exec i { s with calls := rest } = .next t) ∨
        ∃ r, decode s.calls = .error r ∧ finish (rejectedCall r) { s with calls := s.calls.tail } = .next t) := by
  unfold step at h
  split at h
  · cases h
  · rename_i hb
    split at h
    · exact .inl ⟨‹_›, (Host.Outcome.next.inj h).symm⟩
    · refine .inr ⟨firstBad_none_iff.1 hb, ?_⟩
      unfold fetchCall at h
      cases hd : decode s.calls with
      | ok r =>
        rw [hd] at h
        exact .inl ⟨r.1, r.2, rfl, h⟩
      | error r =>
        rw [hd] at h
        exact .inr ⟨r, rfl, h⟩

/-- What every single write keeps, every step keeps. -/
theorem Stable.step (h : Stable P) (hr : ∀ s r, P s → P { s with result := r })
    (hc : ∀ s c, P s → P { s with calls := c }) {s t : State} (hs : P s) (ht : step s = .next t) : P t := by
  rcases step_cases ht with ⟨-, rfl⟩ | ⟨-, ⟨i, rest, -, he⟩ | ⟨r, -, he⟩⟩
  · exact hs
  · exact h.exec hr (hc _ _ hs) he
  · exact (Stable.rejectedCall r _ (hc _ _ hs)).finish hr he

end Sys2Proof.Machine
end

