-- ==== Sys2Proof/Laws/Exec.lean ====
section
/-! SUPPORT. How an operation that runs to a value, an error or a refusal ends, in the terms claims use. -/

namespace Sys2Proof.Machine

/-- An operation that goes well answers the state that records its value. -/
theorem exec_ok {i : Instr} {s t : State} {v : Value} (h : opOf opCpuPollInterrupts i s = .ok v t) :
    exec i s = .next (t.ok v) := by
  rw [exec_eq, finish, h]
  rfl

/-- An operation that ends in an error answers the state that records it. -/
theorem exec_err {i : Instr} {s t : State} {k : ErrKind}
    (h : opOf opCpuPollInterrupts i s = .error (.err { kind := k }) t) : exec i s = .next (t.err k) := by
  rw [exec_eq, finish, h]
  rfl

/-- An operation that refuses stops. -/
theorem exec_refuse {i : Instr} {s t : State} {r : Refusal}
    (h : opOf opCpuPollInterrupts i s = .error (.refuse r) t) : exec i s = .refused r := by
  rw [exec_eq, finish, h]

end Sys2Proof.Machine
end

