-- ==== Sys2Proof/Laws/Fill.lean ====
section
/-! SUPPORT. A line that is installed: that the cache stays sound and no byte's newest value changes whatever line it
displaces, and that this is what a read does. -/

namespace Sys2Proof.Machine

/-! ## What an access keeps -/

/-- t is s after accesses to the cache: the cache is sound and no byte's newest value changed. -/
structure Kept (s t : State) : Prop where
  sound : CacheSound t
  newest : ∀ a, t.newest a = s.newest a
  frame : t = { s with cache := t.cache, dram := t.dram, bus := t.bus }
  offsets : ∀ a, t.ramOffset a = s.ramOffset a
  under : Under s t

theorem Settled.kept {s t : State} (h : Settled s t) : Kept s t := ⟨h.sound, h.newest, h.frame, h.offsets, h.under⟩

theorem Kept.refl {s : State} (h : CacheSound s) : Kept s s := (Settled.refl h).kept

theorem Kept.trans {s t u : State} (h : Kept s t) (g : Kept t u) : Kept s u where
  sound := g.sound
  newest a := (g.newest a).trans (h.newest a)
  frame := by rw [g.frame, h.frame]
  offsets a := (g.offsets a).trans (h.offsets a)
  under := ⟨g.under.1.trans h.under.1, g.under.2.1.trans h.under.2.1, g.under.2.2.1.trans h.under.2.2.1, fun o ho =>
    (g.under.2.2.2 o fun a => by rw [h.offsets]; exact ho a).trans (h.under.2.2.2 o ho)⟩

theorem Kept.cfg {s t : State} (h : Kept s t) : t.cfg = s.cfg := by rw [h.frame]

theorem Under.ramRange {s t : State} (h : Under s t) (hc : t.cfg = s.cfg) {a n o : Nat} :
    t.ramRange a n o ↔ s.ramRange a n o := by
  unfold State.ramRange State.ramOffset Bus.find
  rw [h.1, hc]

/-- A change of stamps, of statistics and of the bus's counts keeps a sound cache. -/
theorem CacheSound.restamp {s t : State} (hC : CacheSound s) (hf : t = { s with cache := t.cache, bus := t.bus })
    (hb : t.bus.regions = s.bus.regions ∧ t.bus.faults = s.bus.faults) (hL : Lists t)
    (hx : ∀ k u, ∃ g, t.line k u = { s.line k u with lru := g }) :
    Kept s t ∧ ∀ a k, t.lookup a k = s.lookup a k := by
  obtain ⟨hl, -, hS, hlen, hi, hbk⟩ := hC.slots
  have hcfg : t.cfg = s.cfg := by rw [hf]
  have hdram : t.dram = s.dram := by rw [hf]
  have hu : Under s t := ⟨hb.1, hb.2, by rw [hdram], fun o _ => by unfold State.dramByte; rw [hdram, hcfg]⟩
  have hro : ∀ a, t.ramOffset a = s.ramOffset a := fun a => by unfold State.ramOffset Bus.find; rw [hb.1]
  have hv : ∀ k u, (t.line k u).valid = (s.line k u).valid := fun k u => by obtain ⟨g, hg⟩ := hx k u; rw [hg]
  have hd : ∀ k u, (t.line k u).dirty = (s.line k u).dirty := fun k u => by obtain ⟨g, hg⟩ := hx k u; rw [hg]
  have hda : ∀ k u, (t.line k u).data = (s.line k u).data := fun k u => by obtain ⟨g, hg⟩ := hx k u; rw [hg]
  have hp : ∀ k u c, (t.line k u).present c = (s.line k u).present c := fun k u c => by
    obtain ⟨g, hg⟩ := hx k u; rw [hg]; cases c <;> rfl
  have ha : ∀ k u, t.addr k u = s.addr k u := fun k u => by
    obtain ⟨g, hg⟩ := hx k u; unfold State.addr Config.addrOf; rw [hg, hcfg]
  have hlk : ∀ a k, t.lookup a k = s.lookup a k := fun a k =>
    lookup_congr hcfg (fun r => by obtain ⟨g, hg⟩ := hx k r; rw [hg]; exact ⟨rfl, rfl⟩) a
  refine ⟨⟨.of_slots (by rw [hcfg]; exact hC.legal) hL ?_ (fun k u h => ?_) (fun u => by rw [hd, hi u]) (fun u h => ?_)
    (by rw [hdram, hcfg]; exact hC.memory) ?_
    (fun a b o h1 h2 => hC.injective a b o (by rw [← hro, h1]) (by rw [← hro, h2])), fun a => ?_, by rw [hf], hro, hu⟩, hlk⟩
  · refine ⟨fun k u h => ?_, fun k u v h1 h2 h3 => ?_, fun k p hk u h => ?_, fun k p hk u h h' => ?_⟩
    · rw [hcfg]; exact hS.range k u (by rw [← hv]; exact h)
    · rw [hv] at h1 h2; rw [ha, ha] at h3; exact hS.inj k u v h1 h2 h3
    · obtain ⟨r, e1, e2, e3⟩ := hS.up k p hk u (by rw [← hv]; exact h)
      exact ⟨r, by rw [hv, e1], by rw [ha, ha, e2], by rw [hp, e3]⟩
    · obtain ⟨r, e1, e2⟩ := hS.down k p hk u (by rw [← hv]; exact h) (by rw [← hp]; exact h')
      exact ⟨r, by rw [hv, e1], by rw [ha, ha, e2]⟩
  · rw [hda, hcfg]; exact hlen k u (by rw [← hv]; exact h)
  · obtain ⟨o, ho⟩ := hbk u (by rw [← hv]; exact h)
    exact ⟨o, by rw [ha, hcfg, hu.ramRange hcfg]; exact ho⟩
  · unfold RegionsOk; rw [hb.1]; exact hC.regions
  · have h1 : ∀ k, t.dirtyByte k a = s.dirtyByte k a := fun k => by
      unfold State.dirtyByte; simp only [hlk, hd, hda, hcfg]
    have h2 : t.dramByte = s.dramByte := by funext o; unfold State.dramByte; rw [hdram, hcfg]
    unfold State.newest
    rw [h1, h1, h1, hro, h2]

/-! ## A line put into an invalid slot -/

/-- t is s with a clean line of block b put into slot q of level l, whose parent's line of the block says so. -/
structure Placed (s t : State) (l : Level) (b : Nat) (d : List Byte) (q : Nat × Nat) : Prop where
  cache : onlyCache s t
  lists : Lists t
  line : ∃ g, t.line l q =
    { valid := true, dirty := false, tag := Config.tagOf s.cfg l b, data := d, lru := g
      presentL1d := false, presentL1i := false, presentL2 := false }
  rest : ∀ k u, (k, u) ≠ (l, q) → t.line k u =
    if Level.parent l = some k ∧ s.lookup b k = some u then (s.line k u).withPresence l true else s.line k u

/-- What an installation needs: the level does not hold the block, its parent does, and the slot is free and of its set. -/
structure Room (s : State) (l : Level) (b : Nat) (d : List Byte) (q : Nat × Nat) : Prop where
  block : Config.block s.cfg b = b
  absent : s.lookup b l = none
  parent : ∀ p, Level.parent l = some p → ∃ r, s.lookup b p = some r
  backed : l = .l3 → ∃ o, s.ramRange b s.cfg.lineSize o
  length : d.length = s.cfg.lineSize
  free : (s.line l q).valid = false
  set : q.1 = Config.setOf s.cfg l b
  way : q.2 < s.cfg.ways l

theorem numSets_pos {c : Config} (h : ConfigLegal c) (l : Level) : 0 < c.numSets l := by
  obtain ⟨⟨m, hm⟩, ha, n, hn, hs⟩ := h.geometry l
  have : c.lineSize = (c.levelCfg l).lineSize := (h.lineSizes l).symm
  unfold Config.numSets
  rw [hs, this, Nat.mul_div_cancel]
  · omega
  · rw [hm]; positivity

theorem Placed.kept {s t : State} {l : Level} {b : Nat} {d : List Byte} {q : Nat × Nat} (m : Placed s t l b d q)
    (hC : CacheSound s) (h : Room s l b d q) : Kept s t ∧ t.lookup b l = some q := by
  obtain ⟨hl, hL, hS, hlen, hi, hb⟩ := hC.slots
  have hcfg : t.cfg = s.cfg := by rw [m.cache]
  have hdram : t.dram = s.dram := by rw [m.cache]
  have hbus : t.bus = s.bus := by rw [m.cache]
  have hro : ∀ a, t.ramOffset a = s.ramOffset a := by rw [m.cache]; exact fun _ => rfl
  obtain ⟨g, hg⟩ := m.line
  have hno := (hS.lookup_none hl).1 h.absent
  rw [h.block] at hno
  have hq : t.addr l q = b := by
    have : (t.line l q).tag = Config.tagOf s.cfg l b := by rw [hg]
    unfold State.addr
    rw [addrOf_eq_block (a := b) (by rw [hcfg]; exact h.set) (by rw [hcfg]; exact this), hcfg, h.block]
  have hw : ∀ k u, (k, u) ≠ (l, q) → (t.line k u).valid = (s.line k u).valid ∧ (t.line k u).tag = (s.line k u).tag ∧
      (t.line k u).data = (s.line k u).data ∧ (t.line k u).dirty = (s.line k u).dirty := by
    intro k u hne
    rw [m.rest k u hne]
    split
    · exact withPresence_valid ..
    · exact ⟨rfl, rfl, rfl, rfl⟩
  have had : ∀ {k u}, (k, u) ≠ (l, q) → t.addr k u = s.addr k u := fun {k u} hne => by
    unfold State.addr Config.addrOf; rw [(hw k u hne).2.1, hcfg]
  have hne_of : ∀ {k u}, (s.line k u).valid = true → (k, u) ≠ (l, q) := by
    rintro k u hv he; cases he; rw [h.free] at hv; cases hv
  have hval : ∀ {k u}, (s.line k u).valid = true → (t.line k u).valid = true := fun {k u} hv => by
    rw [(hw k u (hne_of hv)).1]; exact hv
  have hpr : ∀ {k u}, (k, u) ≠ (l, q) → ∀ c, (t.line k u).present c =
      if c = l ∧ Level.parent l = some k ∧ s.lookup b k = some u then true else (s.line k u).present c := by
    intro k u hne c
    rw [m.rest k u hne]
    by_cases hk : Level.parent l = some k ∧ s.lookup b k = some u
    · rw [if_pos hk, present_withPresence _ _ _ (Level.parent_ne hk.1).2]
      simp [hk]
    · rw [if_neg hk, if_neg (by tauto)]
  have hnone : ∀ c, (t.line l q).present c = false := fun c => by rw [hg]; cases c <;> rfl
  have hST : Shape t := by
    refine ⟨fun k u hv => ?_, fun k u v hu hv he => ?_, fun k p hk u hv => ?_, fun k p hk r hv hp => ?_⟩
    · by_cases hne : (k, u) = (l, q)
      · cases hne; rw [hcfg, h.set]; exact ⟨Nat.mod_lt _ (numSets_pos hC.legal l), h.way⟩
      · rw [hcfg]; exact hS.range k u (by rw [← (hw k u hne).1]; exact hv)
    · by_cases hne : (k, u) = (l, q)
      · cases hne
        by_cases hne' : v = q
        · exact hne'.symm
        · have hn : (l, v) ≠ (l, q) := by simpa using hne'
          exact absurd (by rw [← had hn, ← he, hq]) (hno v (by rw [← (hw l v hn).1]; exact hv))
      · by_cases hne' : (k, v) = (l, q)
        · cases hne'
          exact absurd (by rw [← had hne, he, hq]) (hno u (by rw [← (hw l u hne).1]; exact hu))
        · rw [had hne, had hne'] at he
          exact hS.inj k u v (by rw [← (hw k u hne).1]; exact hu) (by rw [← (hw k v hne').1]; exact hv) he
    · by_cases hne : (k, u) = (l, q)
      · cases hne
        obtain ⟨r, hr⟩ := h.parent p hk
        obtain ⟨e1, e2⟩ := (hS.lookup hl).1 hr
        refine ⟨r, hval e1, by rw [had (hne_of e1), hq, e2, h.block], ?_⟩
        rw [hpr (hne_of e1), if_pos ⟨rfl, hk, hr⟩]
      · have hvs : (s.line k u).valid = true := by rw [← (hw k u hne).1]; exact hv
        obtain ⟨r, e1, e2, e3⟩ := hS.up k p hk u hvs
        refine ⟨r, hval e1, by rw [had (hne_of e1), had hne, e2], ?_⟩
        rw [hpr (hne_of e1)]
        split
        · rfl
        · exact e3
    · by_cases hne : (p, r) = (l, q)
      · cases hne; rw [hnone] at hp; cases hp
      · have hvs : (s.line p r).valid = true := by rw [← (hw p r hne).1]; exact hv
        rw [hpr hne] at hp
        split at hp
        · rename_i hk'
          obtain ⟨rfl, -, hr⟩ := hk'
          exact ⟨q, by rw [hg], by rw [hq, had hne, ((hS.lookup hl).1 hr).2, h.block]⟩
        · obtain ⟨w, e1, e2⟩ := hS.down k p hk r hvs hp
          exact ⟨w, hval e1, by rw [had (hne_of e1), had hne, e2]⟩
  have hlt : 0 < t.cfg.lineSize := by rw [hcfg]; exact hl
  have hlk : t.lookup b l = some q := (hST.lookup hlt).2 ⟨by rw [hg], by rw [hq, hcfg, h.block]⟩
  refine ⟨⟨.of_slots (by rw [hcfg]; exact hC.legal) m.lists hST (fun k u hv => ?_) (fun u => ?_) (fun u hv => ?_)
    (by rw [hdram, hcfg]; exact hC.memory) (by rw [hbus]; exact hC.regions)
    (fun a b o h1 h2 => hC.injective a b o (by rw [← hro, h1]) (by rw [← hro, h2])), fun a => ?_,
    by rw [m.cache], hro, .of_cache m.cache⟩, hlk⟩
  · rw [hcfg]
    by_cases hne : (k, u) = (l, q)
    · cases hne; rw [hg]; exact h.length
    · rw [(hw k u hne).2.2.1]; exact hlen k u (by rw [← (hw k u hne).1]; exact hv)
  · by_cases hne : (.l1i, u) = (l, q)
    · cases hne; rw [hg]
    · rw [(hw _ u hne).2.2.2]; exact hi u
  · rw [hcfg]
    by_cases hne : (.l3, u) = (l, q)
    · cases hne
      obtain ⟨o, ho⟩ := h.backed rfl
      exact ⟨o, by rw [hq, m.cache]; exact ho⟩
    · obtain ⟨o, ho⟩ := hb u (by rw [← (hw _ u hne).1]; exact hv)
      exact ⟨o, by rw [had hne, m.cache]; exact ho⟩
  · have h1 : ∀ k, t.dirtyByte k a = s.dirtyByte k a := by
      intro k
      unfold State.dirtyByte
      cases hs : s.lookup a k with
      | some u =>
        obtain ⟨e1, e2⟩ := (hS.lookup hl).1 hs
        have hne := hne_of e1
        have : t.lookup a k = some u := (hST.lookup hlt).2 ⟨hval e1, by rw [had hne, hcfg, e2]⟩
        rw [this]; dsimp only
        rw [(hw k u hne).2.2.2, (hw k u hne).2.2.1, hcfg]
      | none =>
        cases ht : t.lookup a k with
        | none => rfl
        | some u =>
          obtain ⟨e1, e2⟩ := (hST.lookup hlt).1 ht
          by_cases hne : (k, u) = (l, q)
          · cases hne; dsimp only; rw [hg]; rfl
          · refine absurd ?_ ((hS.lookup_none hl).1 hs u (by rw [← (hw k u hne).1]; exact e1))
            rw [← had hne, e2, hcfg]
    have h2 : t.dramByte = s.dramByte := by rw [m.cache]; rfl
    unfold State.newest
    rw [h1, h1, h1, hro, h2]

/-! ## Installation -/

theorem leastRecent_mem (line : Nat → Line) : ∀ ws : List Nat, ws ≠ [] → leastRecent line ws ∈ ws
  | [], h => absurd rfl h
  | [w], _ => by simp [leastRecent]
  | w :: v :: ws, _ => by
    have ih := leastRecent_mem line (v :: ws) (by simp)
    simp only [leastRecent]
    split
    · simp
    · exact List.mem_cons_of_mem _ ih

/-- The victim is a way of the set. -/
theorem chooseVictim_lt {s : State} {l : Level} (h : 0 < s.cfg.ways l) (set : Nat) : s.chooseVictim l set < s.cfg.ways l := by
  unfold State.chooseVictim
  dsimp only
  split
  · rename_i w hw; exact List.mem_range.1 (List.mem_of_find?_eq_some hw)
  · split
    · exact List.mem_range.1 (leastRecent_mem _ _ (by simp; omega))
    · rename_i hp
      have := leastRecent_mem (fun w => s.line l (set, w)) _ (mt List.isEmpty_iff.2 hp)
      exact List.mem_range.1 (List.mem_filter.1 this).1

/-- `install_line` of level l. -/
def installAt : Level → Nat → List Byte → Bool → Op Unit
  | .l1d => installL1 .l1d
  | .l1i => installL1 .l1i
  | .l2 => installL2
  | .l3 => installL3

theorem installAt_eq (l : Level) (b : Nat) (d : List Byte) (w : Bool) :
    installAt l b d w = installWith (handleEviction l) l b d w := by cases l <;> rfl

/-- A clean line of a block that the level does not hold and its parent does is installed, whatever line it displaces. -/
theorem installAt_run {s : State} (hC : CacheSound s) {l : Level} {b : Nat} {d : List Byte}
    (hb : Config.block s.cfg b = b) (hn : s.lookup b l = none)
    (hp : ∀ p, Level.parent l = some p → ∃ r, s.lookup b p = some r)
    (h3 : l = .l3 → ∃ o, s.ramRange b s.cfg.lineSize o) (hd : d.length = s.cfg.lineSize) :
    ∃ t q, installAt l b d false s = .ok () t ∧ Kept s t ∧ t.lookup b l = some q ∧ (t.line l q).data = d ∧
      ∀ k, Level.parent k = some l → t.lookup b k = none := by
  obtain ⟨hl, hL, hS, -⟩ := hC.slots
  obtain ⟨q, hq⟩ : ∃ q, q = (Config.setOf s.cfg l b, s.chooseVictim l (Config.setOf s.cfg l b)) := ⟨_, rfl⟩
  have hways : 0 < s.cfg.ways l := (hC.legal.geometry l).2.1
  have hq2 : q.2 < s.cfg.ways l := by rw [hq]; exact chooseVictim_lt hways _
  -- the slot is freed
  obtain ⟨t1, v, r1, hL1, k1, f1, c1, n1, p1⟩ : ∃ t1 v, (if (s.line l q).valid then handleEviction l q else pure () : Op Unit) s =
      .ok () t1 ∧ Lists t1 ∧ Kept s v ∧ (v.line l q).valid = false ∧ (onlyCache v t1 ∧
        ∀ k u, (k, u) ≠ (l, q) → t1.line k u = v.line k u) ∧ v.lookup b l = none ∧
      ∀ p, Level.parent l = some p → ∃ r, v.lookup b p = some r := by
    by_cases hv : (s.line l q).valid = true
    · obtain ⟨t1, r1, e⟩ := handleEviction_run hC hv
      have hcfg : (inv t1 l q).cfg = s.cfg := e.settled.cfg
      obtain ⟨-, -, hSv, -⟩ := e.settled.sound.slots
      have hlv : 0 < (inv t1 l q).cfg.lineSize := by rw [hcfg]; exact hl
      refine ⟨t1, inv t1 l q, by rw [if_pos hv]; exact r1, e.lists, e.settled.kept, by rw [line_inv, if_pos ⟨rfl, rfl⟩]; rfl,
        ⟨rfl, fun k u hne => by rw [line_inv, if_neg (by simpa using hne)]⟩, ?_, fun p hpp => ?_⟩
      · rw [hSv.lookup_none hlv]
        intro u hu
        obtain ⟨e1, e2⟩ := e.settled.shrunk l u hu
        rw [e2, hcfg]; exact (hS.lookup_none hl).1 hn u e1
      · obtain ⟨r, hr⟩ := hp p hpp
        obtain ⟨e1, e2⟩ := (hS.lookup hl).1 hr
        have e3 := e.keeps p r (.inr hpp) (by rintro he; cases he; exact (Level.parent_ne hpp).1 rfl) e1
        exact ⟨r, (hSv.lookup hlv).2 ⟨e3, by rw [(e.settled.shrunk p r e3).2, hcfg, e2]⟩⟩
    · exact ⟨s, s, by rw [if_neg hv]; rfl, hL, .refl hC, by simpa using hv, ⟨rfl, fun _ _ _ => rfl⟩, hn, hp⟩
  have hcv : v.cfg = s.cfg := k1.cfg
  have hc1 : t1.cfg = s.cfg := by rw [c1.1, hcv]
  obtain ⟨x, hx⟩ : ∃ x : Line, x =
    { valid := true, dirty := false, tag := Config.tagOf s.cfg l b, data := d, lru := t1.cache.globalCounter + 1
      presentL1d := false, presentL1i := false, presentL2 := false } := ⟨_, rfl⟩
  obtain ⟨y, hy⟩ : ∃ y, y = Machine.cnt (put (stamp t1) l q x) l (·.fill) := ⟨_, rfl⟩
  have hly : ∀ k u, y.line k u = if k = l ∧ u = q then x else t1.line k u := fun k u => by
    rw [hy, line_cnt, line_put, line_stamp]
  have hcy : y.cfg = s.cfg := by rw [hy]; exact hc1
  have hky : ∀ k, k ≠ l → y.lookup b k = v.lookup b k := fun k hk =>
    lookup_congr (hcy.trans hcv.symm) (fun u => by
      rw [hly, if_neg (by simp [hk]), c1.2 k u (by simp [hk])]; exact ⟨rfl, rfl⟩) b
  have hLy : Lists y := by
    rw [hy]; exact (Lists.put hL1.stamp (by rw [hx])).cnt
  obtain ⟨z, hz⟩ : ∃ z, z = marked y l b true := ⟨_, rfl⟩
  have m : Placed v z l b d q := by
    refine ⟨?_, ?_, ⟨t1.cache.globalCounter + 1, ?_⟩, fun k u hne => ?_⟩
    · have h1 : onlyCache v y := by rw [hy]; exact c1.1.trans rfl
      rw [hz]; exact h1.trans (onlyCache_marked ..)
    · rw [hz]; unfold marked
      split
      · exact hLy
      · rename_i p hpp
        split
        · rename_i r hr
          refine hLy.put ?_
          rw [(withPresence_valid ..).1]; exact (lookup_valid hr).1
        · exact hLy
    · rw [hz, line_marked, if_neg, hly, if_pos ⟨rfl, rfl⟩, hx, hcv]
      rintro ⟨h1, -⟩; exact (Level.parent_ne h1).1 rfl
    · have hne' : ¬ (k = l ∧ u = q) := by simpa using hne
      rw [hz, line_marked, hly, if_neg hne', c1.2 k u hne]
      by_cases hk : Level.parent l = some k
      · rw [hky k (Level.parent_ne hk).1.symm]
      · rw [if_neg (fun h => hk h.1), if_neg (fun h => hk h.1)]
  have room : Room v l b d q := by
    refine ⟨by rw [hcv]; exact hb, n1, p1, fun h => ?_, by rw [hcv]; exact hd, f1, by rw [hcv, hq], by rw [hcv]; exact hq2⟩
    obtain ⟨o, ho⟩ := h3 h
    exact ⟨o, by rw [hcv, k1.under.ramRange hcv]; exact ho⟩
  obtain ⟨k2, l2⟩ := m.kept k1.sound room
  refine ⟨z, q, ?_, k1.trans k2, l2, by obtain ⟨g, hg⟩ := m.line; rw [hg], fun k hk => ?_⟩
  rotate_left
  · obtain ⟨hlz, -, hSz, -⟩ := k2.sound.slots
    rw [hSz.lookup_none hlz]
    intro u hu he
    obtain ⟨r, e1, e2, e3⟩ := hSz.up k l hk u hu
    obtain ⟨e4, e5⟩ := (hSz.lookup hlz).1 l2
    rw [hSz.inj l r q e1 e4 (by rw [e2, e5, he])] at e3
    obtain ⟨g, hg⟩ := m.line
    rw [hg] at e3
    cases k <;> cases e3
  rw [installAt_eq]
  unfold installWith
  rw [Op.get_bind_run]
  dsimp only
  rw [← hq]
  have hop : (do
      if (s.line l q).valid then handleEviction l q
      let g ← nextStamp
      putLine l q { valid := true, dirty := false, tag := Config.tagOf s.cfg l b, data := d, lru := g,
                    presentL1d := false, presentL1i := false, presentL2 := false }
      countAt l (·.fill)
      markPresence l b true : Op Unit) = (do
      (if (s.line l q).valid then handleEviction l q else pure () : Op Unit)
      let g ← nextStamp
      putLine l q { valid := true, dirty := false, tag := Config.tagOf s.cfg l b, data := d, lru := g,
                    presentL1d := false, presentL1i := false, presentL2 := false }
      countAt l (·.fill)
      markPresence l b true : Op Unit) := by split <;> rfl
  rw [hop, Op.bind_ok r1, Op.bind_ok (nextStamp_run t1), Op.bind_ok (putLine_run ..), Op.bind_ok (countAt_run ..),
    markPresence_run, hz, hy, hx]

/-! ## A read -/

theorem CacheSound.missed {s : State} (hC : CacheSound s) (l : Level) :
    Kept s (missed s l) ∧ ∀ a k, (Machine.missed s l).lookup a k = s.lookup a k :=
  hC.restamp rfl ⟨rfl, rfl⟩ hC.slots.2.1.cnt fun k u => ⟨(s.line k u).lru, line_missed s l k u⟩

theorem CacheSound.stamped {s : State} (hC : CacheSound s) {l : Level} {a : Nat} {q : Nat × Nat}
    (h : s.lookup a l = some q) :
    Kept s (stamped s q l false) ∧ ∀ a k, (Machine.stamped s q l false).lookup a k = s.lookup a k := by
  refine hC.restamp rfl ⟨rfl, rfl⟩ ?_ fun k u => ?_
  · have : Machine.stamped s q l false = Machine.cnt (put (stamp s) l q
        { s.line l q with lru := s.cache.globalCounter + 1, dirty := (s.line l q).dirty || false }) l (·.hit) := by
      unfold Machine.stamped Machine.cnt put stamp State.withLines
      cases l <;> rfl
    rw [this]
    refine (Lists.put hC.slots.2.1.stamp ?_).cnt
    exact (lookup_valid h).1
  · rw [line_stamped]
    split
    · rename_i he; obtain ⟨rfl, rfl⟩ := he; exact ⟨_, by rw [Bool.or_false]⟩
    · exact ⟨_, rfl⟩

/-- A read of a block of RAM completes whatever the sets are full of: the cache stays sound, no byte's newest value
changes, and the first-level cache holds the line that was read. -/
theorem cacheRead_run {s : State} (hC : CacheSound s) {pa o : Nat} (c : Side)
    (ho : s.ramRange (Config.block s.cfg pa) s.cfg.lineSize o) :
    ∃ t q, cacheRead pa c s = .ok (s.lineOf pa c o) t ∧ Kept s t ∧ t.lookup pa c.level = some q ∧
      (t.line c.level q).data = s.lineOf pa c o := by
  obtain ⟨hl, -, hS, hlen, -⟩ := hC.slots
  have hlk : ∀ {u : State}, u.cfg = s.cfg → ∀ k, u.lookup (Config.block s.cfg pa) k = u.lookup pa k := fun {u} hu k => by
    have := lookup_block (s := u) (by rw [hu]; exact hl) pa k
    rwa [hu] at this
  have c2 : c.level ≠ .l2 := by cases c <;> decide
  have c3 : c.level ≠ .l3 := by cases c <;> decide
  have one : ∀ {u : State} (l : Level) {d : List Byte}, Kept s u → u.lookup pa l = none → d.length = s.cfg.lineSize →
      (∀ p, Level.parent l = some p → ∃ r, u.lookup pa p = some r) → ∃ t q,
        installAt l (Config.block s.cfg pa) d false u = .ok () t ∧ Kept s t ∧ t.lookup pa l = some q ∧
          (t.line l q).data = d ∧ ∀ k, Level.parent k = some l → t.lookup pa k = none := by
    intro u l d hk hn hd hp
    have hu := hk.cfg
    obtain ⟨t, q, r, k, e1, e2, e3⟩ := installAt_run hk.sound (l := l) (b := Config.block s.cfg pa) (d := d)
      (by rw [hu]; exact block_block pa) (by rw [hlk hu]; exact hn)
      (fun p hpp => by rw [hlk hu]; exact hp p hpp)
      (fun _ => ⟨o, by rw [hu, hk.under.ramRange hu]; exact ho⟩) (by rw [hu]; exact hd)
    have ht := (hk.trans k).cfg
    exact ⟨t, q, r, hk.trans k, by rw [← hlk ht]; exact e1, e2, fun k hk => by rw [← hlk ht]; exact e3 k hk⟩
  have parent : ∀ p, Level.parent c.level = some p → p = .l2 := fun p h => by
    rw [Side.parent_level] at h; exact (Option.some.inj h).symm
  have install : ∀ d, installL1 c (Config.block s.cfg pa) d false = installAt c.level (Config.block s.cfg pa) d false :=
    fun d => by cases c <;> rfl
  unfold cacheRead State.lineOf
  rw [Op.get_bind_run]
  dsimp only
  cases h1 : s.lookup pa c.level with
  | some q =>
    obtain ⟨k, e⟩ := hC.stamped h1
    refine ⟨_, q, ?_, k, by rw [e]; exact h1, ?_⟩
    · rw [Op.bind_ok (accessLine_hit false h1)]
      dsimp only
      rw [Op.bind_ok (getLine_run ..), line_stamped, if_pos ⟨rfl, rfl⟩]; rfl
    · rw [line_stamped, if_pos ⟨rfl, rfl⟩]
  | none =>
    obtain ⟨k1, e1⟩ := hC.missed c.level
    rw [Op.bind_ok (accessLine_miss h1)]
    dsimp only
    cases h2 : s.lookup pa .l2 with
    | some q2 =>
      have h2' : (missed s c.level).lookup pa .l2 = some q2 := by rw [e1]; exact h2
      obtain ⟨k2, e2⟩ := k1.sound.stamped h2'
      have hd : (s.line .l2 q2).data.length = s.cfg.lineSize := hlen _ _ (lookup_valid h2).1
      obtain ⟨t, q, r, k, e3, e4, -⟩ := one c.level (k1.trans k2) (by rw [e2, e1]; exact h1) hd fun p hp => by
        rw [parent p hp, e2]; exact ⟨q2, h2'⟩
      refine ⟨t, q, ?_, k, e3, e4⟩
      rw [Op.bind_ok (accessLine_hit false h2')]
      dsimp only
      rw [Op.bind_ok (getLine_run ..), line_stamped, if_pos ⟨rfl, rfl⟩, line_missed]
      dsimp only
      rw [install, Op.bind_ok r]; rfl
    | none =>
      have h2' : (missed s c.level).lookup pa .l2 = none := by rw [e1]; exact h2
      obtain ⟨k2, e2⟩ := k1.sound.missed .l2
      rw [Op.bind_ok (accessLine_miss h2')]
      dsimp only
      cases h3 : s.lookup pa .l3 with
      | some q3 =>
        have h3' : (missed (missed s c.level) .l2).lookup pa .l3 = some q3 := by rw [e2, e1]; exact h3
        obtain ⟨k3, e3⟩ := k2.sound.stamped h3'
        have hd : (s.line .l3 q3).data.length = s.cfg.lineSize := hlen _ _ (lookup_valid h3).1
        obtain ⟨t2, q2, r2, k4, e4, -, n4⟩ := one .l2 ((k1.trans k2).trans k3) (by rw [e3, e2]; exact h2') hd fun p hp => by
          cases hp; exact ⟨q3, by rw [e3]; exact h3'⟩
        obtain ⟨t, q, r, k, e5, e6, -⟩ := one c.level k4 (n4 _ (Side.parent_level c)) hd fun p hp => by
          rw [parent p hp]; exact ⟨q2, e4⟩
        refine ⟨t, q, ?_, k, e5, e6⟩
        rw [Op.bind_ok (accessLine_hit false h3')]
        dsimp only
        rw [Op.bind_ok (getLine_run ..), line_stamped, if_pos ⟨rfl, rfl⟩, line_missed, line_missed]
        dsimp only
        have : installL2 (Config.block s.cfg pa) (s.line .l3 q3).data false =
          installAt .l2 (Config.block s.cfg pa) (s.line .l3 q3).data false := rfl
        rw [this, Op.bind_ok r2, install, Op.bind_ok r]; rfl
      | none =>
        have h3' : (missed (missed s c.level) .l2).lookup pa .l3 = none := by rw [e2, e1]; exact h3
        obtain ⟨k3, e3⟩ := k2.sound.missed .l3
        obtain ⟨u, hu⟩ : ∃ u, u = missed (missed (missed s c.level) .l2) .l3 := ⟨_, rfl⟩
        rw [← hu] at k3 e3
        have ku := (k1.trans k2).trans k3
        have hou : u.ramRange (Config.block s.cfg pa) u.cfg.lineSize o := by
          rw [ku.under.ramRange ku.cfg, ku.cfg]; exact ho
        have hdu : u.dramBytes o u.cfg.lineSize = s.dramBytes o s.cfg.lineSize := by rw [hu]; rfl
        obtain ⟨v, hv⟩ : ∃ v : State, v = { u with bus := u.bus.afterRead (Config.block s.cfg pa) (u.dramBytes o u.cfg.lineSize) } :=
          ⟨_, rfl⟩
        have kv := ku.sound.restamp (t := v) (by rw [hv]) (by rw [hv]; exact ⟨rfl, rfl⟩) (by rw [hv]; exact ku.sound.slots.2.1)
          fun k r => ⟨(u.line k r).lru, by rw [hv]; rfl⟩
        have hd : (s.dramBytes o s.cfg.lineSize).length = s.cfg.lineSize := by unfold State.dramBytes; simp
        have hv0 : ∀ k, v.lookup pa k = s.lookup pa k := fun k => by rw [kv.2, e3, e2, e1]
        obtain ⟨t3, q3, r3, k4, e4, -, n4⟩ := one .l3 (ku.trans kv.1) (by rw [hv0]; exact h3) hd fun p hp => by cases hp
        obtain ⟨t2, q2, r2, k5, e5, -, n5⟩ := one .l2 k4 (n4 _ rfl) hd fun p hp => by cases hp; exact ⟨q3, e4⟩
        obtain ⟨t, q, r, k, e6, e7, -⟩ := one c.level k5 (n5 _ (Side.parent_level c)) hd fun p hp => by
          rw [parent p hp]; exact ⟨q2, e5⟩
        refine ⟨t, q, ?_, k, e6, e7⟩
        rw [Op.bind_ok (accessLine_miss h3')]
        dsimp only
        have hf : fetchLine .l3 (Config.block s.cfg pa) u = .ok (s.dramBytes o s.cfg.lineSize) v := by
          unfold fetchLine
          rw [Op.get_bind_run]
          unfold tagged
          rw [busRead_ram hou, hdu, hv, hdu]
        rw [← hu, Op.bind_ok hf]
        have i3 : installL3 (Config.block s.cfg pa) (s.dramBytes o s.cfg.lineSize) false =
          installAt .l3 (Config.block s.cfg pa) (s.dramBytes o s.cfg.lineSize) false := rfl
        have i2 : installL2 (Config.block s.cfg pa) (s.dramBytes o s.cfg.lineSize) false =
          installAt .l2 (Config.block s.cfg pa) (s.dramBytes o s.cfg.lineSize) false := rfl
        rw [i3, Op.bind_ok r3, i2, Op.bind_ok r2, install, Op.bind_ok r]; rfl

/-! ## The CPU's reads -/

/-- A read within a line that the first-level cache holds. -/
theorem cachedRead_hit {s : State} {a n : Nat} {c : Side} {q : Nat × Nat} (h : s.lookup a c.level = some q) (hn : 1 ≤ n)
    (hf : a % s.cfg.lineSize + n ≤ s.cfg.lineSize) :
    cachedRead a n c s = .ok (((s.line c.level q).data.drop (a % s.cfg.lineSize)).take n) (stamped s q c.level false) := by
  unfold cachedRead
  obtain ⟨m, rfl⟩ : ∃ m, n = m + 1 := ⟨n - 1, by omega⟩
  simp only [cachedReadLoop]
  rw [Op.get_bind_run, Op.bind_ok (cacheRead_hit h)]
  have hk : min (s.cfg.lineSize - a % s.cfg.lineSize) (m + 1) = m + 1 := by omega
  rw [hk, Nat.sub_self]
  have h0 : ∀ f b, cachedReadLoop c f b 0 = pure [] := by intro f b; cases f <;> rfl
  rw [h0]; simp

/-- A read of blocks of RAM completes, however many lines it meets; within one line its bytes are those of the nearest level that
holds the block. -/
theorem cachedReadLoop_run (c : Side) : ∀ (fuel : Nat) {s : State}, CacheSound s → ∀ a n, n ≤ fuel →
    (∀ i < n, ∃ o, s.ramRange (Config.block s.cfg (a + i)) s.cfg.lineSize o) →
    ∃ t bs, cachedReadLoop c fuel a n s = .ok bs t ∧ Kept s t ∧ bs.length = n ∧
      (1 ≤ n → a % s.cfg.lineSize + n ≤ s.cfg.lineSize → ∀ o, s.ramRange (Config.block s.cfg a) s.cfg.lineSize o →
        bs = ((s.lineOf a c o).drop (a % s.cfg.lineSize)).take n) := by
  have h0 : ∀ f b, cachedReadLoop c f b 0 = pure [] := by intro f b; cases f <;> rfl
  intro fuel
  induction fuel with
  | zero =>
    intro s hC a n hn _
    obtain rfl : n = 0 := by omega
    exact ⟨s, [], rfl, .refl hC, rfl, by omega⟩
  | succ fuel ih =>
    intro s hC a n hn hr
    cases n with
    | zero => exact ⟨s, [], rfl, .refl hC, rfl, by omega⟩
    | succ n =>
      have hl := lineSize_pos hC.legal
      obtain ⟨o, ho⟩ := hr 0 (by omega)
      rw [Nat.add_zero] at ho
      obtain ⟨t, q, r1, k1, e1, e2⟩ := cacheRead_run hC c ho
      obtain ⟨k, hk⟩ : ∃ k, k = min (s.cfg.lineSize - a % s.cfg.lineSize) (n + 1) := ⟨_, rfl⟩
      have hmod := Nat.mod_lt a hl
      have hk1 : 1 ≤ k := by omega
      have hkn : k ≤ n + 1 := by omega
      have hlen : (s.lineOf a c o).length = s.cfg.lineSize := by
        rw [← e2, ← k1.cfg]
        obtain ⟨-, -, -, hlen, -⟩ := k1.sound.slots
        exact hlen _ _ (lookup_valid e1).1
      obtain ⟨u, bs, r2, k2, e3, -⟩ := ih k1.sound (a + k) (n + 1 - k) (by omega) fun i hi => by
        obtain ⟨o', ho'⟩ := hr (k + i) (by omega)
        exact ⟨o', by rw [k1.cfg, k1.under.ramRange k1.cfg, Nat.add_assoc]; exact ho'⟩
      refine ⟨u, ((s.lineOf a c o).drop (a % s.cfg.lineSize)).take k ++ bs, ?_, k1.trans k2, ?_, fun _ hf o' ho' => ?_⟩
      · simp only [cachedReadLoop]
        rw [Op.get_bind_run]
        rw [← hk, Op.bind_ok r1, Op.bind_ok r2]; rfl
      · simp [e3, hlen]; omega
      · have : o' = o := by
          have h1 := ho.2.2.1; have h2 := ho'.2.2.1; rw [h1] at h2; simpa using h2.symm
        subst this
        have hkk : k = n + 1 := by omega
        rw [hkk] at r2 e3 ⊢
        have : bs = [] := List.eq_nil_of_length_eq_zero (by omega)
        rw [this, List.append_nil]

/-- A translation keeps a sound cache. -/
theorem CacheSound.with_mmu {s : State} (h : CacheSound s) (m : Mmu) : CacheSound { s with mmu := m } :=
  ⟨h.legal, ⟨h.inclusion.sorted, h.inclusion.slot, h.inclusion.l1, h.inclusion.l2, h.inclusion.l1Back, h.inclusion.l2Back⟩,
    h.length, h.codeClean, h.backed, h.memory, h.regions, h.injective⟩

end Sys2Proof.Machine
end

