-- ==== Sys2Proof/Laws/Mmu.lean ====
section
/-! SUPPORT. What the MMU's shared operations do: page tables, the TLB, translation and the frame pool. -/

namespace Sys2Proof.Machine

/-! ## Page tables -/

theorem Mmu.pte_setPte (m : Mmu) (a v : Nat) (p : Pte) (a' v' : Nat) :
    (m.setPte a v p).pte a' v' = if (a', v') = (a, v) then some p else m.pte a' v' := by
  unfold Mmu.setPte Mmu.pte
  simp only [Tab.get_set]
  by_cases h : a = a'
  · subst h; simp [Tab.get_set]
    by_cases h : v = v'
    · simp [h]
    · simp [h, Ne.symm h]
      cases Tab.get m.tables a <;> simp
  · simp [h, Ne.symm h]

theorem Mmu.pte_dropPte (m : Mmu) (a v : Nat) (a' v' : Nat) :
    (m.dropPte a v).pte a' v' = if (a', v') = (a, v) then none else m.pte a' v' := by
  unfold Mmu.dropPte Mmu.pte
  simp only [Tab.get_set]
  by_cases h : a = a'
  · subst h; simp [Tab.get_erase]
    by_cases h : v = v'
    · simp [h]
    · simp [h, Ne.symm h]
      cases Tab.get m.tables a <;> simp
  · simp [h, Ne.symm h]

theorem Mmu.pte_openTable (m : Mmu) (a : Nat) (a' v' : Nat) : (m.openTable a).pte a' v' = m.pte a' v' := by
  unfold Mmu.openTable
  split
  · rfl
  · rename_i h
    simp only [Mmu.pte, Tab.get_set]
    by_cases h' : a = a'
    · subst h'; simp [h]
    · simp [h']

@[simp] theorem Mmu.openTable_rest (m : Mmu) (a : Nat) : (m.openTable a).tlb = m.tlb ∧ (m.openTable a).tlbClock =
    m.tlbClock ∧ (m.openTable a).poolFrames = m.poolFrames := by
  unfold Mmu.openTable; split <;> simp

/-! ## TLB -/

theorem Tab.get_filter_asid (t : List ((Nat × Nat) × TlbEntry)) (a : Nat) (k : Nat × Nat) :
   Tab.get (t.filter (fun e => e.1.1 ≠ a)) k = if k.1 = a then none else Tab.get t k := by
  induction t with
  | nil => simp
  | cons e t ih =>
    obtain ⟨j, w⟩ := e
    rw [List.filter_cons]
    by_cases hj : j.1 = a
    · simp only [hj, ne_eq, not_true, decide_false, Bool.false_eq_true, if_false, ih, Tab.get]
      by_cases hk : k.1 = a
      · simp [hk]
      · simp [hk, show j ≠ k by rintro rfl; exact hk hj]
    · simp [hj, Tab.get]
      simp only [ne_eq, decide_not] at ih
      rw [ih]
      by_cases hk : k.1 = a
      · simp [hk, show j ≠ k by rintro rfl; exact hj hk]
      · simp [hk]

theorem Tab.ticks_set (t : List ((Nat × Nat) × TlbEntry)) (q : Nat × Nat) (v : TlbEntry)
    (h : t.Pairwise fun x y => x.2.tick ≠ y.2.tick) (hv : ∀ x ∈ t, x.2.tick ≠ v.tick) :
    (Tab.set pairLt t q v).Pairwise fun x y => x.2.tick ≠ y.2.tick := by
  induction t with
  | nil => simp [Tab.set]
  | cons e t ih =>
    obtain ⟨k, w⟩ := e
    rw [List.pairwise_cons] at h
    have hv' := fun x hx => hv x (List.mem_cons_of_mem _ hx)
    simp only [Tab.set]
    split
    · exact List.pairwise_cons.2 ⟨fun x hx => (hv' x hx).symm, h.2⟩
    · split
      · exact List.pairwise_cons.2 ⟨fun x hx => (hv x hx).symm, List.pairwise_cons.2 h⟩
      · refine List.pairwise_cons.2 ⟨fun x hx => ?_, ih h.2 hv'⟩
        rcases Tab.mem_set hx with rfl | hx
        · exact hv _ (by simp)
        · exact h.1 x hx

theorem leastTick_mem {t : List ((Nat × Nat) × TlbEntry)} {e} (h : leastTick t = some e) : e ∈ t := by
  induction t generalizing e with
  | nil => simp [leastTick] at h
  | cons x t ih =>
    simp only [leastTick] at h
    split at h
    · simp_all
    · split at h
      · simp_all
      · exact List.mem_cons_of_mem _ (ih (by simp_all))

theorem leastTick_none {t : List ((Nat × Nat) × TlbEntry)} (h : leastTick t = none) : t = [] := by
  cases t with
  | nil => rfl
  | cons x t => simp only [leastTick] at h; split at h <;> [skip; split at h] <;> simp at h

/-! ## Translation -/

theorem physical_ok {s : State} {f va : Nat} (h :
    ((f <<< Nat.log2 s.cfg.pageSize) ||| (va &&& (s.cfg.pageSize - 1))) < 2 ^ 64) :
   physical f va s = .ok ((f <<< Nat.log2 s.cfg.pageSize) ||| (va &&& (s.cfg.pageSize - 1))) s := by
  unfold physical
  rw [Op.get_bind_run]
  have : ¬ 2 ^ 64 ≤ (f <<< s.cfg.pageShift ||| Config.pageOffset s.cfg va) := by
    unfold Config.pageShift Config.pageOffset; omega
  rw [if_neg this]; rfl

/-- A translation that hits the TLB. -/
theorem translate_hit {s : State} {va pa : Nat} {p : Pte} (h : s.tlbHit va pa p) : Machine.translate va s = .ok (pa,
    p) (s.afterHit va) := by
  obtain ⟨e, he, hp, rfl, hlt⟩ := h
  unfold Machine.translate
  rw [Op.get_bind_run]
  dsimp only
  unfold Config.vpn Config.pageShift
  simp only [he]
  unfold modifyMmu
  rw [Op.modify_bind_run, hp, need_some, Op.pure_bind_run]
  rw [Op.bind_ok (physical_ok (by exact hlt))]
  simp [State.afterHit, he]

/-- A translation that misses the TLB and finds a present page. -/
theorem translate_miss {s : State} {va : Nat} {p : Pte} (ht : Tab.get s.mmu.tlb (s.mmu.currentAsid,
    Config.vpn s.cfg va) = none) 
   (hp : s.mmu.pte s.mmu.currentAsid (Config.vpn s.cfg va) = some p) (hpr : p.present = true)
   (hlt : ((p.frame <<< Nat.log2 s.cfg.pageSize) ||| (va &&& (s.cfg.pageSize - 1))) < 2 ^ 64) :
   Machine.translate va s = .ok ((p.frame <<< Nat.log2 s.cfg.pageSize) ||| (va &&& (s.cfg.pageSize - 1)),
     {p with accessed := true}) 
     { s with
       mmu := (Mmu.tlbInstall s.cfg.tlbEntries { s.mmu with tlbMisses := s.mmu.tlbMisses + 1 } s.mmu.currentAsid (Config.vpn s.cfg va) p.frame).setPte s.mmu.currentAsid (Config.vpn s.cfg va) {p with accessed := true} } := by
  unfold Machine.translate
  rw [Op.get_bind_run]
  dsimp only
  rw [ht]; dsimp only
  unfold modifyMmu
  rw [Op.modify_bind_run, hp]; dsimp only
  rw [hpr, if_neg (by simp)]
  rw [Op.modify_bind_run, Op.modify_bind_run]
  rw [Op.bind_ok (physical_ok (by exact hlt))]
  rfl

/-! ## Frames -/

theorem mem_freeFrames (c : Config) (m : Mmu) (f : Nat) : f ∈ freeFrames c m ↔ f < c.maxFrames ∧ f ∉ m.poolFrames := by
  simp [freeFrames]

end Sys2Proof.Machine
end

