-- ==== Sys2Proof/Laws/Plic.lean ====
section
/-! SUPPORT. What the PLIC's claim search finds, and how a device's output reaches it. -/

namespace Sys2Proof.Machine

/-! ## Claim search -/

theorem Plic.maxPrio_le (p : Plic) (ids : List Nat) : ∀ i ∈ ids, p.prio i ≤ p.maxPrio ids := by
  induction ids with
  | nil => simp
  | cons a t ih => 
    intro i hi; simp only [Plic.maxPrio, List.foldr_cons]
    rcases List.mem_cons.1 hi with rfl | hi
    · omega
    · have := ih i hi; unfold Plic.maxPrio at this; omega

theorem Plic.maxPrio_mem (p : Plic) (ids : List Nat) (h : ids ≠ []) (hp : ∀ i ∈ ids, 0 < p.prio i) : ∃ i ∈ ids,
    p.prio i = p.maxPrio ids := by
  induction ids with
  | nil => exact absurd rfl h
  | cons a t ih =>
    by_cases ht : t = []
    · subst ht; exact ⟨a, by simp, by simp [Plic.maxPrio]⟩
    · obtain ⟨i, hi, he⟩ := ih ht (fun i hi => hp i (by simp [hi]))
      simp only [Plic.maxPrio, List.foldr_cons] at he ⊢
      by_cases hc : p.prio a ≥ p.prio i
      · exact ⟨a, by simp, by omega⟩
      · exact ⟨i, by simp [hi], by omega⟩

theorem State.isBest_best (s : State) (c : Nat) : s.isBest c (s.plic.best s.cfg.plic.sources c) := by
  have hmem : ∀ j, j ∈ s.plic.candidates s.cfg.plic.sources c ↔ s.claimable c j := by
    intro j
    simp [Plic.candidates, State.claimable, Plic.prio, List.mem_filter, List.mem_range'_1]
    constructor
    · rintro ⟨⟨a, b⟩, ⟨⟨c, d⟩, e⟩, f⟩; exact ⟨a, by omega, c, d, e, f⟩
    · rintro ⟨a, b, c, d, e, f⟩; exact ⟨⟨a, by omega⟩, ⟨⟨c, d⟩, e⟩, f⟩
  unfold Plic.best; dsimp only
  generalize hids : s.plic.candidates s.cfg.plic.sources c = ids at *
  cases hf : ids.find? (fun id => s.plic.prio id = s.plic.maxPrio ids) with
  | none =>
    left
    refine ⟨rfl, fun j hj => ?_⟩
    rw [List.find?_eq_none] at hf
    have hne : ids ≠ [] := by rintro rfl; simp at hmem; exact hmem j hj
    obtain ⟨i, hi, he⟩ := Plic.maxPrio_mem s.plic ids hne (fun i hi => ((hmem i).1 hi).2.2.2.2.1)
    exact hf i hi (by simp [he])
  | some id =>
    right
    have h1 := List.mem_of_find?_eq_some hf
    have h2 := List.find?_some hf
    simp at h2
    refine ⟨(hmem id).1 h1, fun j hj => ?_⟩
    have hj' := (hmem j).2 hj
    have hle := Plic.maxPrio_le s.plic ids j hj'
    show s.plic.prio j < s.plic.prio id ∨ (s.plic.prio j = s.plic.prio id ∧ id ≤ j)
    by_cases heq : s.plic.prio j = s.plic.prio id
    · right; refine ⟨heq, ?_⟩
      rw [List.find?_eq_some_iff_append] at hf
      obtain ⟨_, as, bs, hl, hno⟩ := hf
      have hs : ids.Pairwise (· < ·) := by
        rw [← hids]; exact (List.pairwise_lt_range' (s := 1) (n := s.cfg.plic.sources)).filter _
      rw [hl] at hj' hs
      rw [List.pairwise_append] at hs
      rcases List.mem_append.1 hj' with h | h
      · have := hno j h; rw [hl] at h2; simp at this; rw [hl] at this; omega
      · rcases List.mem_cons.1 h with rfl | h
        · exact Nat.le_refl _
        · have := List.rel_of_pairwise_cons hs.2.1 h; exact Nat.le_of_lt this
    · left; omega

theorem State.isBest_unique {s : State} {c i j : Nat} (h : s.isBest c i) (h' : s.isBest c j) : i = j := by
  rcases h with ⟨rfl, h⟩ | ⟨h, g⟩ <;> rcases h' with ⟨rfl, h'⟩ | ⟨h', g'⟩
  · rfl
  · exact absurd h' (h _)
  · exact absurd h (h' _)
  · rcases g _ h' with a | a <;> rcases g' _ h with b | b <;> omega

theorem wantLayout_ok (l) (s : State) (h : s.cfg.plic.layout = l) : wantLayout l s = .ok () s := by simp [wantLayout, h]

/-! ## Sinks -/

/-- What a device drives, when its output changes, reaches the source it is wired to. -/
theorem driveSink_run (s : State) (sk : Option Nat) (old new : Bool) (hs : s.sinkFits sk) (hne : new ≠ old) :
    driveSink sk new s = .ok () { s with plic := s.sinkPlic sk old new } := by
  cases sk with
  | none => rfl
  | some id =>
    have h := hs id (by simp)
    have ho : Config.sourceOk s.cfg id = true := by simp [Config.sourceOk, h]
    cases new <;> cases old
    · exact absurd rfl hne
    · simp [driveSink, plicLower, ho, modifyPlic, State.sinkPlic]
    · simp [driveSink, plicRaise, ho, modifyPlic, State.sinkPlic]
    · exact absurd rfl hne

theorem updateUartIrq_run (s : State) (k : Nat) (u : Uart) (c : UartCfg) (hu : s.uarts[k]? = some u) (hc :
    s.cfg.uarts[k]? = some c) (hs : s.sinkFits c.sink) :
   updateUartIrq k s = .ok ()
     { s with uarts := s.uarts.set k { u with irqOut := u.irqCond }, plic := s.sinkPlic c.sink u.irqOut u.irqCond } := by
  unfold updateUartIrq getUart
  simp only [Op.run_bind, Op.run_get, hu, need_some, Op.run_pure]
  by_cases h : u.irqCond = u.irqOut
  · rw [if_neg (by simpa using h)]
    have h1 : s.uarts.set k { u with irqOut := u.irqCond } = s.uarts := by
      rw [h]; rw [List.getElem?_eq_some_iff] at hu; obtain ⟨hk, rfl⟩ := hu; exact List.set_getElem_self hk
    have h2 : s.sinkPlic c.sink u.irqOut u.irqCond = s.plic := by
      unfold State.sinkPlic; cases c.sink with
      | none => rfl
      | some id => exact if_pos h.symm
    simp [h1, h2]
  · rw [if_pos h]
    simp only [Op.run_bind, modifyUart, Op.run_modify, updateAt_set _ hu, Config.uartSink, hc, Option.bind_some]
    rw [driveSink_run { s with uarts := s.uarts.set k { u with irqOut := u.irqCond } } c.sink u.irqOut u.irqCond hs h]; rfl

theorem updateTimerIrq_run (s : State) (k : Nat) (u : Timer) (c : TimerCfg) (hu : s.timers[k]? = some u) (hc :
    s.cfg.timers[k]? = some c) (hs : s.sinkFits c.sink) :
   updateTimerIrq k s = .ok ()
     { s with timers := s.timers.set k { u with irqOut := u.irqCond }, plic := s.sinkPlic c.sink u.irqOut u.irqCond } := by
  unfold updateTimerIrq getTimer
  simp only [Op.run_bind, Op.run_get, hu, need_some, Op.run_pure]
  by_cases h : u.irqCond = u.irqOut
  · rw [if_neg (by simpa using h)]
    have h1 : s.timers.set k { u with irqOut := u.irqCond } = s.timers := by
      rw [h]; rw [List.getElem?_eq_some_iff] at hu; obtain ⟨hk, rfl⟩ := hu; exact List.set_getElem_self hk
    have h2 : s.sinkPlic c.sink u.irqOut u.irqCond = s.plic := by
      unfold State.sinkPlic; cases c.sink with
      | none => rfl
      | some id => exact if_pos h.symm
    simp [h1, h2]
  · rw [if_pos h]
    simp only [Op.run_bind, modifyTimer, Op.run_modify, updateAt_set _ hu, Config.timerSink, hc, Option.bind_some]
    rw [driveSink_run { s with timers := s.timers.set k { u with irqOut := u.irqCond } } c.sink u.irqOut u.irqCond hs h]; rfl

theorem updateTimerIrq_set (s : State) (k : Nat) (t : Timer) (c : TimerCfg) (hu : s.timers[k]? = some t) (hc :
    s.cfg.timers[k]? = some c) (hs : s.sinkFits c.sink) (v : Timer)
   (hv : v.irqOut = t.irqOut) : updateTimerIrq k { s with timers := s.timers.set k v } = .ok ()
     { s with timers := s.timers.set k { v with irqOut := v.irqCond }, plic := s.sinkPlic c.sink t.irqOut v.irqCond } := by
  have hk : k < s.timers.length := (List.getElem?_eq_some_iff.1 hu).1
  have := updateTimerIrq_run { s with timers := s.timers.set k v } k v c (by simp [hk]) hc hs
  simpa [hv, State.sinkPlic] using this

theorem updateDmaIrq_run (s : State) (k : Nat) (u : Dma) (c : DmaCfg) (hu : s.dmas[k]? = some u) (hc :
    s.cfg.dmas[k]? = some c) (hs : s.sinkFits c.sink) :
   updateDmaIrq k s = .ok ()
     { s with dmas := s.dmas.set k { u with irqOut := u.irqCond }, plic := s.sinkPlic c.sink u.irqOut u.irqCond } := by
  unfold updateDmaIrq getDma
  simp only [Op.run_bind, Op.run_get, hu, need_some, Op.run_pure]
  by_cases h : u.irqCond = u.irqOut
  · rw [if_neg (by simpa using h)]
    have h1 : s.dmas.set k { u with irqOut := u.irqCond } = s.dmas := by
      rw [h]; rw [List.getElem?_eq_some_iff] at hu; obtain ⟨hk, rfl⟩ := hu; exact List.set_getElem_self hk
    have h2 : s.sinkPlic c.sink u.irqOut u.irqCond = s.plic := by
      unfold State.sinkPlic; cases c.sink with
      | none => rfl
      | some id => exact if_pos h.symm
    simp [h1, h2]
  · rw [if_pos h]
    simp only [Op.run_bind, modifyDma, Op.run_modify, updateAt_set _ hu, Config.dmaSink, hc, Option.bind_some]
    rw [driveSink_run { s with dmas := s.dmas.set k { u with irqOut := u.irqCond } } c.sink u.irqOut u.irqCond hs h]; rfl

theorem updateDmaIrq_set {s : State} {k : Nat} {d : Dma} {c : DmaCfg} (hu : s.dmas[k]? = some d) (hc :
    s.cfg.dmas[k]? = some c) (hs : s.sinkFits c.sink) (v : Dma) (hv : v.irqOut = d.irqOut) :
    updateDmaIrq k { s with dmas := s.dmas.set k v } = .ok ()
      { s with dmas := s.dmas.set k { v with irqOut := v.irqCond }, plic := s.sinkPlic c.sink d.irqOut v.irqCond } := by
  have hk : k < s.dmas.length := (List.getElem?_eq_some_iff.1 hu).1
  have := updateDmaIrq_run { s with dmas := s.dmas.set k v } k v c (by simp [hk]) hc hs
  simpa [hv, State.sinkPlic] using this

end Sys2Proof.Machine
end

