-- ==== Sys2Proof/Tests/Slice0.lean ====
section
/-! SUPPORT. Tests: the operand ranges refuse what no encoding carries; records and register accesses written out from
spec/30_encoding.md and the register maps of spec/45_plic.md to 47_peripherals_dma.md decode to what they stand for; vectors
of spec/95_test_vectors.md; and for every statement with hypotheses, a state and operands that meet them. -/

open Sys2Proof Sys2Proof.Machine

namespace Sys2Proof.Tests

-- One theorem at a time: each evaluation by the kernel otherwise takes a thread, and its stack, of its own.
set_option Elab.async false

/-! ## Operand ranges: the check refuses an ill-formed operation -/

theorem test_prio_id_zero_refused : WellFormed (.plicPrioR .compact 0) = false := by decide

theorem test_prio_id_past_compact_refused : WellFormed (.plicPrioW .compact 65 1) = false := by decide

theorem test_prio_id_past_canonical_refused : WellFormed (.plicPrioR .canonical 1025) = false := by decide

theorem test_context_eight_refused : WellFormed (.plicClaimR .compact 8) = false := by decide

theorem test_msip_hart_refused : WellFormed (.clintMsipR 4096) = false := by decide

theorem test_mtimecmp_hart_refused : WellFormed (.clintMtimecmpHiW 4095 0) = false := by decide

/-! ## Records of R147 -/

theorem test_decode_dram :
    decode [.code 0x01, .nat 4, .nat 2] = .ok (.dramReadBytes 4 2, []) ∧
    decode [.code 0x01, .nat (2 ^ 64), .nat 1] = .ok (.dramReadBytes (2 ^ 64) 1, []) ∧
    decode [.code 0x02, .nat 4, .bytes [7]] = .ok (.dramWriteBytes 4 [7], []) ∧
    decode [.code 0x03, .nat 4, .nat 2, .nat 255] = .ok (.dramFill 4 2 255, []) ∧
    decode [.code 0x03, .nat 4, .nat 2, .nat 256] = .error .wrongType ∧
    decode [.code 0x04, .nat 1, .nat 2, .nat 3] = .ok (.dramCopy 1 2 3, []) ∧
    decode [.code 0x05, .nat 9] = .ok (.dramPeek 9, []) ∧
    decode [.code 0x05, .nat (2 ^ 64 - 1)] = .ok (.dramPeek 0xFFFFFFFFFFFFFFFF, []) ∧
    decode [.code 0x05, .nat (2 ^ 64)] = .error .wrongType ∧
    decode [.code 0x06, .nat 0, .bytes [1, 2]] = .ok (.dramLoadImage 0 [1, 2], []) := by
  and_intros <;> decide

theorem test_decode_bus :
    decode [.code 0x10, .str "ram", .nat 4096, .nat 16, .ref .dram, .nat 8] = .ok (.busMapRam "ram" 4096 16 8, []) ∧
    decode [.code 0x10, .str "ram", .nat 4096, .nat 16, .ref (.dev .plic), .nat 8] = .error .badEnumerated ∧
    decode [.code 0x11, .str "u", .ref (.dev (.uart 0))] = .ok (.busRegisterMmio "u" (.uart 0), []) ∧
    decode [.code 0x12, .nat 4096, .nat 3, .code 0x43] = .ok (.busReadBytes 4096 3, [.code 0x43]) ∧
    decode [.code 0x12, .nat (2 ^ 64), .nat 3] = .error .wrongType ∧
    decode [.code 0x13, .nat 4096, .bytes [1]] = .ok (.busWriteBytes 4096 [1], []) := by
  and_intros <;> decide

theorem test_decode_mmu :
    decode [.code 0x20, .nat 7] = .ok (.mmuSetAsid 7, []) ∧
    decode [.code 0x21, .nat 5, .absent, .record { writable := some (.bool false) }, .nat 1] =
      .ok (.mmuMapPage 5 none (some { writable := some false }) (some 1), []) ∧
    decode [.code 0x22, .nat 5, .absent] = .ok (.mmuUnmapPage 5 none, []) ∧
    decode [.code 0x23, .nat 0x5123] = .ok (.mmuTranslate 0x5123, []) ∧
    decode [.code 0x24, .nat 7, .record { memtype := some (.str "wc") }, .absent] =
      .ok (.mmuSetPageAttributes 7 { memtype := some .wc } none, []) ∧
    decode [.code 0x24, .nat 7, .record { memtype := some (.nat 1) }, .absent] =
      .ok (.mmuSetPageAttributes 7 { memtype := some .device } none, []) ∧
    decode [.code 0x21, .nat 5, .absent, .record { memtype := some (.nat 3) }, .absent] = .error .badEnumerated ∧
    decode [.code 0x21, .nat 5, .absent, .record { memtype := some (.bool true) }, .absent] = .error .wrongType ∧
    decode [.code 0x21, .nat 5, .absent, .record { dirty := some (.bool true) }, .absent] = .error .unknownField ∧
    decode [.code 0x25, .nat 1] = .ok (.mmuFlushTlb (some 1), []) ∧
    decode [.code 0x26, .nat 1, .absent] = .ok (.mmuFlushTlbEntry 1 none, []) ∧
    decode [.code 0x27, .nat 4096, .nat 2] = .ok (.mmuCheckAccess 4096 .execute, []) ∧
    decode [.code 0x27, .nat 4096, .nat 3] = .error .badEnumerated := by
  and_intros <;> decide

theorem test_decode_cache :
    decode [.code 0x30, .nat 64, .nat 1] = .ok (.cacheRead 64 .l1i, []) ∧
    decode [.code 0x30, .nat 64, .str "l2"] = .error .badEnumerated ∧
    decode [.code 0x31, .nat 64, .bytes [1], .absent] = .ok (.cacheWriteBytes 64 [1] none, []) ∧
    decode [.code 0x34, .str "l3", .nat 64] = .ok (.cachePrefetchLine .l3 64, []) ∧
    decode [.code 0x35, .nat 64, .nat 2] = .ok (.cacheFlushLine 64 .l2, []) ∧
    decode [.code 0x36, .nat 0] = .ok (.cacheFlushAll .l1d, []) ∧
    decode [.code 0x37, .nat 3] = .ok (.cacheStats .l3, []) := by
  and_intros <;> decide

theorem test_decode_cpu :
    decode [.code 0x40, .nat 4, .absent] = .ok (.cpuFetch 4 none, []) ∧
    decode [.code 0x41, .nat 4, .nat 2, .bool true] = .ok (.cpuLoad 4 2 true, []) ∧
    decode [.code 0x42, .nat 4, .nat 2, .int (-1), .bool false] = .ok (.cpuStore 4 2 (-1) false, []) ∧
    decode [.code 0x43] = .ok (.cpuMemoryBarrier, []) ∧
    decode [.code 0x44, .nat 4] = .ok (.cpuPrefetchData 4, []) ∧
    decode [.code 0x45, .nat 4] = .ok (.cpuPrefetchInst 4, []) ∧
    decode [.code 0x46] = .ok (.cpuFlushIcache, []) ∧
    decode [.code 0x47] = .ok (.cpuFlushDcache, []) ∧
    decode [.code 0x48] = .ok (.cpuFlushL2, []) ∧
    decode [.code 0x49] = .ok (.cpuFlushL3, []) ∧
    decode [.code 0x4A, .absent] = .ok (.cpuFlushTlb none, []) ∧
    decode [.code 0x4B, .nat 1, .nat 9, .absent, .absent] = .ok (.cpuMapPage 1 (some 9) none none, []) ∧
    decode [.code 0x4C, .nat 1, .nat 2] = .ok (.cpuUnmapPage 1 (some 2), []) ∧
    decode [.code 0x4D, .nat 1, .record {}, .absent] = .ok (.cpuSetPageAttributes 1 {} none, []) ∧
    decode [.code 0x4E, .nat 2] = .ok (.cpuSetAsid 2, []) ∧
    decode [.code 0x4F, .ref (.dev .plic), .nat 4096,
      .record { layout := some (.str "canonical"), ctxId := some (.nat 1) }] = .ok (.cpuAttachPlic 4096 .canonical 1, []) ∧
    decode [.code 0x50, .ref (.dev .clint), .record { hart := some (.nat 0) }] = .ok (.cpuAttachClint 0, []) := by
  and_intros <;> decide

theorem test_decode_interrupts :
    decode [.code 0x51] = .ok (.cpuSampleIrqs, []) ∧
    decode [.code 0x52] = .ok (.cpuMaybeTakeInterrupt, []) ∧
    decode [.code 0x53] = .ok (.cpuCompleteTrap, []) ∧
    decode [.code 0x54, .nat 1, .absent] = .ok (.cpuPollInterrupts 1 none, []) ∧
    decode [.code 0x54, .nat 1, .handler 2, .attempt, .code 0x56, .code 0x43] =
      .ok (.cpuPollInterrupts 1 (some [.attempt, .code 0x56]), [.code 0x43]) ∧
    decode [.code 0x55, .nat 7, .bool false] = .ok (.cpuTrapEnter 7 (some false), []) ∧
    decode [.code 0x56] = .ok (.cpuMret, []) ∧
    decode [.code 0x57] = .ok (.cpuShouldTakeInterrupt, []) ∧
    decode [.code 0x58, .str "mcause"] = .ok (.cpuCsrRead .mcause, []) ∧
    decode [.code 0x59, .nat 3, .nat 1] = .ok (.cpuCsrWrite .mtie 1, []) := by
  and_intros <;> decide

theorem test_decode_device_commands :
    decode [.code 0x60, .nat 3] = .ok (.plicRaise 3, []) ∧
    decode [.code 0x61, .nat 3] = .ok (.plicLower 3, []) ∧
    decode [.code 0x62, .nat 1] = .ok (.plicGetContextIrq 1, []) ∧
    decode [.code 0x68, .nat 5] = .ok (.clintAdvance 5, []) ∧
    decode [.code 0x69, .nat 0] = .ok (.clintGetIrqLevels 0, []) ∧
    decode [.code 0x70, .ref (.dev (.timer 0)), .nat 4] = .ok (.timerAdvance 0 4, []) ∧
    decode [.code 0x78, .ref (.dev (.uart 1)), .nat 65] = .ok (.uartPushRx 1 65, []) := by
  and_intros <;> decide

/-- Codes outside R147's table are reserved (R150), among them the gap 0x32; an operand too few or too many is refused. -/
theorem test_decode_reserved :
    decode [.code 0x00] = .error (.reservedCode 0) ∧ decode [.code 0x32] = .error (.reservedCode 0x32) ∧
    decode [.code 0xFF] = .error (.reservedCode 0xFF) ∧ decode [] = .error .noCall ∧
    decode [.nat 1] = .error .notACall ∧ decode [.code 0x01, .nat 4] = .error .missingOperand ∧
    decode [.code 0x43, .nat 5] = .error .surplusOperand ∧
    decode [.code 0x12, .nat 4096, .nat 3, .str "ram"] = .error .surplusOperand := by
  and_intros <;> decide

/-! ## Register accesses of R149 -/

/-- The compact layout (R350): PRIO(id) at 4(id-1), PEND at 0x100 and 0x104, contexts from 0x180 in steps of 0x20. -/
theorem test_decode_plic_compact :
    decode [.access (.plic .compact) .R 4 0x08 []] = .ok (.plicPrioR .compact 3, []) ∧
    decode [.access (.plic .compact) .W 4 0x08 [7, 0, 0, 0]] = .ok (.plicPrioW .compact 3 7, []) ∧
    decode [.access (.plic .compact) .R 4 0x100 []] = .ok (.plicPendLoR .compact, []) ∧
    decode [.access (.plic .compact) .R 4 0x104 []] = .ok (.plicPendHiR .compact, []) ∧
    decode [.access (.plic .compact) .W 4 0x104 [1, 0, 0, 0]] = .error (.noRow (.plic .compact) .W 4 0x104) ∧
    decode [.access (.plic .compact) .R 4 0x1A0 []] = .ok (.plicEnableLoR .compact 1, []) ∧
    decode [.access (.plic .compact) .R 4 0x1A4 []] = .ok (.plicEnableHiR .compact 1, []) ∧
    decode [.access (.plic .compact) .R 4 0x1A8 []] = .ok (.plicThresholdR .compact 1, []) ∧
    decode [.access (.plic .compact) .R 4 0x1AC []] = .ok (.plicClaimR .compact 1, []) ∧
    decode [.access (.plic .compact) .R 4 0x1B0 []] = .error (.noRow (.plic .compact) .R 4 0x1B0) ∧
    decode [.access (.plic .compact) .R 8 0x1AC []] = .error (.noRow (.plic .compact) .R 8 0x1AC) := by
  and_intros <;> decide

/-- The canonical layout (R350): PEND at 0x1000 and 0x1004, contexts from 0x2000 in steps of 0x1000. -/
theorem test_decode_plic_canonical :
    decode [.access (.plic .canonical) .R 4 0x1000 []] = .ok (.plicPendLoR .canonical, []) ∧
    decode [.access (.plic .canonical) .W 4 0x3000 [1, 2, 0, 0]] = .ok (.plicEnableLoW .canonical 1 0x201, []) ∧
    decode [.access (.plic .canonical) .W 4 0x3004 [1, 0, 0, 0]] = .ok (.plicEnableHiW .canonical 1 1, []) ∧
    decode [.access (.plic .canonical) .W 4 0x3008 [5, 0, 0, 0]] = .ok (.plicThresholdW .canonical 1 5, []) ∧
    decode [.access (.plic .canonical) .W 4 0x300C [2, 0, 0, 0]] = .ok (.plicCompleteW .canonical 1 2, []) := by
  and_intros <;> decide

/-- The CLINT (R390): MSIP(h) at 4h, MTIMECMP(h) at 0x4000 + 8h, MTIME at 0xBFF8. -/
theorem test_decode_clint :
    decode [.access .clint .R 4 0x08 []] = .ok (.clintMsipR 2, []) ∧
    decode [.access .clint .W 4 0x08 [1, 0, 0, 0]] = .ok (.clintMsipW 2 1, []) ∧
    decode [.access .clint .R 8 0x4008 []] = .ok (.clintMtimecmpR 1, []) ∧
    decode [.access .clint .R 4 0x4008 []] = .ok (.clintMtimecmpLoR 1, []) ∧
    decode [.access .clint .R 4 0x400C []] = .ok (.clintMtimecmpHiR 1, []) ∧
    decode [.access .clint .W 8 0x4008 [1, 0, 0, 0, 2, 0, 0, 0]] = .ok (.clintMtimecmpW 1 0x200000001, []) ∧
    decode [.access .clint .W 4 0x4008 [1, 0, 0, 0]] = .ok (.clintMtimecmpLoW 1 1, []) ∧
    decode [.access .clint .W 4 0x400C [1, 0, 0, 0]] = .ok (.clintMtimecmpHiW 1 1, []) ∧
    decode [.access .clint .R 8 0xBFF8 []] = .ok (.clintMtimeR, []) ∧
    decode [.access .clint .R 4 0xBFF8 []] = .ok (.clintMtimeLoR, []) ∧
    decode [.access .clint .R 4 0xBFFC []] = .ok (.clintMtimeHiR, []) ∧
    decode [.access .clint .W 8 0xBFF8 [1, 0, 0, 0, 0, 0, 0, 0]] = .ok (.clintMtimeW 1, []) ∧
    decode [.access .clint .W 4 0xBFF8 [1, 0, 0, 0]] = .ok (.clintMtimeLoW 1, []) ∧
    decode [.access .clint .W 4 0xBFFC [0, 0, 0, 1]] = .ok (.clintMtimeHiW 0x1000000, []) ∧
    decode [.access .clint .R 8 0xBFFC []] = .error (.noRow .clint .R 8 0xBFFC) := by
  and_intros <;> decide

theorem test_decode_uart :
    decode [.access (.uart 0) .R 1 0x00 []] = .ok (.uartDataR 0, []) ∧
    decode [.access (.uart 0) .W 1 0x00 [65]] = .ok (.uartDataW 0 65, []) ∧
    decode [.access (.uart 0) .R 4 0x04 []] = .ok (.uartStatusR 0, []) ∧
    decode [.access (.uart 0) .R 4 0x08 []] = .ok (.uartCtrlR 0, []) ∧
    decode [.access (.uart 0) .W 4 0x08 [1, 0, 0, 0]] = .ok (.uartCtrlW 0 1, []) ∧
    decode [.access (.uart 0) .W 4 0x04 [1, 0, 0, 0]] = .error (.noRow (.uart 0) .W 4 0x04) ∧
    decode [.access (.uart 0) .W 4 0x08 [1, 0]] = .error .badData := by
  and_intros <;> decide

theorem test_decode_timer :
    decode [.access (.timer 0) .R 4 0x00 []] = .ok (.timerCntLoR 0, []) ∧
    decode [.access (.timer 0) .W 4 0x00 [1, 0, 0, 0]] = .ok (.timerCntLoW 0 1, []) ∧
    decode [.access (.timer 0) .R 4 0x04 []] = .ok (.timerCntHiR 0, []) ∧
    decode [.access (.timer 0) .W 4 0x04 [1, 0, 0, 0]] = .ok (.timerCntHiW 0 1, []) ∧
    decode [.access (.timer 0) .R 4 0x08 []] = .ok (.timerCmpLoR 0, []) ∧
    decode [.access (.timer 0) .W 4 0x08 [1, 0, 0, 0]] = .ok (.timerCmpLoW 0 1, []) ∧
    decode [.access (.timer 0) .R 4 0x0C []] = .ok (.timerCmpHiR 0, []) ∧
    decode [.access (.timer 0) .W 4 0x0C [1, 0, 0, 0]] = .ok (.timerCmpHiW 0 1, []) ∧
    decode [.access (.timer 0) .R 4 0x10 []] = .ok (.timerCtrlR 0, []) ∧
    decode [.access (.timer 0) .W 4 0x10 [3, 0, 0, 0]] = .ok (.timerCtrlW 0 3, []) ∧
    decode [.access (.timer 0) .R 4 0x14 []] = .ok (.timerStatusR 0, []) ∧
    decode [.access (.timer 0) .W 4 0x14 [1, 0, 0, 0]] = .ok (.timerStatusW 0 1, []) ∧
    decode [.access (.timer 0) .R 4 0x18 []] = .ok (.timerTickR 0, []) ∧
    decode [.access (.timer 0) .W 4 0x18 [9, 0, 0, 0]] = .ok (.timerTickW 0 9, []) ∧
    decode [.access (.timer 0) .R 4 0x1C []] = .error (.noRow (.timer 0) .R 4 0x1C) := by
  and_intros <;> decide

theorem test_decode_dma :
    decode [.access (.dma 0) .R 4 0x00 []] = .ok (.dmaSrcLoR 0, []) ∧
    decode [.access (.dma 0) .W 4 0x00 [1, 0, 0, 0]] = .ok (.dmaSrcLoW 0 1, []) ∧
    decode [.access (.dma 0) .R 4 0x04 []] = .ok (.dmaSrcHiR 0, []) ∧
    decode [.access (.dma 0) .W 4 0x04 [1, 0, 0, 0]] = .ok (.dmaSrcHiW 0 1, []) ∧
    decode [.access (.dma 0) .R 4 0x08 []] = .ok (.dmaDstLoR 0, []) ∧
    decode [.access (.dma 0) .W 4 0x08 [1, 0, 0, 0]] = .ok (.dmaDstLoW 0 1, []) ∧
    decode [.access (.dma 0) .R 4 0x0C []] = .ok (.dmaDstHiR 0, []) ∧
    decode [.access (.dma 0) .W 4 0x0C [1, 0, 0, 0]] = .ok (.dmaDstHiW 0 1, []) ∧
    decode [.access (.dma 0) .R 4 0x10 []] = .ok (.dmaLenR 0, []) ∧
    decode [.access (.dma 0) .W 4 0x10 [0, 1, 0, 0]] = .ok (.dmaLenW 0 256, []) ∧
    decode [.access (.dma 0) .R 4 0x14 []] = .ok (.dmaCtrlR 0, []) ∧
    decode [.access (.dma 0) .W 4 0x14 [3, 0, 0, 0]] = .ok (.dmaCtrlW 0 3, []) ∧
    decode [.access (.dma 0) .R 4 0x18 []] = .ok (.dmaStatusR 0, []) ∧
    decode [.access (.dma 0) .W 4 0x18 [4, 0, 0, 0]] = .ok (.dmaStatusW 0 4, []) := by
  and_intros <;> decide

theorem test_decode_rom :
    decode [.access (.rom 0) .R 3 1 []] = .ok (.romRead 0 1 3, []) ∧
    decode [.access (.rom 0) .W 1 0 [1]] = .ok (.romWrite 0 0 [1], []) := by decide

/-- Words of the opcode table: a command code, a register offset, the ROM's row without bits. -/
theorem test_table_words :
    decodeTableWord 8 0x04 = some (.dramCopy 0 0 0) ∧ decodeTableWord 8 0x32 = none ∧
    decodeTableWord 64 0x100 = some (.plicPendLoR .compact) ∧ decodeTableWord 0 0 = some (.romRead 0 0 0) := by
  decide

/-! ## Small platforms -/

/-- SMALL_GEO of spec/95_test_vectors.md section 0, on 0x1000 bytes of DRAM. -/
def small : Config :=
  { Config.default with
    l1d := ⟨128, 64, 2⟩, l1i := ⟨128, 64, 2⟩, l2 := ⟨256, 64, 2⟩, l3 := ⟨512, 64, 2⟩, dramSize := 0x1000 }

/-- The DRAM as a RAM region at `B = 0x80000000`. -/
def ram : Region := ⟨.ram 0, 0x80000000, 0x1000, "ram"⟩

/-- The PLIC's region, compact with two contexts (R350). -/
def plicRegion : Region := ⟨.mmio .plic ⟨4, some [4]⟩, 0x0C000000, 0x1C0, "plic"⟩

/-- The two regions mapped, nothing else done. -/
def bare : State := { State.init small with bus := { (State.init small).bus with regions := [plicRegion, ram] } }

/-- A page of frame 0x80000, which the RAM backs. -/
def page (t : MemType) (cached writable executable : Bool) : Pte :=
  ⟨0x80000, true, writable, executable, false, cached, t, false, false⟩

/-- `bare` with virtual page 1 mapped and in the TLB: address 0x1000 is B. -/
def mapped (p : Pte) : State :=
  { bare with mmu := { bare.mmu with
      tables := [(0, [(1, p)])], tlb := [((0, 1), ⟨p.frame, 1⟩)], tlbClock := 1 } }

/-- A line of the block of B, holding the byte 7 throughout. -/
def lineAt (tag : Nat) (dirty p1d p2 : Bool) : Line := ⟨true, dirty, tag, List.replicate 64 7, 1, p1d, false, p2⟩

/-- A state with the block of B in L1D, L2 and L3. -/
def resident (s : State) (dirty : Bool) : State :=
  { s with cache := { s.cache with
      l1d := { s.cache.l1d with lines := [((0, 0), lineAt 0x2000000 dirty false false)] }
      l2 := { s.cache.l2 with lines := [((0, 0), lineAt 0x1000000 false true false)] }
      l3 := { s.cache.l3 with lines := [((0, 0), lineAt 0x800000 false false true)] }
      globalCounter := 1 } }

/-- A state with the block of B in L2 and L3 only. -/
def inL2 (s : State) : State :=
  { s with cache := { s.cache with
      l2 := { s.cache.l2 with lines := [((0, 0), lineAt 0x1000000 false false false)] }
      l3 := { s.cache.l3 with lines := [((0, 0), lineAt 0x800000 false false true)] }
      globalCounter := 1 } }

/-- The state an operation answers. -/
def after (i : Instr) (s : State) : State :=
  match exec i s with
  | .next t => t
  | _ => s

/-- A write-combining buffer that holds two bytes at B. -/
def posted (s : State) : State := { s with cpu := { s.cpu with wc := { base := some 0x80000000, bytes := [1, 2] } } }

theorem ramRange_of {s : State} {a n o : Nat} (r : Region)
    (h : (1 ≤ n ∧ a < 2 ^ 64 ∧ s.ramOffset a = some o) ∧ o + n ≤ s.cfg.dramSize ∧ s.bus.find a = some r ∧
      a + n ≤ r.base + r.size) : s.ramRange a n o :=
  ⟨h.1.1, h.1.2.1, h.1.2.2, h.2.1, r, h.2.2⟩

theorem tlbHit_of {s : State} {va pa : Nat} {p : Pte} (e : TlbEntry)
    (h : Tab.get s.mmu.tlb (s.mmu.currentAsid, va >>> Nat.log2 s.cfg.pageSize) = some e ∧
      s.mmu.pte s.mmu.currentAsid (va >>> Nat.log2 s.cfg.pageSize) = some p ∧
      pa = (e.frame <<< Nat.log2 s.cfg.pageSize) ||| (va &&& (s.cfg.pageSize - 1)) ∧ pa < 2 ^ 64) :
    s.tlbHit va pa p := ⟨e, h⟩

theorem accessOk_of {s : State} {va size : Nat}
    (h : (size = 1 ∨ size = 2 ∨ size = 4 ∨ size = 8) ∧ size ≤ xlenBytes s.cfg.xlen ∧ va + size ≤ 2 ^ 64 ∧
      va >>> Nat.log2 s.cfg.pageSize = (va + size - 1) >>> Nat.log2 s.cfg.pageSize) : s.accessOk va size := h

/-! ## Witnesses: states and operands that meet the hypotheses of each statement -/

/-- Whether an outcome is a next state. -/
def isNext (o : Host.Outcome State Fault Refusal) : Bool :=
  match o with
  | .next _ => true
  | _ => false

theorem next_of {o : Host.Outcome State Fault Refusal} (h : isNext o = true) : ∃ t, o = .next t := by
  cases o with
  | next t => exact ⟨t, rfl⟩
  | fault f => cases h
  | refused r => cases h

theorem legal_small : ConfigLegal small := firstBad_none_iff.1 (by decide +kernel)

theorem witness_DecodeOfEncode : endsCommand [] = true ∧ endsCommand [.code 0x43, .nat 5] = true ∧
    WellFormed (.plicPrioR .compact 64) = true ∧ WellFormed (.plicPrioR .canonical 1024) = true ∧
    WellFormed (.plicCompleteW .canonical 7 0xFFFFFFFF) = true ∧ WellFormed (.clintMsipR 4095) = true ∧
    WellFormed (.clintMtimecmpW 4094 0) = true := by decide

/-- A block with calls pending. -/
def calling (ts : List Token) : State := { bare with calls := ts }

theorem witness_StepRunsDecodedCall : ConfigLegal (calling [.code 0x68, .nat 5, .code 0x56]).cfg ∧
    decode (calling [.code 0x68, .nat 5, .code 0x56]).calls = .ok (.clintAdvance 5, [.code 0x56]) :=
  ⟨legal_small, by decide +kernel⟩

/-- A configuration that is not legal, no call, and calls that do not decode: of the UART accesses without a row, those that
R411 gives an error (DATA and CTRL or STATUS at the other's width), and those it does not (no register at the offset, a
write of STATUS, any width where the checks are off, an instance the platform has not). -/
theorem witness_StepsThatRunNothing :
    (¬ ConfigLegal (State.init { small with tlbEntries := 0 }).cfg ∧
      step (State.init { small with tlbEntries := 0 }) = .fault (.badConfig .tlbEntries)) ∧
    (ConfigLegal bare.cfg ∧ bare.calls = []) ∧
    ((calling [.code 0]).calls ≠ [] ∧ decode (calling [.code 0]).calls = .error (.reservedCode 0)) ∧
    (bare.cfg.uarts[0]? = some ⟨0x10000000, some 1⟩ ∧ bare.cfg.uarts[9]? = none ∧ bare.cfg.strictMmio = true ∧
      ConfigLegal { small with strictMmio := false }) ∧
    decode (calling [.access (.uart 0) .R 4 0 []]).calls = .error (.noRow (.uart 0) .R 4 0) ∧
    decode (calling [.access (.uart 0) .R 1 4 []]).calls = .error (.noRow (.uart 0) .R 1 4) ∧
    decode (calling [.access (.uart 0) .W 1 8 [0]]).calls = .error (.noRow (.uart 0) .W 1 8) ∧
    decode (calling [.access (.uart 9) .W 1 8 [0]]).calls = .error (.noRow (.uart 9) .W 1 8) ∧
    decode (calling [.access (.uart 0) .R 4 0xC []]).calls = .error (.noRow (.uart 0) .R 4 0xC) ∧
    decode (calling [.access (.uart 0) .W 4 4 [0, 0, 0, 0]]).calls = .error (.noRow (.uart 0) .W 4 4) ∧
    decode (calling [.access (.uart 0) .R 2 0 []]).calls = .error (.noRow (.uart 0) .R 2 0) := by
  refine ⟨⟨firstBad_some_iff.1 ⟨.tlbEntries, by decide +kernel⟩, by rfl⟩, ⟨legal_small, rfl⟩, ⟨by decide, by decide⟩,
    ⟨by decide, by decide, by decide, firstBad_none_iff.1 (by decide +kernel)⟩, ?_, ?_, ?_, ?_, ?_, ?_, ?_⟩ <;> decide +kernel

theorem witness_StateAtConstruction : Dma.reset ∈ (State.init small).dmas ∧ Uart.reset ∈ (State.init small).uarts := by
  decide

theorem inv_bare : Inv bare where
  memory := ⟨.nil, by simp [bare, State.init]⟩
  inDram := by simp [bare, State.init]
  regions := ⟨by decide, by decide⟩
  mmu :=
    { size := by decide
      sorted := .nil
      ticks := .nil
      clock := by simp [bare, State.init]
      pages := by simp [bare, State.init]
      pool := by simp [bare, State.init] }
  wc := fun _ => rfl
  plic :=
    { priorities := by decide
      lines := by decide
      enables := by decide
      thresholds := by decide
      pendingBits := by decide
      enableBits := by simp [bare, State.init, Plic.reset, small]
      level := by
        intro _ id _ h2
        have h2 : id ≤ 8 := h2
        interval_cases id <;> decide }

theorem witness_StepKeepsInv : Inv (calling [.code 0x02, .nat 0, .bytes [1]]) ∧
    ∃ t, step (calling [.code 0x02, .nat 0, .bytes [1]]) = .next t :=
  ⟨⟨inv_bare.memory, inv_bare.inDram, inv_bare.regions, inv_bare.mmu, inv_bare.wc, inv_bare.plic⟩,
    next_of (by decide +kernel)⟩

theorem witness_ConfigurationFixed : ∃ t, step (calling [.code 0x56]) = .next t := next_of (by decide +kernel)

/-- A UART whose FIFO holds a byte, with RX_EN and its output high, about to be read. -/
def ringing : State :=
  { bare with uarts := [⟨[65], true, true, []⟩], calls := [.access (.uart 0) .R 1 0 []] }

theorem witness_StepKeepsOutputs : OutputsOk ringing ∧ ∃ t, step ringing = .next t :=
  ⟨⟨by decide, by decide, by decide⟩, next_of (by decide +kernel)⟩

/-- The block of B resident at three levels, about to be flushed from L2. -/
def flushing : State := { resident bare true with calls := [.code 0x35, .nat 0x80000000, .nat 2] }

theorem witness_StepKeepsInclusion : Inclusion flushing ∧ ∃ t, step flushing = .next t := by
  refine ⟨⟨?_, ?_, ?_, ?_, ?_, ?_⟩, next_of (by decide +kernel)⟩
  · intro l
    cases l
    · exact List.pairwise_singleton _ _
    · exact .nil
    · exact List.pairwise_singleton _ _
    · exact List.pairwise_singleton _ _
  · intro l q x h
    cases l <;> simp only [flushing, resident, Cache.level, List.mem_singleton, Prod.mk.injEq] at h
    · obtain ⟨rfl, rfl⟩ := h; decide +kernel
    · simp [bare, State.init, LevelState.reset] at h
    · obtain ⟨rfl, rfl⟩ := h; decide +kernel
    · obtain ⟨rfl, rfl⟩ := h; decide +kernel
  · intro c q x h
    cases c <;> simp only [flushing, resident, Cache.level, Side.level, List.mem_singleton, Prod.mk.injEq] at h
    · obtain ⟨rfl, rfl⟩ := h; exact ⟨(0, 0), by decide +kernel, by decide +kernel⟩
    · simp [bare, State.init, LevelState.reset] at h
  · intro q x h
    simp only [flushing, resident, List.mem_singleton, Prod.mk.injEq] at h
    obtain ⟨rfl, rfl⟩ := h; exact ⟨(0, 0), by decide +kernel, by decide +kernel⟩
  · intro c q x h
    simp only [flushing, resident, List.mem_singleton, Prod.mk.injEq] at h
    obtain ⟨rfl, rfl⟩ := h
    cases c
    · exact fun _ => ⟨(0, 0), by decide +kernel⟩
    · exact fun h => absurd h (by decide)
  · intro q x h
    simp only [flushing, resident, List.mem_singleton, Prod.mk.injEq] at h
    obtain ⟨rfl, rfl⟩ := h; exact fun _ => ⟨(0, 0), by decide +kernel⟩

/-- A DRAM read out of bounds: a step that ends in an error. -/
theorem witness_StatisticsMonotone : ∃ t, step (calling [.code 0x01, .nat 0x1000, .nat 1]) = .next t :=
  next_of (by decide +kernel)

theorem witness_CsrsChangeOnlyByTheirOperations : (∃ t, exec (.cpuCsrRead .mie) bare = .next t) ∧
    (Instr.cpuCsrRead .mie ≠ .cpuSampleIrqs ∧ Instr.cpuCsrRead .mie ≠ .cpuMaybeTakeInterrupt ∧
      Instr.cpuCsrRead .mie ≠ .cpuCompleteTrap ∧ Instr.cpuCsrRead .mie ≠ .cpuMret ∧
      (∀ c b, Instr.cpuCsrRead .mie ≠ .cpuTrapEnter c b) ∧ (∀ f v, Instr.cpuCsrRead .mie ≠ .cpuCsrWrite f v) ∧
      ∀ c h, Instr.cpuCsrRead .mie ≠ .cpuPollInterrupts c (some h)) :=
  ⟨next_of (by decide +kernel), by simp⟩

theorem witness_TransfersLeaveCpuAndCaches :
    isNext (exec (.busReadBytes 0x80000000 4) bare) = true ∧ isNext (exec (.busWriteBytes 0x80000000 [1]) bare) = true ∧
    (encode (.dmaCtrlW 0 3) = [.access (.dma 0) .W 4 0x14 [3, 0, 0, 0]] ∧ isNext (exec (.dmaCtrlW 0 3) bare) = true) ∧
    (encode (.uartDataR 0) = [.access (.uart 0) .R 1 0 []] ∧ isNext (exec (.uartDataR 0) bare) = true) ∧
    (encode (.plicClaimR .compact 1) = [.access (.plic .compact) .R 4 0x1AC []] ∧
      isNext (exec (.plicClaimR .compact 1) bare) = true) ∧
    (encode (.clintMtimeW 5) = [.access .clint .W 8 0xBFF8 [5, 0, 0, 0, 0, 0, 0, 0]] ∧
      isNext (exec (.clintMtimeW 5) bare) = true) ∧
    (encode (.timerCntLoR 0) = [.access (.timer 0) .R 4 0 []] ∧ isNext (exec (.timerCntLoR 0) bare) = true) ∧
    (encode (.romRead 0 0 4) = [.access (.rom 0) .R 4 0 []] ∧ isNext (exec (.romRead 0 0 4) bare) = true) := by
  and_intros <;> decide +kernel

theorem witness_DramReadsBytes : 0xFF0 + 16 ≤ bare.cfg.dramSize ∧ bare.cfg.dramSize < 0xFF0 + 17 ∧
    bare.cfg.dramSize < 2 ^ 64 + 0 ∧ (0xFFF : Word).toNat < bare.cfg.dramSize ∧
    bare.cfg.dramSize ≤ (0x1000 : Word).toNat := by decide

theorem witness_DramWritesBytes : Memory.wf bare.cfg.fillByte bare.dram.cells ∧
    (0xFFE : Word).toNat + [1, 2].length ≤ bare.cfg.dramSize ∧ bare.cfg.dramSize < (0xFFF : Word).toNat + [1, 2].length ∧
    (0xFFC : Word).toNat + 4 ≤ bare.cfg.dramSize ∧ bare.cfg.dramSize < (0xFFD : Word).toNat + 4 := ⟨inv_bare.memory, by decide⟩

theorem witness_DramCopyIsOverlapSafe : Memory.wf bare.cfg.fillByte bare.dram.cells ∧
    0xFFD + 3 ≤ bare.cfg.dramSize ∧ 0xFFC + 3 ≤ bare.cfg.dramSize ∧ bare.cfg.dramSize < 0xFFE + 3 :=
  ⟨inv_bare.memory, by decide⟩

theorem witness_RegionsAreInsertedSorted :
    ((1 : Nat) ≠ 0 ∧ (0xFFFFFFFFFFFFFFFF : Word).toNat + 1 ≤ 2 ^ 64 ∧
      ∀ q ∈ bare.bus.regions, ¬ ((0xFFFFFFFFFFFFFFFF : Word).toNat ≤ q.last ∧
        q.base ≤ (0xFFFFFFFFFFFFFFFF : Word).toNat + 1 - 1)) ∧
    2 ^ 64 < (0xFFFFFFFFFFFFFFFF : Word).toNat + 2 ∧
    (∃ q ∈ bare.bus.regions, (0x80000FFF : Word).toNat ≤ q.last ∧ q.base ≤ (0x80000FFF : Word).toNat + 1 - 1) ∧
    (bare.deviceShape (.rom 0) = some (0x1000, 4, ⟨1, none⟩) ∧
      ∀ q ∈ bare.bus.regions, ¬ (0x1000 ≤ q.last ∧ q.base ≤ 0x1000 + 4 - 1)) ∧
    (bare.deviceShape .plic = some (0x0C000000, 0x1C0, ⟨4, some [4]⟩) ∧
      ∃ q ∈ bare.bus.regions, 0x0C000000 ≤ q.last ∧ q.base ≤ 0x0C000000 + 0x1C0 - 1) ∧
    (State.init { small with roms := [⟨0x1000, [], true⟩] }).deviceShape (.rom 0) = some (0x1000, 0, ⟨1, none⟩) ∧
    ((State.init { small with uarts := [⟨0xFFFFFFFFFFFFFFF4, none⟩] }).deviceShape (.uart 0) =
        some (0xFFFFFFFFFFFFFFF4, 16, ⟨4, some [1, 4]⟩) ∧ 2 ^ 64 < 0xFFFFFFFFFFFFFFF4 + 16) := by decide +kernel

/-- The last bytes of the RAM region. -/
theorem range_bare (n : Nat) (h : 1 ≤ n ∧ n ≤ 8) : bare.ramRange (0x80001000 - n) n (0x1000 - n) := by
  obtain ⟨h1, h2⟩ := h
  interval_cases n <;> exact ramRange_of ram (by decide +kernel)

/-- Two adjacent RAM regions over two parts of the DRAM. -/
def split : State :=
  { bare with bus := { bare.bus with regions := [⟨.ram 0x100, 0x1000, 16, "a"⟩, ⟨.ram 0, 0x1010, 16, "b"⟩] } }

theorem regions_split : RegionsOk split.bus := ⟨by decide, by decide⟩

theorem inDram_of {s : State} {a n : Nat} (h : ∀ i < n, (s.ramOffset (a + i)).any (· < s.cfg.dramSize) = true) :
    ∀ i < n, ∃ o, s.ramOffset (a + i) = some o ∧ o < s.cfg.dramSize := by
  intro i hi
  have h := h i hi
  generalize s.ramOffset (a + i) = x at h ⊢
  cases x with
  | none => cases h
  | some o => exact ⟨o, rfl, of_decide_eq_true h⟩

/-- What an operation answers, where its result is known. -/
theorem answered {i : Instr} {s : State} {res : OpResult} (h : isNext (exec i s) = true ∧ (after i s).result = res) :
    exec i s = .next { after i s with result := res } := by
  obtain ⟨h1, rfl⟩ := h
  unfold after
  cases hi : exec i s with
  | next t => rfl
  | fault f => rw [hi] at h1; cases h1
  | refused x => rw [hi] at h1; cases h1

/-- The strict ROM's region. -/
def romRegion : Region := ⟨.mmio (.rom 0) ⟨1, none⟩, 0x1000, 4, "rom"⟩

/-- `bare` with the ROM registered. -/
def withRom : State := { bare with bus := { bare.bus with regions := [romRegion, plicRegion, ram] } }

/-- The eight bytes over the meeting of two regions, and the last four of the second with four past it. -/
theorem witness_BusTransfersReachRegions :
    (bare.ramRange (0x80000FFC : Word).toNat 4 0xFFC ∧ Memory.wf bare.cfg.fillByte bare.dram.cells ∧
      bare.ramRange (0x80000FFE : Word).toNat [1, 2].length 0xFFE) ∧
    (RegionsOk split.bus ∧ Memory.wf split.cfg.fillByte split.dram.cells ∧
      (∀ i < 8, ∃ o, split.ramOffset ((0x100C : Word).toNat + i) = some o ∧ o < split.cfg.dramSize) ∧
      (∀ i < 4, ∃ o, split.ramOffset ((0x101C : Word).toNat + i) = some o ∧ o < split.cfg.dramSize) ∧
      split.bus.find ((0x101C : Word).toNat + 4) = none) ∧
    (bare.reachesDevice (0x0C000000 : Word).toNat 4 plicRegion .plic ∧
      decode [.access (bare.formatOf .plic) .R 4 (BitVec.ofNat 64 ((0x0C000000 : Word).toNat - plicRegion.base)) []] =
        .ok (.plicPrioR .compact 1, []) ∧
      exec (.plicPrioR .compact 1) bare = .next ((after (.plicPrioR .compact 1) bare).ok (.bytes [0, 0, 0, 0])) ∧
      decode [.access (bare.formatOf .plic) .W 4 (BitVec.ofNat 64 ((0x0C000000 : Word).toNat - plicRegion.base))
        [7, 0, 0, 0]] = .ok (.plicPrioW .compact 1 7, []) ∧
      exec (.plicPrioW .compact 1 7) bare = .next ((after (.plicPrioW .compact 1 7) bare).ok .unit)) ∧
    (withRom.reachesDevice (0x1000 : Word).toNat 1 romRegion (.rom 0) ∧
      decode [.access (withRom.formatOf (.rom 0)) .W 1 (BitVec.ofNat 64 ((0x1000 : Word).toNat - romRegion.base)) [1]] =
        .ok (.romWrite 0 0 [1], []) ∧
      exec (.romWrite 0 0 [1]) withRom = .next ((after (.romWrite 0 0 [1]) withRom).err (.readOnly 0x1000))) ∧
    (split.bus.find (0x100C : Word).toNat = some ⟨.ram 0x100, 0x1000, 16, "a"⟩ ∧
      let t := after (.busReadBytes 0x100C 4) split
      exec (.busReadBytes 0x100C 4) split = .next (t.ok (.bytes [0, 0, 0, 0])) ∧
      exec (.busReadBytes 0x1010 4) t =
        .next { after (.busReadBytes 0x1010 4) t with result := .ok (.bytes [0, 0, 0, 0]) } ∧
      exec (.busReadBytes 0x1010 17) t =
        .next { after (.busReadBytes 0x1010 17) t with result := .err { kind := .unmapped 0x1020 } }) ∧
    (let t := after (.busWriteBytes 0x100C [1, 2, 3, 4]) split
     exec (.busWriteBytes 0x100C [1, 2, 3, 4]) split = .next (t.ok .unit) ∧
      exec (.busWriteBytes 0x1010 [5]) t = .next { after (.busWriteBytes 0x1010 [5]) t with result := .ok .unit }) := by
  refine ⟨⟨range_bare 4 (by decide), inv_bare.memory, range_bare 2 (by decide)⟩,
    ⟨regions_split, inv_bare.memory, inDram_of (by decide +kernel), inDram_of (by decide +kernel), by decide +kernel⟩,
    ⟨⟨by decide, by decide +kernel, by decide, ⟨4, some [4]⟩, rfl, fun _ => ⟨by decide, by simp⟩⟩, by decide +kernel,
      answered (by decide +kernel), by decide +kernel, answered (by decide +kernel)⟩,
    ⟨⟨by decide, by decide +kernel, by decide, ⟨1, none⟩, rfl, fun _ => ⟨by decide, by simp⟩⟩, by decide +kernel,
      answered (by decide +kernel)⟩,
    ⟨by decide +kernel, answered (by decide +kernel), answered (by decide +kernel), answered (by decide +kernel)⟩,
    answered (by decide +kernel), answered (by decide +kernel)⟩

theorem witness_BusReadConcatenatesRegions : RegionsOk split.bus ∧
    ∀ i < 8, ∃ o, split.ramOffset ((0x100C : Word).toNat + i) = some o ∧ o < split.cfg.dramSize :=
  ⟨regions_split, inDram_of (by decide +kernel)⟩

theorem witness_BusTransfersFail : bare.bus.find (0x80001000 : Word).toNat = none ∧
    (bare.cfg.strictMmio = true ∧ bare.bus.find (0x0C000001 : Word).toNat = some plicRegion ∧
      (0x0C000001 : Word).toNat + 4 ≤ plicRegion.base + plicRegion.size ∧
      ((0x0C000001 : Word).toNat - plicRegion.base) % 4 ≠ 0) ∧
    (bare.bus.find (0x0C000000 : Word).toNat = some plicRegion ∧ 2 ∉ [4]) := by decide +kernel

/-- A writable and executable normal page, cached. -/
def cachedPage : Pte := page .normal true true true

/-- The same, not cached. -/
def uncachedPage : Pte := page .normal false true true

/-- A page of a frame on which nothing but a read is allowed. -/
def readOnlyPage : Pte := page .normal true false false

/-- Address 0x1FFC, the last word of the page, hits. -/
theorem hit_cached : (mapped cachedPage).tlbHit (0x1FFC : Word).toNat 0x80000FFC cachedPage :=
  tlbHit_of ⟨0x80000, 1⟩ (by decide +kernel)

theorem hit_uncached : (mapped uncachedPage).tlbHit (0x1FFC : Word).toNat 0x80000FFC uncachedPage :=
  tlbHit_of ⟨0x80000, 1⟩ (by decide +kernel)

theorem hit_readOnly : (mapped readOnlyPage).tlbHit (0x1FFC : Word).toNat 0x80000FFC readOnlyPage :=
  tlbHit_of ⟨0x80000, 1⟩ (by decide +kernel)

theorem witness_TlbHitTranslations : ∃ pa p, (mapped cachedPage).tlbHit (0x1FFC : Word).toNat pa p :=
  ⟨_, _, hit_cached⟩

/-- `mapped` with its TLB full of one entry of another page. -/
def crowded : State :=
  let s := mapped cachedPage
  { s with cfg := { s.cfg with tlbEntries := 1 }, mmu := { s.mmu with tlb := [((0, 9), ⟨3, 1⟩)] } }

theorem witness_TranslateMisses :
    (Tab.get bare.mmu.tlb (bare.mmu.currentAsid, (0x1000 : Word).toNat >>> Nat.log2 bare.cfg.pageSize) = none ∧
      bare.mmu.pte bare.mmu.currentAsid ((0x1000 : Word).toNat >>> Nat.log2 bare.cfg.pageSize) = none) ∧
    (Tab.get crowded.mmu.tlb (crowded.mmu.currentAsid, (0x1FFC : Word).toNat >>> Nat.log2 crowded.cfg.pageSize) = none ∧
      crowded.mmu.pte crowded.mmu.currentAsid ((0x1FFC : Word).toNat >>> Nat.log2 crowded.cfg.pageSize) =
        some cachedPage ∧ cachedPage.present = true ∧
      0x80000FFC = (cachedPage.frame <<< Nat.log2 crowded.cfg.pageSize) |||
        ((0x1FFC : Word).toNat &&& (crowded.cfg.pageSize - 1)) ∧
      ((0, 9), (⟨3, 1⟩ : TlbEntry)) ∈ crowded.mmu.tlb ∧ crowded.cfg.tlbEntries ≤ crowded.mmu.tlb.length ∧
      ∀ f ∈ crowded.mmu.tlb, f ≠ ((0, 9), ⟨3, 1⟩) → 1 < f.2.tick) := by decide +kernel

theorem witness_MapPageDrawsFreeFrame :
    (∃ f < bare.cfg.maxFrames, f ∉ bare.mmu.poolFrames) ∧
    ∀ f < (State.init { small with maxFrames := 0 }).cfg.maxFrames,
      f ∈ (State.init { small with maxFrames := 0 }).mmu.poolFrames :=
  ⟨⟨16383, by decide, by decide⟩, by decide⟩

theorem witness_PageEntryChanges :
    (mapped cachedPage).mmu.pte ((none : Option Nat).getD (mapped cachedPage).mmu.currentAsid) 1 = some cachedPage ∧
    (mapped cachedPage).mmu.pte ((some 1).getD (mapped cachedPage).mmu.currentAsid) 1 = none := by decide

theorem witness_CacheReadHits : (resident bare true).lookup (0x8000003F : Word).toNat Side.l1d.level = some (0, 0) := by
  decide +kernel

/-- A valid clean line. -/
def lineOf (tag lru : Nat) (p1d p2 : Bool) : Line := ⟨true, false, tag, List.replicate 64 7, lru, p1d, false, p2⟩

/-- L1D full of the blocks of B, dirty and the less recent, and B + 0x40; these and B + 0x80 in L2 and L3. -/
def packed : State :=
  { bare with cache := { bare.cache with
      l1d := { bare.cache.l1d with lines :=
        [((0, 0), { lineOf 0x2000000 1 false false with dirty := true, data := List.replicate 64 9 }),
          ((0, 1), lineOf 0x2000001 2 false false)] }
      l2 := { bare.cache.l2 with lines := [((0, 0), lineOf 0x1000000 1 true false), ((0, 1), lineOf 0x1000001 3 false false),
        ((1, 0), lineOf 0x1000000 2 true false)] }
      l3 := { bare.cache.l3 with lines := [((0, 0), lineOf 0x800000 1 false true), ((1, 0), lineOf 0x800000 2 false true),
        ((2, 0), lineOf 0x800000 3 false true)] }
      globalCounter := 3 } }

theorem inclusion_packed : Inclusion packed := by
  refine ⟨fun l => ?_, fun l q x h => ?_, fun c q x h => ?_, fun q x h => ?_, fun c q x h => ?_, fun q x h => ?_⟩
  · cases l <;> simp only [packed, Cache.level] <;> decide
  · cases l <;> simp only [packed, Cache.level, List.mem_cons, List.not_mem_nil, or_false, Prod.mk.injEq] at h
    · rcases h with ⟨rfl, rfl⟩ | ⟨rfl, rfl⟩ <;> decide +kernel
    · simp [bare, State.init, LevelState.reset] at h
    · rcases h with ⟨rfl, rfl⟩ | ⟨rfl, rfl⟩ | ⟨rfl, rfl⟩ <;> decide +kernel
    · rcases h with ⟨rfl, rfl⟩ | ⟨rfl, rfl⟩ | ⟨rfl, rfl⟩ <;> decide +kernel
  · cases c <;> simp only [packed, Cache.level, Side.level, List.mem_cons, List.not_mem_nil, or_false, Prod.mk.injEq] at h
    · rcases h with ⟨rfl, rfl⟩ | ⟨rfl, rfl⟩
      · exact ⟨(0, 0), by decide +kernel, by decide +kernel⟩
      · exact ⟨(1, 0), by decide +kernel, by decide +kernel⟩
    · simp [bare, State.init, LevelState.reset] at h
  · simp only [packed, List.mem_cons, List.not_mem_nil, or_false, Prod.mk.injEq] at h
    rcases h with ⟨rfl, rfl⟩ | ⟨rfl, rfl⟩ | ⟨rfl, rfl⟩
    · exact ⟨(0, 0), by decide +kernel, by decide +kernel⟩
    · exact ⟨(2, 0), by decide +kernel, by decide +kernel⟩
    · exact ⟨(1, 0), by decide +kernel, by decide +kernel⟩
  · simp only [packed, List.mem_cons, List.not_mem_nil, or_false, Prod.mk.injEq] at h
    rcases h with ⟨rfl, rfl⟩ | ⟨rfl, rfl⟩ | ⟨rfl, rfl⟩ <;> intro hp <;> cases c <;>
      first | exact absurd hp (by decide) | exact ⟨(0, 0), by decide +kernel⟩ | exact ⟨(0, 1), by decide +kernel⟩
  · simp only [packed, List.mem_cons, List.not_mem_nil, or_false, Prod.mk.injEq] at h
    rcases h with ⟨rfl, rfl⟩ | ⟨rfl, rfl⟩ | ⟨rfl, rfl⟩
    · exact fun _ => ⟨(0, 0), by decide +kernel⟩
    · exact fun _ => ⟨(1, 0), by decide +kernel⟩
    · exact fun _ => ⟨(0, 1), by decide +kernel⟩

/-- An address that reaches the RAM reaches the offset from its base. -/
theorem offset_bare {a o : Nat} (h : bare.ramOffset a = some o) : a = 0x80000000 + o := by
  unfold State.ramOffset at h
  split at h
  · rename_i r hr
    obtain ⟨hm, h1, -⟩ := Bus.find_mem hr
    have hm : r = plicRegion ∨ r = ram := by simpa [bare] using hm
    rcases hm with rfl | rfl
    · simp [plicRegion] at h
    · have h1 : 0x80000000 ≤ a := h1
      have h : 0 + (a - 0x80000000) = o := by simpa [ram] using h
      omega
  · cases h

theorem sound_packed : CacheSound packed where
  legal := legal_small
  inclusion := inclusion_packed
  length l q x h := by
    cases l <;> simp only [packed, Cache.level, List.mem_cons, List.not_mem_nil, or_false, Prod.mk.injEq] at h
    · rcases h with ⟨-, rfl⟩ | ⟨-, rfl⟩ <;> decide +kernel
    · simp [bare, State.init, LevelState.reset] at h
    · rcases h with ⟨-, rfl⟩ | ⟨-, rfl⟩ | ⟨-, rfl⟩ <;> decide +kernel
    · rcases h with ⟨-, rfl⟩ | ⟨-, rfl⟩ | ⟨-, rfl⟩ <;> decide +kernel
  codeClean q x h := by simp [packed, bare, State.init, LevelState.reset] at h
  backed q x h := by
    simp only [packed, List.mem_cons, List.not_mem_nil, or_false, Prod.mk.injEq] at h
    rcases h with ⟨rfl, rfl⟩ | ⟨rfl, rfl⟩ | ⟨rfl, rfl⟩
    · exact ⟨0, ramRange_of ram (by decide +kernel)⟩
    · exact ⟨0x40, ramRange_of ram (by decide +kernel)⟩
    · exact ⟨0x80, ramRange_of ram (by decide +kernel)⟩
  memory := inv_bare.memory
  regions := inv_bare.regions
  injective a b o ha hb := by rw [offset_bare ha, offset_bare hb]

/-- A block that only L3 holds. -/
def inL3 : State :=
  { bare with cache := { bare.cache with
      l3 := { bare.cache.l3 with lines := [((0, 0), lineAt 0x800000 false false false)] }, globalCounter := 1 } }

/-- All levels missed with ways free; L2 hit with a way free, and with the set full of a dirty and a clean line; L3 hit; a
set with an invalid way and a full one; and a sound cache, the last block of the RAM. -/
theorem witness_CacheReadMisses :
    (ConfigLegal bare.cfg ∧ (∀ l, l = Side.l1d.level ∨ l = .l2 ∨ l = .l3 →
        bare.lookup (0x80000FFF : Word).toNat l = none ∧ bare.wayFree l (0x80000FFF : Word).toNat) ∧
      bare.ramRange ((0x80000FFF : Word).toNat - (0x80000FFF : Word).toNat % bare.cfg.lineSize) bare.cfg.lineSize 0xFC0) ∧
    (ConfigLegal packed.cfg ∧ Inclusion packed ∧ packed.lookup (0x80000080 : Word).toNat Side.l1i.level = none ∧
      packed.lookup (0x80000080 : Word).toNat .l2 = some (0, 1) ∧
      (packed.line .l1i (0, packed.chooseVictim .l1i 0)).valid = false ∧
      packed.lookup (0x80000080 : Word).toNat Side.l1d.level = none ∧ packed.chooseVictim .l1d 0 = 0 ∧
      ((packed.line .l1d (0, 0)).valid = true ∧ (packed.line .l1d (0, 0)).dirty = true) ∧
      packed.lookup (Config.addrOf packed.cfg .l1d (0, 0) (packed.line .l1d (0, 0))) .l2 = some (0, 0)) ∧
    ((∀ l, l = Side.l1d.level ∨ l = .l2 →
        inL3.lookup (0x80000020 : Word).toNat l = none ∧ inL3.wayFree l (0x80000020 : Word).toNat) ∧
      inL3.lookup (0x80000020 : Word).toNat .l3 = some (0, 0)) ∧
    (1 ≤ packed.cfg.ways .l2 ∧ (∀ v < packed.cfg.ways .l2, (packed.line .l2 (0, v)).valid = true) ∧
      (packed.line .l2 (1, 1)).valid = false) ∧
    (CacheSound packed ∧
      packed.ramRange ((0x80000FFF : Word).toNat - (0x80000FFF : Word).toNat % packed.cfg.lineSize) packed.cfg.lineSize
        0xFC0) := by
  refine ⟨⟨legal_small, fun l h => ?_, ramRange_of ram (by decide +kernel)⟩,
    ⟨legal_small, inclusion_packed, by decide +kernel, by decide +kernel, by decide +kernel, by decide +kernel,
      by decide +kernel, by decide +kernel, by decide +kernel⟩, ⟨fun l h => ?_, by decide +kernel⟩,
    ⟨by decide, by decide +kernel, by decide +kernel⟩, sound_packed, ramRange_of ram (by decide +kernel)⟩
  · rcases h with rfl | rfl | rfl <;> exact ⟨by decide +kernel, 0, by decide, by decide +kernel⟩
  · rcases h with rfl | rfl <;> exact ⟨by decide +kernel, 0, by decide, by decide +kernel⟩

theorem witness_CacheWritePatchesLine :
    (resident bare false).lookup (0x8000003E : Word).toNat Side.l1d.level = some (0, 0) ∧ ([1, 2] : List Byte) ≠ [] ∧
    (0x8000003E : Word).toNat % (resident bare false).cfg.lineSize + [1, 2].length ≤ (resident bare false).cfg.lineSize ∧
    ((resident bare false).line Side.l1d.level (0, 0)).data.length = (resident bare false).cfg.lineSize := by
  decide +kernel

theorem witness_PrefetchTakesLineFromL2 :
    let u := inL2 (mapped cachedPage)
    let s := u.afterHit (0x1000 : Word).toNat
    ConfigLegal s.cfg ∧ (s.lookup 0x80000000 Side.l1i.level = none ∧ s.wayFree Side.l1i.level 0x80000000) ∧
      (s.lookup 0x80000000 Side.l1d.level = none ∧ s.wayFree Side.l1d.level 0x80000000) ∧
      s.lookup 0x80000000 .l2 = some (0, 0) ∧ u.tlbHit (0x1000 : Word).toNat 0x80000000 cachedPage ∧
      cachedPage.memtype = .normal ∧ cachedPage.cached = true ∧ cachedPage.executable = true := by
  refine ⟨legal_small, ⟨by decide +kernel, 0, by decide +kernel⟩, ⟨by decide +kernel, 0, by decide +kernel⟩,
    by decide +kernel, tlbHit_of ⟨0x80000, 1⟩ (by decide +kernel), rfl, rfl, rfl⟩

theorem witness_PrefetchOfResidentBlockIsNoOp :
    (resident bare true).lookup ((0x80000020 : Word).toNat - (0x80000020 : Word).toNat % (resident bare true).cfg.lineSize)
      .l3 = some (0, 0) ∧
    (mapped uncachedPage).tlbHit (0x1FFC : Word).toNat 0x80000FFC uncachedPage ∧
    (uncachedPage.memtype ≠ .normal ∨ uncachedPage.cached = false) ∧ uncachedPage.executable = true :=
  ⟨by decide +kernel, hit_uncached, .inr rfl, rfl⟩

theorem witness_FlushLineWritesBackToL2 :
    let s := resident bare true
    s.lookup (0x8000003F : Word).toNat Side.l1d.level = some (0, 0) ∧ (s.line Side.l1d.level (0, 0)).dirty = true ∧
      s.lookup (Config.addrOf s.cfg Side.l1d.level (0, 0) (s.line Side.l1d.level (0, 0))) .l2 = some (0, 0) := by
  decide +kernel

theorem witness_FlushAtL3WritesBusOnce :
    let s := resident bare true
    s.lookup (0x8000003F : Word).toNat .l3 = some (0, 0) ∧
      0x80000000 = Config.addrOf s.cfg .l3 (0, 0) (s.line .l3 (0, 0)) ∧ (s.line .l3 (0, 0)).presentL2 = true ∧
      s.lookup 0x80000000 .l2 = some (0, 0) ∧ (s.line .l2 (0, 0)).presentL1d = true ∧
      (s.line .l2 (0, 0)).presentL1i = false ∧ s.lookup 0x80000000 .l1d = some (0, 0) ∧
      (s.line .l1d (0, 0)).dirty = true ∧ (s.line .l1d (0, 0)).data.length = s.cfg.lineSize ∧
      s.ramRange 0x80000000 s.cfg.lineSize 0 ∧ Memory.wf s.cfg.fillByte s.dram.cells := by
  refine ⟨by decide +kernel, by decide +kernel, by decide +kernel, by decide +kernel, by decide +kernel,
    by decide +kernel, by decide +kernel, by decide +kernel, by decide +kernel, ramRange_of ram (by decide +kernel),
    by decide +kernel⟩

/-- A cache without a dirty line, and a sound one with a dirty line whose byte is the newest of its address. -/
theorem witness_FlushAllEmptiesLevel : (∀ l q, ((resident bare false).line l q).dirty = false) ∧ CacheSound packed ∧
    (packed.newest 0x80000005 = 9 ∧ packed.dramByte 5 = 0 ∧ packed.ramOffset 0x80000005 = some 5) := by
  refine ⟨fun l q => ?_, sound_packed, by decide +kernel⟩
  by_cases h : (0, 0) = q
  · subst h
    cases l <;> decide +kernel
  · cases l <;> simp [State.line, resident, bare, State.init, LevelState.reset, Cache.level, Tab.get, h, Line.reset]

theorem witness_AccessesRefusedOrDenied :
    (¬ ((3 : Nat) = 1 ∨ (3 : Nat) = 2 ∨ (3 : Nat) = 4 ∨ (3 : Nat) = 8)) ∧
    (2 ^ 64 < (0xFFFFFFFFFFFFFFFE : Word).toNat + 4) ∧
    ((0x1FFE : Word).toNat + 4 ≤ 2 ^ 64 ∧ (0x1FFE : Word).toNat >>> Nat.log2 bare.cfg.pageSize ≠
      ((0x1FFE : Word).toNat + 4 - 1) >>> Nat.log2 bare.cfg.pageSize) ∧
    (mapped readOnlyPage).tlbHit (0x1FFC : Word).toNat 0x80000FFC readOnlyPage ∧
    readOnlyPage.executable = false ∧ readOnlyPage.writable = false ∧
    (mapped readOnlyPage).accessOk (0x1FFC : Word).toNat 4 :=
  ⟨by decide, by decide, by decide +kernel, hit_readOnly, rfl, rfl, accessOk_of (by decide +kernel)⟩

theorem ok_mapped (p : Pte) : (mapped p).accessOk (0x1FFC : Word).toNat 4 :=
  accessOk_of (s := bare) (by decide +kernel)

theorem range_mapped (p : Pte) : (mapped p).ramRange 0x80000FFC 4 0xFFC := range_bare 4 (by decide)

/-- A state with the block of B in L1I. -/
def inL1i (s : State) : State :=
  { s with cache := { s.cache with l1i := { s.cache.l1i with lines := [((0, 0), lineAt 0x2000000 false false false)] } } }

/-- `packed` with the page of B mapped. -/
def packedMapped : State := { packed with mmu := (mapped cachedPage).mmu }

/-- A page that is not cached; a line that L1D or L1I holds, to its last byte; a sound cache, a fetch of the last word of the
RAM, and a load of eight bytes over two lines. -/
theorem witness_ReadsTakeTheirPath :
    (let s := mapped uncachedPage
     s.accessOk (0x1FFC : Word).toNat 4 ∧ s.tlbHit (0x1FFC : Word).toNat 0x80000FFC uncachedPage ∧
        (uncachedPage.memtype ≠ .normal ∨ uncachedPage.cached = false) ∧ s.ramRange 0x80000FFC 4 0xFFC ∧
        uncachedPage.executable = true) ∧
    (let s := resident (inL1i (mapped cachedPage)) true
     s.accessOk (0x103C : Word).toNat 4 ∧ s.tlbHit (0x103C : Word).toNat 0x8000003C cachedPage ∧
        cachedPage.memtype = .normal ∧ cachedPage.cached = true ∧ cachedPage.executable = true ∧
        s.cfg.prefetch.enable = false ∧ s.lookup 0x8000003C Side.l1d.level = some (0, 0) ∧
        s.lookup 0x8000003C Side.l1i.level = some (0, 0) ∧ 0x8000003C % s.cfg.lineSize + 4 ≤ s.cfg.lineSize) ∧
    (let s := packedMapped
     CacheSound s ∧ s.accessOk (0x1FFC : Word).toNat 4 ∧ s.tlbHit (0x1FFC : Word).toNat 0x80000FFC cachedPage ∧
        (∀ i < 4, ∃ o, s.ramRange (0x80000FFC + i - (0x80000FFC + i) % s.cfg.lineSize) s.cfg.lineSize o) ∧
        s.accessOk (0x103C : Word).toNat 8 ∧ s.tlbHit (0x103C : Word).toNat 0x8000003C cachedPage ∧
        ∀ i < 8, ∃ o, s.ramRange (0x8000003C + i - (0x8000003C + i) % s.cfg.lineSize) s.cfg.lineSize o) := by
  refine ⟨⟨ok_mapped _, hit_uncached, .inr rfl, range_mapped _, rfl⟩,
    ⟨accessOk_of (by decide +kernel), tlbHit_of ⟨0x80000, 1⟩ (by decide +kernel), rfl, rfl, rfl, rfl, by decide +kernel,
      by decide +kernel, by decide +kernel⟩,
    sound_packed.with_mmu _, ok_mapped cachedPage, hit_cached, fun i hi => ⟨0xFC0, ?_⟩, accessOk_of (by decide +kernel),
    tlbHit_of ⟨0x80000, 1⟩ (by decide +kernel), fun i hi => ?_⟩
  · interval_cases i <;> exact ramRange_of ram (by decide +kernel)
  · interval_cases i <;>
      first | exact ⟨0, ramRange_of ram (by decide +kernel)⟩ | exact ⟨0x40, ramRange_of ram (by decide +kernel)⟩

theorem witness_UncachedStoreWritesTheBus : let s := mapped uncachedPage
    s.accessOk (0x1FFC : Word).toNat 4 ∧ s.tlbHit (0x1FFC : Word).toNat 0x80000FFC uncachedPage ∧
      uncachedPage.writable = true ∧ uncachedPage.memtype = .normal ∧ uncachedPage.cached = false ∧
      s.ramRange 0x80000FFC 4 0xFFC ∧ Memory.wf s.cfg.fillByte s.dram.cells :=
  ⟨ok_mapped _, hit_uncached, rfl, rfl, rfl, range_mapped _, inv_bare.memory⟩

/-- A device page and a write-combining page of the RAM. -/
def devicePage : Pte := page .device false true true
def wcPage : Pte := page .wc false true true

theorem witness_DeviceStoreFlushesBufferFirst : let s := mapped devicePage
    s.accessOk (0x1FFC : Word).toNat 4 ∧ s.tlbHit (0x1FFC : Word).toNat 0x80000FFC devicePage ∧
      devicePage.writable = true ∧ devicePage.memtype = .device ∧ s.ramRange 0x80000FFC 4 0xFFC ∧
      Memory.wf s.cfg.fillByte s.dram.cells ∧ s.cpu.wc = { base := none, bytes := [] } ∧
      (posted s).cpu.wc.base = some 0x80000000 ∧ (posted s).ramRange 0x80000000 (posted s).cpu.wc.bytes.length 0 :=
  ⟨ok_mapped _, tlbHit_of ⟨0x80000, 1⟩ (by decide +kernel), rfl, rfl, range_mapped _, inv_bare.memory, rfl, rfl,
    ramRange_of ram (by decide +kernel)⟩

/-- The write-combining page, a store to its third byte continuing the buffer, and one to its last word that does not. -/
theorem witness_WriteCombiningPostsAndDrains : let s := mapped wcPage
    (s.accessOk (0x1FFC : Word).toNat 4 ∧ s.tlbHit (0x1FFC : Word).toNat 0x80000FFC wcPage ∧ wcPage.writable = true ∧
      wcPage.memtype = .wc ∧ s.cpu.wc.base = none) ∧
    ((posted s).accessOk (0x1002 : Word).toNat 4 ∧ (posted s).tlbHit (0x1002 : Word).toNat 0x80000002 wcPage ∧
      (posted s).cpu.wc.base = some 0x80000000 ∧ 0x80000002 = 0x80000000 + (posted s).cpu.wc.bytes.length ∧
      0x80000002 / s.cfg.lineSize = 0x80000000 / s.cfg.lineSize) ∧
    (0x80000FFC ≠ 0x80000000 + (posted s).cpu.wc.bytes.length ∧
      (posted s).ramRange 0x80000000 (posted s).cpu.wc.bytes.length 0 ∧
      Memory.wf (posted s).cfg.fillByte (posted s).dram.cells) :=
  ⟨⟨ok_mapped _, tlbHit_of ⟨0x80000, 1⟩ (by decide +kernel), rfl, rfl, rfl⟩,
    ⟨accessOk_of (by decide +kernel), tlbHit_of ⟨0x80000, 1⟩ (by decide +kernel), rfl, rfl, by decide +kernel⟩,
    by decide, ramRange_of ram (by decide +kernel), inv_bare.memory⟩

theorem witness_CachedStoreThenLoad : let s := resident (mapped cachedPage) false
    s.accessOk (0x103C : Word).toNat 4 ∧ s.tlbHit (0x103C : Word).toNat 0x8000003C cachedPage ∧
      cachedPage.writable = true ∧ cachedPage.memtype = .normal ∧ cachedPage.cached = true ∧
      s.cfg.prefetch.enable = false ∧ s.lookup 0x8000003C .l1d = some (0, 0) ∧
      0x8000003C % s.cfg.lineSize + 4 ≤ s.cfg.lineSize ∧ (s.line .l1d (0, 0)).data.length = s.cfg.lineSize :=
  ⟨accessOk_of (by decide +kernel), tlbHit_of ⟨0x80000, 1⟩ (by decide +kernel), rfl, rfl, rfl, rfl, by decide +kernel,
    by decide +kernel, by decide +kernel⟩

/-- The CPU attached to the PLIC through virtual page 1 as a device page and to hart 0, source 3 ringing for context 0. -/
def wired : State :=
  let s := mapped { page .device false true false with frame := 0xC000 }
  { s with
    cpu := { s.cpu with plicAttach := some ⟨0x1000, .compact, 0⟩, clintAttach := some 0 }
    plic := { s.plic with
      priority := [0, 0, 2, 0, 0, 0, 0, 0], lineHigh := [false, false, true, false, false, false, false, false]
      pending := 4, enable := [4, 0] } }

theorem best_wired : wired.isBest 0 3 := by
  have h := State.isBest_best wired 0
  rwa [show wired.plic.best wired.cfg.plic.sources 0 = 3 by decide +kernel] at h

theorem witness_AttachAndSample :
    0 < bare.cfg.clint.harts ∧ bare.cfg.clint.harts ≤ 1 ∧ (∀ h ∈ wired.cpu.clintAttach, h < wired.cfg.clint.harts) ∧
    ∀ a ∈ wired.cpu.plicAttach, a.ctxId < wired.cfg.plic.contexts ∧ (true = true ↔ ∃ id, wired.claimable a.ctxId id) := by
  refine ⟨by decide, by decide, by decide, fun a h => ?_⟩
  obtain rfl : (⟨0x1000, .compact, 0⟩ : PlicAttach) = a := by simpa [wired] using h
  refine ⟨by decide, fun _ => ?_, fun _ => rfl⟩
  rcases best_wired with ⟨h, -⟩ | ⟨h, -⟩
  · cases h
  · exact ⟨3, h⟩

/-- `wired` with the source's line low: no source is claimable. -/
def quiet : State := { wired with plic := { wired.plic with lineHigh := List.replicate 8 false, pending := 0 } }

theorem best_quiet : quiet.isBest 0 0 := by
  have h := State.isBest_best quiet 0
  rwa [show quiet.plic.best quiet.cfg.plic.sources 0 = 0 by decide +kernel] at h

theorem witness_PollClaimsAndCompletes : bare.cpu.plicAttach = none ∧ quiet.isBest 0 0 ∧
    (ConfigLegal wired.cfg ∧ wired.cpu.plicAttach = some ⟨0x1000, .compact, 0⟩ ∧ 0 < wired.cfg.plic.contexts ∧
      wired.isBest 0 3) ∧
    0x118C = (0x1000 : Word).toNat + Layout.compact.ctxBase + 0 * Layout.compact.stride + 12 ∧ wired.accessOk 0x118C 4 ∧
    wired.tlbHit 0x118C 0x0C00018C { page .device false true false with frame := 0xC000 } ∧
    (wired.bus.find 0x0C00018C = some plicRegion ∧ 0x0C00018C + 4 ≤ plicRegion.base + plicRegion.size ∧
      0x0C00018C - plicRegion.base = wired.cfg.plic.layout.ctxBase + 0 * wired.cfg.plic.layout.stride + 12) ∧
    (wired.cfg.plic.mode = .level ∧ wired.cfg.endianness = .little ∧ wired.cpu.wc.base = none) :=
  ⟨rfl, best_quiet, ⟨legal_small, rfl, by decide, best_wired⟩, by decide, accessOk_of (by decide +kernel),
    tlbHit_of ⟨0xC000, 1⟩ (by decide +kernel), by decide +kernel, by decide⟩

theorem witness_PlicLinesMovePending : (1 : Nat) ≤ 8 ∧ 8 ≤ bare.cfg.plic.sources ∧ bare.cfg.plic.sources < 9 := by decide

theorem witness_ClaimReturnsHighestPriority : ConfigLegal wired.cfg ∧ 1 < wired.cfg.plic.contexts :=
  ⟨legal_small, by decide⟩

theorem witness_PlicRegisters : 8 ≤ bare.cfg.plic.sources ∧ bare.cfg.plic.sources ≤ 64 ∧ 1 < bare.cfg.plic.contexts ∧
    bare.plic.enable[1]? = some 0 := by decide

theorem witness_CompleteRearmsLatchedSource : 1 < bare.cfg.plic.contexts := by decide

theorem witness_ClintWrites : 0 < bare.cfg.clint.harts ∧ bare.cfg.clint.harts ≤ 1 ∧ bare.clint.mtimecmp[0]? = some 0 := by decide

theorem witness_UartOperations : ringing.uarts[0]? = some ⟨[65], true, true, []⟩ ∧
    ringing.cfg.uarts[0]? = some ⟨0x10000000, some 1⟩ ∧ ringing.sinkFits (some 1) :=
  ⟨rfl, rfl, fun id h => by cases h; decide⟩

theorem witness_TimerWrites : bare.timers[0]? = some (Timer.reset ⟨0x10001000, 1, some 2⟩) ∧
    bare.cfg.timers[0]? = some ⟨0x10001000, 1, some 2⟩ ∧ bare.sinkFits (some 2) :=
  ⟨rfl, rfl, fun id h => by cases h; decide⟩

theorem witness_ClintReadsAndLevels : 0 < bare.cfg.clint.harts ∧ bare.cfg.clint.harts ≤ 1 := by decide

theorem witness_TimerAdvances : bare.timers[0]? = some (Timer.reset ⟨0x10001000, 1, some 2⟩) ∧
    bare.cfg.timers[0]? = some ⟨0x10001000, 1, some 2⟩ ∧ bare.sinkFits (some 2) := witness_TimerWrites

theorem witness_TimerAndDmaReads : bare.timers[0]? = some (Timer.reset ⟨0x10001000, 1, some 2⟩) ∧
    bare.dmas[0]? = some Dma.reset := ⟨rfl, rfl⟩

theorem witness_InterruptSelection : (some 11 : Option Nat) = (let r : Csr := { Csr.reset with mie := true, meie := true, meip := true }
    if r.mie = false then none else if r.meie = true ∧ r.meip = true then some 11
      else if r.mtie = true ∧ r.mtip = true then some 7 else if r.msie = true ∧ r.msip = true then some 3 else none) := by
  decide

theorem witness_TrapEntryAndReturn : Instr.cpuMret = .cpuMret ∨ Instr.cpuMret = .cpuCompleteTrap := .inl rfl

theorem witness_CsrReadAndWrite : CsrField.mcause = .msip ∨ CsrField.mcause = .mtip ∨ CsrField.mcause = .meip ∨
    CsrField.mcause = .mcause ∨ CsrField.mcause = .mcauseIsInterrupt := by decide

theorem witness_UnpackOfPack : 0 < 8 ∧ 7 < 8 := by decide

theorem witness_DmaWrites : bare.dmas[0]? = some Dma.reset ∧ bare.cfg.dmas[0]? = some ⟨0x10002000, true, some 3⟩ ∧
    bare.sinkFits (some 3) ∧ (2 : Word32).toNat % 2 = 0 := ⟨rfl, rfl, fun id h => by cases h; decide, by decide⟩

/-- The DMA engine set to copy the last eight bytes of the RAM to its first. -/
def armed (src : Word) : State := { bare with dmas := [{ Dma.reset with src := src, dst := 0x80000000, len := 8 }] }

theorem witness_DmaRangeCheckSetsErr : (armed 0x80000FFC).cfg.dmas[0]? = some ⟨0x10002000, true, some 3⟩ ∧
    (3 : Word32).toNat % 2 = 1 ∧ RegionsOk (armed 0x80000FFC).bus ∧
    ((0x80000FFC : Word).toNat ≤ 0x80001000 ∧ 0x80001000 < (0x80000FFC : Word).toNat + (8 : Word32).toNat) ∧
    (armed 0x80000FFC).ramOffset 0x80001000 = none :=
  ⟨rfl, by decide, inv_bare.regions, by decide, by decide +kernel⟩

theorem witness_DmaCopiesRam : (3 : Word32).toNat % 2 = 1 ∧ RegionsOk (armed 0x80000FF8).bus ∧
    Memory.wf (armed 0x80000FF8).cfg.fillByte (armed 0x80000FF8).dram.cells ∧
    (armed 0x80000FF8).ramRange (0x80000FF8 : Word).toNat (8 : Word32).toNat 0xFF8 ∧
    (armed 0x80000FF8).ramRange (0x80000000 : Word).toNat (8 : Word32).toNat 0 ∧ 0 + (8 : Word32).toNat ≤ 0xFF8 ∧
    ¬ ((0x80000FF8 : Word).toNat < (0x10002000 : Word).toNat + 32 ∧
      (0x10002000 : Word).toNat < (0x80000FF8 : Word).toNat + (8 : Word32).toNat) ∧
    ¬ ((0x80000000 : Word).toNat < (0x10002000 : Word).toNat + 32 ∧
      (0x10002000 : Word).toNat < (0x80000000 : Word).toNat + (8 : Word32).toNat) :=
  ⟨by decide, inv_bare.regions, inv_bare.memory, range_bare 8 (by decide), ramRange_of ram (by decide +kernel), by decide,
    by decide, by decide⟩

theorem witness_RomAccesses : bare.roms[0]? = some ⟨[0xCC, 0xDD, 0, 0]⟩ ∧
    bare.cfg.roms[0]? = some ⟨0x1000, [0xCC, 0xDD, 0, 0], true⟩ ∧
    (3 : Word).toNat + 1 ≤ ([0xCC, 0xDD, 0, 0] : List Byte).length ∧
    (2 : Word).toNat + ([1, 2] : List Byte).length ≤ ([0xCC, 0xDD, 0, 0] : List Byte).length := by decide

/-! ## Vectors of spec/95_test_vectors.md -/

/-- What an operation returns. -/
def answer (i : Instr) (s : State) : OpResult := (after i s).result

/-- The state after operations one after another. -/
def run (is : List Instr) (s : State) : State := is.foldl (fun s i => after i s) s

/-- D3, D3b: an overlapping copy either way. -/
theorem test_copy_overlaps :
    let s := after (.dramWriteBytes 0 [1, 2, 3, 4]) bare
    (after (.dramCopy 1 0 3) s).dramBytes 0 4 = [1, 1, 2, 3] ∧ (after (.dramCopy 0 1 3) s).dramBytes 0 4 = [2, 3, 4, 4] := by
  decide +kernel

/-- D1b: an access past the end; and at an addr past u64, which R170 takes too. -/
theorem test_read_past_end :
    answer (.dramReadBytes 0xFFF 2) bare = .err { kind := .accessViolation 0xFFF 2 } ∧
    answer (.dramReadBytes (2 ^ 64) 0) bare = .err { kind := .accessViolation (2 ^ 64) 0 } ∧
    (after (.dramReadBytes 0xFFF 2) bare).dram.faultCount = 1 := by decide +kernel

/-- D6: the first chunk of a write is committed before the second faults. -/
theorem test_write_across_the_end : let t := after (.busWriteBytes 0x80000FFF [1, 2]) bare
    t.result = .err { kind := .unmapped 0x80001000 } ∧ t.dramByte 0xFFF = 1 ∧
      t.bus.trace = [⟨.W, 0x80000FFF, [1]⟩] ∧ (t.bus.writes, t.bus.faults, t.bus.writeBytes) = (1, 1, 1) := by
  decide +kernel

/-- D8c, D8g: the UART takes 4 bytes at STATUS only. -/
theorem test_uart_width : let s := after (.busRegisterMmio "uart" (.uart 0)) bare
    answer (.busReadBytes 0x10000004 1) s = .err { kind := .mmioConstraint 0x10000004 1 } ∧
    answer (.busReadBytes 0x10000004 4) s = .ok (.bytes [1, 0, 0, 0]) := by decide +kernel

/-- M2, M2b: a miss, then a hit. -/
theorem test_translate : let s := run [.mmuMapPage 5 (some 0x80) none none, .mmuTranslate 0x5123] bare
    (s.mmu.tlbMisses, s.mmu.tlbHits, s.mmu.tlbClock) = (1, 0, 1) ∧
    (s.mmu.pte 0 5).map (·.accessed) = some true ∧ (after (.mmuTranslate 0x5FFF) s).mmu.tlbHits = 1 := by decide +kernel

/-- M5, M5b: `cached` is forced false on a device page unless it is given. -/
theorem test_device_page_not_cached :
    ((after (.mmuMapPage 5 (some 1) (some { memtype := some .device }) none) bare).mmu.pte 0 5).map (·.cached) =
      some false ∧
    ((after (.mmuMapPage 5 (some 1) (some { memtype := some .device, cached := some true }) none) bare).mmu.pte 0 5).map
      (·.cached) = some true := by decide +kernel

/-- M9, M9b: a physical address at and past 2^64. -/
theorem test_physical_top :
    exec (.mmuTranslate 0x1000) (after (.mmuMapPage 1 (some (2 ^ 52)) none none) bare) =
      .refused .physicalAddressBeyond64 ∧
    answer (.mmuTranslate 0x2FFF) (after (.mmuMapPage 2 (some (2 ^ 52 - 1)) none none) bare) =
      .ok (.translation 0xFFFFFFFFFFFFFFFF ⟨2 ^ 52 - 1, true, true, true, false, true, .normal, false, true⟩) := by
  constructor
  · rfl
  · decide +kernel

/-- The statistics of a level, in the order of spec/95_test_vectors.md section 0. -/
def tally (s : State) (l : Level) : List Nat :=
  let x := (s.cache.level l).stats
  [x.hits, x.misses, x.fills, x.evictions, x.writebacks, x.prefetches]

/-- C4: a dirty victim's bytes go to L2, not to the bus. -/
theorem test_dirty_victim : let s := run [.cacheWriteBytes 0x80000000 [0xAA] none, .cacheRead 0x80000040 .l1d,
      .cacheRead 0x80000080 .l1d] bare
    tally s .l1d = [0, 3, 3, 1, 1, 0] ∧ (s.line .l2 (0, 0)).dirty = true ∧ (s.line .l2 (0, 0)).data.headD 0 = 0xAA ∧
      s.dramByte 0 = 0 ∧ s.bus.writes = 0 := by decide +kernel

/-- C6: an L3 victim drains L1D into L2 and L2 into L3, then makes one bus write. -/
theorem test_inclusive_eviction : let s := run [.cacheWriteBytes 0x80000000 [0x11, 0x22] none,
      .cacheRead 0x80000100 .l1d, .cacheRead 0x80000200 .l1d] bare
    tally s .l1d = [0, 3, 3, 1, 1, 0] ∧ tally s .l2 = [0, 3, 3, 1, 1, 0] ∧ tally s .l3 = [0, 3, 3, 1, 1, 0] ∧
      s.dramBytes 0 2 = [0x11, 0x22] ∧ s.bus.writes = 1 := by decide +kernel

/-- C11: both first-level lines dirty; L1I drains last, so its byte stands. -/
theorem test_both_children_dirty : let s := run [.cacheWriteBytes 0x80000000 [0xD0] (some .l1d),
      .cacheWriteBytes 0x80000000 [0x10] (some .l1i), .cacheFlushAll .l2] bare
    (s.line .l3 (0, 0)).data.headD 0 = 0x10 ∧ tally s .l2 = [1, 1, 1, 1, 1, 0] ∧ tally s .l1i = [0, 1, 1, 1, 1, 0] := by
  decide +kernel

/-- C13: an error inside a fill records its level and block. -/
theorem test_fill_error : answer (.cacheRead 0x1004 .l1d) bare =
    .err { kind := .unmapped 0x1000, source := some (.l3, 0x1000) } := by decide +kernel

/-- P1b, P1c, P1h: sign extension of a load, and the bytes of a negative store. -/
theorem test_load_store_signs :
    let s := run [.dramWriteBytes 0 [0xFF, 0x7F, 0x00, 0x80], .mmuMapPage 0x10 (some 0x80000) none none] bare
    answer (.cpuLoad 0x10002 2 true) s = .ok (.int (-32768)) ∧ answer (.cpuLoad 0x10002 2 false) s = .ok (.int 0x8000) ∧
    answer (.cpuLoad 0x10010 2 false) (after (.cpuStore 0x10010 2 (-1) true) s) = .ok (.int 0xFFFF) := by decide +kernel

/-- P4: a load that takes bytes from two lines. -/
theorem test_load_across_lines :
    let s := run [.dramWriteBytes 0x3E [1, 2, 3, 4], .mmuMapPage 0x10 (some 0x80000) none none] bare
    answer (.cpuLoad 0x1003E 4 false) s = .ok (.int 0x04030201) ∧
    ((after (.cpuLoad 0x1003E 4 false) s).cache.level .l1d).stats.misses = 2 := by decide +kernel

/-- The inverse of a store is a load, for the state the statement's witness gives. -/
theorem test_store_then_load :
    let t := after (.cpuStore 0x103C 4 (-2) true) (resident (mapped cachedPage) false)
    answer (.cpuLoad 0x103C 4 true) t = .ok (.int (-2)) ∧ t.bus = bare.bus ∧ t.dram = bare.dram ∧
      (t.mmu.pte 0 1).map (·.dirty) = some true := by decide +kernel

/-- Section 1: sequential write-combining stores make one bus write. -/
theorem test_write_combining : let s := run [.cpuStore 0x1000 1 1 false, .cpuStore 0x1001 1 2 false,
      .cpuStore 0x1002 1 3 false, .cpuMemoryBarrier] (mapped wcPage)
    s.bus.trace = [⟨.W, 0x80000000, [1, 2, 3]⟩] ∧ s.bus.writes = 1 := by decide +kernel

/-- The claim, by the CPU through the device page, of the source that rings. -/
theorem test_poll : let t := after (.cpuPollInterrupts 0 none) wired
    t.result = .ok (.int 3) ∧ t.plic = wired.plic ∧
      t.bus.trace = [⟨.R, 0x0C00018C, [3, 0, 0, 0]⟩, ⟨.W, 0x0C00018C, [3, 0, 0, 0]⟩] ∧ t.mmu.tlbHits = 2 := by
  decide +kernel

/-- A handler's error is discarded, and the interrupt is completed (R472). -/
theorem test_poll_handler_error :
    let t := after (.cpuPollInterrupts 0 (some [.code 0x05, .nat 0x1000, .code 0x56])) wired
    t.result = .ok (.int 3) ∧ t.dram.faultCount = 1 ∧ t.cpu.csr.mpie = false ∧ t.bus.writes = 1 := by decide +kernel

/-- CS2 to CS2c: nested traps lose the earlier MIE. -/
theorem test_nested_traps : let s := run [.cpuCsrWrite .mie 1, .cpuTrapEnter 7 none, .cpuTrapEnter 3 none] bare
    s.cpu.csr.mpie = false ∧ s.cpu.csr.mcause = 3 ∧
    (after .cpuMret s).cpu.csr = { Csr.reset with mpie := true } := by decide +kernel

/-- CS1: the timer before the software interrupt. -/
theorem test_interrupt_priority :
    answer .cpuShouldTakeInterrupt { bare with cpu := { bare.cpu with csr :=
      { Csr.reset with mie := true, mtie := true, msie := true, mtip := true, msip := true } } } = .ok (.cause (some 7)) := by
  decide +kernel

/-- The claim clears a latched source, whose completion re-arms it while the line is high. -/
theorem test_latched_claim :
    let s : State := { wired with cfg := { wired.cfg with plic := { wired.cfg.plic with mode := .latched } } }
    let t := after (.plicClaimR .compact 0) s
    t.result = .ok (.bytes [3, 0, 0, 0]) ∧ t.plic.pending = 0 ∧ (after (.plicCompleteW .compact 0 3) t).plic.pending = 4 := by
  decide +kernel

/-- A write of ENABLE_HI clears the bits of sources above N. -/
theorem test_enable_above_sources : (after (.plicEnableHiW .compact 0 0xFFFFFFFF) bare).plic.enable = [0, 0] ∧
    (after (.plicEnableLoW .compact 0 0xFFFFFFFF) bare).plic.enable = [0xFF, 0] := by decide +kernel

/-- MTIME at its compare raises MTIP (R397). -/
theorem test_clint_mtip : let s := run [.clintMtimecmpLoW 0 3, .clintAdvance 2] bare
    answer (.clintGetIrqLevels 0) s = .ok (.levels false false) ∧
    answer (.clintGetIrqLevels 0) (after (.clintAdvance 1) s) = .ok (.levels false true) := by decide +kernel

/-- U1 to U1c: the output rises and falls with the FIFO, and the PLIC follows. -/
theorem test_uart_output : let s := run [.uartPushRx 0 0x41, .uartCtrlW 0 1] bare
    s.plic.pending = 1 ∧ answer (.uartDataR 0) s = .ok (.bytes [0x41]) ∧ (after (.uartDataR 0) s).plic.pending = 0 := by
  decide +kernel

/-- T1 and T2: auto-reload, and the timer's output. -/
theorem test_timer : let s := run [.timerCtrlW 0 0b101, .timerCmpLoW 0 3, .timerAdvance 0 4] bare
    let t := run [.timerCmpLoW 0 2, .timerCtrlW 0 0b011, .timerAdvance 0 2] bare
    (s.timers.map (·.cnt), s.timers.map (·.pending)) = ([1], [true]) ∧ t.plic.pending = 0b10 := by decide +kernel

/-- R421: with TICK 0, `advance` leaves CNT unchanged, auto-reload or not. -/
theorem test_timer_tick_zero :
    let s := run [.timerCntLoW 0 5, .timerCmpLoW 0 3, .timerTickW 0 0, .timerCtrlW 0 0b101, .timerAdvance 0 4] bare
    s.timers.map (·.cnt) = [5] := by decide +kernel

/-- R431: BUSY reads 0, also to a transfer of another engine's that runs nested. -/
theorem test_busy_reads_zero : answer (.dmaStatusR 0) { bare with dmas := [{ Dma.reset with busy := true, done := true }] } =
    .ok (.bytes [2, 0, 0, 0]) := by decide +kernel

/-- DM2: a chunk is read whole, then written. -/
theorem test_dma_overlap : let s := { armed 0x80000000 with dmas :=
      [{ Dma.reset with src := 0x80000000, dst := 0x80000002, len := 4 }] }
    let t := run [.dramWriteBytes 0 [1, 2, 3, 4], .dmaCtrlW 0 1] s
    t.dramBytes 0 6 = [1, 2, 1, 2, 3, 4] ∧ answer (.dmaStatusR 0) t = .ok (.bytes [2, 0, 0, 0]) := by decide +kernel

/-- DM7: the ROM is no RAM. -/
theorem test_dma_range_check : answer (.dmaStatusR 0) (after (.dmaCtrlW 0 3) (armed 0x1000)) =
    .ok (.bytes [4, 0, 0, 0]) := by decide +kernel

/-- RO1, RO1b. -/
theorem test_rom : let s := after (.busRegisterMmio "rom" (.rom 0)) bare
    answer (.busWriteBytes 0x1000 [1]) s = .err { kind := .readOnly 0x1000 } ∧
    answer (.busReadBytes 0x1001 3) s = .ok (.bytes [0xDD, 0, 0]) := by decide +kernel

end Sys2Proof.Tests
end

section
/-! SUPPORT. The proofs of the statements of the scope (spec/00_scope.md): what a step does with the configuration and the
first of the pending calls (R7, R8, R9, R150, R151, R411), and the integer packer in both byte orders (R13). -/

namespace Sys2Proof.Machine

/-! ## A step, branch by branch -/

/-- No operation ends in a fault. -/
theorem exec_ne_fault (i : Instr) (s : State) (f : Fault) : exec i s ≠ .fault f := by
  rw [exec_eq]
  exact finish_ne_fault _ s f

theorem calls_ne_nil_of_decode_ok {ts : List Token} {r : Instr × List Token} (h : decode ts = .ok r) : ts ≠ [] := by
  rintro rfl
  cases h

theorem step_of_firstBad {s : State} {p : BadParam} (h : s.cfg.firstBad = some p) : step s = .fault (.badConfig p) := by
  rw [step, h]

theorem step_of_no_calls {s : State} (hc : ConfigLegal s.cfg) (h : s.calls = []) : step s = .next s := by
  rw [step, firstBad_none_iff.2 hc]
  exact if_pos h

theorem step_of_decode_ok {s : State} {i : Instr} {rest : List Token} (hc : ConfigLegal s.cfg)
    (h : decode s.calls = .ok (i, rest)) : step s = exec i { s with calls := rest } := by
  simp [step, firstBad_none_iff.2 hc, calls_ne_nil_of_decode_ok h, fetchCall, h]

theorem step_of_decode_error {s : State} {r : Reject} (hc : ConfigLegal s.cfg) (hne : s.calls ≠ [])
    (h : decode s.calls = .error r) : step s = finish (rejectedCall r) { s with calls := s.calls.tail } := by
  simp [step, firstBad_none_iff.2 hc, hne, fetchCall, execRejected, h]

/-- The block of a legal configuration never faults: the only fault is that of construction (R9). -/
theorem step_ne_fault {s : State} (hc : ConfigLegal s.cfg) (f : Fault) : step s ≠ .fault f := by
  by_cases hne : s.calls = []
  · simp [step_of_no_calls hc hne]
  · cases hd : decode s.calls with
    | ok r => rw [step_of_decode_ok hc hd]; exact exec_ne_fault _ _ f
    | error r => rw [step_of_decode_error hc hne hd]; exact finish_ne_fault _ _ f

/-! ## Calls that do not decode -/

/-- But for a UART access without a row, a call that does not decode is refused by its name (R150, R151). -/
theorem rejectedCall_of_not_uart {r : Reject} (h : ∀ k d w off, r ≠ .noRow (.uart k) d w off) :
    rejectedCall r = refuse (.badCall r) := by
  unfold rejectedCall
  split
  · exact absurd rfl (h _ _ _ _)
  · rfl

/-- A UART access without a row raises MMIOConstraint where R411 says so, and refuses elsewhere; it changes nothing. -/
theorem noRow_uart (k w : Nat) (off : Word) (s : State) :
    noRow (.uart k) off.toNat w s =
      if s.cfg.strictMmio = true ∧ ((off = 0 ∧ w = 4) ∨ ((off = 4 ∨ off = 8) ∧ w = 1)) then
        match s.cfg.uarts[k]? with
        | some c => .error (.err { kind := .mmioConstraint (c.base.toNat + off.toNat) w }) s
        | none => .error (.refuse .noSuchDevice) s
      else .error (.refuse .noRegister) s := by
  have offsets : (off.toNat = 0 ∧ w = 4 ∨ (off.toNat = 4 ∨ off.toNat = 8) ∧ w = 1) ↔
      (off = 0 ∧ w = 4 ∨ (off = 4 ∨ off = 8) ∧ w = 1) := by
    simp [← BitVec.toNat_inj]
  unfold noRow
  rw [Op.get_bind_run]
  simp only [offsets]
  split
  · cases s.cfg.uarts[k]? <;> rfl
  · rfl

/-- A UART access without a row, issued as a call of its own, ends as R411 says. -/
theorem finish_rejectedCall_uart (k w : Nat) (d : Dir) (off : Word) (s : State) :
    finish (rejectedCall (.noRow (.uart k) d w off)) s =
      if s.cfg.strictMmio = true ∧ ((off = 0 ∧ w = 4) ∨ ((off = 4 ∨ off = 8) ∧ w = 1)) then
        match s.cfg.uarts[k]? with
        | some c => .next (s.err (.mmioConstraint (c.base.toNat + off.toNat) w))
        | none => .refused .noSuchDevice
      else .refused .noRegister := by
  have run := noRow_uart k w off s
  split
  · rw [if_pos ‹_›] at run
    cases hk : s.cfg.uarts[k]? with
    | some c => rw [hk] at run; exact finish_err (Op.bind_error run)
    | none => rw [hk] at run; exact finish_refuse (Op.bind_error run)
  · rw [if_neg ‹_›] at run
    exact finish_refuse (Op.bind_error run)

/-! ## The integer packer (R13) -/

/-- The natural number that n bytes of x hold: x reduced modulo `2 ^ (8 * n)`. -/
def residue (x : Int) (n : Nat) : Nat := (x % (2 ^ (8 * n) : Nat)).toNat

theorem cast_residue (x : Int) (n : Nat) : (residue x n : Int) = x % 2 ^ (8 * n) := by
  rw [residue, Int.toNat_of_nonneg (Int.emod_nonneg _ (by positivity)), Nat.cast_pow, Nat.cast_ofNat]

theorem residue_lt (x : Int) (n : Nat) : residue x n < 256 ^ n := by
  have h : (residue x n : Int) < 2 ^ (8 * n) := cast_residue x n ▸ Int.emod_lt_of_pos x (by positivity)
  rw [pow_mul] at h
  exact_mod_cast h

theorem pack_little (x : Int) (n : Nat) : pack .little x n = packLe (residue x n) n := rfl

theorem pack_big (x : Int) (n : Nat) : pack .big x n = (packLe (residue x n) n).reverse := rfl

@[simp] theorem length_pack (e : Endian) (x : Int) (n : Nat) : (pack e x n).length = n := by
  cases e <;> simp [pack_big, pack_little]

/-- Byte i of a little-endian packing is the value's digit i to the base 256. -/
theorem packLe_getD : ∀ (n v i : Nat), i < n → (packLe v n).getD i 0 = BitVec.ofNat 8 (v / 2 ^ (8 * i))
  | n + 1, v, 0, _ => by simp [packLe]
  | n + 1, v, i + 1, h => by
    have digit : v / 2 ^ (8 * (i + 1)) = v / 256 / 2 ^ (8 * i) := by
      rw [Nat.div_div_eq_div_mul, Nat.mul_succ, Nat.pow_add, Nat.mul_comm]
    rw [digit, ← packLe_getD n (v / 256) i (by omega)]
    rfl

/-- Reducing x to n bytes keeps its digits below n to the base 256: what is taken off is a multiple of 256 of them. -/
theorem residue_digit (x : Int) {i n : Nat} (h : i < n) :
    BitVec.ofNat 8 (residue x n / 2 ^ (8 * i)) = BitVec.ofInt 8 (x / 2 ^ (8 * i)) := by
  have power : (2 : Int) ^ (8 * n) = 2 ^ (8 * i) * (256 * 2 ^ (8 * (n - 1 - i))) := by
    rw [show (256 : Int) = 2 ^ 8 by norm_num, ← pow_add, ← pow_add]
    congr 1
    omega
  have digits : x / 2 ^ (8 * i) =
      x % 2 ^ (8 * n) / 2 ^ (8 * i) + 256 * (2 ^ (8 * (n - 1 - i)) * (x / 2 ^ (8 * n))) := by
    conv_lhs => rw [← Int.emod_add_mul_ediv x (2 ^ (8 * n))]
    rw [power, mul_assoc, Int.add_mul_ediv_left _ _ (by positivity), mul_assoc]
  apply BitVec.eq_of_toInt_eq
  rw [digits, ← cast_residue, ← BitVec.ofInt_natCast, BitVec.toInt_ofInt, BitVec.toInt_ofInt, Int.natCast_ediv,
    Nat.cast_pow, Nat.cast_ofNat]
  exact (Int.add_mul_bmod_self_left _ 256 _).symm

theorem pack_little_getD (x : Int) {i n : Nat} (h : i < n) :
    (pack .little x n).getD i 0 = BitVec.ofInt 8 (x / 2 ^ (8 * i)) := by
  rw [pack_little, packLe_getD n _ i h, residue_digit x h]

theorem pack_big_getD (x : Int) {i n : Nat} (h : i < n) :
    (pack .big x n).getD i 0 = BitVec.ofInt 8 (x / 2 ^ (8 * (n - 1 - i))) := by
  have mirrored : (pack .big x n).getD i 0 = (pack .little x n).getD (n - 1 - i) 0 := by
    rw [pack_big, pack_little, List.getD_eq_getElem?_getD, List.getElem?_reverse (by simpa using h), length_packLe,
      List.getD_eq_getElem?_getD]
  rw [mirrored, pack_little_getD x (by omega)]

/-- What was packed, in either order, reads back as its residue, or as the two's complement of it. -/
theorem unpack_pack (e : Endian) (x : Int) (n : Nat) (sg : Bool) :
    unpack e (pack e x n) sg = if sg then sext (8 * n) (residue x n) else (residue x n : Int) := by
  cases e <;> simp [unpack, pack_little, pack_big, unpackLe_packLe n _ (residue_lt x n)]

/-- The two's complement of a residue, over the integers (R11). -/
theorem sext_residue (x : Int) (n : Nat) : sext (8 * n) (residue x n) =
    if 2 * (x % 2 ^ (8 * n)) < 2 ^ (8 * n) then x % 2 ^ (8 * n) else x % 2 ^ (8 * n) - 2 ^ (8 * n) := by
  rw [← cast_residue, sext]
  norm_cast

/-! ## The statements -/

/-- Settles O3: of the branches of a step, a legal configuration and a call that decodes leave the one that runs it. -/
theorem stepRunsDecodedCall : Obligations.StepRunsDecodedCall :=
  fun _ _ _ hc hd => step_of_decode_ok hc hd

/-- Settles O4: a step faults in the branch of `firstBad` only, and the other branches are those of the lemmas above. -/
theorem stepsThatRunNothing : Obligations.StepsThatRunNothing := by
  refine ⟨fun s => ⟨?_, fun h => ?_⟩, fun s => step_of_no_calls, fun s r hc hne hd hr => ?_,
    fun s k w d off hc hne hd => ?_⟩
  · rintro ⟨p, hp⟩ hc
    exact step_ne_fault hc _ hp
  · obtain ⟨p, hp⟩ := firstBad_some_iff.2 h
    exact ⟨p, step_of_firstBad hp⟩
  · rw [step_of_decode_error hc hne hd, rejectedCall_of_not_uart hr]
    exact finish_refuse (Op.run_refuse _ _)
  · rw [step_of_decode_error hc hne hd]
    exact finish_rejectedCall_uart k w d off _

/-- Settles O36: both orders are the little-endian bytes of one residue, whose digits are those of x. -/
theorem unpackOfPack : Obligations.UnpackOfPack := by
  refine fun e x n => ⟨length_pack e x n, fun i hi => ?_, ?_, ?_⟩
  · cases e with
    | little => exact pack_little_getD x hi
    | big => exact pack_big_getD x hi
  · exact (unpack_pack e x n false).trans (cast_residue x n)
  · exact (unpack_pack e x n true).trans (sext_residue x n)

end Sys2Proof.Machine
end

section
/-! SUPPORT. The invariants of the DRAM, the bus, the MMU, the write-combining buffer and the PLIC (spec/10_state.md R33 to R38,
R48, R51; spec/45_plic.md R364): every single write that operations are made of keeps them, so every step does. -/

namespace Sys2Proof.Machine

/-! ## The bus: a region inserted in order (R35, R176) -/

/-- The check of R176 keeps the regions sorted, non-empty, inside the address space and disjoint. -/
theorem RegionsOk.insert {b : Bus} (h : RegionsOk b) {r : Region} (hs : r.size ≠ 0) (hw : r.base + r.size ≤ 2 ^ 64)
    (ho : ∀ q ∈ b.regions, ¬ (r.base ≤ q.last ∧ q.base ≤ r.last)) :
    RegionsOk { b with regions := insertRegion r b.regions } := by
  obtain ⟨sorted, bounded⟩ := h
  refine ⟨regions_insert r b.regions sorted bounded hs ho, fun x hx => ?_⟩
  rcases (mem_insertRegion r b.regions x).1 hx with rfl | hx
  · exact ⟨by omega, hw⟩
  · exact bounded x hx

/-! ## The PLIC -/

/-- Clearing a bit keeps a word below a power of two. -/
theorem setBit_false_toNat_lt {w : Word} {n : Nat} (i : Nat) (h : w.toNat < 2 ^ n) : (setBit w i false).toNat < 2 ^ n := by
  rw [setBit, if_neg Bool.false_ne_true, BitVec.toNat_and]
  exact Nat.lt_of_le_of_lt Nat.and_le_left h

/-- Reading an entry of a bank after one is replaced. -/
theorem getD_set {α : Type} (l : List α) (i : Nat) (a : α) (j : Nat) (d : α) :
    (l.set i a).getD j d = if j = i ∧ j < l.length then a else l.getD j d := by
  simp only [List.getD_eq_getElem?_getD, List.getElem?_set]
  by_cases hij : i = j
  · subst hij
    by_cases hlt : i < l.length <;> simp [hlt]
  · simp [hij, Ne.symm hij]

namespace PlicOk

variable {c : PlicCfg} {p : Plic}

/-- A line and its pending bit moved together keep the PLIC in order (R364). -/
theorem follow (h : PlicOk c p) (hn : c.sources ≤ 64) {i : Nat} (hi : i < c.sources) (b : Bool) :
    PlicOk c { p with lineHigh := p.lineHigh.set i b, pending := setBit p.pending i b } where
  priorities := h.priorities
  lines := by simpa using h.lines
  enables := h.enables
  thresholds := h.thresholds
  pendingBits := setBit_toNat_lt _ _ _ _ h.pendingBits hi
  enableBits := h.enableBits
  level hm id h1 h2 := by
    have width : id - 1 < 64 := by omega
    have bank : id - 1 < p.lineHigh.length := by have := h.lines; omega
    simp only [setBit_getLsbD, getD_set, h.level hm id h1 h2, width, bank]

/-- In latched mode a line may move alone, and a pending bit too (R362, R363). -/
theorem latched (h : PlicOk c p) (hm : c.mode = .latched) {ls : List Bool} (hl : ls.length = p.lineHigh.length) {w : Word}
    (hw : w.toNat < 2 ^ c.sources) : PlicOk c { p with lineHigh := ls, pending := w } where
  priorities := h.priorities
  lines := hl.trans h.lines
  enables := h.enables
  thresholds := h.thresholds
  pendingBits := hw
  enableBits := h.enableBits
  level hlevel := by rw [hm] at hlevel; cases hlevel

theorem raised (h : PlicOk c p) (hn : c.sources ≤ 64) {id : Nat} (hid : 1 ≤ id ∧ id ≤ c.sources) :
    PlicOk c (p.raised c.mode id) := by
  have hi : id - 1 < c.sources := by omega
  unfold Plic.raised
  cases hm : c.mode with
  | level => exact h.follow hn hi true
  | latched =>
    refine h.latched hm (by simp) ?_
    split
    · exact h.pendingBits
    · exact setBit_toNat_lt _ _ _ _ h.pendingBits hi

theorem lowered (h : PlicOk c p) (hn : c.sources ≤ 64) {id : Nat} (hid : 1 ≤ id ∧ id ≤ c.sources) :
    PlicOk c (p.lowered c.mode id) := by
  have hi : id - 1 < c.sources := by omega
  unfold Plic.lowered
  cases hm : c.mode with
  | level => exact h.follow hn hi false
  | latched => exact h.latched hm (by simp) h.pendingBits

theorem completed (h : PlicOk c p) (id : Nat) : PlicOk c (p.completed c id) := by
  unfold Plic.completed
  split
  · rename_i hid
    obtain ⟨h1, h2, hm⟩ := hid
    exact h.latched hm rfl (setBit_toNat_lt _ _ _ _ h.pendingBits (by omega))
  · exact h

theorem claimed (h : PlicOk c p) (hm : c.mode = .latched) (i : Nat) :
    PlicOk c { p with pending := setBit p.pending i false } :=
  h.latched hm rfl (setBit_false_toNat_lt i h.pendingBits)

/-- The registers of R355, R358 and R359 may be written if no enable bit of a source above N is. -/
theorem registers (h : PlicOk c p) {ps ts : List Word32} {es : List Word} (hps : ps.length = p.priority.length)
    (hes : es.length = p.enable.length) (hts : ts.length = p.threshold.length) (hbits : ∀ w ∈ es, w.toNat < 2 ^ c.sources) :
    PlicOk c { p with priority := ps, enable := es, threshold := ts } where
  priorities := hps.trans h.priorities
  lines := h.lines
  enables := hes.trans h.enables
  thresholds := hts.trans h.thresholds
  pendingBits := h.pendingBits
  enableBits := hbits
  level := h.level

theorem enable (h : PlicOk c p) (k : Nat) (f : Word → Word) :
    PlicOk c { p with enable := updateAt p.enable k fun w => maskSources c.sources (f w) } := by
  refine h.registers rfl (updateAt_length ..) rfl fun w hw => ?_
  rcases mem_updateAt hw with ⟨v, -, rfl⟩ | hw
  · exact maskSources_lt _ _
  · exact h.enableBits w hw

end PlicOk

/-! ## The MMU -/

namespace MmuOk

variable {c : Config} {m n : Mmu}

/-- Entries may leave the TLB, and pages may change as long as those with an entry stay present in their frame (R213). -/
theorem shrink (h : MmuOk c m) (htlb : n.tlb.Sublist m.tlb) (hclock : n.tlbClock = m.tlbClock)
    (hpages : ∀ x ∈ n.tlb, ∀ p, m.pte x.1.1 x.1.2 = some p →
      ∃ q, n.pte x.1.1 x.1.2 = some q ∧ q.present = p.present ∧ q.frame = p.frame)
    (hpool : ∀ f ∈ n.poolFrames, f < c.maxFrames) : MmuOk c n where
  size := htlb.length_le.trans h.size
  sorted := h.sorted.sublist htlb
  ticks := h.ticks.sublist htlb
  clock x hx := hclock ▸ h.clock x (htlb.subset hx)
  pages x hx := by
    obtain ⟨p, hp, present, frame⟩ := h.pages x (htlb.subset hx)
    obtain ⟨q, hq, present', frame'⟩ := hpages x hx p hp
    exact ⟨q, hq, present'.trans present, frame'.trans frame⟩
  pool := hpool

/-- A page that no entry of the TLB translates to may change at will. -/
theorem dropPage (h : MmuOk c m) {a v : Nat} (hn : n.tlb = m.tlb ∧ n.tlbClock = m.tlbClock ∧ n.poolFrames = m.poolFrames)
    (hp : ∀ a' v', (a', v') ≠ (a, v) → n.pte a' v' = m.pte a' v') : MmuOk c (n.dropTlb a v) := by
  obtain ⟨htlb, hclock, hpool⟩ := hn
  refine h.shrink ?_ hclock (fun x hx p hxp => ?_) (by rw [Mmu.dropTlb, hpool]; exact h.pool)
  · rw [Mmu.dropTlb, htlb]
    exact List.filter_sublist
  · obtain ⟨-, hne⟩ := Tab.mem_erase.1 hx
    exact ⟨p, (hp _ _ hne).trans hxp, rfl, rfl⟩

/-- An entry may be set at the next tick of the clock, if there is room and its page is present in its frame (R211, R213). -/
theorem touch (h : MmuOk c m) {k : Nat × Nat} {e : TlbEntry} (hlen : (Tab.set pairLt m.tlb k e).length ≤ c.tlbEntries)
    (htick : e.tick = m.tlbClock + 1) (hpage : ∃ p, m.pte k.1 k.2 = some p ∧ p.present = true ∧ p.frame = e.frame)
    (htlb : n.tlb = Tab.set pairLt m.tlb k e) (hclock : n.tlbClock = m.tlbClock + 1) (htables : n.tables = m.tables)
    (hpool : n.poolFrames = m.poolFrames) : MmuOk c n where
  size := htlb ▸ hlen
  sorted := htlb ▸ Tab.sorted_set _ _ _ h.sorted
  ticks := htlb ▸ Tab.ticks_set _ _ _ h.ticks fun x hx => by
    have := h.clock x hx
    omega
  clock x hx := by
    rw [htlb] at hx
    rcases Tab.mem_set hx with rfl | hx
    · exact (htick.trans hclock.symm).le
    · have := h.clock x hx
      omega
  pages x hx := by
    rw [htlb] at hx
    unfold Mmu.pte
    rw [htables]
    rcases Tab.mem_set hx with rfl | hx
    · exact hpage
    · exact h.pages x hx
  pool := hpool ▸ h.pool

theorem tlbHit (h : MmuOk c m) {k : Nat × Nat} {e : TlbEntry} (he : Tab.get m.tlb k = some e) : MmuOk c { m with
    tlb := Tab.set pairLt m.tlb k { e with tick := m.tlbClock + 1 }
    tlbClock := m.tlbClock + 1
    tlbHits := m.tlbHits + 1 } := by
  refine h.touch (k := k) (e := { e with tick := m.tlbClock + 1 }) ?_ rfl ?_ rfl rfl rfl rfl
  · rw [Tab.length_set_of_get _ _ _ _ h.sorted he]
    exact h.size
  · exact h.pages (k, e) (Tab.mem_of_get he)

/-- The TLB that `tlb_install` inserts into has room: a full one has lost its least recent entry. -/
theorem evictLeast (h : MmuOk c m) (ht : 1 ≤ c.tlbEntries) : ∃ t, t.Sublist m.tlb ∧ t.length < c.tlbEntries ∧
    ∀ a v f, m.tlbInstall c.tlbEntries a v f = { m with
      tlb := Tab.set pairLt t (a, v) { frame := f, tick := m.tlbClock + 1 }, tlbClock := m.tlbClock + 1 } := by
  by_cases hroom : m.tlb.length < c.tlbEntries
  · exact ⟨m.tlb, .refl _, hroom, fun a v f => by simp only [Mmu.tlbInstall, if_pos hroom]⟩
  · cases hl : leastTick m.tlb with
    | none =>
      rw [leastTick_none hl] at hroom
      exact absurd ht hroom
    | some e =>
      refine ⟨Tab.erase m.tlb e.1, List.filter_sublist, ?_, fun a v f => by simp only [Mmu.tlbInstall, if_neg hroom, hl]⟩
      exact (Tab.length_erase_lt m.tlb e (leastTick_mem hl)).trans_le h.size

theorem tlbInstall (h : MmuOk c m) (ht : 1 ≤ c.tlbEntries) {a v : Nat} {p : Pte} (hp : m.pte a v = some p)
    (hpr : p.present = true) : MmuOk c (m.tlbInstall c.tlbEntries a v p.frame) := by
  obtain ⟨t, hsub, hlen, he⟩ := h.evictLeast ht
  have kept : MmuOk c { m with tlb := t } := h.shrink hsub rfl (fun _ _ q hq => ⟨q, hq, rfl, rfl⟩) h.pool
  rw [he]
  exact kept.touch (k := (a, v)) ((Tab.length_set_le t _ _).trans hlen) rfl ⟨p, hp, hpr, rfl⟩ rfl rfl rfl rfl

end MmuOk

/-! ## Every single write keeps the invariants -/

/-- The invariants of a block whose configuration is legal. -/
def InvLegal (s : State) : Prop := ConfigLegal s.cfg ∧ Inv s

theorem stable_invLegal : Stable InvLegal := by
  rintro s t ha ⟨hc, h⟩
  obtain ⟨-, hn⟩ := hc.sources
  have mmu : ∀ {m : Mmu}, MmuOk s.cfg m → InvLegal { s with mmu := m } := fun hm =>
    ⟨hc, h.memory, h.inDram, h.regions, hm, h.wc, h.plic⟩
  have plic : ∀ {p : Plic}, PlicOk s.cfg.plic p → InvLegal { s with plic := p } := fun hp =>
    ⟨hc, h.memory, h.inDram, h.regions, h.mmu, h.wc, hp⟩
  have same : ∀ x ∈ s.mmu.tlb, ∀ p, s.mmu.pte x.1.1 x.1.2 = some p →
      ∃ q, s.mmu.pte x.1.1 x.1.2 = some q ∧ q.present = p.present ∧ q.frame = p.frame := fun _ _ p hp => ⟨p, hp, rfl, rfl⟩
  cases ha with
  | dramFault | busRead | busWrite | busFault | busReadChunk | busWriteChunk | clint | uarts | timers | dmas | lines | stamp
  | stat | csr | attach => exact ⟨hc, h.memory, h.inDram, h.regions, h.mmu, h.wc, h.plic⟩
  | cell a b ha =>
    refine ⟨hc, Memory.wf_write h.memory a b, fun x hx => ?_, h.regions, h.mmu, h.wc, h.plic⟩
    rcases Memory.mem_write hx with hx | ⟨rfl, -⟩
    · exact h.inDram x hx
    · exact ha
  | region r hs hw ho => exact ⟨hc, h.memory, h.inDram, h.regions.insert hs hw ho, h.mmu, h.wc, h.plic⟩
  | wcSeed b bs => exact ⟨hc, h.memory, h.inDram, h.regions, h.mmu, nofun, h.plic⟩
  | wcEmpty => exact ⟨hc, h.memory, h.inDram, h.regions, h.mmu, fun _ => rfl, h.plic⟩
  | plicRaised id hid => exact plic (h.plic.raised hn hid)
  | plicLowered id hid => exact plic (h.plic.lowered hn hid)
  | plicPriority i v => exact plic (h.plic.registers (by simp) rfl rfl h.plic.enableBits)
  | plicEnable k f => exact plic (h.plic.enable k f)
  | plicThreshold k v => exact plic (h.plic.registers rfl rfl (by simp) h.plic.enableBits)
  | plicClaimed i hm => exact plic (h.plic.claimed hm i)
  | plicCompleted id => exact plic (h.plic.completed id)
  | tlbHit k e he => exact mmu (h.mmu.tlbHit he)
  | tlbMiss => exact mmu (h.mmu.shrink (.refl _) rfl same h.mmu.pool)
  | tlbInstall a v p hp hpr _ => exact mmu (h.mmu.tlbInstall hc.tlb hp hpr)
  | pageMark a v p q hp hf hpr =>
    refine mmu (h.mmu.shrink (.refl _) rfl (fun x _ r hr => ?_) h.mmu.pool)
    rw [Mmu.pte_setPte]
    split
    · rename_i hx
      cases hx
      cases hp.symm.trans hr
      exact ⟨q, rfl, hpr, hf⟩
    · exact ⟨r, hr, rfl, rfl⟩
  | openTable a =>
    obtain ⟨htlb, hclock, hpool⟩ := Mmu.openTable_rest s.mmu a
    refine mmu (h.mmu.shrink (by rw [htlb]) hclock (fun x _ p hp => ?_) (by rw [hpool]; exact h.mmu.pool))
    exact ⟨p, (Mmu.pte_openTable ..).trans hp, rfl, rfl⟩
  | pageSet a v p => exact mmu (h.mmu.dropPage ⟨rfl, rfl, rfl⟩ fun a' v' hne => by rw [Mmu.pte_setPte, if_neg hne])
  | pageDrop a v => exact mmu (h.mmu.dropPage ⟨rfl, rfl, rfl⟩ fun a' v' hne => by rw [Mmu.pte_dropPte, if_neg hne])
  | tlbFilter f =>
    exact mmu (h.mmu.shrink List.filter_sublist rfl (fun x hx => same x (List.mem_of_mem_filter hx)) h.mmu.pool)
  | asid a => exact mmu (h.mmu.shrink (.refl _) rfl same h.mmu.pool)
  | frame f hf =>
    refine ⟨hc, h.memory, h.inDram, h.regions, h.mmu.shrink (.refl _) rfl same fun g hg => ?_, h.wc, h.plic⟩
    rcases (mem_insertNat f s.mmu.poolFrames g).1 hg with rfl | hg
    · exact hf
    · exact h.mmu.pool g hg

/-- Settles O7: the invariants, with a legal configuration, are kept by every single write that operations are made of. -/
theorem stepKeepsInv : Obligations.StepKeepsInv := by
  intro s t hs ht
  rcases step_cases ht with ⟨-, rfl⟩ | ⟨hc, -⟩
  · exact hs
  · have recorded : ∀ {u : State}, InvLegal u → ∀ r, InvLegal { u with result := r } := fun ⟨hc, h⟩ _ =>
      ⟨hc, h.memory, h.inDram, h.regions, h.mmu, h.wc, h.plic⟩
    have placed : ∀ {u : State}, InvLegal u → ∀ c, InvLegal { u with calls := c } := fun ⟨hc, h⟩ _ =>
      ⟨hc, h.memory, h.inDram, h.regions, h.mmu, h.wc, h.plic⟩
    exact (stable_invLegal.step (fun _ r h => recorded h r) (fun _ c h => placed h c) ⟨hc, hs⟩ ht).2

end Sys2Proof.Machine
end

section
/-! SUPPORT. What construction leaves (spec/70_reset_and_hazards.md R500, R501), and a cache read that hits (spec/43_cache.md
R252, R256, R271). -/

namespace Sys2Proof.Machine

/-! ## Construction (R46, R500, R501) -/

/-- At construction no level lists a line. -/
@[simp] theorem State.init_lines (c : Config) (l : Level) : ((State.init c).cache.level l).lines = [] := by
  cases l <;> rfl

/-- At construction every line is the reset line (R46). -/
theorem State.init_line (c : Config) (l : Level) (q : Nat × Nat) : (State.init c).line l q = .reset c.lineSize := by
  rw [State.line, State.init_lines]
  rfl

theorem State.init_stats (c : Config) (l : Level) : ((State.init c).cache.level l).stats = .zero := by
  cases l <;> rfl

/-- Settles O5: each component is its reset value, whose fields are those of the rule. -/
theorem stateAtConstruction : Obligations.StateAtConstruction := by
  refine ⟨fun _ => rfl, fun _ => ⟨fun _ => rfl, rfl, rfl, rfl⟩, fun c => ⟨State.init_line c, State.init_stats c, rfl⟩,
    fun c => ⟨rfl, rfl, fun d hd => ?_, fun u hu => ?_, rfl, rfl⟩⟩
  · obtain ⟨_, -, rfl⟩ := List.mem_map.1 hd
    rfl
  · obtain ⟨_, -, rfl⟩ := List.mem_map.1 hu
    rfl

theorem plicOk_reset (c : PlicCfg) : PlicOk c (.reset c) where
  priorities := List.length_replicate
  lines := List.length_replicate
  enables := List.length_replicate
  thresholds := List.length_replicate
  pendingBits := Nat.two_pow_pos _
  enableBits w hw := by
    rw [List.eq_of_mem_replicate hw]
    exact Nat.two_pow_pos _
  level _ id _ _ := by simp [Plic.reset]

theorem inv_init (c : Config) : Inv (State.init c) where
  memory := Memory.wf_nil
  inDram := nofun
  regions := ⟨.nil, nofun⟩
  mmu := ⟨Nat.zero_le _, .nil, .nil, nofun, nofun, nofun⟩
  wc _ := rfl
  plic := plicOk_reset c.plic

theorem outputsOk_init (c : Config) : OutputsOk (State.init c) where
  uarts u hu := by
    obtain ⟨_, -, rfl⟩ := List.mem_map.1 hu
    rfl
  timers t ht := by
    obtain ⟨_, -, rfl⟩ := List.mem_map.1 ht
    rfl
  dmas d hd := by
    obtain ⟨_, -, rfl⟩ := List.mem_map.1 hd
    rfl

/-- A cache without a line has the inclusion invariants. -/
theorem inclusion_of_no_lines {s : State} (h : ∀ l, (s.cache.level l).lines = []) : Inclusion s where
  sorted l := by simp [h]
  slot l q x hx := by simp [h] at hx
  l1 c q x hx := by simp [h] at hx
  l2 q x hx := by
    rw [show s.cache.l2.lines = [] from h .l2] at hx
    cases hx
  l1Back c q x hx := by
    rw [show s.cache.l2.lines = [] from h .l2] at hx
    cases hx
  l2Back q x hx := by
    rw [show s.cache.l3.lines = [] from h .l3] at hx
    cases hx

/-- Settles O8: each component is empty or 0, and the reset state is a constructed block. -/
theorem invariantsAtConstruction : Obligations.InvariantsAtConstruction :=
  have constructed : ∀ c : Config, Inv (State.init c) ∧ OutputsOk (State.init c) ∧ Inclusion (State.init c) :=
    fun c => ⟨inv_init c, outputsOk_init c, inclusion_of_no_lines (State.init_lines c)⟩
  ⟨constructed, constructed .default⟩

/-! ## `CACHE.read` that hits, and `CACHE.stats` -/

/-- The quotient of R44, over the rationals. -/
theorem CacheStats.hitRate_eq (c : CacheStats) : c.hitRate =
    if c.hits + c.misses = 0 then none else some ((c.hits : Rat) / ((c.hits : Rat) + (c.misses : Rat))) := by
  rw [CacheStats.hitRate, Rat.mkRat_eq_div]
  push_cast
  rfl

/-- Settles O27: a read of a resident block is a probe that hits, which stamps the line and counts the hit. -/
theorem cacheReadHits : Obligations.CacheReadHits := by
  refine ⟨fun s pa c q h => ?_, fun s l => ?_⟩
  · have run : opCacheRead pa c s = .ok (.bytes (s.line c.level q).data) (stamped s q c.level false) := by
      rw [opCacheRead, Op.bind_ok (cacheRead_hit h)]
      rfl
    rw [exec_ok (i := .cacheRead pa c) run, stamped, Bool.or_false]
  · dsimp only
    rw [← CacheStats.hitRate_eq]
    exact exec_ok (i := .cacheStats l) rfl

end Sys2Proof.Machine
end

section
/-! SUPPORT. What operations leave unchanged (spec/60_exceptions.md R462): the CSR block changes only in the operations on it. -/

namespace Sys2Proof.Machine

variable {s : State} {α β : Type}

/-! ## Bus, DRAM and device operations -/

/-- An operation that answers an image of another's result keeps what that one keeps. -/
theorem Keeps.returning {P : State → Prop} {m : Op α} (h : Keeps P m) (f : α → β) :
    Keeps P (m >>= fun a => Pure.pure (f a)) := .bind h fun _ => .pure _

theorem opDramFill_frame (addr : Word) (n : Nat) (v : Byte) : Keeps (BusFrame s) (opDramFill addr n v) := by
  unfold opDramFill
  exact .bind (dramBounds_frame _ _) fun _ => .bind .get fun _ => .bind (.modify fun _ h => h) fun _ => .pure _

theorem opDramCopy_frame (dest src n : Nat) : Keeps (BusFrame s) (opDramCopy dest src n) := by
  have copy : ∀ f : Memory → Memory, Keeps (BusFrame s) (modifyCells f) := fun _ => .modify fun _ h => h
  unfold opDramCopy
  refine .bind .get fun u => .ite (fun _ => .bind (dramBounds_frame _ _) fun _ => ?_) fun _ =>
    .bind (dramBounds_frame _ _) fun _ => ?_
  all_goals exact .ite (fun _ => (copy _).returning _) fun _ => (copy _).returning _

theorem addRegion_frame (r : Region) : Keeps (BusFrame s) (addRegion r) := by
  unfold addRegion
  refine .ite (fun _ => .bind (.raise _) fun _ => ?_) fun _ => ?_
  all_goals
    refine .ite (fun _ => .bind (.raise _) fun _ => .bind .get fun u => ?_) fun _ => .bind .get fun u => ?_
    all_goals
      split
      · exact .raise _
      · exact .modify fun _ h => h

theorem deviceRegion_frame {P : State → Prop} (d : DevRef) : Keeps P (deviceRegion d) := by
  unfold deviceRegion
  refine .bind .get fun u => ?_
  cases d <;> dsimp only
  case plic => exact .pure _
  case clint => exact .pure _
  case rom k => exact .bind (.need _ _) fun _ => .bind (getRom_frame k) fun _ => .pure _
  all_goals exact .bind (.need _ _) fun _ => .pure _

theorem opBusRegisterMmio_frame (name : String) (d : DevRef) : Keeps (BusFrame s) (opBusRegisterMmio name d) := by
  unfold opBusRegisterMmio
  refine .bind (deviceRegion_frame d) fun r => ?_
  exact .ite (fun _ => .bind (.raise _) fun _ => (addRegion_frame _).returning _) fun _ => (addRegion_frame _).returning _

theorem opTimerAdvance_frame (k n : Nat) : Keeps (BusFrame s) (opTimerAdvance k n) := by
  unfold opTimerAdvance
  refine .bind (getTimer_frame k) fun t => .ite (fun _ => .bind (modifyTimer_frame k _) fun _ => ?_) fun _ => ?_
  all_goals exact (updateTimerIrq_frame k).returning _

theorem opUartPushRx_frame (k : Nat) (b : Byte) : Keeps (BusFrame s) (opUartPushRx k b) := by
  unfold opUartPushRx
  exact .bind (getUart_frame k) fun _ => .bind (modifyUart_frame k _) fun _ => (updateUartIrq_frame k).returning _

theorem clintIrqLevels_frame {P : State → Prop} (h : Nat) : Keeps P (clintIrqLevels h) := by
  unfold clintIrqLevels
  exact .bind .get fun _ => .ite (fun _ => .pure _) fun _ => .refuse _

theorem wantLayout_frame {P : State → Prop} (l : Layout) : Keeps P (wantLayout l) := by
  unfold wantLayout
  exact .bind .get fun _ => .ite (fun _ => .pure _) fun _ => .refuse _

/-! ### Register accesses as calls of their own (R142) -/

theorem opPlicRead_frame (l : Layout) (r : PlicReg) : Keeps (BusFrame s) (opPlicRead l r) := by
  unfold opPlicRead
  exact .bind (wantLayout_frame l) fun _ => (plicRead_frame r).returning _

theorem opPlicWrite_frame (l : Layout) (r : PlicReg) (v : Word32) : Keeps (BusFrame s) (opPlicWrite l r v) := by
  unfold opPlicWrite
  exact .bind (wantLayout_frame l) fun _ => (plicWrite_frame r v).returning _

theorem opClintRead_frame (r : ClintReg) : Keeps (BusFrame s) (opClintRead r) := (clintRead_frame r).returning _

theorem opClintWrite_frame (r : ClintReg) (v : Word) : Keeps (BusFrame s) (opClintWrite r v) :=
  (clintWrite_frame r v).returning _

theorem opUartRead_frame (k : Nat) (r : UartReg) : Keeps (BusFrame s) (opUartRead k r) := (uartRead_frame k r).returning _

theorem opUartWrite_frame (k : Nat) (r : UartReg) (v : Word32) : Keeps (BusFrame s) (opUartWrite k r v) :=
  (uartWrite_frame k r v).returning _

theorem opTimerRead_frame (k : Nat) (r : TimerReg) : Keeps (BusFrame s) (opTimerRead k r) :=
  (timerRead_frame k r).returning _

theorem opTimerWrite_frame (k : Nat) (r : TimerReg) (v : Word32) : Keeps (BusFrame s) (opTimerWrite k r v) :=
  (timerWrite_frame k r v).returning _

theorem opDmaRead_frame (k : Nat) (r : DmaReg) : Keeps (BusFrame s) (opDmaRead k r) := (dmaRead_frame k r).returning _

theorem opDmaWrite_frame (k : Nat) (r : DmaReg) (v : Word32) : Keeps (BusFrame s) (opDmaWrite k r v) :=
  (dmaWrite_frame k r v).returning _

theorem opRomRead_frame (k : Nat) (off : Word) (w : Nat) : Keeps (BusFrame s) (opRomRead k off w) :=
  (romRead_frame k _ w).returning _

theorem opRomWrite_frame (k : Nat) (off : Word) (bs : List Byte) : Keeps (BusFrame s) (opRomWrite k off bs) :=
  (romWrite_frame k _ bs).returning _

/-! ## Operations that do not reach the cache -/

/-- The operations that reach the cache: those on it, the CPU's accesses and prefetches, and `poll_interrupts`. -/
def usesCache : Instr → Bool
  | .cacheRead .. | .cacheWriteBytes .. | .cachePrefetchLine .. | .cacheFlushLine .. | .cacheFlushAll .. => true
  | .cpuFetch .. | .cpuLoad .. | .cpuStore .. | .cpuPrefetchData .. | .cpuPrefetchInst .. | .cpuPollInterrupts .. => true
  | .cpuFlushIcache | .cpuFlushDcache | .cpuFlushL2 | .cpuFlushL3 => true
  | _ => false

/-- The operations on the CSR block: sampling, traps and CSR writes (R466, R468 to R471, R473). -/
def writesCsr : Instr → Bool
  | .cpuSampleIrqs | .cpuMaybeTakeInterrupt | .cpuCompleteTrap | .cpuTrapEnter .. | .cpuMret | .cpuCsrWrite .. => true
  | _ => false

/-- The configuration and the cache are the same, and so is the CSR block but where `w` says that it is written. -/
def Apart (w : Bool) (s t : State) : Prop := t.cfg = s.cfg ∧ t.cache = s.cache ∧ (w = false → t.cpu.csr = s.cpu.csr)

theorem Apart.refl (w : Bool) (s : State) : Apart w s s := ⟨rfl, rfl, fun _ => rfl⟩

theorem Apart.trans {w : Bool} {s t u : State} (h : Apart w s t) (g : Apart w t u) : Apart w s u := by
  obtain ⟨cfg, cache, csr⟩ := h
  obtain ⟨cfg', cache', csr'⟩ := g
  exact ⟨cfg'.trans cfg, cache'.trans cache, fun hw => (csr' hw).trans (csr hw)⟩

variable {w : Bool}

theorem Keeps.apart_of_bus {m : Op α} (h : ∀ t, Keeps (BusFrame t) m) : Keeps (Apart w s) m := by
  refine .widen h BusFrame.refl fun t u ht hu => ht.trans ?_
  obtain ⟨cfg, -, cache, cpu, -⟩ := hu
  exact ⟨cfg, cache, fun _ => by rw [cpu]⟩

theorem Keeps.apart_of_mmu {m : Op α} (h : ∀ t, Keeps (MmuFrame t) m) : Keeps (Apart w s) m := by
  refine .widen h (fun _ => ⟨rfl, rfl, rfl, rfl, rfl, rfl, rfl, rfl, rfl, rfl, rfl, rfl, rfl⟩) fun t u ht hu => ht.trans ?_
  obtain ⟨cfg, -, -, cache, cpu, -⟩ := hu
  exact ⟨cfg, cache, fun _ => by rw [cpu]⟩

theorem modifyCsr_apart (f : Csr → Csr) : Keeps (Apart true s) (modifyCsr f) :=
  .modify fun _ ⟨cfg, cache, _⟩ => ⟨cfg, cache, nofun⟩

theorem trapEnter_apart (c : Nat) (b : Bool) : Keeps (Apart true s) (trapEnter c b) :=
  modifyCsr_apart (·.trapEnter c b)

theorem trapReturn_apart : Keeps (Apart true s) trapReturn := modifyCsr_apart (·.trapReturn)

theorem sampleClint_apart : Keeps (Apart true s) sampleClint := by
  unfold sampleClint
  refine .bind .get fun u => ?_
  split
  · exact .pure _
  · exact .ite (fun _ => .bind (.refuse _) fun _ => modifyCsr_apart _) fun _ => modifyCsr_apart _

theorem samplePlic_apart : Keeps (Apart true s) samplePlic := by
  unfold samplePlic
  refine .bind .get fun u => ?_
  split
  · exact .pure _
  · exact .bind (plicContextIrq_frame _) fun _ => modifyCsr_apart _

theorem opCpuMaybeTakeInterrupt_apart : Keeps (Apart true s) opCpuMaybeTakeInterrupt := by
  unfold opCpuMaybeTakeInterrupt
  refine .bind .get fun u => ?_
  split
  · exact .pure _
  · exact (trapEnter_apart _ _).returning _

theorem opCpuAttachClint_apart (hart : Nat) : Keeps (Apart w s) (opCpuAttachClint hart) := by
  unfold opCpuAttachClint
  refine .bind .get fun u => .ite (fun _ => .bind (.refuse _) fun _ => ?_) fun _ => ?_
  all_goals exact .bind (.modify fun _ h => h) fun _ => .pure _

theorem wcFlush_apart : Keeps (Apart w s) wcFlush := by
  unfold wcFlush
  refine .bind .get fun u => ?_
  split
  · exact .pure _
  · exact .bind (.modify fun _ h => h) fun _ => .apart_of_bus fun _ => busWrite_frame _ _

/-- An operation that does not reach the cache leaves it as it was, and the CSR block too unless it is one on that. -/
theorem opOf_apart (poll : Nat → Option (List Token) → Op Value) {i : Instr} (hc : usesCache i = false) :
    Keeps (Apart (writesCsr i) s) (opOf poll i) := by
  cases i with
  | cacheRead | cacheWriteBytes | cachePrefetchLine | cacheFlushLine | cacheFlushAll | cpuFetch | cpuLoad | cpuStore
  | cpuPrefetchData | cpuPrefetchInst | cpuPollInterrupts | cpuFlushIcache | cpuFlushDcache | cpuFlushL2 | cpuFlushL3 => cases hc
  | dramReadBytes | dramPeek => exact .apart_of_bus fun _ => (dramRead_frame _ _).returning _
  | dramWriteBytes | dramLoadImage => exact .apart_of_bus fun _ => (dramWrite_frame _ _).returning _
  | dramFill => exact .apart_of_bus fun _ => opDramFill_frame _ _ _
  | dramCopy => exact .apart_of_bus fun _ => opDramCopy_frame _ _ _
  | busMapRam => exact .apart_of_bus fun _ => (addRegion_frame _).returning _
  | busRegisterMmio => exact .apart_of_bus fun _ => opBusRegisterMmio_frame _ _
  | busReadBytes => exact .apart_of_bus fun _ => (busRead_frame _ _).returning _
  | busWriteBytes => exact .apart_of_bus fun _ => (busWrite_frame _ _).returning _
  | mmuSetAsid | cpuSetAsid => exact .apart_of_mmu fun _ => (modifyMmu_frame _).returning _
  | mmuMapPage | cpuMapPage => exact .apart_of_mmu fun _ => (mapPage_frame _ _ _ _).returning _
  | mmuUnmapPage | cpuUnmapPage => exact .apart_of_mmu fun _ => (unmapPage_frame _ _).returning _
  | mmuTranslate => exact .apart_of_mmu fun _ => (translate_frame _).returning _
  | mmuSetPageAttributes | cpuSetPageAttributes => exact .apart_of_mmu fun _ => (setPageAttributes_frame _ _ _).returning _
  | mmuFlushTlb | cpuFlushTlb => exact .apart_of_mmu fun _ => (flushTlb_frame _).returning _
  | mmuFlushTlbEntry => exact .apart_of_mmu fun _ => .bind .get fun _ => (modifyMmu_frame _).returning _
  | mmuCheckAccess => exact .apart_of_mmu fun _ => (checkAccess_frame _ _).returning _
  | cacheStats | cpuShouldTakeInterrupt | cpuCsrRead => exact Keeps.returning .get _
  | cpuMemoryBarrier => exact wcFlush_apart.returning _
  | cpuAttachPlic => exact .bind (.modify fun _ h => h) fun _ => .pure _
  | cpuAttachClint => exact opCpuAttachClint_apart _
  | cpuSampleIrqs => exact .bind sampleClint_apart fun _ => samplePlic_apart.returning _
  | cpuMaybeTakeInterrupt => exact opCpuMaybeTakeInterrupt_apart
  | cpuCompleteTrap | cpuMret => exact trapReturn_apart.returning _
  | cpuTrapEnter => exact (trapEnter_apart _ _).returning _
  | cpuCsrWrite => exact .bind .get fun _ => .bind (.need _ _) fun _ => (modifyCsr_apart _).returning _
  | plicRaise => exact .apart_of_bus fun _ => (plicRaise_frame _).returning _
  | plicLower => exact .apart_of_bus fun _ => (plicLower_frame _).returning _
  | plicGetContextIrq => exact (plicContextIrq_frame _).returning _
  | clintAdvance => exact .apart_of_bus fun _ => .bind .get fun _ => .bind (.modify fun _ h => h) fun _ => .pure _
  | clintGetIrqLevels => exact (clintIrqLevels_frame _).returning _
  | timerAdvance => exact .apart_of_bus fun _ => opTimerAdvance_frame _ _
  | uartPushRx => exact .apart_of_bus fun _ => opUartPushRx_frame _ _
  | plicPrioR | plicPendLoR | plicPendHiR | plicEnableLoR | plicEnableHiR | plicThresholdR | plicClaimR =>
    exact .apart_of_bus fun _ => opPlicRead_frame _ _
  | plicPrioW | plicEnableLoW | plicEnableHiW | plicThresholdW | plicCompleteW =>
    exact .apart_of_bus fun _ => opPlicWrite_frame _ _ _
  | clintMsipR | clintMtimecmpR | clintMtimecmpLoR | clintMtimecmpHiR | clintMtimeR | clintMtimeLoR | clintMtimeHiR =>
    exact .apart_of_bus fun _ => opClintRead_frame _
  | clintMsipW | clintMtimecmpW | clintMtimecmpLoW | clintMtimecmpHiW | clintMtimeW | clintMtimeLoW | clintMtimeHiW =>
    exact .apart_of_bus fun _ => opClintWrite_frame _ _
  | uartDataR | uartStatusR | uartCtrlR => exact .apart_of_bus fun _ => opUartRead_frame _ _
  | uartDataW | uartCtrlW => exact .apart_of_bus fun _ => opUartWrite_frame _ _ _
  | timerCntLoR | timerCntHiR | timerCmpLoR | timerCmpHiR | timerCtrlR | timerStatusR | timerTickR =>
    exact .apart_of_bus fun _ => opTimerRead_frame _ _
  | timerCntLoW | timerCntHiW | timerCmpLoW | timerCmpHiW | timerCtrlW | timerStatusW | timerTickW =>
    exact .apart_of_bus fun _ => opTimerWrite_frame _ _ _
  | dmaSrcLoR | dmaSrcHiR | dmaDstLoR | dmaDstHiR | dmaLenR | dmaCtrlR | dmaStatusR =>
    exact .apart_of_bus fun _ => opDmaRead_frame _ _
  | dmaSrcLoW | dmaSrcHiW | dmaDstLoW | dmaDstHiW | dmaLenW | dmaCtrlW | dmaStatusW =>
    exact .apart_of_bus fun _ => opDmaWrite_frame _ _ _
  | romRead => exact .apart_of_bus fun _ => opRomRead_frame _ _ _
  | romWrite => exact .apart_of_bus fun _ => opRomWrite_frame _ _ _

/-! ## Operations that reach the cache -/

theorem opCpuPrefetchData_frame (va : Word) : Keeps (AccessFrame s) (opCpuPrefetchData va) := by
  unfold opCpuPrefetchData
  refine .bind (.access_of_mmu fun _ => translate_frame _) fun r => .ite (fun _ => ?_) fun _ => .pure _
  exact Keeps.returning (.access_of_cache fun _ => prefetchLine_frame _ _) _

theorem opCpuPrefetchInst_frame (va : Word) : Keeps (AccessFrame s) (opCpuPrefetchInst va) := by
  unfold opCpuPrefetchInst
  refine .bind (.access_of_mmu fun _ => translate_frame _) fun r => .ite (fun _ => .bind (.raise _) fun _ => ?_) fun _ => ?_
  all_goals
    refine .ite (fun _ => ?_) fun _ => .pure _
    exact Keeps.returning (.access_of_cache fun _ => prefetchLine_frame _ _) _

/-- Without a handler `poll_interrupts` is a load and a store (R472). -/
theorem opCpuPollInterrupts_frame (c : Nat) : Keeps (AccessFrame s) (opCpuPollInterrupts c none) := by
  unfold opCpuPollInterrupts pollWith
  exact .bind .get fun _ => .bind (.need _ _) fun _ => .bind (load_frame _ _ _) fun _ =>
    .ite (fun _ => (store_frame _ _ _).returning _) fun _ => .pure _

/-- An operation that reaches the cache stays within what a CPU access reaches, but for a handler's calls. -/
theorem opOf_access {i : Instr} (hc : usesCache i = true) (hp : ∀ c h, i ≠ .cpuPollInterrupts c (some h)) :
    Keeps (AccessFrame s) (opOf opCpuPollInterrupts i) := by
  cases i with
  | cacheRead => exact .access_of_cache fun _ => (cacheRead_frame _ _).returning _
  | cacheWriteBytes => exact .access_of_cache fun _ => (cacheWrite_frame _ _ _).returning _
  | cachePrefetchLine => exact .access_of_cache fun _ => (prefetchLine_frame _ _).returning _
  | cacheFlushLine => exact .access_of_cache fun _ => (flushLine_frame _ _).returning _
  | cacheFlushAll => exact .access_of_cache fun _ => (flushAll_frame _).returning _
  | cpuFetch => exact (fetch_frame _ _).returning _
  | cpuLoad => exact (load_frame _ _ _).returning _
  | cpuStore => exact (store_frame _ _ _).returning _
  | cpuPrefetchData => exact opCpuPrefetchData_frame _
  | cpuPrefetchInst => exact opCpuPrefetchInst_frame _
  | cpuPollInterrupts c h =>
    cases h with
    | none => exact opCpuPollInterrupts_frame c
    | some h => exact absurd rfl (hp c h)
  | cpuFlushIcache | cpuFlushDcache | cpuFlushL2 | cpuFlushL3 =>
    exact .access_of_cache fun _ => (flushAll_frame _).returning _
  | _ => cases hc

/-- Settles O12: an operation that reaches the cache is a CPU access, and of the others only those on the CSR block write
it. -/
theorem csrsChangeOnlyByTheirOperations : Obligations.CsrsChangeOnlyByTheirOperations := by
  rintro i s t ht ⟨sample, maybe, complete, mret, enter, write, handler⟩
  rw [exec_eq] at ht
  cases hc : usesCache i with
  | true =>
    have kept : Keeps (fun u => u.cpu.csr = s.cpu.csr) (opOf opCpuPollInterrupts i) :=
      .widen (fun u => opOf_access (s := u) hc handler) AccessFrame.refl fun _ _ h ⟨_, csr, _⟩ => csr.trans h
    exact kept.finish (fun _ _ h => h) rfl ht
  | false =>
    have unwritten : writesCsr i = false := by
      unfold writesCsr
      split
      · exact absurd rfl sample
      · exact absurd rfl maybe
      · exact absurd rfl complete
      · exact absurd rfl (enter _ _)
      · exact absurd rfl mret
      · exact absurd rfl (write _ _)
      · rfl
    obtain ⟨-, -, csr⟩ := (opOf_apart _ hc).finish (fun _ _ h => h) (Apart.refl _ s) ht
    exact csr unwritten

end Sys2Proof.Machine
end

section
/-! SUPPORT. Inclusion (spec/10_state.md R45): every operation keeps it, failed ones included. -/

namespace Sys2Proof.Machine

variable {c : Config} {s t u : State} {α : Type}

/-! ## The invariant, and states alike in what it speaks of -/

/-- The inclusion invariants of a block built from `c`, by slots: the lists of lines are in order and have the shape. -/
structure Tidy (c : Config) (s : State) : Prop where
  cfg : s.cfg = c
  legal : ConfigLegal c
  lists : Lists s
  shape : Shape s

theorem Tidy.pos (h : Tidy c s) : 0 < s.cfg.lineSize := h.cfg ▸ lineSize_pos h.legal

theorem tidy_iff : Tidy c s ↔ s.cfg = c ∧ ConfigLegal c ∧ Inclusion s := by
  constructor
  · exact fun h => ⟨h.cfg, h.legal, (inclusion_iff h.pos).2 ⟨h.lists, h.shape⟩⟩
  · rintro ⟨rfl, legal, inclusion⟩
    obtain ⟨lists, shape⟩ := (inclusion_iff (lineSize_pos legal)).1 inclusion
    exact ⟨rfl, legal, lists, shape⟩

/-- In every slot t holds a line of the same block and presence flags as s. -/
structure Alike (s t : State) : Prop where
  cfg : t.cfg = s.cfg
  valid : ∀ k q, (t.line k q).valid = (s.line k q).valid
  tag : ∀ k q, (t.line k q).tag = (s.line k q).tag
  present : ∀ k q l, (t.line k q).present l = (s.line k q).present l

/-- Every line of t is one of s, in its slot. -/
def Shrunk (s t : State) : Prop := ∀ k q, (t.line k q).valid = true → (s.line k q).valid = true ∧ t.addr k q = s.addr k q

theorem Shrunk.refl (s : State) : Shrunk s s := fun _ _ h => ⟨h, rfl⟩

theorem Shrunk.trans (h : Shrunk s t) (g : Shrunk t u) : Shrunk s u := fun k q hv =>
  have ⟨hv, ha⟩ := g k q hv
  ⟨(h k q hv).1, ha.trans (h k q hv).2⟩

namespace Alike

theorem of_lines (hc : t.cfg = s.cfg) (h : ∀ k q, t.line k q = s.line k q) : Alike s t where
  cfg := hc
  valid k q := by rw [h]
  tag k q := by rw [h]
  present k q _ := by rw [h]

theorem refl (s : State) : Alike s s := .of_lines rfl fun _ _ => rfl

theorem trans (h : Alike s t) (g : Alike t u) : Alike s u where
  cfg := g.cfg.trans h.cfg
  valid k q := (g.valid k q).trans (h.valid k q)
  tag k q := (g.tag k q).trans (h.tag k q)
  present k q l := (g.present k q l).trans (h.present k q l)

/-- A line may be replaced by one of the same block and presence flags. -/
theorem put {l : Level} {q : Nat × Nat} {x : Line} (hv : x.valid = (s.line l q).valid) (ht : x.tag = (s.line l q).tag)
    (hp : ∀ k, x.present k = (s.line l q).present k) : Alike s (put s l q x) := by
  have at_ : ∀ k r, (Machine.put s l q x).line k r = if k = l ∧ r = q then x else s.line k r := line_put s l q x
  have same : ∀ {β : Type} (f : Line → β), f x = f (s.line l q) →
      ∀ k r, f ((Machine.put s l q x).line k r) = f (s.line k r) := by
    intro β f hf k r
    rw [at_]
    split
    · rename_i h
      obtain ⟨rfl, rfl⟩ := h
      exact hf
    · rfl
  exact ⟨rfl, same _ hv, same _ ht, fun k r j => same (·.present j) (hp j) k r⟩

theorem addr (h : Alike s t) (k : Level) (q : Nat × Nat) : t.addr k q = s.addr k q := by
  unfold State.addr Config.addrOf
  rw [h.tag, h.cfg]

theorem lookup (h : Alike s t) (a : Nat) (k : Level) : t.lookup a k = s.lookup a k :=
  lookup_congr h.cfg (fun q => ⟨h.valid k q, h.tag k q⟩) a

theorem shrunk (h : Alike s t) : Shrunk s t := fun k q hv => ⟨h.valid k q ▸ hv, h.addr k q⟩

theorem shape (h : Alike s t) (hS : Shape s) : Shape t := by
  obtain ⟨range, inj, up, down⟩ := hS
  refine ⟨?_, ?_, ?_, ?_⟩
  all_goals
    simp only [h.cfg, h.valid, h.present, h.addr]
    assumption

theorem tidy (h : Alike s t) (hT : Tidy c s) (hL : Lists t) : Tidy c t :=
  ⟨h.cfg.trans hT.cfg, hT.legal, hL, h.shape hT.shape⟩

theorem cnt (s : State) (l : Level) (f : CacheStats → CacheStats) : Alike s (cnt s l f) := .of_lines rfl (line_cnt s l f)

theorem stamp (s : State) : Alike s (stamp s) := .of_lines rfl (line_stamp s)

end Alike

namespace Tidy

theorem cnt (h : Tidy c s) (l : Level) (f : CacheStats → CacheStats) : Tidy c (cnt s l f) :=
  (Alike.cnt s l f).tidy h h.lists.cnt

theorem stamp (h : Tidy c s) : Tidy c (stamp s) := (Alike.stamp s).tidy h h.lists.stamp

/-- A valid line may be replaced by one of the same block and presence flags. -/
theorem put (h : Tidy c s) {l : Level} {q : Nat × Nat} {x : Line} (hs : (s.line l q).valid = true)
    (hv : x.valid = (s.line l q).valid) (ht : x.tag = (s.line l q).tag) (hp : ∀ k, x.present k = (s.line l q).present k) :
    Tidy c (put s l q x) := (Alike.put hv ht hp).tidy h (h.lists.put (hv.trans hs))

/-- The invariant speaks of the configuration and the cache only. -/
theorem of_cache (h : Tidy c s) (hcfg : t.cfg = s.cfg) (hcache : t.cache = s.cache) : Tidy c t ∧ Alike s t := by
  have alike : Alike s t := .of_lines hcfg fun k q => by rw [State.line, State.line, hcache, hcfg]
  have lists : Lists t := by
    unfold Lists
    rw [hcache]
    exact h.lists
  exact ⟨alike.tidy h lists, alike⟩

theorem unmoved (h : Tidy c s) (hcfg : t.cfg = s.cfg) (hcache : t.cache = s.cache) : Tidy c t := (h.of_cache hcfg hcache).1

end Tidy

/-- What an operation keeps however it ends, it keeps when it goes well and when it ends in an error. -/
theorem Keeps.post {P : State → Prop} {m : Op α} (h : Keeps P m) (hs : P s) : Post m s (fun _ => P) P := by
  have kept := h s hs
  unfold Post
  cases hm : m s with
  | ok a t => simpa [hm] using kept
  | error e t =>
    cases e with
    | err e => simpa [hm] using kept
    | refuse r => trivial

/-- An operation that leaves the configuration and the cache as they are keeps the invariant. -/
theorem Keeps.tidy {m : Op α} (h : ∀ s, Keeps (Apart true s) m) (hT : Tidy c s) :
    Post m s (fun _ t => Tidy c t ∧ Alike s t) (Tidy c) :=
  ((h s).post (Apart.refl true s)).mono (fun _ _ ⟨cfg, cache, _⟩ => hT.of_cache cfg cache)
    fun _ ⟨cfg, cache, _⟩ => hT.unmoved cfg cache

theorem Keeps.holds_tidy {m : Op α} (h : ∀ s, Keeps (Apart true s) m) : Holds (Tidy c) m := fun _ hT =>
  (Keeps.tidy h hT).mono (fun _ _ ht => ht.1) fun _ ht => ht

/-! ## Probes -/

/-- The line after an access (R252): stamped, and dirty if it is a write. -/
def Line.touched (x : Line) (g : Nat) (w : Bool) : Line := { x with lru := g, dirty := x.dirty || w }

theorem Line.touched_present (x : Line) (g : Nat) (w : Bool) (k : Level) : (x.touched g w).present k = x.present k := by
  cases k <;> rfl

/-- A probe answers what a look-up finds, and moves stamps and statistics only (R252). -/
theorem accessLine_tidy (h : Tidy c s) (a : Nat) (l : Level) (w : Bool) :
    Post (accessLine a l w) s (fun r t => r = s.lookup a l ∧ Tidy c t ∧ Alike s t) (Tidy c) := by
  cases hk : s.lookup a l with
  | none => exact .of_ok (accessLine_miss hk) ⟨rfl, h.cnt l (·.miss), .cnt s l (·.miss)⟩
  | some q =>
    obtain ⟨x, hx⟩ : ∃ x, x = ((stamp s).line l q).touched (s.cache.globalCounter + 1) w := ⟨_, rfl⟩
    have hit : accessLine a l w s = .ok (some q) (cnt (put (stamp s) l q x) l (·.hit)) := by
      unfold accessLine
      rw [Op.get_bind_run, hk, hx]
      rfl
    have present : ∀ k, x.present k = ((stamp s).line l q).present k := hx ▸ Line.touched_present _ _ _
    have valid : ((stamp s).line l q).valid = true := by
      rw [line_stamp]
      exact (lookup_valid hk).1
    exact .of_ok hit ⟨rfl, (h.stamp.put valid (by rw [hx]; rfl) (by rw [hx]; rfl) present).cnt _ _,
      (Alike.stamp s).trans ((Alike.put (by rw [hx]; rfl) (by rw [hx]; rfl) present).trans (.cnt ..))⟩

/-! ## A line that leaves its level -/

theorem Merged.tidy {l p : Level} {q r : Nat × Nat} (m : Merged s t l p q r) (hl : Leaves s l p q r) (h : Tidy c s) :
    Tidy c t := ⟨m.cfg.trans h.cfg, h.legal, m.lists h.lists, m.shape hl h.shape⟩

theorem Merged.shrunk {l p : Level} {q r : Nat × Nat} (m : Merged s t l p q r) (hl : Leaves s l p q r) : Shrunk s t :=
  fun k v hv =>
    have ⟨hs, hne⟩ := (m.slots hl k v).1.1 hv
    ⟨hs, (m.slots hl k v).2 hne⟩

/-- An L3 line that no child holds may go. -/
theorem Tidy.drop (h : Tidy c s) {q : Nat × Nat} (hp : (s.line .l3 q).present .l2 = false) : Tidy c (inv s .l3 q) := by
  have kept : ∀ k v, ((inv s .l3 q).line k v).valid = true →
      ¬ (k = .l3 ∧ v = q) ∧ (inv s .l3 q).line k v = s.line k v := by
    intro k v hv
    rw [line_inv] at hv ⊢
    split at hv
    · cases hv
    · exact ⟨‹_›, if_neg ‹_›⟩
  have stays : ∀ k v, ¬ (k = .l3 ∧ v = q) → (inv s .l3 q).line k v = s.line k v := fun k v hne => by
    rw [line_inv, if_neg hne]
  have addr : ∀ {k v}, (inv s .l3 q).line k v = s.line k v → (inv s .l3 q).addr k v = s.addr k v := fun he => by
    unfold State.addr
    rw [he]
    rfl
  obtain ⟨range, inj, up, down⟩ := h.shape
  refine ⟨h.cfg, h.legal, h.lists.inv, fun k v hv => ?_, fun k v w hv hw ha => ?_, fun k p hk v hv => ?_,
    fun k p hk v hv hpr => ?_⟩
  · rw [(kept k v hv).2] at hv
    exact range k v hv
  · rw [addr (kept k v hv).2, addr (kept k w hw).2] at ha
    rw [(kept k v hv).2] at hv
    rw [(kept k w hw).2] at hw
    exact inj k v w hv hw ha
  · have hev := (kept k v hv).2
    rw [hev] at hv
    obtain ⟨r, valid, same, pres⟩ := up k p hk v hv
    have hr : ¬ (p = .l3 ∧ r = q) := by
      rintro ⟨rfl, rfl⟩
      cases k <;> cases hk
      exact absurd (hp.symm.trans pres) Bool.false_ne_true
    have stay := stays p r hr
    exact ⟨r, by rw [stay]; exact valid, by rw [addr stay, addr hev]; exact same, by rw [stay]; exact pres⟩
  · have hev := (kept p v hv).2
    rw [hev] at hv hpr
    obtain ⟨r, valid, same⟩ := down k p hk v hv hpr
    have hr : ¬ (k = .l3 ∧ r = q) := by
      rintro ⟨rfl, -⟩
      cases hk
    exact ⟨r, by rw [stays k r hr]; exact valid, by rw [addr (stays k r hr), addr hev]; exact same⟩

theorem shrunk_inv (s : State) (l : Level) (q : Nat × Nat) : Shrunk s (inv s l q) := by
  intro k v hv
  have he : (inv s l q).line k v = s.line k v := by
    rw [line_inv] at hv ⊢
    split at hv
    · cases hv
    · exact if_neg ‹_›
  rw [he] at hv
  refine ⟨hv, ?_⟩
  unfold State.addr
  rw [he]
  rfl

/-! ## Drains (R264, R268) -/

/-- First-level lines have left for their L2 lines. -/
structure Drained (s t : State) : Prop where
  shrunk : Shrunk s t
  l3 : ∀ q, t.line .l3 q = s.line .l3 q
  l2 : ∀ q, (s.line .l2 q).valid = true → (t.line .l2 q).valid = true

theorem Drained.refl (s : State) : Drained s s := ⟨.refl s, fun _ => rfl, fun _ h => h⟩

theorem Drained.trans (h : Drained s t) (g : Drained t u) : Drained s u :=
  ⟨h.shrunk.trans g.shrunk, fun q => (g.l3 q).trans (h.l3 q), fun q hv => g.l2 q (h.l2 q hv)⟩

theorem drainChild_tidy (h : Tidy c s) (k : Side) {r : Nat × Nat} (hv : (s.line .l2 r).valid = true) :
    ∃ t, drainChild k r (s.addr .l2 r) s = .ok () t ∧ Tidy c t ∧ Drained s t ∧
      ∀ l, (t.line .l2 r).present l = if l = k.level then false else (s.line .l2 r).present l := by
  rcases drainChild_run h.pos h.shape k hv rfl with ⟨absent, run⟩ | ⟨q, t, leaves, merged, run⟩
  · refine ⟨s, run, h, .refl s, fun l => ?_⟩
    split
    · subst l
      exact (Line.presentIn_eq _ k).symm.trans absent
    · rfl
  · have hne := (Level.parent_ne leaves.parent).1
    have away : ∀ w, ((.l2, w) : Level × (Nat × Nat)) ≠ (k.level, q) := fun w he => hne (congrArg Prod.fst he).symm
    refine ⟨t, run, merged.tidy leaves h, ⟨merged.shrunk leaves, fun w => ?_, fun w hw => ?_⟩, fun l => ?_⟩
    · exact merged.rest _ _ (by cases k <;> simp [Side.level]) (by simp)
    · exact (merged.slots leaves .l2 w).1.2 ⟨hw, away w⟩
    · rw [merged.present leaves (away r)]
      simp

/-- A valid L2 line's children are drained: no first-level cache holds its block (R264). -/
theorem drainChildren_tidy (h : Tidy c s) {r : Nat × Nat} (hv : (s.line .l2 r).valid = true) :
    ∃ t, drainChildren r (s.addr .l2 r) s = .ok () t ∧ Tidy c t ∧ Drained s t ∧
      ∀ k, Level.parent k = some .l2 → (t.line .l2 r).present k = false := by
  obtain ⟨t, run, tidy, drained, gone⟩ := drainChild_tidy h .l1d hv
  have hvt := drained.l2 r hv
  obtain ⟨u, run', tidy', drained', gone'⟩ := drainChild_tidy tidy .l1i hvt
  rw [(drained.shrunk .l2 r hvt).2] at run'
  refine ⟨u, (Op.bind_ok run).trans run', tidy', drained.trans drained', fun k hk => ?_⟩
  rw [gone', gone]
  cases k <;> cases hk <;> rfl

/-- The L2 line of an L3 line's block leaves for it (R268). -/
theorem drainL2Child_tidy (h : Tidy c s) {r : Nat × Nat} (hv : (s.line .l3 r).valid = true)
    (hp : (s.line .l3 r).presentL2 = true) : ∃ t, drainL2Child r (s.addr .l3 r) s = .ok () t ∧ Tidy c t ∧ Shrunk s t ∧
      (t.line .l3 r).presentL2 = false ∧ ∀ q, (s.line .l3 q).valid = true → (t.line .l3 q).valid = true := by
  obtain ⟨q, valid, same⟩ := h.shape.down .l2 .l3 rfl r hv hp
  have found : s.lookup (s.addr .l3 r) .l2 = some q :=
    (h.shape.lookup h.pos).2 ⟨valid, same.trans (block_addrOf ..).symm⟩
  obtain ⟨t, run, tidy, drained, gone⟩ := drainChildren_tidy h valid
  rw [same] at run
  have hvt := drained.l2 q valid
  have validR : (t.line .l3 r).valid = true := by rw [drained.l3]; exact hv
  have leaves : Leaves t .l2 .l3 q r :=
    ⟨rfl, hvt, validR, by rw [(drained.shrunk .l3 r validR).2, (drained.shrunk .l2 q hvt).2, same], gone⟩
  have merged := merged_taken leaves
  have away : ∀ w, ((.l3, w) : Level × (Nat × Nat)) ≠ (.l2, q) := by simp
  have taking : takeL2Child r (s.addr .l3 r) s = .ok () (taken t .l2 .l3 q r) := by
    unfold takeL2Child taken
    rw [Op.get_bind_run, found]
    dsimp only
    rw [Op.bind_ok run, Op.bind_ok (getLine_run ..)]
    cases (t.line .l2 q).dirty <;> rfl
  refine ⟨_, ?_, merged.tidy leaves tidy, drained.shrunk.trans (merged.shrunk leaves), ?_, fun w hw => ?_⟩
  · rw [drainL2Child, Op.bind_ok taking]
    rfl
  · exact (merged.present leaves (away r) .l2).trans (if_pos ⟨rfl, rfl⟩)
  · exact (merged.slots leaves .l3 w).1.2 ⟨by rw [drained.l3]; exact hw, away w⟩

/-! ## Evictions (R260 to R268) -/

/-- What the eviction of the line of slot q of level l leaves: once the slot is invalidated the invariant holds, no line is new,
and every other line of the level and every line of its parent stays. -/
structure Freed (c : Config) (s t : State) (l : Level) (q : Nat × Nat) : Prop where
  lists : Lists t
  tidy : Tidy c (inv t l q)
  shrunk : Shrunk s (inv t l q)
  stays : ∀ k u, k = l ∨ Level.parent l = some k → (k, u) ≠ (l, q) → (s.line k u).valid = true →
    ((inv t l q).line k u).valid = true

theorem evictL1_tidy (h : Tidy c s) (k : Side) {q : Nat × Nat} (hv : (s.line k.level q).valid = true) :
    ∃ t, evictL1 k q s = .ok () t ∧ Freed c s t k.level q := by
  obtain ⟨r, leaves⟩ := leaves_of_valid h.shape (Side.parent_level k) hv fun l hl => absurd hl (parent_side k)
  have leaves' := leaves.cnt k.level (·.evict)
  have merged := Merged.of_cnt (merged_handed leaves')
  refine ⟨_, evictL1_eq k (leaves.lookup h.pos h.shape), ?_, merged.tidy leaves h, merged.shrunk leaves,
    fun l w _ hne hw => (merged.slots leaves l w).1.2 ⟨hw, hne⟩⟩
  refine Lists.put (Lists.handed h.lists.cnt leaves'.validP) ?_
  rw [(withPresence_valid ..).1, line_handed, if_pos ⟨rfl, rfl⟩]
  split <;> exact leaves'.validP

/-- What the eviction of an L2 line does after its children are drained: its L3 line takes its bytes if they are dirty, and
loses its presence flag. -/
theorem handOverL2_run {b : Nat} {q r : Nat × Nat} (h : s.lookup b .l3 = some r) :
    (do
      let x ← getLine .l2 q
      if x.dirty then writebackL2 b x.data
      markPresence .l2 b false : Op Unit) s =
    .ok () (put (handed s .l2 .l3 q r) .l3 r (((handed s .l2 .l3 q r).line .l3 r).withPresence .l2 false)) := by
  have mark : markPresence .l2 b false (handed s .l2 .l3 q r) = .ok () (put (handed s .l2 .l3 q r) .l3 r
      (((handed s .l2 .l3 q r).line .l3 r).withPresence .l2 false)) :=
    markPresence_hit rfl ((lookup_handed ..).trans h)
  rw [Op.bind_ok (getLine_run ..)]
  by_cases hd : (s.line .l2 q).dirty = true
  · have wrote : writebackL2 b (s.line .l2 q).data s = .ok () (handed s .l2 .l3 q r) := by
      rw [writebackL2, Op.bind_ok (countAt_run ..), writeParent_hit (by rw [lookup_cnt]; exact h), handed, if_pos hd, line_cnt,
        globalCounter_cnt]
    rw [if_pos hd]
    exact (Op.bind_ok wrote).trans mark
  · rw [if_neg hd]
    rwa [handed, if_neg hd] at mark ⊢

theorem evictL2_tidy (h : Tidy c s) {q : Nat × Nat} (hv : (s.line .l2 q).valid = true) :
    ∃ t, evictL2 q s = .ok () t ∧ Freed c s t .l2 q := by
  have h0 := h.cnt .l2 (·.evict)
  have alike := Alike.cnt s .l2 (·.evict)
  obtain ⟨t, run, tidy, drained, gone⟩ := drainChildren_tidy h0 (r := q) (by rw [line_cnt]; exact hv)
  have hvt : (t.line .l2 q).valid = true := drained.l2 q (by rw [line_cnt]; exact hv)
  obtain ⟨r, leaves⟩ := leaves_of_valid tidy.shape (p := .l3) rfl hvt gone
  have merged := merged_handed leaves
  have found := leaves.lookup tidy.pos tidy.shape
  rw [(drained.shrunk .l2 q hvt).2] at found
  refine ⟨_, (Op.bind_ok run).trans (handOverL2_run found), ?_, merged.tidy leaves tidy,
    alike.shrunk.trans (drained.shrunk.trans (merged.shrunk leaves)), fun k w hk hne hw => ?_⟩
  · refine Lists.put (tidy.lists.handed leaves.validP) ?_
    rw [(withPresence_valid ..).1, line_handed, if_pos ⟨rfl, rfl⟩]
    split <;> exact leaves.validP
  · rw [← line_cnt s .l2 (·.evict)] at hw
    refine (merged.slots leaves k w).1.2 ⟨?_, hne⟩
    rcases hk with rfl | hk
    · exact drained.l2 w hw
    · cases hk
      rw [drained.l3]
      exact hw

/-- A write-back to DRAM leaves the cache's lines as they are, however the bus ends it (R266). -/
theorem writebackL3_tidy (h : Tidy c s) (b : Nat) (d : List Byte) :
    Post (writebackL3 b d) s (fun _ t => Tidy c t ∧ Alike s t) (Tidy c) := by
  refine .bind (.of_ok (countAt_run ..) ?_)
  refine (Keeps.tidy (fun _ => .apart_of_bus fun _ => .tagged _ _ (busWrite_frame b d)) (h.cnt .l3 (·.writeback))).mono ?_
    fun _ ht => ht
  exact fun _ _ ⟨tidy, alike⟩ => ⟨tidy, (Alike.cnt s .l3 (·.writeback)).trans alike⟩

/-- What the eviction of an L3 line does after its child is drained: the line is written to DRAM if it is dirty (R267). -/
theorem sink_tidy (h : Tidy c s) {q : Nat × Nat} (hv : (s.line .l3 q).valid = true) (b : Nat) :
    Post (do
      let v ← getLine .l3 q
      if v.dirty then
        writebackL3 b v.data
        let v ← getLine .l3 q
        putLine .l3 q { v with dirty := false } : Op Unit) s (fun _ t => Tidy c t ∧ Alike s t) (Tidy c) := by
  refine .bind (.of_ok (getLine_run ..) (.ite (fun _ => .bind ?_) fun _ => .pure ⟨h, .refl s⟩))
  refine (writebackL3_tidy h b _).mono (fun _ t ⟨tidy, alike⟩ => .bind (.of_ok (getLine_run ..) ?_)) fun _ ht => ht
  have present : ∀ k, Line.present { t.line .l3 q with dirty := false } k = (t.line .l3 q).present k := fun k => by
    cases k <;> rfl
  exact .of_ok (putLine_run ..) ⟨tidy.put ((alike.valid ..).trans hv) rfl rfl present, alike.trans (.put rfl rfl present)⟩

theorem evictL3_tidy (h : Tidy c s) {q : Nat × Nat} (hv : (s.line .l3 q).valid = true) :
    Post (evictL3 q) s (fun _ t => Freed c s t .l3 q) (Tidy c) := by
  have counted := Alike.cnt s .l3 (·.evict)
  have h0 := h.cnt .l3 (·.evict)
  have hv0 : ((cnt s .l3 (·.evict)).line .l3 q).valid = true := (counted.valid ..).trans hv
  have sunk : ∀ {t : State} (b : Nat), Tidy c t → Shrunk s t → (t.line .l3 q).presentL2 = false →
      (∀ w, (s.line .l3 w).valid = true → (t.line .l3 w).valid = true) → Post (do
        let v ← getLine .l3 q
        if v.dirty then
          writebackL3 b v.data
          let v ← getLine .l3 q
          putLine .l3 q { v with dirty := false } : Op Unit) t (fun _ t => Freed c s t .l3 q) (Tidy c) := by
    intro t b tidy shrunk gone stays
    refine (sink_tidy tidy (stays q hv) b).mono (fun _ u ⟨tidy', alike⟩ => ?_) fun _ ht => ht
    refine ⟨tidy'.lists, tidy'.drop ((alike.present .l3 q .l2).trans gone),
      shrunk.trans (alike.shrunk.trans (shrunk_inv _ _ _)), fun k w hk hne hw => ?_⟩
    rcases hk with rfl | hk
    · rw [line_inv, if_neg (by simpa using hne), alike.valid]
      exact stays w hw
    · cases hk
  unfold evictL3
  refine .bind (.of_ok (countAt_run ..) (.get_bind (.ite (fun hp => ?_) fun hp => ?_)))
  · obtain ⟨t, run, tidy, shrunk, gone, stays⟩ := drainL2Child_tidy h0 hv0 hp
    exact .bind (.of_ok run (sunk _ tidy (counted.shrunk.trans shrunk) gone fun w hw => stays w ((counted.valid ..).trans hw)))
  · exact sunk _ h0 counted.shrunk (Bool.eq_false_of_not_eq_true hp) fun w hw => (counted.valid ..).trans hw

/-- A valid line of any level is evicted; only L3's eviction can fail, and then the invariant holds (R260, R462). -/
theorem handleEviction_tidy (h : Tidy c s) {l : Level} {q : Nat × Nat} (hv : (s.line l q).valid = true) :
    Post (handleEviction l q) s (fun _ t => Freed c s t l q) (Tidy c) := by
  have total : ∀ {m : Op Unit}, (∃ t, m s = .ok () t ∧ Freed c s t l q) →
      Post m s (fun _ t => Freed c s t l q) (Tidy c) := fun ⟨_, run, freed⟩ => .of_ok run freed
  cases l with
  | l1d => exact total (evictL1_tidy h .l1d hv)
  | l1i => exact total (evictL1_tidy h .l1i hv)
  | l2 => exact total (evictL2_tidy h hv)
  | l3 => exact evictL3_tidy h hv

/-! ## Installation (R254) -/

/-- A line of block b may be installed in slot q of level l: the level does not hold the block, its parent does, and the slot
is one of the block's set that holds no line. -/
structure Vacant (s : State) (l : Level) (b : Nat) (q : Nat × Nat) : Prop where
  block : Config.block s.cfg b = b
  absent : s.lookup b l = none
  parent : ∀ p, Level.parent l = some p → ∃ r, s.lookup b p = some r
  free : (s.line l q).valid = false
  set : q.1 = Config.setOf s.cfg l b
  way : q.2 < s.cfg.ways l

/-- With the invariant, level l holds block b and no level above it does. -/
structure Resident (c : Config) (s : State) (l : Level) (b : Nat) : Prop where
  tidy : Tidy c s
  held : ∃ r, s.lookup b l = some r
  above : ∀ k, Level.parent k = some l → s.lookup b k = none

/-- A line put into a vacant slot, its parent's line told, keeps the invariant. -/
theorem Placed.tidy {l : Level} {b : Nat} {d : List Byte} {q : Nat × Nat} (m : Placed s t l b d q) (h : Tidy c s)
    (v : Vacant s l b q) : Resident c t l b := by
  have hcfg : t.cfg = s.cfg := by rw [m.cache]
  obtain ⟨range, inj, up, down⟩ := h.shape
  obtain ⟨g, new⟩ := m.line
  have newValid : (t.line l q).valid = true := by rw [new]
  have newPresent : ∀ k, (t.line l q).present k = false := fun k => by
    rw [new]
    cases k <;> rfl
  have newAddr : t.addr l q = b := by
    have tag : (t.line l q).tag = Config.tagOf t.cfg l b := by rw [new, hcfg]
    unfold State.addr
    rw [addrOf_eq_block (v.set.trans (by rw [hcfg])) tag, hcfg, v.block]
  have old : ∀ k w, (k, w) ≠ (l, q) → (t.line k w).valid = (s.line k w).valid ∧ t.addr k w = s.addr k w := by
    intro k w hne
    unfold State.addr Config.addrOf
    rw [m.rest k w hne, hcfg]
    split
    · rw [(withPresence_valid ..).1, (withPresence_valid ..).2.1]
      exact ⟨rfl, rfl⟩
    · exact ⟨rfl, rfl⟩
  have held : ∀ {k w}, (s.line k w).valid = true → (k, w) ≠ (l, q) := by
    rintro k w hw he
    cases he
    exact absurd (v.free.symm.trans hw) Bool.false_ne_true
  have oldPresent : ∀ k w, (k, w) ≠ (l, q) → ∀ j, (t.line k w).present j =
      if j = l ∧ Level.parent l = some k ∧ s.lookup b k = some w then true else (s.line k w).present j := by
    intro k w hne j
    rw [m.rest k w hne]
    by_cases hk : Level.parent l = some k ∧ s.lookup b k = some w
    · rw [if_pos hk, present_withPresence _ _ _ (Level.parent_ne hk.1).2]
      simp [hk]
    · rw [if_neg hk, if_neg fun hj => hk hj.2]
  -- the level held the block in no slot, and no other slot has been filled
  have fresh : ∀ w, (l, w) ≠ (l, q) → (t.line l w).valid = true → t.addr l w ≠ b := by
    intro w hne hw
    rw [(old l w hne).1] at hw
    rw [(old l w hne).2, ← v.block]
    exact (h.shape.lookup_none h.pos).1 v.absent w hw
  have shape : Shape t := by
    refine ⟨fun k w hw => ?_, fun k w x hw hx ha => ?_, fun k p hk w hw => ?_, fun k p hk r hr hpr => ?_⟩
    · rw [hcfg]
      by_cases hne : (k, w) = (l, q)
      · cases hne
        rw [v.set]
        exact ⟨Nat.mod_lt _ (numSets_pos (h.cfg ▸ h.legal) l), v.way⟩
      · exact range k w ((old k w hne).1 ▸ hw)
    · by_cases hne : (k, w) = (l, q) <;> by_cases hne' : (k, x) = (l, q)
      · cases hne
        cases hne'
        rfl
      · cases hne
        exact absurd (ha.symm.trans newAddr) (fresh x hne' hx)
      · cases hne'
        exact absurd (ha.trans newAddr) (fresh w hne hw)
      · rw [(old k w hne).2, (old k x hne').2] at ha
        exact inj k w x ((old k w hne).1 ▸ hw) ((old k x hne').1 ▸ hx) ha
    · by_cases hne : (k, w) = (l, q)
      · cases hne
        obtain ⟨r, hr⟩ := v.parent p hk
        obtain ⟨valid, addr⟩ := (h.shape.lookup h.pos).1 hr
        have hr' := held valid
        exact ⟨r, (old p r hr').1.trans valid, by rw [(old p r hr').2, addr, v.block, newAddr],
          by rw [oldPresent p r hr', if_pos ⟨rfl, hk, hr⟩]⟩
      · obtain ⟨r, valid, addr, present⟩ := up k p hk w ((old k w hne).1 ▸ hw)
        have hr' := held valid
        refine ⟨r, (old p r hr').1.trans valid, by rw [(old p r hr').2, addr, (old k w hne).2], ?_⟩
        rw [oldPresent p r hr']
        split
        · rfl
        · exact present
    · by_cases hne : (p, r) = (l, q)
      · cases hne
        exact absurd ((newPresent k).symm.trans hpr) Bool.false_ne_true
      · rw [oldPresent p r hne] at hpr
        split at hpr
        · rename_i told
          obtain ⟨rfl, -, found⟩ := told
          exact ⟨q, newValid, by rw [newAddr, (old p r hne).2, ((h.shape.lookup h.pos).1 found).2, v.block]⟩
        · obtain ⟨w, valid, addr⟩ := down k p hk r ((old p r hne).1 ▸ hr) hpr
          have hw' := held valid
          exact ⟨w, (old k w hw').1.trans valid, by rw [(old k w hw').2, addr, (old p r hne).2]⟩
  have tidy : Tidy c t := ⟨hcfg.trans h.cfg, h.legal, m.lists, shape⟩
  refine ⟨tidy, ⟨q, (shape.lookup tidy.pos).2 ⟨newValid, by rw [newAddr, hcfg, v.block]⟩⟩, fun k hk => ?_⟩
  rw [shape.lookup_none tidy.pos, hcfg, v.block]
  intro w hw ha
  obtain ⟨r, valid, addr, present⟩ := shape.up k l hk w hw
  have : r = q := shape.inj l r q valid newValid (by rw [addr, ha, newAddr])
  rw [this, newPresent] at present
  cases present

/-- What an installation does once its slot q is free; v is the state it had then, with the slot invalidated. -/
theorem place_tidy {v : State} {l : Level} {b : Nat} {d : List Byte} {q : Nat × Nat} (h : Tidy c v) (hv : Vacant v l b q)
    (hc : onlyCache v t) (hL : Lists t) (rest : ∀ k w, (k, w) ≠ (l, q) → t.line k w = v.line k w) :
    Post (do
      let g ← nextStamp
      putLine l q { valid := true, dirty := false, tag := Config.tagOf c l b, data := d, lru := g,
                    presentL1d := false, presentL1i := false, presentL2 := false }
      countAt l (·.fill)
      markPresence l b true : Op Unit) t (fun _ z => Resident c z l b) (Tidy c) := by
  have cfg : t.cfg = c := by
    rw [hc]
    exact h.cfg
  obtain ⟨x, hx⟩ : ∃ x, x = newLine t l b d false := ⟨_, rfl⟩
  obtain ⟨y, hy⟩ : ∃ y, y = cnt (put (stamp t) l q x) l (·.fill) := ⟨_, rfl⟩
  have line : ∀ k w, y.line k w = if k = l ∧ w = q then x else t.line k w := fun k w => by
    rw [hy, line_cnt, line_put, line_stamp]
  have cached : onlyCache v y := by
    rw [hy]
    exact hc.trans rfl
  have lists : Lists y := by
    rw [hy]
    exact (hL.stamp.put (by rw [hx]; rfl)).cnt
  have parents : ∀ k, Level.parent l = some k → y.lookup b k = v.lookup b k := fun k hk =>
    lookup_congr (by rw [cached]) (fun w => by
      have hne : ¬ (k = l ∧ w = q) := fun he => (Level.parent_ne hk).1 he.1.symm
      rw [line, if_neg hne, rest k w (by simpa using hne)]
      exact ⟨rfl, rfl⟩) b
  have placed : Placed v (marked y l b true) l b d q := by
    refine ⟨cached.trans (onlyCache_marked ..), ?_, ⟨t.cache.globalCounter + 1, ?_⟩, fun k w hne => ?_⟩
    · unfold marked
      split
      · exact lists
      · split
        · rename_i r hr
          exact lists.put ((withPresence_valid ..).1.trans (lookup_valid hr).1)
        · exact lists
    · rw [line_marked, if_neg fun he => (Level.parent_ne he.1).1 rfl, line, if_pos ⟨rfl, rfl⟩, hx, newLine, cfg, h.cfg]
    · have same : y.line k w = v.line k w := by
        rw [line, if_neg (by simpa using hne), rest k w hne]
      rw [line_marked, same]
      by_cases hk : Level.parent l = some k
      · rw [parents k hk]
      · rw [if_neg fun he => hk he.1, if_neg fun he => hk he.1]
  refine .of_ok (a := ()) (t := marked y l b true) ?_ (placed.tidy h hv)
  rw [Op.bind_ok (nextStamp_run t), Op.bind_ok (putLine_run ..), Op.bind_ok (countAt_run ..), markPresence_run, hy, hx,
    newLine, cfg]

/-- A line of a block that its level does not hold and its parent does is installed, whatever line it displaces; an error of
the eviction leaves the invariant. -/
theorem installAt_tidy (h : Tidy c s) {l : Level} {b : Nat} (d : List Byte) (hb : Config.block c b = b)
    (hn : s.lookup b l = none) (hp : ∀ p, Level.parent l = some p → ∃ r, s.lookup b p = some r) :
    Post (installAt l b d false) s (fun _ t => Resident c t l b) (Tidy c) := by
  obtain ⟨q, hq⟩ : ∃ q, q = slotOf s l b := ⟨_, rfl⟩
  have set : q.1 = Config.setOf c l b := by rw [hq, ← h.cfg]; rfl
  have way : q.2 < c.ways l := by
    rw [hq, ← h.cfg]
    exact chooseVictim_lt (h.cfg ▸ (h.legal.geometry l).2.1) _
  rw [installAt_eq]
  unfold installWith
  refine .get_bind ?_
  dsimp only
  rw [show (Config.setOf s.cfg l b, s.chooseVictim l (Config.setOf s.cfg l b)) = q from hq.symm, h.cfg]
  refine .ite (fun hv => .bind ((handleEviction_tidy h hv).mono (fun _ t freed => ?_) fun _ ht => ht)) fun hv => ?_
  · have inv_cfg := freed.tidy.cfg
    refine place_tidy freed.tidy ⟨by rw [inv_cfg]; exact hb, ?_, fun p hpp => ?_, by rw [line_inv, if_pos ⟨rfl, rfl⟩]; rfl,
      by rw [inv_cfg]; exact set, by rw [inv_cfg]; exact way⟩ rfl freed.lists
      fun k w hne => by rw [line_inv, if_neg (by simpa using hne)]
    · rw [freed.tidy.shape.lookup_none freed.tidy.pos, inv_cfg, ← h.cfg]
      intro w hw ha
      obtain ⟨valid, addr⟩ := freed.shrunk l w hw
      exact (h.shape.lookup_none h.pos).1 hn w valid (addr ▸ ha)
    · obtain ⟨r, hr⟩ := hp p hpp
      obtain ⟨valid, addr⟩ := (h.shape.lookup h.pos).1 hr
      have stays := freed.stays p r (.inr hpp) (fun he => (Level.parent_ne hpp).1 (congrArg Prod.fst he).symm) valid
      exact ⟨r, (freed.tidy.shape.lookup freed.tidy.pos).2
        ⟨stays, by rw [(freed.shrunk p r stays).2, addr, inv_cfg, h.cfg]⟩⟩
  · exact place_tidy h ⟨by rw [h.cfg]; exact hb, hn, hp, Bool.eq_false_of_not_eq_true hv, by rw [h.cfg]; exact set,
      by rw [h.cfg]; exact way⟩ rfl h.lists fun _ _ _ => rfl


/-! ## Fills, reads and writes (R256 to R258) -/

/-- A line fetched from the bus, or the error of the fetch, leaves the cache's lines as they are (R258). -/
theorem fetchLine_tidy (h : Tidy c s) (l : Level) (b : Nat) :
    Post (fetchLine l b) s (fun _ t => Tidy c t ∧ Alike s t) (Tidy c) :=
  .get_bind (Keeps.tidy (fun _ => .apart_of_bus fun _ => .tagged _ _ (busRead_frame b _)) h)

theorem installL1_tidy (h : Tidy c s) (k : Side) {b : Nat} (d : List Byte) (hb : Config.block c b = b)
    (hn : s.lookup b k.level = none) (hp : ∃ r, s.lookup b .l2 = some r) :
    Post (installL1 k b d false) s (fun _ => Tidy c) (Tidy c) := by
  have hp' : ∀ p, Level.parent k.level = some p → ∃ r, s.lookup b p = some r := fun p he => by
    rw [Side.parent_level] at he
    cases he
    exact hp
  have installed : Post (installAt k.level b d false) s (fun _ t => Resident c t k.level b) (Tidy c) :=
    installAt_tidy h d hb hn hp'
  have same : installAt k.level = installL1 k := by cases k <;> rfl
  exact same ▸ installed.mono (fun _ _ ht => ht.tidy) fun _ ht => ht

theorem installL2_tidy (h : Tidy c s) {b : Nat} (d : List Byte) (hb : Config.block c b = b)
    (hn : s.lookup b .l2 = none) (hp : ∃ r, s.lookup b .l3 = some r) :
    Post (installL2 b d false) s (fun _ t => Resident c t .l2 b) (Tidy c) :=
  installAt_tidy (l := .l2) h d hb hn fun p he => by
    cases he
    exact hp

theorem installL3_tidy (h : Tidy c s) {b : Nat} (d : List Byte) (hb : Config.block c b = b) (hn : s.lookup b .l3 = none) :
    Post (installL3 b d false) s (fun _ t => Resident c t .l3 b) (Tidy c) :=
  installAt_tidy (l := .l3) h d hb hn nofun

/-- A block that L3 holds and L2 does not is brought into L2 and a first-level cache. -/
theorem installUp_tidy {b : Nat} (h : Resident c s .l3 b) (k : Side) (d : List Byte) (hb : Config.block c b = b) :
    Post (do
      installL2 b d false
      installL1 k b d false
      return d : Op (List Byte)) s (fun _ => Tidy c) (Tidy c) := by
  refine .bind ((installL2_tidy h.tidy d hb (h.above .l2 rfl) h.held).mono (fun _ t ht => ?_) fun _ ht => ht)
  exact .bind ((installL1_tidy ht.tidy k d hb (ht.above _ (Side.parent_level k)) ht.held).mono (fun _ _ ht => .pure ht)
    fun _ ht => ht)

/-- A read fills every level from the first that holds the block up (R256). -/
theorem cacheRead_tidy (pa : Nat) (k : Side) : Holds (Tidy c) (cacheRead pa k) := by
  intro s h
  obtain ⟨b, hb⟩ : ∃ b, b = Config.block s.cfg pa := ⟨_, rfl⟩
  have block : Config.block c b = b := by rw [hb, h.cfg, block_block]
  have same : ∀ l, s.lookup b l = s.lookup pa l := fun l => hb ▸ lookup_block h.pos pa l
  have probe : ∀ {t : State} (l : Level), Tidy c t → Alike s t →
      Post (accessLine pa l false) t (fun r u => r = s.lookup b l ∧ Tidy c u ∧ Alike s u) (Tidy c) := by
    intro t l ht alike
    refine (accessLine_tidy ht pa l false).mono (fun r u ⟨found, tidy, alike'⟩ => ?_) fun _ hu => hu
    exact ⟨by rw [found, alike.lookup, same], tidy, alike.trans alike'⟩
  unfold cacheRead
  refine .get_bind ?_
  rw [← hb]
  refine .bind ((probe k.level h (.refl s)).mono ?_ fun _ hu => hu)
  rintro r1 t1 ⟨found1, tidy1, alike1⟩
  cases r1 with
  | some q => exact .bind (.of_ok (getLine_run ..) (.pure tidy1))
  | none =>
    refine .bind ((probe .l2 tidy1 alike1).mono ?_ fun _ hu => hu)
    rintro r2 t2 ⟨found2, tidy2, alike2⟩
    cases r2 with
    | some q =>
      refine .bind (.of_ok (getLine_run ..) (.bind ?_))
      refine (installL1_tidy tidy2 k _ block ?_ ⟨q, ?_⟩).mono (fun _ _ ht => .pure ht) fun _ ht => ht
      · rw [alike2.lookup, ← found1]
      · rw [alike2.lookup, ← found2]
    | none =>
      refine .bind ((probe .l3 tidy2 alike2).mono ?_ fun _ hu => hu)
      rintro r3 t3 ⟨found3, tidy3, alike3⟩
      cases r3 with
      | some q =>
        have absent : ∀ j, Level.parent j = some .l3 → t3.lookup b j = none := by
          intro j hj
          cases j <;> cases hj
          rw [alike3.lookup, ← found2]
        exact .bind (.of_ok (getLine_run ..)
          (installUp_tidy ⟨tidy3, ⟨q, by rw [alike3.lookup, ← found3]⟩, absent⟩ k _ block))
      | none =>
        refine .bind ((fetchLine_tidy tidy3 .l3 b).mono (fun d t4 ⟨tidy4, alike4⟩ => ?_) fun _ ht => ht)
        have absent : t4.lookup b .l3 = none := by rw [alike4.lookup, alike3.lookup, ← found3]
        exact .bind ((installL3_tidy tidy4 d block absent).mono (fun _ _ ht => installUp_tidy ht k d block) fun _ ht => ht)

theorem Line.patched_present (x : Line) (off : Nat) (bs : List Byte) (k : Level) :
    (x.patched off bs).present k = x.present k := by
  cases k <;> rfl

/-- A chunk written patches the bytes of a line that is there (R257). -/
theorem cacheWriteChunk_tidy (a : Nat) (bs : List Byte) (k : Side) : Holds (Tidy c) (cacheWriteChunk a bs k) := by
  intro s h
  refine .bind ((cacheRead_tidy a k s h).mono (fun _ t ht => .get_bind ?_) fun _ ht => ht)
  cases hq : t.lookup a k.level with
  | none => exact .pure ht
  | some q => exact .of_ok (putLine_run ..) (ht.put (lookup_valid hq).1 rfl rfl (Line.patched_present _ _ _))

theorem cacheWriteLoop_tidy (k : Side) (fuel a : Nat) (bs : List Byte) : Holds (Tidy c) (cacheWriteLoop k fuel a bs) := by
  induction fuel generalizing a bs with
  | zero => exact .pure _
  | succ fuel ih =>
    cases bs with
    | nil => exact .pure _
    | cons b bs => exact .get_bind' fun _ => .bind (cacheWriteChunk_tidy _ _ _) fun _ => ih _ _

/-! ## Prefetch (R259) -/

/-- What the fill of level l for a prefetch of block b does: the level holds the block, and a level above it that did not
still does not. -/
structure Brought (c : Config) (s t : State) (l : Level) (b : Nat) : Prop where
  tidy : Tidy c t
  held : ∃ r, t.lookup b l = some r
  above : ∀ k, Level.parent k = some l → s.lookup b k = none → t.lookup b k = none

theorem Resident.brought {l : Level} {b : Nat} (h : Resident c t l b) : Brought c s t l b :=
  ⟨h.tidy, h.held, fun k hk _ => h.above k hk⟩

theorem prefetchL3_tidy (h : Tidy c s) (l : Level) {b : Nat} (hb : Config.block c b = b) :
    Post (prefetchL3 l b) s (fun _ t => Brought c s t .l3 b) (Tidy c) := by
  refine .get_bind ?_
  cases hq : s.lookup b .l3 with
  | some q => exact .pure ⟨h, ⟨q, hq⟩, fun _ _ hn => hn⟩
  | none =>
    refine .bind ((fetchLine_tidy h l b).mono (fun d t ⟨tidy, alike⟩ => .bind ?_) fun _ ht => ht)
    exact (installL3_tidy tidy d hb (by rw [alike.lookup, hq])).mono (fun _ _ ht => .pure ht.brought) fun _ ht => ht

theorem prefetchL2_tidy (h : Tidy c s) (l : Level) {b : Nat} (hb : Config.block c b = b) :
    Post (prefetchL2 l b) s (fun _ t => Brought c s t .l2 b) (Tidy c) := by
  refine .get_bind ?_
  cases hq : s.lookup b .l2 with
  | some q => exact .pure ⟨h, ⟨q, hq⟩, fun _ _ hn => hn⟩
  | none =>
    refine .bind ((prefetchL3_tidy h l hb).mono (fun d t ht => .bind ?_) fun _ ht => ht)
    exact (installL2_tidy ht.tidy d hb (ht.above .l2 rfl hq) ht.held).mono (fun _ _ hu => .pure hu.brought) fun _ hu => hu

/-- The missing ancestors come first (R259). -/
theorem prefetchInto_tidy (h : Tidy c s) {l : Level} {b : Nat} (hb : Config.block c b = b) (hn : s.lookup b l = none) :
    Post (prefetchInto l b) s (fun _ => Tidy c) (Tidy c) := by
  have side : ∀ k : Side, s.lookup b k.level = none → Post (do
      let d ← prefetchL2 k.level b
      installL1 k b d false : Op Unit) s (fun _ => Tidy c) (Tidy c) := fun k hn =>
    .bind ((prefetchL2_tidy h _ hb).mono (fun d _ ht =>
      installL1_tidy ht.tidy k d hb (ht.above _ (Side.parent_level k) hn) ht.held) fun _ ht => ht)
  cases l with
  | l1d => exact side .l1d hn
  | l1i => exact side .l1i hn
  | l2 => exact .bind ((prefetchL2_tidy h _ hb).mono (fun _ _ ht => .pure ht.tidy) fun _ ht => ht)
  | l3 => exact .bind ((prefetchL3_tidy h _ hb).mono (fun _ _ ht => .pure ht.tidy) fun _ ht => ht)

theorem prefetchLine_tidy (l : Level) (a : Nat) : Holds (Tidy c) (prefetchLine l a) := by
  intro s h
  obtain ⟨b, hb⟩ : ∃ b, b = Config.block s.cfg a := ⟨_, rfl⟩
  refine .get_bind ?_
  dsimp only
  rw [← hb]
  cases hq : s.lookup b l with
  | some q => exact .pure h
  | none =>
    refine .bind (.of_ok (countAt_run ..) (prefetchInto_tidy (h.cnt ..) ?_ ?_))
    · rw [hb, h.cfg, block_block]
    · rw [lookup_cnt, hq]

/-! ## Flushes (R269, R270) -/

theorem flushSlot_tidy (h : Tidy c s) {l : Level} {q : Nat × Nat} (hv : (s.line l q).valid = true) :
    Post (flushSlot l q) s (fun _ t => Tidy c t ∧ Shrunk s t ∧ (t.line l q).valid = false) (Tidy c) := by
  refine .bind ((handleEviction_tidy h hv).mono (fun _ t freed => .of_ok (invalidate_run ..) ?_) fun _ ht => ht)
  refine ⟨freed.tidy, freed.shrunk, ?_⟩
  rw [line_inv, if_pos ⟨rfl, rfl⟩]
  rfl

theorem flushLine_tidy (a : Nat) (l : Level) : Holds (Tidy c) (flushLine a l) := by
  intro s h
  refine .get_bind ?_
  cases hq : s.lookup a l with
  | some q => exact (flushSlot_tidy h (lookup_valid hq).1).mono (fun _ _ ht => ht.1) fun _ ht => ht
  | none => exact .pure h

/-- A slot that the loop has passed stays empty, since no line is new. -/
theorem Shrunk.invalid (h : Shrunk s t) {l : Level} {q : Nat × Nat} (hv : (s.line l q).valid = false) :
    (t.line l q).valid = false :=
  Bool.eq_false_of_not_eq_true fun ht => Bool.false_ne_true (hv.symm.trans (h l q ht).1)

/-- After the loop of R270 none of the slots it ran over holds a line. -/
theorem flushSlots_tidy (h : Tidy c s) (l : Level) (qs : List (Nat × Nat)) :
    Post (flushSlots l qs) s (fun _ t => Tidy c t ∧ Shrunk s t ∧ ∀ q ∈ qs, (t.line l q).valid = false) (Tidy c) := by
  induction qs generalizing s with
  | nil => exact .pure ⟨h, .refl s, nofun⟩
  | cons q qs ih =>
    have rest : ∀ {t : State}, Tidy c t → Shrunk s t → (t.line l q).valid = false → Post (flushSlots l qs) t
        (fun _ u => Tidy c u ∧ Shrunk s u ∧ ∀ r ∈ q :: qs, (u.line l r).valid = false) (Tidy c) := by
      intro t tidy shrunk gone
      refine (ih tidy).mono (fun _ u ⟨tidy', shrunk', empty⟩ => ⟨tidy', shrunk.trans shrunk', ?_⟩) fun _ hu => hu
      exact List.forall_mem_cons.2 ⟨shrunk'.invalid gone, empty⟩
    refine .bind (.of_ok (getLine_run ..) (.ite (fun hv => .bind ?_) fun hv => ?_))
    · exact (flushSlot_tidy h hv).mono (fun _ t ⟨tidy, shrunk, gone⟩ => rest tidy shrunk gone) fun _ ht => ht
    · exact rest h (.refl s) (Bool.eq_false_of_not_eq_true hv)

/-- A level whose slots hold no line lists none. -/
theorem lines_nil (h : Lists s) {l : Level} (hv : ∀ q, (s.line l q).valid = false) : (s.cache.level l).lines = [] := by
  refine List.eq_nil_iff_forall_not_mem.2 fun e he => Bool.false_ne_true ?_
  exact (hv e.1).symm.trans (line_of_mem h (x := e.2) he).2

theorem withLines_nil {l : Level} (h : (s.cache.level l).lines = []) : (s.withLines l fun _ => []) = s := by
  have same : ({ s.cache.level l with lines := [] } : LevelState) = s.cache.level l := by rw [← h]
  rw [State.withLines, same, Cache.setLevel_level]

/-- The list that R270 empties is empty already: no slot of the level holds a line after the loop. -/
theorem flushAll_tidy (l : Level) : Holds (Tidy c) (flushAll l) := by
  intro s h
  refine .get_bind (.bind ((flushSlots_tidy h l _).mono (fun _ t ⟨tidy, shrunk, empty⟩ => .modify ?_) fun _ ht => ht))
  have gone : ∀ q, (t.line l q).valid = false := fun q => Bool.eq_false_of_not_eq_true fun hv => by
    have before := (shrunk l q hv).1
    have listed : q ∈ s.listedSlots l := by
      obtain ⟨hset, hway⟩ := h.shape.range l q before
      refine List.mem_filter.2 ⟨List.mem_map.2 ⟨_, mem_of_valid before, rfl⟩, ?_⟩
      simp [hset, hway]
    exact Bool.false_ne_true ((empty q listed).symm.trans hv)
  rwa [withLines_nil (lines_nil tidy.lists gone)]

/-! ## The CPU's accesses (R310 to R321) -/

theorem cachedReadLoop_tidy (k : Side) (fuel a n : Nat) : Holds (Tidy c) (cachedReadLoop k fuel a n) := by
  induction fuel generalizing a n with
  | zero => exact .pure _
  | succ fuel ih =>
    cases n with
    | zero => exact .pure _
    | succ n => exact .get_bind' fun _ => .bind (cacheRead_tidy _ _) fun _ => .bind (ih _ _) fun _ => .pure _

theorem prefetchAfter_tidy (pa : Nat) : Holds (Tidy c) (prefetchAfter pa) :=
  .get_bind' fun _ => .ite (fun _ => .ite (fun _ => prefetchLine_tidy _ _) fun _ => .pure _) fun _ => .pure _

theorem busRead_tidy (pa n : Nat) : Holds (Tidy c) (busRead pa n) :=
  Keeps.holds_tidy fun _ => .apart_of_bus fun _ => busRead_frame pa n

theorem busWrite_tidy (pa : Nat) (bs : List Byte) : Holds (Tidy c) (busWrite pa bs) :=
  Keeps.holds_tidy fun _ => .apart_of_bus fun _ => busWrite_frame pa bs

theorem translate_tidy (va : Nat) : Holds (Tidy c) (translate va) :=
  Keeps.holds_tidy fun _ => .apart_of_mmu fun _ => translate_frame va

theorem setDirty_tidy (va : Nat) : Holds (Tidy c) (setDirty va) :=
  Keeps.holds_tidy fun _ => .apart_of_mmu fun _ => setDirty_frame va

theorem readPath_tidy (pa n : Nat) (p : Pte) (k : Side) : Holds (Tidy c) (readPath pa n p k) :=
  .ite (fun _ => .bind (cachedReadLoop_tidy _ _ _ _) fun _ => .bind (prefetchAfter_tidy _) fun _ => .pure _)
    fun _ => busRead_tidy _ _

theorem wcFlush_tidy : Holds (Tidy c) wcFlush := Keeps.holds_tidy fun _ => wcFlush_apart

theorem setWc_tidy (w : WcBuffer) : Holds (Tidy c) (setWc w) := .modify fun _ h => h.unmoved rfl rfl

theorem wcPost_tidy (pa : Nat) (bs : List Byte) : Holds (Tidy c) (wcPost pa bs) := by
  unfold wcPost
  refine .get_bind' fun u => ?_
  split
  · exact setWc_tidy _
  · exact .ite (fun _ => setWc_tidy _) fun _ => .bind wcFlush_tidy fun _ => setWc_tidy _

theorem fetch_tidy (va size : Nat) : Holds (Tidy c) (fetch va size) := by
  refine .bind (Stable.accessChecks _ _) fun _ => .bind (translate_tidy va) fun r => ?_
  exact .ite (fun _ => .bind (.raise _) fun _ => readPath_tidy _ _ _ _) fun _ => readPath_tidy _ _ _ _

theorem load_tidy (va size : Nat) (sg : Bool) : Holds (Tidy c) (load va size sg) :=
  .bind (Stable.accessChecks _ _) fun _ => .bind (translate_tidy va) fun _ => .bind (readPath_tidy _ _ _ _) fun _ =>
    .get_bind' fun _ => .pure _

theorem storePath_tidy (va pa : Nat) (bs : List Byte) (p : Pte) : Holds (Tidy c) (storePath va pa bs p) := by
  unfold storePath
  split
  · exact .bind wcFlush_tidy fun _ => busWrite_tidy _ _
  · exact wcPost_tidy _ _
  · refine .ite (fun _ => ?_) fun _ => ?_
    · exact .bind (cacheWriteLoop_tidy _ _ _ _) fun _ => .bind (setDirty_tidy va) fun _ => prefetchAfter_tidy _
    · exact .bind (busWrite_tidy _ _) fun _ => setDirty_tidy va

theorem store_tidy (va size : Nat) (v : Int) : Holds (Tidy c) (store va size v) := by
  refine .bind (Stable.accessChecks _ _) fun _ => .bind (translate_tidy va) fun r => ?_
  exact .ite (fun _ => .bind (.raise _) fun _ => .get_bind' fun _ => storePath_tidy _ _ _ _)
    fun _ => .get_bind' fun _ => storePath_tidy _ _ _ _

theorem Holds.returning {β : Type} {P : State → Prop} {m : Op α} (h : Holds P m) (f : α → β) :
    Holds P (do return f (← m)) := .bind h fun _ => .pure _

theorem opCpuPrefetchData_tidy (va : Word) : Holds (Tidy c) (opCpuPrefetchData va) :=
  .bind (translate_tidy _) fun _ => .ite (fun _ => (prefetchLine_tidy _ _).returning _) fun _ => .pure _

theorem opCpuPrefetchInst_tidy (va : Word) : Holds (Tidy c) (opCpuPrefetchInst va) := by
  refine .bind (translate_tidy _) fun r => .ite (fun _ => .bind (.raise _) fun _ => ?_) fun _ => ?_
  all_goals exact .ite (fun _ => (prefetchLine_tidy _ _).returning _) fun _ => .pure _

/-! ## Every operation -/

/-- A poll is a load, what runs its handler, and a store (R472). -/
theorem pollWith_tidy {run : List Token → Op Unit} (hr : ∀ ts, Holds (Tidy c) (run ts)) (n : Nat)
    (ts : Option (List Token)) : Holds (Tidy c) (pollWith run n ts) := by
  refine .get_bind' fun _ => .bind (.need _ _) fun _ => .bind (load_tidy _ _ _) fun _ => .ite (fun _ => ?_) fun _ => .pure _
  cases ts with
  | none => exact (store_tidy _ _ _).returning _
  | some ts => exact .bind (.attempt (hr ts)) fun _ => (store_tidy _ _ _).returning _

theorem opOf_tidy {poll : Nat → Option (List Token) → Op Value} (hp : ∀ n ts, Holds (Tidy c) (poll n ts)) (i : Instr) :
    Holds (Tidy c) (opOf poll i) := by
  cases hc : usesCache i with
  | false =>
    refine Keeps.holds_tidy fun s => .widen (fun t => opOf_apart (s := t) poll hc) (Apart.refl _) fun t u ht hu => ?_
    obtain ⟨cfg, cache, -⟩ := hu
    exact ht.trans ⟨cfg, cache, nofun⟩
  | true =>
    cases i with
    | cacheRead => exact (cacheRead_tidy _ _).returning _
    | cacheWriteBytes => exact (cacheWriteLoop_tidy _ _ _ _).returning _
    | cachePrefetchLine => exact (prefetchLine_tidy _ _).returning _
    | cacheFlushLine => exact (flushLine_tidy _ _).returning _
    | cacheFlushAll | cpuFlushIcache | cpuFlushDcache | cpuFlushL2 | cpuFlushL3 => exact (flushAll_tidy _).returning _
    | cpuFetch => exact (fetch_tidy _ _).returning _
    | cpuLoad => exact (load_tidy _ _ _).returning _
    | cpuStore => exact (store_tidy _ _ _).returning _
    | cpuPrefetchData => exact opCpuPrefetchData_tidy _
    | cpuPrefetchInst => exact opCpuPrefetchInst_tidy _
    | cpuPollInterrupts => exact hp _ _
    | _ => cases hc

theorem runHandler_tidy (depth : Nat) (ts : List Token) : Holds (Tidy c) (runHandler depth ts) := by
  induction depth generalizing ts with
  | zero => exact .pure _
  | succ depth ih => exact Stable.runCalls (opOf_tidy (pollWith_tidy ih)) _ _

theorem opCpuPollInterrupts_tidy (n : Nat) (ts : Option (List Token)) : Holds (Tidy c) (opCpuPollInterrupts n ts) :=
  pollWith_tidy (runHandler_tidy _) n ts

/-- Settles O10: each operation keeps the invariant by slots, whether it goes well or fails. -/
theorem stepKeepsInclusion : Obligations.StepKeepsInclusion := by
  intro s t h ht
  have kept : ∀ {op : Op Value} {calls : List Token}, ConfigLegal s.cfg → Holds (Tidy s.cfg) op →
      finish op { s with calls := calls } = .next t → Inclusion t := by
    intro op calls legal hop ht
    have start : Tidy s.cfg { s with calls := calls } := (tidy_iff.2 ⟨rfl, legal, h⟩).unmoved rfl rfl
    obtain ⟨-, -, inclusion⟩ := tidy_iff.1 ((hop _ start).finish (fun _ _ hu => hu.unmoved rfl rfl) ht)
    exact inclusion
  rcases step_cases ht with ⟨-, rfl⟩ | ⟨legal, ⟨i, rest, -, ran⟩ | ⟨r, -, rejected⟩⟩
  · exact h
  · rw [exec_eq] at ran
    exact kept legal (opOf_tidy opCpuPollInterrupts_tidy i) ran
  · exact kept legal (Stable.rejectedCall r) rejected

end Sys2Proof.Machine
end

section
/-! SUPPORT. The bus (spec/41_dram_bus.md R176 to R185): what a transfer and a register access leave unchanged, a region
registered, and the transfers that fail. -/

namespace Sys2Proof.Machine

/-! ## Register accesses (R142) -/

/-- An operation whose record is one register access reaches no more than a bus transfer does (R116, R181, R436). -/
theorem opOf_registerAccess_frame {s : State} (poll : Nat → Option (List Token) → Op Value) {i : Instr} {f : Format}
    {d : Dir} {w : Nat} {off : Word} {bs : List Byte} (h : encode i = [.access f d w off bs]) :
    Keeps (BusFrame s) (opOf poll i) := by
  cases i with
  | plicPrioR | plicPendLoR | plicPendHiR | plicEnableLoR | plicEnableHiR | plicThresholdR | plicClaimR =>
    exact opPlicRead_frame _ _
  | plicPrioW | plicEnableLoW | plicEnableHiW | plicThresholdW | plicCompleteW => exact opPlicWrite_frame _ _ _
  | clintMsipR | clintMtimecmpR | clintMtimecmpLoR | clintMtimecmpHiR | clintMtimeR | clintMtimeLoR | clintMtimeHiR =>
    exact opClintRead_frame _
  | clintMsipW | clintMtimecmpW | clintMtimecmpLoW | clintMtimecmpHiW | clintMtimeW | clintMtimeLoW | clintMtimeHiW =>
    exact opClintWrite_frame _ _
  | uartDataR | uartStatusR | uartCtrlR => exact opUartRead_frame _ _
  | uartDataW | uartCtrlW => exact opUartWrite_frame _ _ _
  | timerCntLoR | timerCntHiR | timerCmpLoR | timerCmpHiR | timerCtrlR | timerStatusR | timerTickR =>
    exact opTimerRead_frame _ _
  | timerCntLoW | timerCntHiW | timerCmpLoW | timerCmpHiW | timerCtrlW | timerStatusW | timerTickW =>
    exact opTimerWrite_frame _ _ _
  | dmaSrcLoR | dmaSrcHiR | dmaDstLoR | dmaDstHiR | dmaLenR | dmaCtrlR | dmaStatusR => exact opDmaRead_frame _ _
  | dmaSrcLoW | dmaSrcHiW | dmaDstLoW | dmaDstHiW | dmaLenW | dmaCtrlW | dmaStatusW => exact opDmaWrite_frame _ _ _
  | romRead => exact opRomRead_frame _ _ _
  | romWrite => exact opRomWrite_frame _ _ _
  | cpuPollInterrupts c handler => cases handler <;> cases h
  | _ => cases h

/-- Settles O13: a transfer and a register access stay within what a bus transfer reaches, however they end. -/
theorem transfersLeaveCpuAndCaches : Obligations.TransfersLeaveCpuAndCaches := by
  intro i s t ht hi
  have frame : ∀ u, Keeps (BusFrame u) (opOf opCpuPollInterrupts i) := by
    intro u
    rcases hi with ⟨pa, n, rfl⟩ | ⟨pa, bs, rfl⟩ | ⟨f, d, w, off, bs, h⟩
    · exact (busRead_frame _ _).returning _
    · exact (busWrite_frame _ _).returning _
    · exact opOf_registerAccess_frame _ h
  have kept : Keeps (fun u => u.mmu = s.mmu ∧ u.cache = s.cache ∧ u.cpu = s.cpu ∧ u.roms = s.roms ∧ u.draws = s.draws)
      (opOf opCpuPollInterrupts i) := by
    refine .widen frame BusFrame.refl fun u v ⟨mmu, cache, cpu, roms, draws⟩ ⟨_, mmu', cache', cpu', roms', draws', _⟩ => ?_
    exact ⟨mmu'.trans mmu, cache'.trans cache, cpu'.trans cpu, roms'.trans roms, draws'.trans draws⟩
  rw [exec_eq] at ht
  exact kept.finish (fun _ _ h => h) ⟨rfl, rfl, rfl, rfl, rfl⟩ ht

/-! ## Registration (R176, R177) -/

theorem addRegion_empty {s : State} {r : Region} (h : r.size = 0) :
    addRegion r s = .error (.err { kind := .badConfig .emptyRegion }) s := by
  rw [addRegion, if_pos h]
  rfl

theorem addRegion_wrapping {s : State} {r : Region} (h : r.size ≠ 0) (hw : 2 ^ 64 < r.base + r.size) :
    addRegion r s = .error (.err { kind := .badConfig .wrappingRegion }) s := by
  rw [addRegion, if_neg h]
  beta_reduce
  rw [if_pos hw]
  rfl

/-- The operation i adds the region r to the bus of s, or ends in the error that this raises. -/
structure Registers (i : Instr) (r : Region) (s : State) : Prop where
  ok : ∀ t, addRegion r s = .ok () t → exec i s = .next (t.ok .unit)
  err : ∀ k, addRegion r s = .error (.err { kind := k }) s → exec i s = .next (s.err k)

namespace Registers

variable {i : Instr} {r : Region} {s : State}

/-- What runs as `addRegion` and then answers no value registers its region. -/
theorem of_run (h : opOf opCpuPollInterrupts i s = (addRegion r >>= fun _ => pure .unit : Op Value) s) : Registers i r s where
  ok t ht := exec_ok (by rw [h, Op.bind_ok ht]; rfl)
  err k hk := exec_err (by rw [h, Op.bind_error hk])

theorem mapRam (name : String) (base : Word) (size off : Nat) (s : State) :
    Registers (.busMapRam name base size off) ⟨.ram off, base.toNat, size, name⟩ s :=
  of_run rfl

theorem mmio (name : String) {d : DevRef} {base size : Nat} {caps : Caps} (h : s.deviceShape d = some (base, size, caps)) :
    Registers (.busRegisterMmio name d) ⟨.mmio d caps, base, size, name⟩ s := by
  obtain ⟨shape, align⟩ := deviceRegion_of_shape h
  refine of_run ?_
  change opBusRegisterMmio name d s = _
  rw [opBusRegisterMmio, Op.bind_ok shape]
  dsimp only
  rw [if_neg align]

theorem inserts (h : Registers i r s) (hs : r.size ≠ 0) (hw : r.base + r.size ≤ 2 ^ 64)
    (apart : ∀ q ∈ s.bus.regions, ¬ (r.base ≤ q.last ∧ q.base ≤ r.base + r.size - 1)) :
    ∃ rs, rs.Perm (r :: s.bus.regions) ∧
      (s.bus.regions.Pairwise (fun q r => q.base ≤ r.base) → rs.Pairwise (fun q r => q.base ≤ r.base)) ∧
      exec i s = .next ({ s with bus := { s.bus with regions := rs } }.ok .unit) :=
  ⟨_, insertRegion_perm r _, insertRegion_sorted r _, h.ok _ (addRegion_ok hs hw apart)⟩

theorem overlaps (h : Registers i r s) (hs : r.size ≠ 0) (hw : r.base + r.size ≤ 2 ^ 64)
    (meets : ∃ q ∈ s.bus.regions, r.base ≤ q.last ∧ q.base ≤ r.base + r.size - 1) :
    ∃ q ∈ s.bus.regions, (r.base ≤ q.last ∧ q.base ≤ r.base + r.size - 1) ∧
      exec i s = .next (s.err (.overlap r.name q.name r.base r.size)) := by
  obtain ⟨q, hq, hm, raised⟩ := addRegion_overlap hs hw meets
  exact ⟨q, hq, hm, h.err _ raised⟩

theorem empty (h : Registers i r s) (hs : r.size = 0) : exec i s = .next (s.err (.badConfig .emptyRegion)) :=
  h.err _ (addRegion_empty hs)

theorem wrapping (h : Registers i r s) (hs : r.size ≠ 0) (hw : 2 ^ 64 < r.base + r.size) :
    exec i s = .next (s.err (.badConfig .wrappingRegion)) :=
  h.err _ (addRegion_wrapping hs hw)

end Registers

/-- Settles O17: both operations add one region, by `addRegion`, whose four outcomes are the clauses. -/
theorem regionsAreInsertedSorted : Obligations.RegionsAreInsertedSorted := by
  refine ⟨fun s name base size off => (Registers.mapRam name base size off s).inserts,
    fun s name base off => (Registers.mapRam name base 0 off s).empty rfl,
    fun s name base size off => (Registers.mapRam name base size off s).wrapping,
    fun s name base size off => (Registers.mapRam name base size off s).overlaps,
    fun s name d base size caps h => (Registers.mmio name h).inserts,
    fun s name d base size caps h => (Registers.mmio name h).overlaps,
    fun s name d base caps h => (Registers.mmio name h).empty rfl,
    fun s name d base size caps h => (Registers.mmio name h).wrapping⟩

/-! ## Transfers that fail (R180, R182, R183) -/

theorem chunkCheck_err {s : State} {r : Region} {d : DevRef} {caps : Caps} {a w : Nat} (hk : r.kind = .mmio d caps)
    (strict : s.cfg.strictMmio = true) (bad : (a - r.base) % caps.align ≠ 0 ∨ ∃ ws, caps.widths = some ws ∧ w ∉ ws) :
    chunkCheck r a w s = .error (.err { kind := .mmioConstraint a w }) s := by
  unfold chunkCheck
  rw [Op.get_bind_run, hk]
  dsimp only
  rw [if_pos]
  · rfl
  · refine ⟨strict, fun ⟨aligned, width⟩ => ?_⟩
    rcases bad with h | ⟨ws, hw, h⟩
    · exact h aligned
    · rw [hw] at width
      exact h (by simpa using width)

/-- The first chunk of a transfer of n bytes from `a` on meets the error k before anything is read or written. -/
def State.bars (s : State) (a n : Nat) (k : ErrKind) : Prop :=
  decodeAddress a s = .error (.err { kind := k }) s ∨
    ∃ r, decodeAddress a s = .ok r s ∧ chunkCheck r a (min n (r.last - a + 1)) s = .error (.err { kind := k }) s

theorem bars_unmapped {s : State} {a : Nat} (h : s.bus.find a = none) (n : Nat) : s.bars a n (.unmapped a) :=
  .inl (decodeAddress_none h)

theorem bars_constraint {s : State} {a n : Nat} {r : Region} {d : DevRef} {caps : Caps} (ha : a < 2 ^ 64) (hn : 1 ≤ n)
    (hf : s.bus.find a = some r) (hk : r.kind = .mmio d caps) (fits : a + n ≤ r.base + r.size)
    (strict : s.cfg.strictMmio = true) (bad : (a - r.base) % caps.align ≠ 0 ∨ ∃ ws, caps.widths = some ws ∧ n ∉ ws) :
    s.bars a n (.mmioConstraint a n) := by
  have whole : min n (r.last - a + 1) = n := by
    unfold Region.last
    omega
  exact .inr ⟨r, decodeAddress_ok ha hf, whole.symm ▸ chunkCheck_err hk strict bad⟩

/-- A read whose first chunk meets an error counts itself and a fault, and raises it (R182). -/
theorem busRead_barred {s : State} {a n : Nat} {k : ErrKind} (hn : 1 ≤ n)
    (h : { s with bus := { s.bus with reads := s.bus.reads + 1 } }.bars a n k) :
    busRead a n s = .error (.err { kind := k })
      { s with bus := { s.bus with reads := s.bus.reads + 1, faults := s.bus.faults + 1 } } := by
  obtain ⟨m, rfl⟩ := Nat.exists_eq_add_of_le' hn
  unfold busRead countRead
  rw [Op.modify_bind_run, readChunks_succ _ _ _ (Nat.succ_ne_zero m)]
  rcases h with unmapped | ⟨r, mapped, checked⟩
  · exact Op.bind_error (countFault_err unmapped)
  · exact (Op.bind_ok (countFault_ok mapped)).trans (Op.bind_error (countFault_err (Op.bind_error checked)))

/-- A write whose first chunk meets an error counts itself and a fault, and raises it (R183). -/
theorem busWrite_barred {s : State} {a : Nat} {bs : List Byte} {k : ErrKind} (hn : bs ≠ [])
    (h : { s with bus := { s.bus with writes := s.bus.writes + 1 } }.bars a bs.length k) :
    busWrite a bs s = .error (.err { kind := k })
      { s with bus := { s.bus with writes := s.bus.writes + 1, faults := s.bus.faults + 1 } } := by
  obtain ⟨m, hm⟩ := Nat.exists_eq_add_of_le' (List.length_pos_iff.2 hn)
  unfold busWrite busWriteWith countWrite
  rw [Op.modify_bind_run, hm, writeChunks_succ _ _ _ _ hn]
  rcases h with unmapped | ⟨r, mapped, checked⟩
  · exact Op.bind_error (countFault_err unmapped)
  · exact (Op.bind_ok (countFault_ok mapped)).trans (Op.bind_error (countFault_err (Op.bind_error checked)))

/-- Settles O20: an address without a region and a chunk that fails R180 both stop the transfer at its first chunk. -/
theorem busTransfersFail : Obligations.BusTransfersFail := by
  refine ⟨fun s pa n hn hf => exec_err (Op.bind_error (busRead_barred hn (bars_unmapped (by exact hf) n))),
    fun s pa bs hn hf => exec_err (Op.bind_error (busWrite_barred hn (bars_unmapped (by exact hf) _))),
    fun s pa n r d caps hn strict hf hk fits bad => ⟨?_, ?_⟩⟩
  · exact exec_err (Op.bind_error (busRead_barred hn (bars_constraint pa.isLt hn hf hk fits strict bad)))
  · rintro bs rfl
    exact exec_err (Op.bind_error (busWrite_barred (List.length_pos_iff.1 hn)
      (bars_constraint pa.isLt hn hf hk fits strict bad)))

end Sys2Proof.Machine
end

section
/-! SUPPORT. A cache write that hits, and `flush_all` (spec/43_cache.md R257, R260 to R270): on a sound cache it is
write-back, and on any cache without a dirty line it completes without one. -/

namespace Sys2Proof.Machine

/-! ## A write that hits (R257) -/

/-- Settles O29: the write is one patch of the line that was hit, and a patch changes the bytes it covers. -/
theorem cacheWritePatchesLine : Obligations.CacheWritePatchesLine := by
  intro s pa bs which q c hq hne hfit hlen
  obtain ⟨valid, -, -, -⟩ := lookup_valid hq
  have line := line_patched s q c.level (pa.toNat % s.cfg.lineSize) bs
  refine ⟨(patchedState s q c.level (pa.toNat % s.cfg.lineSize) bs).cache, ?_, ?_, fun l r hlr => ?_, fun l => ?_, rfl⟩
  · exact exec_ok (Op.bind_ok (cacheWrite_hit hq hne hfit))
  · have patched := (line c.level q).trans (if_pos ⟨rfl, rfl⟩)
    refine patched.symm ▸ ⟨rfl, valid, rfl, rfl, ?_, fun i hi => getD_patched _ _ _ bs i hlen hfit hi⟩
    simp [Line.patched, hlen]
    omega
  · exact (line l r).trans (if_neg fun h => hlr (Prod.ext h.1 h.2))
  · by_cases h : l = c.level
    · subst h
      simp [patchedState]
    · simp [patchedState, h]

/-! ## A cache without a dirty line -/

/-- From a state with P the operation goes well and ends in one with P. -/
def Completes (P : State → Prop) {α : Type} (m : Op α) : Prop := ∀ u, P u → ∃ a t, m u = .ok a t ∧ P t

namespace Completes

variable {P : State → Prop} {α β : Type}

theorem pure (a : α) : Completes P (Pure.pure a : Op α) := fun u h => ⟨a, u, rfl, h⟩

theorem modify {f : State → State} (h : ∀ u, P u → P (f u)) : Completes P (modify f : Op Unit) :=
  fun u hu => ⟨(), f u, rfl, h u hu⟩

theorem bind {m : Op α} {f : α → Op β} (hm : Completes P m) (hf : ∀ a, Completes P (f a)) : Completes P (m >>= f) := by
  intro u hu
  obtain ⟨a, t, run, ht⟩ := hm u hu
  rw [Op.bind_ok run]
  exact hf a t ht

theorem get_bind {f : State → Op β} (h : ∀ u, P u → Completes P (f u)) : Completes P (MonadState.get >>= f : Op β) :=
  fun u hu => h u hu u hu

/-- The branch that is not taken need not complete. -/
theorem ite_of_not {c : Prop} [Decidable c] {m n : Op α} (hc : ¬ c) (hn : Completes P n) :
    Completes P (if c then m else n) := by
  rwa [if_neg hc]

theorem ite {c : Prop} [Decidable c] {m n : Op α} (hm : c → Completes P m) (hn : ¬ c → Completes P n) :
    Completes P (if c then m else n) := by
  split
  · exact hm ‹_›
  · exact hn ‹_›

end Completes

/-- t is s after lines have left a cache without a dirty line: only the cache differs, no line is dirty, and nothing was
written back. -/
structure StaysClean (s t : State) : Prop where
  cache : onlyCache s t
  clean : ∀ k q, (t.line k q).dirty = false
  writebacks : ∀ k, (t.cache.level k).stats.writebacks = (s.cache.level k).stats.writebacks

namespace StaysClean

variable {s : State} {β : Type}

theorem getLine_bind (l : Level) (q : Nat × Nat) {f : Line → Op β}
    (h : ∀ x : Line, x.dirty = false → Completes (StaysClean s) (f x)) : Completes (StaysClean s) (getLine l q >>= f) :=
  fun u hu => by
    rw [Op.bind_ok (getLine_run u l q)]
    exact h _ (hu.clean l q) u hu

theorem putLine (l : Level) (q : Nat × Nat) {x : Line} (hx : x.dirty = false) :
    Completes (StaysClean s) (putLine l q x) := by
  refine .modify fun u hu => ⟨hu.cache.trans (onlyCache_put u l q x), fun k r => ?_, fun k => ?_⟩
  · refine (congrArg Line.dirty (line_put u l q x k r)).trans ?_
    split
    · exact hx
    · exact hu.clean k r
  · exact (congrArg CacheStats.writebacks (stats_put u l q x k)).trans (hu.writebacks k)

theorem invalidate (l : Level) (q : Nat × Nat) : Completes (StaysClean s) (invalidate l q) := by
  refine .modify fun u hu => ⟨hu.cache.trans (onlyCache_inv u l q), fun k r => ?_, fun k => ?_⟩
  · refine (congrArg Line.dirty (line_inv u l q k r)).trans ?_
    split
    · rfl
    · exact hu.clean k r
  · exact (congrArg CacheStats.writebacks (stats_inv u l q k)).trans (hu.writebacks k)

theorem countEvict (l : Level) : Completes (StaysClean s) (countAt l (·.evict)) := by
  refine .modify fun u hu => ⟨hu.cache.trans (onlyCache_cnt u l _), fun k r => ?_, fun k => ?_⟩
  · exact (congrArg Line.dirty (line_cnt u l _ k r)).trans (hu.clean k r)
  · refine (congrArg CacheStats.writebacks (stats_cnt u l _ k)).trans ?_
    split
    · exact hu.writebacks k
    · exact hu.writebacks k

/-- The state of a run holds no dirty line, so a branch for one is not taken. -/
theorem not_dirty {x : Line} (h : x.dirty = false) : ¬ x.dirty = true := by
  simp [h]

theorem withPresence_dirty {x : Line} (h : x.dirty = false) (c : Level) (b : Bool) : (x.withPresence c b).dirty = false := by
  obtain ⟨-, -, -, dirty⟩ := withPresence_valid x c b
  exact dirty.trans h

theorem markPresence (l : Level) (b : Nat) (v : Bool) : Completes (StaysClean s) (markPresence l b v) := by
  unfold Machine.markPresence
  refine .get_bind fun u hu => ?_
  split
  · exact .pure _
  · split
    · exact putLine _ _ (withPresence_dirty (hu.clean _ _) l v)
    · exact .pure _

theorem takeChild (c : Side) (q : Nat × Nat) (b : Nat) : Completes (StaysClean s) (takeChild c q b) := by
  unfold Machine.takeChild
  refine .get_bind fun u hu => ?_
  split
  · exact .pure _
  · exact .ite_of_not (not_dirty (hu.clean _ _)) (.bind (invalidate _ _) fun _ => countEvict _)

theorem drainChild (c : Side) (q : Nat × Nat) (b : Nat) : Completes (StaysClean s) (drainChild c q b) := by
  unfold Machine.drainChild
  exact getLine_bind _ _ fun _ _ => .ite (fun _ => .bind (takeChild c q b) fun _ => getLine_bind _ _ fun x hx =>
    putLine _ _ (withPresence_dirty hx _ _)) fun _ => .pure _

theorem drainChildren (q : Nat × Nat) (b : Nat) : Completes (StaysClean s) (drainChildren q b) :=
  .bind (drainChild .l1d q b) fun _ => drainChild .l1i q b

theorem takeL2Child (q : Nat × Nat) (b : Nat) : Completes (StaysClean s) (takeL2Child q b) := by
  unfold Machine.takeL2Child
  refine .get_bind fun u hu => ?_
  split
  · exact .pure _
  · exact .bind (drainChildren _ b) fun _ => getLine_bind _ _ fun x hx => .ite_of_not (not_dirty hx)
      (.bind (invalidate _ _) fun _ => countEvict _)

theorem drainL2Child (q : Nat × Nat) (b : Nat) : Completes (StaysClean s) (drainL2Child q b) :=
  .bind (takeL2Child q b) fun _ => getLine_bind _ _ fun _ hx => putLine _ _ hx

theorem evictL1 (c : Side) (q : Nat × Nat) : Completes (StaysClean s) (evictL1 c q) := by
  unfold Machine.evictL1
  exact .bind (countEvict _) fun _ => .get_bind fun u hu => .ite_of_not (not_dirty (hu.clean _ _)) (markPresence _ _ _)

theorem evictL2 (q : Nat × Nat) : Completes (StaysClean s) (evictL2 q) := by
  unfold Machine.evictL2
  exact .bind (countEvict _) fun _ => .get_bind fun u _ => .bind (drainChildren q _) fun _ =>
    getLine_bind _ _ fun x hx => .ite_of_not (not_dirty hx) (markPresence _ _ _)

theorem evictL3 (q : Nat × Nat) : Completes (StaysClean s) (evictL3 q) := by
  unfold Machine.evictL3
  refine .bind (countEvict _) fun _ => .get_bind fun u _ => .ite (fun _ => .bind (drainL2Child q _) fun _ => ?_) fun _ => ?_
  all_goals exact getLine_bind _ _ fun x hx => .ite_of_not (not_dirty hx) (.pure _)

theorem flushSlot (l : Level) (q : Nat × Nat) : Completes (StaysClean s) (flushSlot l q) := by
  refine .bind ?_ fun _ => invalidate l q
  cases l with
  | l1d => exact evictL1 .l1d q
  | l1i => exact evictL1 .l1i q
  | l2 => exact evictL2 q
  | l3 => exact evictL3 q

theorem flushSlots (l : Level) (qs : List (Nat × Nat)) : Completes (StaysClean s) (flushSlots l qs) := by
  induction qs with
  | nil => exact .pure _
  | cons q qs ih => exact getLine_bind _ _ fun _ _ => .ite (fun _ => .bind (flushSlot l q) fun _ => ih) fun _ => ih

/-- Emptying a level's list leaves the reset line in its slots, which is clean (R46, R270). -/
theorem line_clear (u : State) (l k : Level) (q : Nat × Nat) :
    (u.withLines l fun _ => []).line k q = if k = l then Line.reset u.cfg.lineSize else u.line k q := by
  by_cases h : k = l
  · subst h
    simp [State.line]
  · simp [State.line, h]

theorem clear {u : State} (h : StaysClean s u) (l : Level) : StaysClean s (u.withLines l fun _ => []) where
  cache := h.cache.trans rfl
  clean k q := by
    rw [line_clear]
    split
    · rfl
    · exact h.clean k q
  writebacks k := by
    rw [← h.writebacks k, State.withLines_cache, Cache.level_setLevel]
    split
    next hk => rw [hk]
    next => rfl

/-- `flush_all` of a cache without a dirty line. -/
theorem flushAll (h : ∀ l q, (s.line l q).dirty = false) (l : Level) : ∃ t, Machine.flushAll l s = .ok () t ∧ StaysClean s t ∧
    ∀ q, t.line l q = Line.reset s.cfg.lineSize := by
  obtain ⟨_, u, run, hu⟩ := flushSlots l (s.listedSlots l) s ⟨rfl, h, fun _ => rfl⟩
  refine ⟨u.withLines l fun _ => [], (Op.get_bind_run _ _).trans (Op.bind_ok run), hu.clear l, fun q => ?_⟩
  rw [line_clear, if_pos rfl, hu.cache]

end StaysClean

/-! ## A sound cache -/

/-- A slot without a valid line holds the reset line: every listed line is valid (R46). -/
theorem line_eq_reset {s : State} (hL : Lists s) {l : Level} {q : Nat × Nat} (h : (s.line l q).valid = false) :
    s.line l q = Line.reset s.cfg.lineSize := by
  cases hg : Tab.get (s.cache.level l).lines q with
  | none => simp [State.line, hg]
  | some x =>
    obtain ⟨-, valid⟩ := line_of_mem hL (Tab.mem_of_get hg)
    rw [h] at valid
    cases valid

/-- A level whose parent holds no line holds none (R45). -/
theorem Shape.child_empty {s : State} (hS : Shape s) {l p : Level} (hp : Level.parent l = some p)
    (h : ∀ r, (s.line p r).valid = false) (q : Nat × Nat) : (s.line l q).valid = false := by
  by_contra hv
  obtain ⟨r, valid, -, -⟩ := hS.up l p hp q (Bool.eq_true_of_not_eq_false hv)
  rw [h] at valid
  cases valid

/-- The levels that a level includes, itself among them (R45). -/
def Level.includes (l k : Level) : Prop := k = l ∨ (l = .l2 ∧ k ≠ .l3) ∨ l = .l3

theorem Shape.included_empty {s : State} (hS : Shape s) {l : Level} (h : ∀ q, (s.line l q).valid = false) {k : Level}
    (hk : Level.includes l k) (q : Nat × Nat) : (s.line k q).valid = false := by
  have of_l2 : (∀ r, (s.line .l2 r).valid = false) → k ≠ .l3 → (s.line k q).valid = false := by
    intro h2 hk
    cases k with
    | l1d => exact hS.child_empty (l := .l1d) rfl h2 q
    | l1i => exact hS.child_empty (l := .l1i) rfl h2 q
    | l2 => exact h2 q
    | l3 => exact absurd rfl hk
  rcases hk with rfl | ⟨rfl, hk⟩ | rfl
  · exact h q
  · exact of_l2 h hk
  · by_cases hk : k = .l3
    · exact hk ▸ h q
    · exact of_l2 (hS.child_empty rfl h) hk

/-- Without a line on the data side the newest byte is DRAM's (R274). -/
theorem newest_of_empty {s : State} (h : ∀ k q, (s.line k q).valid = false) {a o : Nat} (ho : s.ramOffset a = some o) :
    s.newest a = s.dramByte o := by
  have none : ∀ k, s.dirtyByte k a = none := by
    intro k
    cases hq : s.lookup a k with
    | none => simp [State.dirtyByte, hq]
    | some q =>
      obtain ⟨valid, -⟩ := lookup_valid hq
      rw [h] at valid
      cases valid
  simp [State.newest, none, ho]

/-! ## The statement -/

/-- The CPU's four commands are the cache's command at their levels (R324). -/
theorem exec_flushAll {s t : State} {l : Level} (h : flushAll l s = .ok () t) :
    exec (.cacheFlushAll l) s = .next (t.ok .unit) ∧
    (l = .l1i → exec .cpuFlushIcache s = .next (t.ok .unit)) ∧ (l = .l1d → exec .cpuFlushDcache s = .next (t.ok .unit)) ∧
    (l = .l2 → exec .cpuFlushL2 s = .next (t.ok .unit)) ∧ (l = .l3 → exec .cpuFlushL3 s = .next (t.ok .unit)) := by
  refine ⟨exec_ok (Op.bind_ok h), ?_, ?_, ?_, ?_⟩ <;> rintro rfl <;> exact exec_ok (Op.bind_ok h)

/-- Settles O34: without a dirty line nothing is written back, and of a sound cache every line leaves for its parent or for
DRAM, which loses no byte's newest value. -/
theorem flushAllEmptiesLevel : Obligations.FlushAllEmptiesLevel := by
  refine ⟨fun s clean l => ?_, fun s hC l => ?_⟩
  · obtain ⟨t, run, ht, empty⟩ := StaysClean.flushAll clean l
    obtain ⟨flush, cpu⟩ := exec_flushAll run
    refine ⟨t.cache, ?_⟩
    rw [← show t = { s with cache := t.cache } from ht.cache]
    exact ⟨flush, empty, ht.clean, ht.writebacks, cpu⟩
  · obtain ⟨t, run, ht, empty, near⟩ := flushAll_run hC l
    obtain ⟨flush, cpu⟩ := exec_flushAll run
    obtain ⟨regions, faults, dramFaults, unreached⟩ := ht.under
    obtain ⟨-, lists, shape, -⟩ := ht.sound.slots
    have invalid : ∀ k, Level.includes l k → ∀ q, (t.line k q).valid = false :=
      fun k hk q => shape.included_empty (fun q => by rw [empty]; rfl) hk q
    refine ⟨t.cache, t.dram, t.bus, ?_⟩
    dsimp only
    rw [← ht.frame]
    refine ⟨flush, ht.sound, fun k q hk => ?_, ht.newest, fun hl => ?_, fun hl a o ho => ?_, regions, faults, dramFaults,
      unreached, cpu⟩
    · rw [line_eq_reset lists (invalid k hk q), ht.cfg]
    · rw [near hl]
      exact ⟨rfl, rfl⟩
    · rw [← ht.newest a, newest_of_empty (fun k q => invalid k (.inr (.inr hl)) q) ((ht.offsets a).trans ho)]

end Sys2Proof.Machine
end

section
/-! SUPPORT. The CPU's loads, fetches and stores on a page that the TLB holds (spec/44_cpu.md R310 to R321): each is its path
by the page's memory type, run after the translation; and a store that L1D holds the line of, which a load reads back. -/

namespace Sys2Proof.Machine

variable {s t : State} {va : Word} {pa size : Nat} {p : Pte}

/-! ## The checks and the translation (R310, R211) -/

theorem accessChecks_ok {va : Nat} (h : s.accessOk va size) : accessChecks va size s = .ok () s := by
  obtain ⟨hsize, hxlen, hwrap, hpage⟩ := h
  have fits : ¬ xlenBytes s.cfg.xlen < size := by
    unfold xlenBytes
    exact not_lt.2 hxlen
  have samePage : Config.vpn s.cfg va = Config.vpn s.cfg (va + size - 1) := hpage
  unfold accessChecks
  rw [Op.get_bind_run, if_neg (by simp [hsize, fits])]
  beta_reduce
  rw [if_neg (not_lt.2 hwrap)]
  beta_reduce
  rw [if_neg fun h => h samePage]
  rfl

theorem accessOk_pos {va : Nat} (h : s.accessOk va size) : 1 ≤ size := by
  obtain ⟨hsize, -⟩ := h
  omega

/-- A load of a page that the TLB holds is the read through L1D, its bytes unpacked (R312, R314). -/
theorem exec_load {bs : List Byte} (ok : s.accessOk va.toNat size) (hit : s.tlbHit va.toNat pa p)
    (run : readPath pa size p .l1d (s.afterHit va.toNat) = .ok bs t) (sg : Bool) :
    exec (.cpuLoad va size sg) s = .next (t.ok (.int (unpack t.cfg.endianness bs sg))) := by
  have loaded : load va.toNat size sg s = .ok (unpack t.cfg.endianness bs sg) t := by
    unfold load
    rw [Op.bind_ok (accessChecks_ok ok), Op.bind_ok (translate_hit hit)]
    exact Op.bind_ok run
  exact exec_ok (Op.bind_ok loaded)

/-- A fetch of an executable page that the TLB holds is the read through L1I; an omitted size is 4 (R312, R313). -/
theorem exec_fetch {bs : List Byte} (ok : s.accessOk va.toNat size) (hit : s.tlbHit va.toNat pa p)
    (run : readPath pa size p .l1i (s.afterHit va.toNat) = .ok bs t) (executable : p.executable = true) :
    exec (.cpuFetch va (some size)) s = .next (t.ok (.bytes bs)) ∧
      (size = 4 → exec (.cpuFetch va none) s = .next (t.ok (.bytes bs))) := by
  have fetched : fetch va.toNat size s = .ok bs t := by
    unfold fetch
    rw [Op.bind_ok (accessChecks_ok ok), Op.bind_ok (translate_hit hit)]
    dsimp only
    rw [if_neg (by simp [executable])]
    exact run
  refine ⟨exec_ok (Op.bind_ok fetched), ?_⟩
  rintro rfl
  exact exec_ok (Op.bind_ok fetched)

/-- A store to a writable page that the TLB holds is its path with the packed value (R315). -/
theorem exec_store {x : Int} (ok : s.accessOk va.toNat size) (hit : s.tlbHit va.toNat pa p) (writable : p.writable = true)
    (run : storePath va.toNat pa (pack s.cfg.endianness x size) p (s.afterHit va.toNat) = .ok () t) (sg : Bool) :
    exec (.cpuStore va size x sg) s = .next (t.ok .unit) := by
  have stored : store va.toNat size x s = .ok () t := by
    unfold store
    rw [Op.bind_ok (accessChecks_ok ok), Op.bind_ok (translate_hit hit)]
    dsimp only
    rw [if_neg (by simp [writable])]
    exact run
  exact exec_ok (Op.bind_ok stored)

/-! ## The path of a read (R312, R318) -/

theorem cachedNormal_iff : p.cachedNormal = true ↔ p.memtype = .normal ∧ p.cached = true := by
  simp [Pte.cachedNormal]

theorem prefetchAfter_off (h : s.cfg.prefetch.enable = false) (a : Nat) : prefetchAfter a s = .ok () s := by
  unfold prefetchAfter
  rw [Op.get_bind_run, if_neg (by simp [h])]
  rfl

theorem readPath_bus {o : Nat} (c : Side) (h : p.memtype ≠ .normal ∨ p.cached = false) (ho : s.ramRange pa size o) :
    readPath pa size p c s = .ok (s.dramBytes o size) { s with bus := s.bus.afterRead pa (s.dramBytes o size) } := by
  have uncached : ¬ p.cachedNormal = true := by
    rw [cachedNormal_iff]
    rintro ⟨normal, cached⟩
    rcases h with h | h
    · exact h normal
    · simp [h] at cached
  unfold readPath
  rw [if_neg uncached, busRead_ram ho]

/-- With the prefetch policy off a read of a normal cached page is `cached_read`. -/
theorem readPath_cached {bs : List Byte} {c : Side} (normal : p.memtype = .normal) (cached : p.cached = true)
    (run : cachedRead pa size c s = .ok bs t) (off : t.cfg.prefetch.enable = false) :
    readPath pa size p c s = .ok bs t := by
  unfold readPath
  rw [if_pos (cachedNormal_iff.2 ⟨normal, cached⟩), Op.bind_ok run, Op.bind_ok (prefetchAfter_off off pa)]
  rfl

theorem CacheSound.afterHit (h : CacheSound s) (va : Nat) : CacheSound (s.afterHit va) := h.with_mmu _

theorem stamped_eq_cacheHit (s : State) (q : Nat × Nat) (l : Level) :
    stamped s q l false = { s with cache := s.cacheHit l q } := by
  rw [stamped, Bool.or_false]
  rfl

/-- A read within a line that the first-level cache holds stamps the line and counts the hit (R252, R311). -/
theorem readPath_hit {c : Side} {q : Nat × Nat} (normal : p.memtype = .normal) (cached : p.cached = true)
    (off : s.cfg.prefetch.enable = false) (hq : s.lookup pa c.level = some q) (hn : 1 ≤ size)
    (fits : pa % s.cfg.lineSize + size ≤ s.cfg.lineSize) :
    readPath pa size p c s = .ok (((s.line c.level q).data.drop (pa % s.cfg.lineSize)).take size)
      { s with cache := s.cacheHit c.level q } := by
  have line := cachedRead_hit hq hn fits
  rw [stamped_eq_cacheHit] at line
  exact readPath_cached normal cached line off

/-- Settles O37: after the translation a read is one bus transfer, or `cached_read` through its side's first level. -/
theorem readsTakeTheirPath : Obligations.ReadsTakeTheirPath := by
  refine ⟨fun s va pa size o p ok hit uncached ho => ?_,
    fun s va pa size p c q ok hit normal cached off hq fits => ?_,
    fun s va pa size p c hC ok hit normal cached off ram => ?_⟩
  · have path : ∀ c, readPath pa size p c (s.afterHit va.toNat) = _ := fun c => readPath_bus c uncached (by exact ho)
    exact ⟨exec_load ok hit (path .l1d), fun hx => (exec_fetch ok hit (path .l1i) hx).1,
      fun hx => (exec_fetch ok hit (path .l1i) hx).2⟩
  · have path := readPath_hit (s := s.afterHit va.toNat) normal cached off hq (accessOk_pos ok) fits
    refine ⟨?_, ?_⟩
    · rintro rfl
      exact exec_load ok hit path
    · rintro rfl
      exact exec_fetch ok hit path
  · obtain ⟨t, bs, run, kept, length, oneLine⟩ := cachedReadLoop_run c size (hC.afterHit va.toNat) pa size le_rfl ram
    have cfg : t.cfg = s.cfg := kept.cfg
    have path := readPath_cached normal cached run (by rw [cfg]; exact off)
    obtain ⟨regions, faults, dramFaults, unreached⟩ := kept.under
    refine ⟨bs, t.cache, t.dram, t.bus, ?_⟩
    dsimp only
    rw [← kept.frame]
    refine ⟨length, oneLine (accessOk_pos ok), kept.sound, kept.newest, regions, faults, dramFaults, unreached, ?_, ?_⟩
    · rintro rfl
      exact cfg ▸ exec_load ok hit path
    · rintro rfl
      exact exec_fetch ok hit path

/-! ## The write-combining buffer (R321) -/

theorem busWrite_ram {a o : Nat} {bs : List Byte} (h : s.ramRange a bs.length o) : busWrite a bs s = .ok ()
    { s with
      bus := s.bus.afterWrite a bs
      dram := { s.dram with cells := Memory.writeBytes s.cfg.fillByte s.dram.cells o bs } } :=
  busWriteWith_ram h

theorem wcFlush_empty (h : s.cpu.wc.base = none) : wcFlush s = .ok () s := by
  unfold wcFlush
  rw [Op.get_bind_run, h]
  rfl

theorem wcFlush_ram {b o : Nat} (hb : s.cpu.wc.base = some b) (ho : s.ramRange b s.cpu.wc.bytes.length o) :
    wcFlush s = .ok () { s with
      cpu := { s.cpu with wc := { base := none, bytes := [] } }
      bus := s.bus.afterWrite b s.cpu.wc.bytes
      dram := { s.dram with cells := Memory.writeBytes s.cfg.fillByte s.dram.cells o s.cpu.wc.bytes } } := by
  unfold wcFlush
  rw [Op.get_bind_run, hb]
  exact (Op.modify_bind_run _ _ _).trans (busWrite_ram (by exact ho))

/-- A device store is `wc_flush` and one bus write (R316). -/
theorem storePath_device {u : State} {bs : List Byte} (device : p.memtype = .device) (flush : wcFlush s = .ok () t)
    (write : busWrite pa bs t = .ok () u) (va : Nat) : storePath va pa bs p s = .ok () u := by
  unfold storePath
  rw [device]
  dsimp only
  rw [Op.bind_ok flush, write]

/-- Settles O39: the flush writes the buffer to the bus, if it holds bytes, and the store writes after it. -/
theorem deviceStoreFlushesBufferFirst : Obligations.DeviceStoreFlushesBufferFirst := by
  intro s va pa size o x sg p ok hit writable device ho memory bs
  have ho : s.ramRange pa bs.length o := (length_pack s.cfg.endianness x size).symm ▸ ho
  refine ⟨fun empty => ?_, fun b o' hb ho' => ?_⟩
  · refine ⟨_, storedAt_writeBytes memory, exec_store ok hit writable ?_ sg⟩
    exact storePath_device device (wcFlush_empty (s := s.afterHit va.toNat) (congrArg WcBuffer.base empty))
      (busWrite_ram (by exact ho)) _
  · have memory' := Memory.wf_writeBytes memory o' s.cpu.wc.bytes
    refine ⟨_, _, storedAt_writeBytes memory, storedAt_writeBytes (by exact memory'), exec_store ok hit writable ?_ sg⟩
    exact storePath_device device (wcFlush_ram (s := s.afterHit va.toNat) hb (by exact ho')) (busWrite_ram (by exact ho)) _

/-! ## A store that hits L1D, and a load of what it stored (R120, R317) -/

/-- An address past `a` in the same line has its block and the offset past a's. -/
theorem lookup_sameLine {a i : Nat} (l : Level) (h : a % s.cfg.lineSize + i < s.cfg.lineSize) :
    s.lookup (a + i) l = s.lookup a l ∧ (a + i) % s.cfg.lineSize = a % s.cfg.lineSize + i := by
  have small : i < s.cfg.lineSize := by omega
  have line : (a + i) / s.cfg.lineSize = a / s.cfg.lineSize := by
    rw [Nat.add_div_eq_of_add_mod_lt (by rwa [Nat.mod_eq_of_lt small]), Nat.div_eq_of_lt small, Nat.add_zero]
  refine ⟨?_, ?_⟩
  · unfold State.lookup Config.setOf Config.tagOf
    rw [line]
  · rw [Nat.add_mod_of_add_mod_lt (by rwa [Nat.mod_eq_of_lt small]), Nat.mod_eq_of_lt small]

/-- A patch keeps every line's valid flag and tag, so look-ups find what they found. -/
theorem lookup_patched {l : Level} {q : Nat × Nat} (off : Nat) (bs : List Byte) (a : Nat) (k : Level) :
    (patchedState s q l off bs).lookup a k = s.lookup a k := by
  refine lookup_congr (s := s) (t := patchedState s q l off bs) rfl (fun r => ?_) a
  rw [line_patched]
  split
  next h =>
    obtain ⟨rfl, rfl⟩ := h
    exact ⟨rfl, rfl⟩
  next => exact ⟨rfl, rfl⟩

/-- The bytes of a patch are those of the line at its offset. -/
theorem patched_bytes {x bs : List Byte} {off : Nat} (h : off ≤ x.length) :
    ((x.take off ++ bs ++ x.drop (off + bs.length)).drop off).take bs.length = bs := by
  rw [List.append_assoc, List.drop_left' (List.length_take_of_le h), List.take_left]

/-- The byte of a dirty line of L1D is the newest of its address (R274). -/
theorem newest_of_l1d {a : Nat} {q : Nat × Nat} (hq : s.lookup a .l1d = some q) (dirty : (s.line .l1d q).dirty = true) :
    s.newest a = (s.line .l1d q).data.getD (a % s.cfg.lineSize) 0 := by
  simp [State.newest, State.dirtyByte, hq, dirty]

theorem newest_patched {q : Nat × Nat} {bs : List Byte} (hq : s.lookup pa .l1d = some q)
    (fits : pa % s.cfg.lineSize + bs.length ≤ s.cfg.lineSize) (hlen : (s.line .l1d q).data.length = s.cfg.lineSize)
    {i : Nat} (hi : i < bs.length) : (patchedState s q .l1d (pa % s.cfg.lineSize) bs).newest (pa + i) = bs.getD i 0 := by
  obtain ⟨sameLine, offset⟩ := lookup_sameLine (s := s) (a := pa) (i := i) .l1d (by omega)
  have line := (line_patched s q .l1d (pa % s.cfg.lineSize) bs .l1d q).trans (if_pos ⟨rfl, rfl⟩)
  rw [newest_of_l1d (q := q) (by rw [lookup_patched, sameLine, hq]) (by rw [line]; rfl), line]
  change ((s.line .l1d q).patched (pa % s.cfg.lineSize) bs).data.getD ((pa + i) % s.cfg.lineSize) 0 = _
  rw [offset, Line.patched, getD_patched _ _ _ bs _ hlen fits (by omega), if_pos (by omega), Nat.add_sub_cancel_left]

/-- A translation that hit hits again. -/
theorem tlbHit_afterHit {va : Nat} (h : s.tlbHit va pa p) : (s.afterHit va).tlbHit va pa p := by
  obtain ⟨e, entry, page, frame, bound⟩ := h
  refine ⟨{ e with tick := s.mmu.tlbClock + 1 }, ?_, page, frame, bound⟩
  simp [State.afterHit, entry, Tab.get_set]

/-- The state whose PTE of the page of `va` is q. -/
def State.withPte (s : State) (va : Nat) (q : Pte) : State :=
  { s with mmu := s.mmu.setPte s.mmu.currentAsid (va >>> Nat.log2 s.cfg.pageSize) q }

theorem withPte_pte (s : State) (va : Nat) (q : Pte) :
    (s.withPte va q).mmu.pte s.mmu.currentAsid (va >>> Nat.log2 s.cfg.pageSize) = some q :=
  (Mmu.pte_setPte ..).trans (if_pos rfl)

/-- A change of the page's PTE keeps the TLB, and the hit answers the new PTE. -/
theorem tlbHit_withPte {va : Nat} (h : s.tlbHit va pa p) (q : Pte) : (s.withPte va q).tlbHit va pa q := by
  obtain ⟨e, entry, -, frame, bound⟩ := h
  exact ⟨e, entry, withPte_pte s va q, frame, bound⟩

theorem setDirty_hit {va : Nat} (h : s.tlbHit va pa p) :
    setDirty va s = .ok () (s.withPte va { p with dirty := true }) := by
  obtain ⟨-, -, page, -⟩ := h
  have page : s.mmu.pte s.mmu.currentAsid (Config.vpn s.cfg va) = some p := page
  unfold setDirty
  rw [Op.get_bind_run, page]
  rfl

/-- t is s after `bs` was stored through the TLB's page p into the line of slot q of L1D, which holds `pa` (R274, R317). -/
structure StoredInLine (s t : State) (va pa : Nat) (p : Pte) (q : Nat × Nat) (bs : List Byte) : Prop where
  cfg : t.cfg = s.cfg
  bus : t.bus = s.bus
  dram : t.dram = s.dram
  page : t.mmu.pte s.mmu.currentAsid (va >>> Nat.log2 s.cfg.pageSize) = some { p with dirty := true }
  hit : t.tlbHit va pa { p with dirty := true }
  found : t.lookup pa .l1d = some q
  dirty : (t.line .l1d q).dirty = true
  bytes : ((t.line .l1d q).data.drop (pa % s.cfg.lineSize)).take bs.length = bs
  newest : ∀ i < bs.length, t.newest (pa + i) = bs.getD i 0

/-- A store to a normal cached page whose line L1D holds, prefetching off: the line is patched, then the PTE is dirty
(R317). -/
theorem storePath_hit {va : Nat} {bs : List Byte} {q : Nat × Nat} (hit : s.tlbHit va pa p) (normal : p.memtype = .normal)
    (cached : p.cached = true) (off : s.cfg.prefetch.enable = false) (hq : s.lookup pa .l1d = some q) (hne : bs ≠ [])
    (fits : pa % s.cfg.lineSize + bs.length ≤ s.cfg.lineSize) (hlen : (s.line .l1d q).data.length = s.cfg.lineSize) :
    ∃ t, storePath va pa bs p s = .ok () t ∧ StoredInLine s t va pa p q bs := by
  have path : storePath va pa bs p = (do
      cacheWrite pa bs .l1d
      setDirty va
      prefetchAfter pa) := by
    simp [storePath, normal, cached]
  have line := (line_patched s q .l1d (pa % s.cfg.lineSize) bs .l1d q).trans (if_pos ⟨rfl, rfl⟩)
  refine ⟨(patchedState s q .l1d (pa % s.cfg.lineSize) bs).withPte va { p with dirty := true }, ?_, ?_⟩
  · rw [path, Op.bind_ok (cacheWrite_hit (c := .l1d) hq hne fits), Op.bind_ok (setDirty_hit (p := p) (by exact hit))]
    exact prefetchAfter_off (by exact off) pa
  · exact {
      cfg := rfl
      bus := rfl
      dram := rfl
      page := withPte_pte _ va _
      hit := tlbHit_withPte hit _
      found := (lookup_patched _ bs pa .l1d).trans hq
      dirty := congrArg Line.dirty line
      bytes := (congrArg (fun x => (x.data.drop (pa % s.cfg.lineSize)).take bs.length) line).trans
        (patched_bytes (by dsimp only; omega))
      newest := fun i hi => newest_patched hq fits hlen hi }

/-- What was packed reads back as the value reduced to n bytes, read as signed or not (R13). -/
theorem unpack_pack_reduced (e : Endian) (x : Int) (n : Nat) (sg : Bool) : unpack e (pack e x n) sg =
    if sg = true ∧ ¬ 2 * (x % 2 ^ (8 * n)) < 2 ^ (8 * n) then x % 2 ^ (8 * n) - 2 ^ (8 * n) else x % 2 ^ (8 * n) := by
  rw [unpack_pack]
  cases sg with
  | false => simp [cast_residue]
  | true =>
    rw [if_pos rfl, sext_residue]
    by_cases small : 2 * (x % 2 ^ (8 * n)) < 2 ^ (8 * n) <;> simp [small]

/-- Settles O41: the store patches L1D's line, which the load then hits, and what was packed unpacks to the value reduced. -/
theorem cachedStoreThenLoad : Obligations.CachedStoreThenLoad := by
  intro s va pa size x sg p q ok hit writable normal cached off hq fits hlen
  have length := length_pack s.cfg.endianness x size
  have pos := accessOk_pos ok
  obtain ⟨t, run, stored⟩ := storePath_hit (s := s.afterHit va.toNat) (bs := pack s.cfg.endianness x size)
    (tlbHit_afterHit hit) normal cached off hq (List.length_pos_iff.1 (by omega)) (by rw [length]; exact fits) hlen
  obtain ⟨cfg', bus, dram, page, hit', found, dirty, bytes, newest⟩ := stored
  have cfg : t.cfg = s.cfg := cfg'
  have path := readPath_hit (s := (t.ok .unit).afterHit va.toNat) (p := { p with dirty := true }) (c := .l1d) normal cached
    (by exact cfg ▸ off) found pos (by exact cfg ▸ fits)
  have loaded := exec_load (s := t.ok .unit) (va := va) (by unfold State.accessOk; exact cfg ▸ ok) hit' path sg
  refine ⟨_, _, exec_store ok hit writable run sg, rfl, bus, dram, dirty, ?_, page, loaded, bus, dram, ?_⟩
  · rw [length] at newest
    exact newest
  · rw [length] at bytes
    change OpResult.ok (.int (unpack t.cfg.endianness (((t.line .l1d q).data.drop (pa % t.cfg.lineSize)).take size) sg)) = _
    rw [cfg, ← unpack_pack_reduced s.cfg.endianness x size sg]
    exact congrArg (fun bs => OpResult.ok (.int (unpack s.cfg.endianness bs sg))) bytes

end Sys2Proof.Machine
end

section
/-! SUPPORT. The encoding (spec/30_encoding.md R140 to R150): what each command's operands and each register's offset decode
to, that decoding undoes encoding, and some records written out. -/

namespace Sys2Proof

/-! ## Commands (R147) -/

/-- The parser p takes the values w, whatever follows them, and reads `a` from them. -/
def Reads {α : Type} (p : Parser α) (w : List Token) (a : α) : Prop := ∀ rest, p (w ++ rest) = .ok (a, rest)

namespace Reads

variable {α β : Type}

/-- The end of an operand list. -/
theorem done (a : α) : Reads (pure a) [] a := fun _ => rfl

/-- An operand of one value, and the operands after it. -/
theorem next {p : Parser α} {f : α → Parser β} {t : Token} {w : List Token} {a : α} {b : β}
    (head : ∀ ts, p (t :: ts) = .ok (a, ts)) (tail : Reads (f a) w b) : Reads (p >>= f) (t :: w) b :=
  fun rest => (Parser.bind (head _)).trans (tail rest)

/-- A last operand of any number of values. -/
theorem last {p : Parser α} {w : List Token} {a : α} (h : Reads p w a) (f : α → β) :
    Reads (p >>= fun x => pure (f x)) w (f a) :=
  fun rest => Parser.bind (h rest)

/-- A handler, given by the number of its values and these (R472). -/
theorem handler (calls : List Token) : Reads (pOpt pHandler) (.handler calls.length :: calls) (some calls) := by
  intro rest
  rw [List.cons_append, pOpt, pHandler_run]
  exact nofun

/-- A command whose operands are read where they stand decodes to what is read, where another call or nothing follows. -/
theorem decode {c : Byte} {w rest : List Token} {i : Instr} (h : Reads (decodeCmd c.toNat) w i)
    (he : endsCommand rest = true) : decode (.code c :: w ++ rest) = .ok (i, rest) :=
  decode_command (h rest) he

end Reads

/-! ## Register offsets (R350, R352, R390, R391) -/

/-- A PLIC register that the encoding can carry: its source or context is one that an offset names. -/
def PlicReg.encodable (l : Layout) : PlicReg → Prop
  | .prio id => prioIdOk l id = true
  | .pendLo => True
  | .pendHi => True
  | .enableLo c => contextOk c = true
  | .enableHi c => contextOk c = true
  | .threshold c => contextOk c = true
  | .claim c => contextOk c = true

/-- The map of a layout reads the offset of a register back as the register. -/
theorem plicReg_plicOff {l : Layout} {r : PlicReg} (h : r.encodable l) :
    plicReg l (BitVec.ofNat 64 (plicOff l r)).toNat = some r := by
  cases r with
  | prio id => rw [plicOff_toNat l _ h, plicReg_prio l id h]
  | pendLo => cases l <;> rfl
  | pendHi => cases l <;> rfl
  | enableLo c =>
    obtain ⟨enableLo, -⟩ := plicReg_ctx l c h
    rw [plicOff_toNat l _ (of_decide_eq_true (p := c < 8) h), enableLo]
  | enableHi c =>
    obtain ⟨-, enableHi, -⟩ := plicReg_ctx l c h
    rw [plicOff_toNat l _ (of_decide_eq_true (p := c < 8) h), enableHi]
  | threshold c =>
    obtain ⟨-, -, threshold, -⟩ := plicReg_ctx l c h
    rw [plicOff_toNat l _ (of_decide_eq_true (p := c < 8) h), threshold]
  | claim c =>
    obtain ⟨-, -, -, claim⟩ := plicReg_ctx l c h
    rw [plicOff_toNat l _ (of_decide_eq_true (p := c < 8) h), claim]

/-- A CLINT register that the encoding can carry: its hart is one that an offset names. -/
def ClintReg.encodable : ClintReg → Prop
  | .msip h => msipHartOk h = true
  | .mtimecmp h _ => mtimecmpHartOk h = true
  | .mtime _ => True

/-- The width of an access to a CLINT register (R390). -/
def ClintReg.width : ClintReg → Nat
  | .msip _ => 4
  | .mtimecmp _ p => p.width
  | .mtime p => p.width

/-- The CLINT's map reads the offset of a register, in its width, back as the register. -/
theorem clintReg_clintOff {r : ClintReg} (h : r.encodable) :
    clintReg (BitVec.ofNat 64 (clintOff r)).toNat r.width = some r := by
  cases r with
  | msip n =>
    have hart := of_decide_eq_true h
    exact (clintOff_toNat (.msip n) hart).symm ▸ clintReg_msip n hart
  | mtimecmp n p =>
    have hart := of_decide_eq_true h
    exact (clintOff_toNat (.mtimecmp n p) hart).symm ▸ clintReg_mtimecmp n p hart
  | mtime p => cases p <;> rfl

/-! ## Rows (R149) -/

/-- The operation that reads a PLIC register. -/
def PlicReg.readRow (l : Layout) : PlicReg → Instr
  | .prio id => .plicPrioR l id
  | .pendLo => .plicPendLoR l
  | .pendHi => .plicPendHiR l
  | .enableLo c => .plicEnableLoR l c
  | .enableHi c => .plicEnableHiR l c
  | .threshold c => .plicThresholdR l c
  | .claim c => .plicClaimR l c

/-- The operation that writes a PLIC register; the pending registers have none (R357). -/
def PlicReg.writeRow (l : Layout) (v : Word32) : PlicReg → Option Instr
  | .prio id => some (.plicPrioW l id v)
  | .pendLo => none
  | .pendHi => none
  | .enableLo c => some (.plicEnableLoW l c v)
  | .enableHi c => some (.plicEnableHiW l c v)
  | .threshold c => some (.plicThresholdW l c v)
  | .claim c => some (.plicCompleteW l c v)

/-- The operation that reads a CLINT register. -/
def ClintReg.readRow : ClintReg → Instr
  | .msip h => .clintMsipR h
  | .mtimecmp h .full => .clintMtimecmpR h
  | .mtimecmp h .lo => .clintMtimecmpLoR h
  | .mtimecmp h .hi => .clintMtimecmpHiR h
  | .mtime .full => .clintMtimeR
  | .mtime .lo => .clintMtimeLoR
  | .mtime .hi => .clintMtimeHiR

/-- The operation that writes a CLINT register, by an access of four bytes of value `v` or of eight of value `w`. -/
def ClintReg.writeRow (v : Word32) (w : Word) : ClintReg → Instr
  | .msip h => .clintMsipW h v
  | .mtimecmp h .full => .clintMtimecmpW h w
  | .mtimecmp h .lo => .clintMtimecmpLoW h v
  | .mtimecmp h .hi => .clintMtimecmpHiW h v
  | .mtime .full => .clintMtimeW w
  | .mtime .lo => .clintMtimeLoW v
  | .mtime .hi => .clintMtimeHiW v

theorem decodeRead_clint (w : Nat) (off : Word) :
    decodeRead .clint w off = (clintReg off.toNat w).map ClintReg.readRow := by
  unfold decodeRead
  cases clintReg off.toNat w with
  | none => rfl
  | some r => cases r with
    | msip h => rfl
    | mtimecmp h p => cases p <;> rfl
    | mtime p => cases p <;> rfl

theorem decodeWrite_clint (off : Word) (bs : List Byte) :
    decodeWrite .clint off bs = (clintReg off.toNat bs.length).map (ClintReg.writeRow (data32 bs) (data64 bs)) := by
  unfold decodeWrite
  cases clintReg off.toNat bs.length with
  | none => rfl
  | some r => cases r with
    | msip h => rfl
    | mtimecmp h p => cases p <;> rfl
    | mtime p => cases p <;> rfl

/-- A read of a PLIC register that the encoding can carry decodes to the register's row. -/
theorem decodeRead_plicOff {l : Layout} {r : PlicReg} (h : r.encodable l) :
    decodeRead (.plic l) 4 (BitVec.ofNat 64 (plicOff l r)) = some (r.readRow l) := by
  simp only [decodeRead, plicReg_plicOff h]
  cases r with
  | prio id => rfl
  | pendLo => rfl
  | pendHi => rfl
  | enableLo c => exact if_pos h
  | enableHi c => exact if_pos h
  | threshold c => exact if_pos h
  | claim c => exact if_pos h

/-- So does a write. -/
theorem decodeWrite_plicOff {l : Layout} {r : PlicReg} (h : r.encodable l) (v : Word32) :
    decodeWrite (.plic l) (BitVec.ofNat 64 (plicOff l r)) (packLe v.toNat 4) = r.writeRow l v := by
  simp only [decodeWrite, length_packLe, plicReg_plicOff h, data32_packLe]
  cases r with
  | prio id => rfl
  | pendLo => rfl
  | pendHi => rfl
  | enableLo c => exact if_pos h
  | enableHi c => exact if_pos h
  | threshold c => exact if_pos h
  | claim c => exact if_pos h

/-- A read of a CLINT register that the encoding can carry, in the register's width, decodes to its row. -/
theorem decodeRead_clintOff {r : ClintReg} (h : r.encodable) :
    decodeRead .clint r.width (BitVec.ofNat 64 (clintOff r)) = some r.readRow := by
  rw [decodeRead_clint, clintReg_clintOff h]
  rfl

/-- So does a write of four bytes. -/
theorem decodeWrite_clintOff_4 {r : ClintReg} (h : r.encodable) (hw : r.width = 4) (v : Word32) :
    decodeWrite .clint (BitVec.ofNat 64 (clintOff r)) (packLe v.toNat 4) =
      some (r.writeRow v (data64 (packLe v.toNat 4))) := by
  rw [decodeWrite_clint, length_packLe, ← hw, clintReg_clintOff h, hw, data32_packLe]
  rfl

/-- So does a write of eight bytes. -/
theorem decodeWrite_clintOff_8 {r : ClintReg} (h : r.encodable) (hw : r.width = 8) (v : Word) :
    decodeWrite .clint (BitVec.ofNat 64 (clintOff r)) (packLe v.toNat 8) =
      some (r.writeRow (data32 (packLe v.toNat 8)) v) := by
  rw [decodeWrite_clint, length_packLe, ← hw, clintReg_clintOff h, hw, data64_packLe]
  rfl

/-- A four-byte write whose row takes the value of its data bytes takes the value that was encoded. -/
theorem decode_wr4_of_data {f : Format} {off : Nat} {v : Word32} {row : Word32 → Instr} {rest : List Token}
    (h : decodeWrite f (BitVec.ofNat 64 off) (packLe v.toNat 4) = some (row (data32 (packLe v.toNat 4)))) :
    decode (wr4 f off v ++ rest) = .ok (row v, rest) :=
  decode_wr4 _ _ _ _ _ (by rw [h, data32_packLe])

/-! ## The round trip -/

/-- Settles O1: a command's operands are read one by one as they were written, and the offset of a register access selects
the register it was computed from. -/
theorem decodeOfEncode : Obligations.DecodeOfEncode := by
  intro i rest h he
  cases i with
  | cpuMemoryBarrier | cpuFlushIcache | cpuFlushDcache | cpuFlushL2 | cpuFlushL3 | cpuSampleIrqs | cpuMaybeTakeInterrupt
  | cpuCompleteTrap | cpuMret | cpuShouldTakeInterrupt => exact Reads.decode (.done _) he
  | mmuSetAsid | cpuSetAsid | plicRaise | plicLower | plicGetContextIrq | clintAdvance | clintGetIrqLevels =>
    exact Reads.decode (.next (pNat_run _) (.done _)) he
  | dramPeek | mmuTranslate | cpuPrefetchData | cpuPrefetchInst =>
    exact Reads.decode (.next (pWord_run _) (.done _)) he
  | mmuFlushTlb | cpuFlushTlb => exact Reads.decode (.next (pOpt_nat _) (.done _)) he
  | cacheFlushAll | cacheStats => exact Reads.decode (.next (pLevel_run _) (.done _)) he
  | cpuCsrRead => exact Reads.decode (.next (pField_run _) (.done _)) he
  | dramReadBytes => exact Reads.decode (.next (pNat_run _) (.next (pNat_run _) (.done _))) he
  | busReadBytes => exact Reads.decode (.next (pWord_run _) (.next (pNat_run _) (.done _))) he
  | dramWriteBytes | dramLoadImage | busWriteBytes =>
    exact Reads.decode (.next (pWord_run _) (.next (fun _ => rfl) (.done _))) he
  | mmuUnmapPage | mmuFlushTlbEntry | cpuUnmapPage =>
    exact Reads.decode (.next (pNat_run _) (.next (pOpt_nat _) (.done _))) he
  | cpuFetch => exact Reads.decode (.next (pWord_run _) (.next (pOpt_nat _) (.done _))) he
  | cpuTrapEnter => exact Reads.decode (.next (pNat_run _) (.next (pOpt_bool _) (.done _))) he
  | cpuCsrWrite => exact Reads.decode (.next (pField_run _) (.next (pNat_run _) (.done _))) he
  | mmuCheckAccess => exact Reads.decode (.next (pWord_run _) (.next (pKind_run _) (.done _))) he
  | cacheRead => exact Reads.decode (.next (pWord_run _) (.next (pSide_run _) (.done _))) he
  | cachePrefetchLine => exact Reads.decode (.next (pLevel_run _) (.next (pWord_run _) (.done _))) he
  | cacheFlushLine => exact Reads.decode (.next (pWord_run _) (.next (pLevel_run _) (.done _))) he
  | busRegisterMmio => exact Reads.decode (.next (fun _ => rfl) (.next (fun _ => rfl) (.done _))) he
  | timerAdvance => exact Reads.decode (.next (fun _ => rfl) (.next (pNat_run _) (.done _))) he
  | uartPushRx => exact Reads.decode (.next (fun _ => rfl) (.next (pByte_run _) (.done _))) he
  | cpuAttachClint => exact Reads.decode (.next (fun _ => rfl) (.next (pHart_run _) (.done _))) he
  | dramCopy => exact Reads.decode (.next (pNat_run _) (.next (pNat_run _) (.next (pNat_run _) (.done _)))) he
  | dramFill => exact Reads.decode (.next (pWord_run _) (.next (pNat_run _) (.next (pByte_run _) (.done _)))) he
  | mmuSetPageAttributes | cpuSetPageAttributes =>
    exact Reads.decode (.next (pNat_run _) (.next (pAttrs_run _) (.next (pOpt_nat _) (.done _)))) he
  | cacheWriteBytes =>
    exact Reads.decode (.next (pWord_run _) (.next (fun _ => rfl) (.next (pOpt_side _) (.done _)))) he
  | cpuLoad => exact Reads.decode (.next (pWord_run _) (.next (pNat_run _) (.next (fun _ => rfl) (.done _)))) he
  | cpuAttachPlic =>
    exact Reads.decode (.next (fun _ => rfl) (.next (pWord_run _) (.next (pPlicContext_run _ _) (.done _)))) he
  | mmuMapPage | cpuMapPage =>
    exact Reads.decode (.next (pNat_run _) (.next (pOpt_nat _) (.next (pOpt_perm _) (.next (pOpt_nat _) (.done _))))) he
  | cpuStore =>
    exact Reads.decode
      (.next (pWord_run _) (.next (pNat_run _) (.next (fun _ => rfl) (.next (fun _ => rfl) (.done _))))) he
  | busMapRam =>
    exact Reads.decode (.next (fun _ => rfl) (.next (pWord_run _) (.next (pNat_run _) (.next (fun _ => rfl)
      (.next (pNat_run _) (.done _)))))) he
  | cpuPollInterrupts ctx handler =>
    cases handler with
    | none => exact Reads.decode (.next (pNat_run _) (.next (fun _ => rfl) (.done _))) he
    | some calls => exact Reads.decode (.next (pNat_run _) (.last (.handler calls) _)) he
  | plicPrioR l id => exact decode_rd4 _ _ _ _ (decodeRead_plicOff (r := .prio id) h)
  | plicPendLoR l => exact decode_rd4 _ _ _ _ (decodeRead_plicOff (r := .pendLo) trivial)
  | plicPendHiR l => exact decode_rd4 _ _ _ _ (decodeRead_plicOff (r := .pendHi) trivial)
  | plicEnableLoR l c => exact decode_rd4 _ _ _ _ (decodeRead_plicOff (r := .enableLo c) h)
  | plicEnableHiR l c => exact decode_rd4 _ _ _ _ (decodeRead_plicOff (r := .enableHi c) h)
  | plicThresholdR l c => exact decode_rd4 _ _ _ _ (decodeRead_plicOff (r := .threshold c) h)
  | plicClaimR l c => exact decode_rd4 _ _ _ _ (decodeRead_plicOff (r := .claim c) h)
  | plicPrioW l id v => exact decode_wr4 _ _ _ _ _ (decodeWrite_plicOff (r := .prio id) h v)
  | plicEnableLoW l c v => exact decode_wr4 _ _ _ _ _ (decodeWrite_plicOff (r := .enableLo c) h v)
  | plicEnableHiW l c v => exact decode_wr4 _ _ _ _ _ (decodeWrite_plicOff (r := .enableHi c) h v)
  | plicThresholdW l c v => exact decode_wr4 _ _ _ _ _ (decodeWrite_plicOff (r := .threshold c) h v)
  | plicCompleteW l c v => exact decode_wr4 _ _ _ _ _ (decodeWrite_plicOff (r := .claim c) h v)
  | clintMsipR n => exact decode_rd4 _ _ _ _ (decodeRead_clintOff (r := .msip n) h)
  | clintMtimecmpR n => exact decode_rd8 _ _ _ _ (decodeRead_clintOff (r := .mtimecmp n .full) h)
  | clintMtimecmpLoR n => exact decode_rd4 _ _ _ _ (decodeRead_clintOff (r := .mtimecmp n .lo) h)
  | clintMtimecmpHiR n => exact decode_rd4 _ _ _ _ (decodeRead_clintOff (r := .mtimecmp n .hi) h)
  | clintMtimeR => exact decode_rd8 _ _ _ _ (decodeRead_clintOff (r := .mtime .full) trivial)
  | clintMtimeLoR => exact decode_rd4 _ _ _ _ (decodeRead_clintOff (r := .mtime .lo) trivial)
  | clintMtimeHiR => exact decode_rd4 _ _ _ _ (decodeRead_clintOff (r := .mtime .hi) trivial)
  | clintMsipW n v => exact decode_wr4 _ _ _ _ _ (decodeWrite_clintOff_4 (r := .msip n) h rfl v)
  | clintMtimecmpW n v => exact decode_wr8 _ _ _ _ _ (decodeWrite_clintOff_8 (r := .mtimecmp n .full) h rfl v)
  | clintMtimecmpLoW n v => exact decode_wr4 _ _ _ _ _ (decodeWrite_clintOff_4 (r := .mtimecmp n .lo) h rfl v)
  | clintMtimecmpHiW n v => exact decode_wr4 _ _ _ _ _ (decodeWrite_clintOff_4 (r := .mtimecmp n .hi) h rfl v)
  | clintMtimeW v => exact decode_wr8 _ _ _ _ _ (decodeWrite_clintOff_8 (r := .mtime .full) trivial rfl v)
  | clintMtimeLoW v => exact decode_wr4 _ _ _ _ _ (decodeWrite_clintOff_4 (r := .mtime .lo) trivial rfl v)
  | clintMtimeHiW v => exact decode_wr4 _ _ _ _ _ (decodeWrite_clintOff_4 (r := .mtime .hi) trivial rfl v)
  | uartDataR => rfl
  | uartDataW => rfl
  | uartStatusR | uartCtrlR | timerCntLoR | timerCntHiR | timerCmpLoR | timerCmpHiR | timerCtrlR | timerStatusR
  | timerTickR | dmaSrcLoR | dmaSrcHiR | dmaDstLoR | dmaDstHiR | dmaLenR | dmaCtrlR | dmaStatusR =>
    exact decode_rd4 _ _ _ _ rfl
  | uartCtrlW k v | timerCntLoW k v | timerCntHiW k v | timerCmpLoW k v | timerCmpHiW k v | timerCtrlW k v
  | timerStatusW k v | timerTickW k v | dmaSrcLoW k v | dmaSrcHiW k v | dmaDstLoW k v | dmaDstHiW k v | dmaLenW k v
  | dmaCtrlW k v | dmaStatusW k v =>
    exact decode_wr4_of_data rfl
  | romRead => rfl
  | romWrite => simp [encode, decode, decodeAccess, decodeWrite]

/-! ## Records written out -/

/-- Settles O2: the records that give every operand by its number are those that `encode` writes, so they decode by the
round trip; the two that give a value by its name, and those that are refused, are evaluated. -/
theorem decodedRecords : Obligations.DecodedRecords := by
  have written : ∀ i, WellFormed i = true → decode (encode i) = .ok (i, []) := fun i h => by
    simpa using decodeOfEncode i [] h rfl
  exact ⟨written (.dramCopy 1 2 3) rfl, written (.mmuMapPage 5 (some 9) none none) rfl, by decide +kernel,
    written (.cpuStore 16 2 (-1) true) rfl, written (.cpuCsrWrite .meie 1) rfl, written (.plicClaimR .compact 1) rfl,
    written (.clintMtimeHiW 0x201) rfl, written (.dmaCtrlW 0 3) rfl, by decide +kernel, rfl, rfl, rfl, rfl, rfl⟩

end Sys2Proof
end

section
/-! SUPPORT. Where a bus transfer goes (spec/41_dram_bus.md R179 to R184): RAM regions, the registers of a device, and from
one region to the next. -/

namespace Sys2Proof.Machine

variable {α : Type}

/-! ## Operations read back from the states they answer (R16) -/

/-- A state is another but for the last result when recording one result in both makes them equal. -/
theorem eq_withResult {s t : State} {x y : OpResult} (h : { s with result := x } = { t with result := y }) :
    s = { t with result := s.result } :=
  congrArg (fun u : State => { u with result := s.result }) h

/-- An operation that answers a next state went well or ended in an error, whose result that state records. -/
theorem exec_next_run {i : Instr} {s t : State} (h : exec i s = .next t) :
    (∃ v u, opOf opCpuPollInterrupts i s = .ok v u ∧ t = u.ok v) ∨
      ∃ e u, opOf opCpuPollInterrupts i s = .error (.err e) u ∧ t = { u with result := .err e } := by
  rw [exec_eq, finish] at h
  cases hm : opOf opCpuPollInterrupts i s with
  | ok v u =>
    rw [hm] at h
    exact .inl ⟨v, u, rfl, (Host.Outcome.next.inj h).symm⟩
  | error e u =>
    rw [hm] at h
    cases e with
    | err e => exact .inr ⟨e, u, rfl, (Host.Outcome.next.inj h).symm⟩
    | refuse r => cases h

/-- An operation that answered a value ran to it, in the state answered but for the result. -/
theorem exec_ok_run {i : Instr} {s t : State} {v : Value} (h : exec i s = .next (t.ok v)) :
    ∃ res, opOf opCpuPollInterrupts i s = .ok v { t with result := res } := by
  rcases exec_next_run h with ⟨w, u, run, same⟩ | ⟨e, u, run, same⟩
  · cases congrArg State.result same
    exact ⟨u.result, eq_withResult same.symm ▸ run⟩
  · cases congrArg State.result same

/-- An operation that answered an error ended in it, in the state answered but for the result. -/
theorem exec_err_run {i : Instr} {s t : State} {k : ErrKind} (h : exec i s = .next (t.err k)) :
    ∃ res, opOf opCpuPollInterrupts i s = .error (.err { kind := k }) { t with result := res } := by
  rcases exec_next_run h with ⟨w, u, run, same⟩ | ⟨e, u, run, same⟩
  · cases congrArg State.result same
  · cases congrArg State.result same
    exact ⟨u.result, eq_withResult same.symm ▸ run⟩

/-- What an operation and then an answer of its result went well with, the operation did. -/
theorem Op.ok_of_returning {m : Op α} {f : α → Value} {s t : State} {v : Value}
    (h : (m >>= fun a => pure (f a)) s = .ok v t) : ∃ a, m s = .ok a t ∧ f a = v := by
  obtain ⟨a, u, run, ret⟩ := Op.ok_of_bind h
  cases ret
  exact ⟨a, run, rfl⟩

/-- What an operation and then an answer of its result ended early with, the operation did. -/
theorem Op.error_of_returning {m : Op α} {f : α → Value} {s t : State} {e : Stop}
    (h : (m >>= fun a => pure (f a)) s = .error e t) : m s = .error e t := by
  rw [Op.run_bind] at h
  cases hm : m s with
  | ok a u => rw [hm] at h; cases h
  | error e u =>
    rw [hm] at h
    cases h
    rfl

/-- An operation that goes well does so with other counters and another last result. -/
theorem Counts.ok {m : Op α} {x y : Nat} {res : Option OpResult} {s t : State} {v : α} (h : Counts x y res m)
    (run : m s = .ok v t) : m (s.counted x y res) = .ok v (t.counted x y res) := by
  rw [h s, run]

/-- So does one that ends early. -/
theorem Counts.error {m : Op α} {x y : Nat} {res : Option OpResult} {s t : State} {e : Stop} (h : Counts x y res m)
    (run : m s = .error e t) : m (s.counted x y res) = .error e (t.counted x y res) := by
  rw [h s, run]

section

variable {s t : State} {pa : Word} {n : Nat} {bs : List Byte}

theorem exec_busRead_ok (h : busRead pa.toNat n s = .ok bs t) : exec (.busReadBytes pa n) s = .next (t.ok (.bytes bs)) :=
  exec_ok (Op.bind_ok h)

theorem exec_busRead_err {e : Err} (h : busRead pa.toNat n s = .error (.err e) t) :
    exec (.busReadBytes pa n) s = .next { t with result := .err e } := by
  rw [exec_eq]
  exact finish_err (Op.bind_error h)

theorem exec_busRead_refuse {x : Refusal} (h : busRead pa.toNat n s = .error (.refuse x) t) :
    exec (.busReadBytes pa n) s = .refused x :=
  exec_refuse (Op.bind_error h)

theorem exec_busWrite_ok (h : busWrite pa.toNat bs s = .ok () t) : exec (.busWriteBytes pa bs) s = .next (t.ok .unit) :=
  exec_ok (Op.bind_ok h)

theorem exec_busWrite_err {e : Err} (h : busWrite pa.toNat bs s = .error (.err e) t) :
    exec (.busWriteBytes pa bs) s = .next { t with result := .err e } := by
  rw [exec_eq]
  exact finish_err (Op.bind_error h)

theorem exec_busWrite_refuse {x : Refusal} (h : busWrite pa.toNat bs s = .error (.refuse x) t) :
    exec (.busWriteBytes pa bs) s = .refused x :=
  exec_refuse (Op.bind_error h)

/-- A read that answered bytes ran to them, in the state answered but for the result. -/
theorem busRead_of_exec (h : exec (.busReadBytes pa n) s = .next (t.ok (.bytes bs))) :
    ∃ res, busRead pa.toNat n s = .ok bs { t with result := res } := by
  obtain ⟨res, run⟩ := exec_ok_run h
  obtain ⟨_, run, same⟩ := Op.ok_of_returning run
  cases same
  exact ⟨res, run⟩

/-- A write that answered no error ran to its end, in the state answered but for the result. -/
theorem busWrite_of_exec (h : exec (.busWriteBytes pa bs) s = .next (t.ok .unit)) :
    ∃ res, busWrite pa.toNat bs s = .ok () { t with result := res } := by
  obtain ⟨res, run⟩ := exec_ok_run h
  obtain ⟨_, run, -⟩ := Op.ok_of_returning run
  exact ⟨res, run⟩

end

/-! ## Registers of a device (R142, R181) -/

/-- A read access without data that decodes has a row. -/
theorem decodeRead_of_decode {f : Format} {w : Nat} {off : Word} {i : Instr}
    (h : decode [.access f .R w off []] = .ok (i, [])) : decodeRead f w off = some i := by
  cases hd : decodeRead f w off with
  | none => simp [decode, decodeAccess, hd] at h
  | some j => simpa [decode, decodeAccess, hd] using h

/-- A write access of as many bytes as its width that decodes has a row. -/
theorem decodeWrite_of_decode {f : Format} {off : Word} {bs : List Byte} {i : Instr}
    (h : decode [.access f .W bs.length off bs] = .ok (i, [])) : decodeWrite f off bs = some i := by
  cases hd : decodeWrite f off bs with
  | none => simp [decode, decodeAccess, hd] at h
  | some j => simpa [decode, decodeAccess, hd] using h

/-- A read in the layout of the PLIC is a read of its register. -/
theorem opPlicRead_own (s : State) (r : PlicReg) :
    opPlicRead s.cfg.plic.layout r s = (plicRead r >>= fun bs => pure (.bytes bs) : Op Value) s := by
  have own : wantLayout s.cfg.plic.layout s = .ok () s := by
    rw [wantLayout, Op.get_bind_run, if_pos rfl, Op.run_pure]
  rw [opPlicRead, Op.bind_ok own]

/-- A write in the layout of the PLIC is a write of its register. -/
theorem opPlicWrite_own (s : State) (r : PlicReg) (v : Word32) :
    opPlicWrite s.cfg.plic.layout r v s = (plicWrite r v >>= fun _ => pure .unit : Op Value) s := by
  have own : wantLayout s.cfg.plic.layout s = .ok () s := by
    rw [wantLayout, Op.get_bind_run, if_pos rfl, Op.run_pure]
  rw [opPlicWrite, Op.bind_ok own]

/-- A PLIC access that has a read row names a register, whose row it is. -/
theorem decodeRead_plic_some {l : Layout} {w : Nat} {off : Word} {i : Instr} (h : decodeRead (.plic l) w off = some i) :
    ∃ r, (if w = 4 then plicReg l off.toNat else none) = some r ∧ i = r.readRow l := by
  by_cases hw : w = 4
  · simp only [decodeRead, hw, ne_eq, not_true_eq_false, if_false] at h
    rw [if_pos hw]
    cases hr : plicReg l off.toNat with
    | none =>
      rw [hr] at h
      cases h
    | some r =>
      rw [hr] at h
      refine ⟨r, rfl, ?_⟩
      cases r with
      | prio id | pendLo | pendHi => exact (Option.some.inj h).symm
      | enableLo c | enableHi c | threshold c | claim c => exact (Option.some.inj (Option.ite_none_right_eq_some.1 h).2).symm
  · simp [decodeRead, hw] at h

/-- A PLIC access that has a write row names a register, whose row it is. -/
theorem decodeWrite_plic_some {l : Layout} {off : Word} {bs : List Byte} {i : Instr}
    (h : decodeWrite (.plic l) off bs = some i) :
    ∃ r, (if bs.length = 4 then plicReg l off.toNat else none) = some r ∧ r.writeRow l (data32 bs) = some i := by
  by_cases hw : bs.length = 4
  · simp only [decodeWrite, hw, ne_eq, not_true_eq_false, if_false] at h
    rw [if_pos hw]
    cases hr : plicReg l off.toNat with
    | none =>
      rw [hr] at h
      cases h
    | some r =>
      rw [hr] at h
      refine ⟨r, rfl, ?_⟩
      cases r with
      | prio id | pendLo | pendHi => exact h
      | enableLo c | enableHi c | threshold c | claim c => exact (Option.ite_none_right_eq_some.1 h).2
  · simp [decodeWrite, hw] at h

theorem opOf_plic_readRow (poll) (l : Layout) (r : PlicReg) : opOf poll (r.readRow l) = opPlicRead l r := by
  cases r <;> rfl

theorem opOf_plic_writeRow (poll) {l : Layout} {r : PlicReg} {v : Word32} {i : Instr} (h : r.writeRow l v = some i) :
    opOf poll i = opPlicWrite l r v := by
  cases r <;> cases h <;> rfl

/-- The value of a write's first four bytes is the low half of that of its first eight. -/
theorem lo32_data64 (bs : List Byte) : lo32 (data64 bs) = data32 bs := by
  apply BitVec.eq_of_toNat_eq
  rw [lo32_toNat, data64, data32, BitVec.toNat_ofNat, BitVec.toNat_ofNat, Nat.mod_mod_of_dvd _ (by decide)]

/-- A write of a CLINT register of four bytes takes the low half of its value. -/
theorem clintWrite_congr {r : ClintReg} {v w : Word} (hr : r.width = 4) (same : lo32 v = lo32 w) :
    clintWrite r v = clintWrite r w := by
  have halves : ∀ p : Part, p.width = 4 → ∀ x, setPart p x v = setPart p x w := by
    intro p hp x
    cases p with
    | full => cases hp
    | lo => exact congrArg (setLo32 x) same
    | hi => exact congrArg (setHi32 x) same
  cases r with
  | msip h =>
    have bit : v.getLsbD 0 = w.getLsbD 0 := by
      simpa [lo32] using congrArg (BitVec.getLsbD · 0) same
    simp only [clintWrite, bit]
  | mtimecmp h p => simp only [clintWrite, halves p hr]
  | mtime p => simp only [clintWrite, halves p hr]

/-- The operation of a CLINT register's write row writes the register. -/
theorem opOf_clint_writeRow (poll) (r : ClintReg) (bs : List Byte) :
    opOf poll (r.writeRow (data32 bs) (data64 bs)) = opClintWrite r (data64 bs) := by
  have low : lo32 ((data32 bs).setWidth 64) = lo32 (data64 bs) := by rw [lo32_setWidth, lo32_data64]
  have narrow : ∀ r : ClintReg, r.width = 4 → opClintWrite r ((data32 bs).setWidth 64) = opClintWrite r (data64 bs) :=
    fun r hr => by rw [opClintWrite, clintWrite_congr hr low, opClintWrite]
  cases r with
  | msip h => exact narrow _ rfl
  | mtimecmp h p =>
    cases p with
    | full => rfl
    | lo => exact narrow _ rfl
    | hi => exact narrow _ rfl
  | mtime p =>
    cases p with
    | full => rfl
    | lo => exact narrow _ rfl
    | hi => exact narrow _ rfl

/-- A write of the UART's DATA transmits the first of its data bytes. -/
theorem uartWrite_data (k : Nat) (bs : List Byte) :
    uartWrite k .data ((bs.headD 0).setWidth 32) = uartWrite k .data (data32 bs) := by
  have first : ((bs.headD 0).setWidth 32).setWidth 8 = (data32 bs).setWidth 8 := by
    apply BitVec.eq_of_toNat_eq
    cases bs with
    | nil => rfl
    | cons b bs =>
      have := b.isLt
      simp [data32, unpackLe]
      omega
  simp only [uartWrite, first]

/-- A read that decodes in a device's format is, as a call of its own, what a bus chunk does with the device (R142, R181). -/
theorem opOf_decodeRead {s : State} {d : DevRef} {w : Nat} {off : Word} {i : Instr}
    (h : decodeRead (s.formatOf d) w off = some i) :
    opOf opCpuPollInterrupts i s = (deviceRead d off.toNat w >>= fun bs => pure (.bytes bs) : Op Value) s := by
  cases d with
  | plic =>
    obtain ⟨r, hr, rfl⟩ := decodeRead_plic_some h
    rw [opOf_plic_readRow, opPlicRead_own]
    simp only [deviceRead, Op.run_bind, Op.run_get, hr]
  | rom k =>
    cases h
    rfl
  | clint | uart k | timer k | dma k =>
    simp only [State.formatOf, decodeRead] at h
    split at h
    any_goals cases h
    all_goals simp only [deviceRead, *]; rfl

/-- So is a write. -/
theorem opOf_decodeWrite {s : State} {d : DevRef} {off : Word} {bs : List Byte} {i : Instr}
    (h : decodeWrite (s.formatOf d) off bs = some i) :
    opOf opCpuPollInterrupts i s =
      (deviceWriteWith dmaCtrlWrite d off.toNat bs >>= fun _ => pure .unit : Op Value) s := by
  cases d with
  | plic =>
    obtain ⟨r, hr, row⟩ := decodeWrite_plic_some h
    rw [opOf_plic_writeRow _ row, opPlicWrite_own]
    simp only [deviceWriteWith, Op.run_bind, Op.run_get, hr]
  | clint =>
    obtain ⟨r, hr, rfl⟩ := Option.map_eq_some_iff.1 (decodeWrite_clint off bs ▸ h)
    rw [opOf_clint_writeRow]
    simp only [deviceWriteWith, hr]
    rfl
  | uart k =>
    simp only [State.formatOf, decodeWrite] at h
    split at h
    any_goals cases h
    · rename_i hr
      simp only [deviceWriteWith, hr, ← uartWrite_data]
      rfl
    · rename_i hr
      simp only [deviceWriteWith, hr]
      rfl
  | rom k =>
    cases h
    rfl
  | timer k | dma k =>
    simp only [State.formatOf, decodeWrite] at h
    split at h
    any_goals cases h
    all_goals simp only [deviceWriteWith, *]; rfl

/-! ## A transfer, from its first chunk on (R182, R183) -/

/-- The read of k bytes at `a` in one region, with its check and the fault that an error counts. -/
def chunkIn (r : Region) (a k : Nat) : Op (List Byte) :=
  countFault do
    chunkCheck r a k
    chunkRead r a k

/-- The write of bytes at `a` in one region, with its check and the fault that an error counts. -/
def chunkOut (ctrl : Nat → Word32 → Op Unit) (r : Region) (a : Nat) (bs : List Byte) : Op Unit :=
  countFault do
    chunkCheck r a bs.length
    chunkWriteWith ctrl r a bs

theorem Counts.chunkIn {x y : Nat} {res : Option OpResult} (r : Region) (a k : Nat) : Counts x y res (chunkIn r a k) :=
  .countFault (.bind (.chunkCheck r a k) fun _ => .chunkRead r a k)

theorem Counts.chunkOut {x y : Nat} {res : Option OpResult} (r : Region) (a : Nat) (bs : List Byte) :
    Counts x y res (chunkOut dmaCtrlWrite r a bs) :=
  .countFault (.bind (.chunkCheck r a _) fun _ => .chunkWriteWith (.dmaCtrl _) r a bs)

section

variable {s : State} {a k n : Nat} {r : Region} (ha : a < 2 ^ 64) (hf : s.bus.find a = some r)

include ha hf

/-- A read of k bytes and n more, the k bytes its first chunk, is that chunk and the read of the n. -/
theorem readChunks_first (hk : 1 ≤ k) (chunk : min (k + n) (r.last - a + 1) = k) :
    readChunks (k + n) a (k + n) s = (do
      let bs ← chunkIn r a k
      recordRead a bs
      let rest ← readChunks n (a + k) n
      return bs ++ rest) s := by
  obtain ⟨f, hfuel⟩ : ∃ f, k + n = f + 1 := ⟨k + n - 1, by omega⟩
  have fuel : readChunks f (a + k) n = readChunks n (a + k) n := readChunks_fuel _ _ _ _ (by omega) le_rfl
  conv_lhs => rw [hfuel, readChunks_succ _ _ _ (by omega), ← hfuel]
  rw [Op.bind_ok (countFault_ok (decodeAddress_ok ha hf)), chunk, Nat.add_sub_cancel_left, fuel]
  rfl

/-- A read in one region is one chunk. -/
theorem readChunks_one (hk : 1 ≤ k) (fits : a + k ≤ r.base + r.size) :
    readChunks k a k s = (do
      let bs ← chunkIn r a k
      recordRead a bs
      return bs) s := by
  have chunk : min (k + 0) (r.last - a + 1) = k := by
    unfold Region.last
    omega
  have first := readChunks_first ha hf hk chunk
  simpa [readChunks_zero] using first

/-- A write of `bs` and then `cs`, the bytes `bs` its first chunk, is that chunk and the write of `cs`. -/
theorem writeChunks_first {ctrl : Nat → Word32 → Op Unit} {bs cs : List Byte} (hb : bs ≠ [])
    (chunk : min (bs.length + cs.length) (r.last - a + 1) = bs.length) :
    writeChunks ctrl (bs ++ cs).length a (bs ++ cs) s = (do
      chunkOut ctrl r a bs
      recordWrite a bs
      writeChunks ctrl cs.length (a + bs.length) cs) s := by
  have hl := List.length_pos_iff.2 hb
  obtain ⟨f, hfuel⟩ : ∃ f, (bs ++ cs).length = f + 1 := ⟨bs.length + cs.length - 1, by simp; omega⟩
  have fuel : writeChunks ctrl f (a + bs.length) cs = writeChunks ctrl cs.length (a + bs.length) cs :=
    writeChunks_fuel _ _ _ _ _ (by simp at hfuel; omega) le_rfl
  rw [hfuel, writeChunks_succ _ _ _ _ (by simp [hb]), Op.bind_ok (countFault_ok (decodeAddress_ok ha hf)),
    List.length_append, chunk, List.take_left, List.drop_left, fuel]
  rfl

/-- A write in one region is one chunk. -/
theorem writeChunks_one {ctrl : Nat → Word32 → Op Unit} {bs : List Byte} (hb : bs ≠ [])
    (fits : a + bs.length ≤ r.base + r.size) :
    writeChunks ctrl bs.length a bs s = (do
      chunkOut ctrl r a bs
      recordWrite a bs) s := by
  have hl := List.length_pos_iff.2 hb
  have chunk : min (bs.length + ([] : List Byte).length) (r.last - a + 1) = bs.length := by
    unfold Region.last
    simp
    omega
  have first := writeChunks_first (ctrl := ctrl) ha hf hb chunk
  simpa [writeChunks_nil] using first

end

/-! ## Transfers in one region -/

/-- A read in one region is its one chunk, counted and recorded. -/
theorem busRead_one {s t : State} {a n : Nat} {r : Region} {bs : List Byte} (ha : a < 2 ^ 64) (hn : 1 ≤ n)
    (hf : s.bus.find a = some r) (fits : a + n ≤ r.base + r.size) (h : chunkIn r a n s = .ok bs t) :
    busRead a n s = .ok bs { t with bus := t.bus.afterRead a bs } :=
  (readChunks_one (s := s.counted 1 0 none) ha hf hn fits).trans (Op.bind_ok ((Counts.chunkIn r a n).ok h))

section

variable {s t : State} {a : Nat} {r : Region} {bs : List Byte} (ha : a < 2 ^ 64) (hb : bs ≠ [])
  (hf : s.bus.find a = some r) (fits : a + bs.length ≤ r.base + r.size)

include ha hb hf fits

/-- A write in one region is its one chunk, counted and recorded. -/
theorem busWrite_one (h : chunkOut dmaCtrlWrite r a bs s = .ok () t) :
    busWrite a bs s = .ok () { t with bus := t.bus.afterWrite a bs } :=
  (writeChunks_one (s := s.counted 0 1 none) ha hf hb fits).trans (Op.bind_ok ((Counts.chunkOut r a bs).ok h))

/-- A write in one region ends in the error of its one chunk, counted. -/
theorem busWrite_one_error {e : Stop} (h : chunkOut dmaCtrlWrite r a bs s = .error e t) :
    busWrite a bs s = .error e (t.counted 0 1 none) :=
  (writeChunks_one (s := s.counted 0 1 none) ha hf hb fits).trans (Op.bind_error ((Counts.chunkOut r a bs).error h))

end

/-- An access that reaches a device passes the check of R180. -/
theorem chunkCheck_device {s : State} {a n : Nat} {r : Region} {d : DevRef} (h : s.reachesDevice a n r d) :
    chunkCheck r a n s = .ok () s := by
  obtain ⟨-, -, -, caps, hk, strict⟩ := h
  rw [chunkCheck, Op.get_bind_run, hk]
  dsimp only
  rw [if_neg]
  · rfl
  · rintro ⟨hs, bad⟩
    obtain ⟨aligned, width⟩ := strict hs
    refine bad ⟨aligned, ?_⟩
    cases hw : caps.widths with
    | none => rfl
    | some ws => simpa using width ws hw

theorem chunkRead_device {s : State} {a n : Nat} {r : Region} {d : DevRef} (h : s.reachesDevice a n r d) :
    chunkRead r a n = deviceRead d (a - r.base) n := by
  obtain ⟨-, -, -, caps, hk, -⟩ := h
  rw [chunkRead, hk]

theorem chunkWriteWith_device {s : State} {a : Nat} {bs : List Byte} {r : Region} {d : DevRef}
    (h : s.reachesDevice a bs.length r d) (ctrl : Nat → Word32 → Op Unit) :
    chunkWriteWith ctrl r a bs = deviceWriteWith ctrl d (a - r.base) bs := by
  obtain ⟨-, -, -, caps, hk, -⟩ := h
  rw [chunkWriteWith, hk]

/-- The offset of an address in its region, as a register access carries it. -/
theorem offset_toNat (pa : Word) (base : Nat) : (BitVec.ofNat 64 (pa.toNat - base)).toNat = pa.toNat - base := by
  rw [BitVec.toNat_ofNat, Nat.mod_eq_of_lt]
  have := pa.isLt
  omega

/-- A read that reaches a device is the device's register read (R181). -/
theorem busRead_device {s t : State} {pa : Word} {n : Nat} {r : Region} {d : DevRef} {bs : List Byte} {i : Instr}
    (h : s.reachesDevice pa.toNat n r d)
    (dec : decode [.access (s.formatOf d) .R n (BitVec.ofNat 64 (pa.toNat - r.base)) []] = .ok (i, []))
    (run : opOf opCpuPollInterrupts i s = .ok (.bytes bs) t) :
    busRead pa.toNat n s = .ok bs { t with bus := t.bus.afterRead pa.toNat bs } := by
  obtain ⟨hn, hf, fits, -⟩ := id h
  rw [opOf_decodeRead (decodeRead_of_decode dec), offset_toNat, ← chunkRead_device h] at run
  obtain ⟨_, run, same⟩ := Op.ok_of_returning run
  cases same
  exact busRead_one pa.isLt hn hf fits (countFault_ok ((Op.bind_ok (chunkCheck_device h)).trans run))

/-- A write that reaches a device is the device's register write (R181). -/
theorem chunkOut_device {s : State} {pa : Word} {r : Region} {d : DevRef} {bs : List Byte} {i : Instr}
    (h : s.reachesDevice pa.toNat bs.length r d)
    (dec : decode [.access (s.formatOf d) .W bs.length (BitVec.ofNat 64 (pa.toNat - r.base)) bs] = .ok (i, [])) :
    opOf opCpuPollInterrupts i s = ((do
      chunkCheck r pa.toNat bs.length
      chunkWriteWith dmaCtrlWrite r pa.toNat bs) >>= fun _ => pure .unit : Op Value) s := by
  rw [opOf_decodeWrite (decodeWrite_of_decode dec), offset_toNat, ← chunkWriteWith_device h, Op.run_bind, Op.run_bind,
    Op.bind_ok (chunkCheck_device h)]

/-! ## From one region to the next (R182, R183) -/

/-- A transfer that reaches the end of a region after k bytes has a first chunk of k. -/
theorem min_regionEnd {r : Region} {a k : Nat} (hk : 1 ≤ k) (stop : a + k = r.base + r.size) (n : Nat) :
    min (k + n) (r.last - a + 1) = k := by
  unfold Region.last
  omega

/-- A read over the end of a region is the read to that end and, in the state this leaves, the chunks of the rest. -/
theorem busRead_split {s t : State} {a k : Nat} {r : Region} {bs : List Byte} (ha : a < 2 ^ 64) (hk : 1 ≤ k)
    (hf : s.bus.find a = some r) (stop : a + k = r.base + r.size) (h : busRead a k s = .ok bs t) (n : Nat) :
    busRead a (k + n) s = (readChunks n (a + k) n >>= fun cs => pure (bs ++ cs)) t := by
  have one := readChunks_one (s := s.counted 1 0 none) ha hf hk stop.le
  have first := readChunks_first (s := s.counted 1 0 none) ha hf hk (min_regionEnd hk stop n)
  obtain ⟨xs, u, read, h⟩ := Op.ok_of_bind (one.symm.trans h)
  cases h
  rw [Op.bind_ok read] at first
  exact first

/-- A write over the end of a region is the write to that end and, in the state this leaves, the chunks of the rest. -/
theorem busWrite_split {s t : State} {a : Nat} {r : Region} {bs : List Byte} (ha : a < 2 ^ 64) (hb : bs ≠ [])
    (hf : s.bus.find a = some r) (stop : a + bs.length = r.base + r.size) (h : busWrite a bs s = .ok () t)
    (cs : List Byte) : busWrite a (bs ++ cs) s = writeChunks dmaCtrlWrite cs.length (a + bs.length) cs t := by
  have one := writeChunks_one (s := s.counted 0 1 none) (ctrl := dmaCtrlWrite) ha hf hb stop.le
  have first := writeChunks_first (s := s.counted 0 1 none) (ctrl := dmaCtrlWrite) ha hf hb
    (min_regionEnd (List.length_pos_iff.2 hb) stop cs.length)
  obtain ⟨_, u, written, h⟩ := Op.ok_of_bind (one.symm.trans h)
  cases h
  rw [Op.bind_ok written] at first
  exact first

theorem next_toNat {pa : Word} {k : Nat} (h : pa.toNat + k < 2 ^ 64) :
    (BitVec.ofNat 64 (pa.toNat + k)).toNat = pa.toNat + k := by
  rw [BitVec.toNat_ofNat, Nat.mod_eq_of_lt h]

/-- The end of a read over the end of a region (R182): the bytes of both parts, or the second's error; one transfer. -/
theorem exec_busRead_split {s t u : State} {pa : Word} {r : Region} {k n : Nat} {bs : List Byte} {res : OpResult}
    (hf : s.bus.find pa.toNat = some r) (hk : 1 ≤ k) (stop : pa.toNat + k = r.base + r.size)
    (inside : pa.toNat + k < 2 ^ 64) (first : exec (.busReadBytes pa k) s = .next (t.ok (.bytes bs)))
    (second : exec (.busReadBytes (BitVec.ofNat 64 (pa.toNat + k)) n) t = .next { u with result := res }) :
    (∃ cs, res = .ok (.bytes cs) ∧ exec (.busReadBytes pa (k + n)) s =
      .next ({ u with bus := { u.bus with reads := u.bus.reads - 1 } }.ok (.bytes (bs ++ cs)))) ∨
    ∃ e, res = .err e ∧ exec (.busReadBytes pa (k + n)) s =
      .next { u with bus := { u.bus with reads := u.bus.reads - 1 }, result := .err e } := by
  obtain ⟨x, run⟩ := busRead_of_exec first
  have whole := busRead_split pa.isLt hk hf stop run n
  have next := next_toNat inside
  have counts := Counts.readChunks (x := 1) (y := 0) (res := some t.result) n (pa.toNat + k) n
  cases rest : readChunks n (pa.toNat + k) n { t with result := x } with
  | ok cs v =>
    have same := Host.Outcome.next.inj (second.symm.trans (exec_busRead_ok (next ▸ counts.ok rest)))
    refine .inl ⟨cs, congrArg State.result same, ?_⟩
    rw [exec_busRead_ok (whole.trans (Op.bind_ok rest))]
    exact congrArg Host.Outcome.next (congrArg (fun w : State =>
      { w with bus := { w.bus with reads := w.bus.reads - 1 } }.ok (.bytes (bs ++ cs))) same.symm)
  | error e v =>
    cases e with
    | err e =>
      have same := Host.Outcome.next.inj (second.symm.trans (exec_busRead_err (next ▸ counts.error rest)))
      refine .inr ⟨e, congrArg State.result same, ?_⟩
      rw [exec_busRead_err (whole.trans (Op.bind_error rest))]
      exact congrArg Host.Outcome.next (congrArg (fun w : State =>
        { w with bus := { w.bus with reads := w.bus.reads - 1 }, result := .err e }) same.symm)
    | refuse e => cases second.symm.trans (exec_busRead_refuse (next ▸ counts.error rest))

/-- The end of a write over the end of a region (R183): that of the write of the rest; one transfer. -/
theorem exec_busWrite_split {s t u : State} {pa : Word} {r : Region} {bs cs : List Byte}
    (hf : s.bus.find pa.toNat = some r) (hb : bs ≠ []) (stop : pa.toNat + bs.length = r.base + r.size)
    (inside : pa.toNat + bs.length < 2 ^ 64) (first : exec (.busWriteBytes pa bs) s = .next (t.ok .unit))
    (second : exec (.busWriteBytes (BitVec.ofNat 64 (pa.toNat + bs.length)) cs) t = .next u) :
    exec (.busWriteBytes pa (bs ++ cs)) s = .next { u with bus := { u.bus with writes := u.bus.writes - 1 } } := by
  obtain ⟨x, run⟩ := busWrite_of_exec first
  have whole := busWrite_split pa.isLt hb hf stop run cs
  have next := next_toNat inside
  have counts := Counts.writeChunks (x := 0) (y := 1) (res := some t.result) (Counts.dmaCtrl (2 ^ 32)) cs.length
    (pa.toNat + bs.length) cs
  cases rest : writeChunks dmaCtrlWrite cs.length (pa.toNat + bs.length) cs { t with result := x } with
  | ok _ v =>
    cases second.symm.trans (exec_busWrite_ok (next ▸ counts.ok rest))
    exact exec_busWrite_ok (whole.trans rest)
  | error e v =>
    cases e with
    | err e =>
      cases second.symm.trans (exec_busWrite_err (next ▸ counts.error rest))
      exact exec_busWrite_err (whole.trans rest)
    | refuse e => cases second.symm.trans (exec_busWrite_refuse (next ▸ counts.error rest))

/-! ## A write over RAM regions (R183) -/

/-- Bytes stored from an address on and then bytes stored from their end on are all stored from the address on. -/
theorem storedThrough_append {s t : State} {cells : Memory} {a : Nat} {xs ys : List Byte} (hc : t.cfg = s.cfg)
    (hr : t.bus.regions = s.bus.regions) (first : s.storedThrough t.dram.cells a xs)
    (second : t.storedThrough cells (a + xs.length) ys) : s.storedThrough cells a (xs ++ ys) := by
  have map : ∀ x, t.ramOffset x = s.ramOffset x := fun x => by simp only [State.ramOffset, Bus.find, hr]
  obtain ⟨in1, out1⟩ := first
  obtain ⟨in2, out2⟩ := second
  simp only [map, State.dramByte, hc] at in2 out2
  refine ⟨fun i o hi ho last => ?_, fun x hx => ?_⟩
  · by_cases h : i < xs.length
    · rw [out2 o fun j hj => ?_, in1 i o h ho fun j hij hj => last j hij (by simp; omega)]
      · exact (List.getD_append _ _ _ _ h).symm
      · rw [Nat.add_assoc]
        exact last _ (by omega) (by simp; omega)
    · obtain ⟨j, rfl⟩ : ∃ j, i = xs.length + j := ⟨i - xs.length, by omega⟩
      rw [in2 j o (by simpa using hi) (by rwa [Nat.add_assoc]) fun m hm hl => ?_]
      · rw [List.getD_append_right _ _ _ _ (by omega), Nat.add_sub_cancel_left]
      · rw [Nat.add_assoc]
        exact last _ (by omega) (by simp; omega)
  · rw [out2 x fun j hj => ?_, out1 x fun j hj => hx j (by simp; omega)]
    rw [Nat.add_assoc]
    exact hx _ (by simp; omega)

/-- Bytes written inside one RAM region are stored through its map. -/
theorem storedThrough_ramRange {s : State} {a o : Nat} {bs : List Byte} (hR : RegionsOk s.bus)
    (wf : Memory.wf s.cfg.fillByte s.dram.cells) (h : s.ramRange a bs.length o) :
    s.storedThrough (Memory.writeBytes s.cfg.fillByte s.dram.cells o bs) a bs := by
  have mapped : ∀ i < bs.length, s.ramOffset (a + i) = some (o + i) := fun i hi => by
    obtain ⟨-, -, offset, -⟩ := ramRange_sub hR h (m := 1) (show i + 1 ≤ bs.length by omega) le_rfl
    exact offset
  refine ⟨fun i x hi hx _ => ?_, fun x hx => ?_⟩
  · cases (mapped i hi).symm.trans hx
    rw [Memory.read_writeBytes wf, if_pos (by omega), Nat.add_sub_cancel_left]
  · rw [Memory.read_writeBytes wf, if_neg]
    · rfl
    · rintro ⟨lo, hi⟩
      exact hx (x - o) (by omega) ((mapped _ (by omega)).trans (by congr 1; omega))

/-- The n bytes from physical address `a` on reach RAM, each at an offset within the DRAM's size. -/
def State.inRam (s : State) (a n : Nat) : Prop := ∀ i < n, ∃ o, s.ramOffset (a + i) = some o ∧ o < s.cfg.dramSize

/-- What a RAM offset says of the region of its address. -/
theorem ramOffset_some {s : State} {a o : Nat} (h : s.ramOffset a = some o) :
    ∃ r o', s.bus.find a = some r ∧ r.kind = .ram o' ∧ o = o' + (a - r.base) := by
  unfold State.ramOffset at h
  split at h
  · rename_i r hr
    split at h
    · rename_i o' hk
      exact ⟨r, o', hr, hk, (Option.some.inj h).symm⟩
    · cases h
  · cases h

/-- The first chunk of a write whose bytes xs reach RAM, the bytes ys after them having no region where they begin. -/
theorem firstRamChunk {s : State} {a : Nat} {xs ys : List Byte} (hR : RegionsOk s.bus) (mapped : s.inRam a xs.length)
    (stop : ys ≠ [] → s.bus.find (a + xs.length) = none) (hx : xs ≠ []) :
    ∃ c rest r o, xs = c ++ rest ∧ c ≠ [] ∧ s.ramRange a c.length o ∧ s.bus.find a = some r ∧
      min (c.length + (rest ++ ys).length) (r.last - a + 1) = c.length := by
  have hl := List.length_pos_iff.2 hx
  obtain ⟨o, ho, -⟩ := mapped 0 hl
  obtain ⟨r, o', hf, hk, rfl⟩ := ramOffset_some ho
  simp only [Nat.add_zero] at *
  obtain ⟨hm, lo, hi⟩ := Bus.find_mem hf
  obtain ⟨hs1, hs2⟩ := hR.2 r hm
  have held : ∀ x, a ≤ x → x ≤ r.last → s.bus.find x = some r := fun x h1 h2 => Bus.find_of_mem hR hm (by omega) h2
  have hlast : r.last + 1 = r.base + r.size := by unfold Region.last; omega
  have unmapped : ys = [] ∨ r.last < a + xs.length := by
    refine or_iff_not_imp_left.2 fun hy => Nat.lt_of_not_le fun inside => ?_
    cases (held _ (by omega) inside).symm.trans (stop hy)
  obtain ⟨k, hk'⟩ : ∃ k, k = min xs.length (r.last - a + 1) := ⟨_, rfl⟩
  have hc : (xs.take k).length = k := by simp; omega
  refine ⟨xs.take k, xs.drop k, r, o' + (a - r.base), (List.take_append_drop k xs).symm,
    List.length_pos_iff.1 (by omega), ?_, hf, ?_⟩
  · obtain ⟨x, hx, bound⟩ := mapped (k - 1) (by omega)
    have final : s.ramOffset (a + (k - 1)) = some (o' + (a + (k - 1) - r.base)) := by
      simp [State.ramOffset, held (a + (k - 1)) (by omega) (by omega), hk]
    cases final.symm.trans hx
    rw [hc]
    exact ⟨by omega, by omega, by simp [State.ramOffset, hf, hk], by omega, r, hf, by omega⟩
  · rw [hc, List.length_append, List.length_drop]
    rcases unmapped with rfl | past
    · simp
      omega
    · omega

/-- The state after the bytes of a write, counted already, have brought the DRAM to `cells` and left the trace `tr`. -/
def State.written (s : State) (cells : Memory) (tr : List TraceEntry) : State :=
  { s with
    dram := { s.dram with cells := cells }
    bus := { s.bus with
      writeBytes := s.bus.writeBytes + (tr.map (·.bytes)).flatten.length
      trace := s.bus.trace ++ tr } }

theorem written_nil (s : State) : s.written s.dram.cells [] = s := by
  simp [State.written]

/-- The state after one chunk of a write, counted already, at offset `o` of the DRAM. -/
def State.ramChunk (s : State) (a o : Nat) (bs : List Byte) : State :=
  { s with
    dram := { s.dram with cells := Memory.writeBytes s.cfg.fillByte s.dram.cells o bs }
    bus := { s.bus with writeBytes := s.bus.writeBytes + bs.length, trace := s.bus.trace ++ [⟨.W, a, bs⟩] } }

theorem written_ramChunk (s : State) (a o : Nat) (bs : List Byte) (cells : Memory) (tr : List TraceEntry) :
    (s.ramChunk a o bs).written cells tr = s.written cells (⟨.W, a, bs⟩ :: tr) := by
  simp [State.written, State.ramChunk, Nat.add_assoc]

/-- A chunk of a write in a RAM region leaves its bytes in the DRAM. -/
theorem chunkOut_ram {ctrl : Nat → Word32 → Op Unit} {s : State} {a o : Nat} {r : Region} {bs : List Byte}
    (h : s.ramRange a bs.length o) (hf : s.bus.find a = some r) :
    chunkOut ctrl r a bs s =
      .ok () { s with dram := { s.dram with cells := Memory.writeBytes s.cfg.fillByte s.dram.cells o bs } } := by
  obtain ⟨r', o', hf', hk, rfl, -, -, -, -, size⟩ := ramRange_elim h
  cases hf.symm.trans hf'
  refine countFault_ok ?_
  simp only [chunkCheck, chunkWriteWith, hk, Op.run_bind, Op.run_get, Op.run_pure]
  exact dramWrite_ok size

/-- A write of `bs`, its first chunk, in a RAM region goes on with the bytes after them. -/
theorem writeChunks_ramChunk {ctrl : Nat → Word32 → Op Unit} {s : State} {a o : Nat} {r : Region} {bs cs : List Byte}
    (hb : bs ≠ []) (h : s.ramRange a bs.length o) (hf : s.bus.find a = some r)
    (chunk : min (bs.length + cs.length) (r.last - a + 1) = bs.length) :
    writeChunks ctrl (bs ++ cs).length a (bs ++ cs) s =
      writeChunks ctrl cs.length (a + bs.length) cs (s.ramChunk a o bs) :=
  (writeChunks_first h.2.1 hf hb chunk).trans (Op.bind_ok (chunkOut_ram h hf))

/-- A write of the bytes xs, which reach RAM, and of bytes ys that no region holds where they begin, puts xs where its
regions map it and goes on with ys. -/
theorem writeChunks_ram (ctrl : Nat → Word32 → Op Unit) (ys : List Byte) {n : Nat} {xs : List Byte} {s : State} {a : Nat}
    (hn : xs.length = n) (hR : RegionsOk s.bus) (wf : Memory.wf s.cfg.fillByte s.dram.cells) (mapped : s.inRam a xs.length)
    (stop : ys ≠ [] → s.bus.find (a + xs.length) = none) :
    ∃ cells tr, s.storedThrough cells a xs ∧ (tr.map (·.bytes)).flatten = xs ∧ (∀ e ∈ tr, e.dir = .W) ∧
      writeChunks ctrl (xs ++ ys).length a (xs ++ ys) s =
        writeChunks ctrl ys.length (a + xs.length) ys (s.written cells tr) := by
  induction n using Nat.strong_induction_on generalizing xs s a with
  | _ n ih =>
    by_cases hx : xs = []
    · subst hx
      refine ⟨s.dram.cells, [], ⟨fun i o hi => absurd hi (Nat.not_lt_zero i), fun _ _ => rfl⟩, rfl, by simp, ?_⟩
      rw [written_nil]
      rfl
    · obtain ⟨c, rest, r, o, rfl, hc, range, hf, chunk⟩ := firstRamChunk hR mapped stop hx
      have hl := List.length_pos_iff.2 hc
      rw [List.length_append] at hn mapped stop
      have next : a + (c ++ rest).length = a + c.length + rest.length := by rw [List.length_append, Nat.add_assoc]
      obtain ⟨cells, tr, stored, bytes, dirs, run⟩ := ih rest.length (by omega) (s := s.ramChunk a o c) (a := a + c.length)
        rfl hR (Memory.wf_writeBytes wf o c)
        (fun i hi => Nat.add_assoc a c.length i ▸ mapped (c.length + i) (by omega))
        (fun hy => Nat.add_assoc a c.length rest.length ▸ stop hy)
      refine ⟨cells, ⟨.W, a, c⟩ :: tr,
        storedThrough_append (t := s.ramChunk a o c) rfl rfl (storedThrough_ramRange hR wf range) stored,
        by simp [bytes], by simpa using dirs, ?_⟩
      rw [List.append_assoc, writeChunks_ramChunk hc range hf chunk, run, next, written_ramChunk]

/-- A write that begins where no region is counts a fault and raises Unmapped. -/
theorem writeChunks_unmapped {ctrl : Nat → Word32 → Op Unit} {s : State} {a : Nat} {bs : List Byte} (hb : bs ≠ [])
    (h : s.bus.find a = none) : writeChunks ctrl bs.length a bs s =
      .error (.err { kind := .unmapped a }) { s with bus := { s.bus with faults := s.bus.faults + 1 } } := by
  obtain ⟨n, hn⟩ := Nat.exists_eq_add_of_le' (List.length_pos_iff.2 hb)
  rw [hn, writeChunks_succ _ _ _ _ hb]
  exact Op.bind_error (countFault_err (decodeAddress_none h))

/-- A write over RAM regions ends with its last byte, or at the first address without a region, the m bytes before it
stored and counted. -/
theorem exec_busWrite_ram {s : State} {pa : Word} {bs : List Byte} {m : Nat} (hR : RegionsOk s.bus)
    (wf : Memory.wf s.cfg.fillByte s.dram.cells) (hm : m ≤ bs.length) (mapped : s.inRam pa.toNat m)
    (stop : m < bs.length → s.bus.find (pa.toNat + m) = none) :
    ∃ cells tr, s.storedThrough cells pa.toNat (bs.take m) ∧ (tr.map (·.bytes)).flatten = bs.take m ∧
      (∀ e ∈ tr, e.dir = .W) ∧
      let t := { s with
        dram := { s.dram with cells := cells }
        bus := { s.bus with
          writes := s.bus.writes + 1, writeBytes := s.bus.writeBytes + m, trace := s.bus.trace ++ tr } }
      exec (.busWriteBytes pa bs) s = .next (if m = bs.length then t.ok .unit
        else { t with bus := { t.bus with faults := t.bus.faults + 1 } }.err (.unmapped (pa.toNat + m))) := by
  have hl : (bs.take m).length = m := List.length_take_of_le hm
  obtain ⟨cells, tr, stored, bytes, dirs, run⟩ := writeChunks_ram dmaCtrlWrite (bs.drop m) (xs := bs.take m)
    (s := s.counted 0 1 none) (a := pa.toNat) hl hR wf (by rwa [hl]) (fun hy => by
      rw [hl]
      exact stop (by simpa using hy))
  rw [hl, List.take_append_drop, State.written, bytes, hl] at run
  refine ⟨cells, tr, stored, bytes, dirs, ?_⟩
  split
  · have rest : bs.drop m = [] := List.drop_eq_nil_of_le (by omega)
    rw [rest, writeChunks_nil] at run
    exact exec_busWrite_ok run
  · exact exec_busWrite_err (run.trans (writeChunks_unmapped (by simp; omega) (stop (by omega))))

/-! ## The statement -/

/-- Settles O18: one chunk in RAM or at a device, counted and recorded; several RAM chunks by induction on the bytes; and a
transfer over the end of a region, whose second part counts itself once more when it is issued alone. -/
theorem busTransfersReachRegions : Obligations.BusTransfersReachRegions := by
  refine ⟨fun s pa n o h => exec_busRead_ok (busRead_ram h),
    fun s pa bs o wf h => ⟨_, storedAt_writeBytes wf, exec_busWrite_ok (busWriteWith_ram h)⟩,
    fun s pa bs m hR wf hm mapped stop => exec_busWrite_ram hR wf hm mapped stop,
    fun s t pa r d n bs i h dec run => ?_, fun s t pa r d bs i h dec => ?_,
    fun s t u pa r k n bs res hf hk stop inside first second => ?_,
    fun s t u pa r bs cs hf hb stop inside first second => exec_busWrite_split hf hb stop inside first second⟩
  · obtain ⟨x, run⟩ := exec_ok_run run
    exact (exec_busRead_ok (busRead_device h dec run) :)
  · obtain ⟨hn, hf, fits, -⟩ := id h
    have hb := List.length_pos_iff.1 hn
    refine ⟨fun run => ?_, fun k run => ?_⟩
    · obtain ⟨x, run⟩ := exec_ok_run run
      obtain ⟨_, run, -⟩ := Op.ok_of_returning (chunkOut_device h dec ▸ run)
      exact (exec_busWrite_ok (busWrite_one pa.isLt hb hf fits (countFault_ok run)) :)
    · obtain ⟨x, run⟩ := exec_err_run run
      have run := Op.error_of_returning (chunkOut_device h dec ▸ run)
      exact (exec_busWrite_err (busWrite_one_error pa.isLt hb hf fits (countFault_err run)) :)
  · rcases exec_busRead_split hf hk stop inside first second with ⟨cs, rfl, whole⟩ | ⟨e, rfl, whole⟩
    · exact whole
    · exact whole

end Sys2Proof.Machine
end

section
/-! SUPPORT. No single write that operations are made of decreases a statistic, so no step does (spec/41_dram_bus.md R184,
spec/10_state.md R38, R44, spec/60_exceptions.md R462). -/

namespace Sys2Proof.Machine

/-! ## Statistics in order -/

/-- No statistic of a cache level is below what it was (R44). -/
structure CacheStats.Le (x y : CacheStats) : Prop where
  hits : x.hits ≤ y.hits
  misses : x.misses ≤ y.misses
  fills : x.fills ≤ y.fills
  evictions : x.evictions ≤ y.evictions
  writebacks : x.writebacks ≤ y.writebacks
  prefetches : x.prefetches ≤ y.prefetches

theorem CacheStats.Le.refl (x : CacheStats) : x.Le x := ⟨le_rfl, le_rfl, le_rfl, le_rfl, le_rfl, le_rfl⟩

/-- Each of the six counts of a level moves one statistic up by one (R252 to R268). -/
theorem CacheStats.le_count {f : CacheStats → CacheStats}
    (h : f = .hit ∨ f = .miss ∨ f = .fill ∨ f = .evict ∨ f = .writeback ∨ f = .prefetched) (x : CacheStats) :
    x.Le (f x) := by
  rcases h with rfl | rfl | rfl | rfl | rfl | rfl
  · exact { CacheStats.Le.refl x with hits := Nat.le_succ _ }
  · exact { CacheStats.Le.refl x with misses := Nat.le_succ _ }
  · exact { CacheStats.Le.refl x with fills := Nat.le_succ _ }
  · exact { CacheStats.Le.refl x with evictions := Nat.le_succ _ }
  · exact { CacheStats.Le.refl x with writebacks := Nat.le_succ _ }
  · exact { CacheStats.Le.refl x with prefetches := Nat.le_succ _ }

namespace CountersLe

variable {s t u : State}

theorem refl (s : State) : CountersLe s s where
  reads := le_rfl
  writes := le_rfl
  faults := le_rfl
  readBytes := le_rfl
  writeBytes := le_rfl
  dramFaults := le_rfl
  tlbHits := le_rfl
  tlbMisses := le_rfl
  cache _ := ⟨le_rfl, le_rfl, le_rfl, le_rfl, le_rfl, le_rfl⟩

theorem trans (h : CountersLe s t) (k : CountersLe t u) : CountersLe s u where
  reads := h.reads.trans k.reads
  writes := h.writes.trans k.writes
  faults := h.faults.trans k.faults
  readBytes := h.readBytes.trans k.readBytes
  writeBytes := h.writeBytes.trans k.writeBytes
  dramFaults := h.dramFaults.trans k.dramFaults
  tlbHits := h.tlbHits.trans k.tlbHits
  tlbMisses := h.tlbMisses.trans k.tlbMisses
  cache l := by
    obtain ⟨hits, misses, fills, evictions, writebacks, prefetches⟩ := h.cache l
    obtain ⟨hits', misses', fills', evictions', writebacks', prefetches'⟩ := k.cache l
    exact ⟨hits.trans hits', misses.trans misses', fills.trans fills', evictions.trans evictions',
      writebacks.trans writebacks', prefetches.trans prefetches'⟩

/-- Only the MMU moved, its counters not down. -/
theorem of_mmu {m : Mmu} (hits : s.mmu.tlbHits ≤ m.tlbHits) (misses : s.mmu.tlbMisses ≤ m.tlbMisses) :
    CountersLe s { s with mmu := m } :=
  { refl s with tlbHits := hits, tlbMisses := misses }

/-- Only one level of the cache moved, its statistics not down. -/
theorem of_level {l : Level} {x : LevelState} (h : (s.cache.level l).stats.Le x.stats) :
    CountersLe s { s with cache := s.cache.setLevel l x } :=
  { refl s with
    cache := fun k => by
      rw [Cache.level_setLevel]
      split
      · subst k
        exact ⟨h.hits, h.misses, h.fills, h.evictions, h.writebacks, h.prefetches⟩
      · exact (refl s).cache k }

end CountersLe

/-- A table that is opened for an address space moves no counter (R214, R219). -/
theorem Mmu.openTable_counters (m : Mmu) (a : Nat) :
    (m.openTable a).tlbHits = m.tlbHits ∧ (m.openTable a).tlbMisses = m.tlbMisses := by
  unfold Mmu.openTable
  split <;> exact ⟨rfl, rfl⟩

/-! ## Every single write and every step -/

/-- A single write moves a statistic up or leaves it. -/
theorem countersLe_of_atom {s t : State} (h : Atom s t) : CountersLe s t := by
  cases h with
  | dramFault => exact { CountersLe.refl s with dramFaults := Nat.le_succ _ }
  | busRead => exact { CountersLe.refl s with reads := Nat.le_succ _ }
  | busWrite => exact { CountersLe.refl s with writes := Nat.le_succ _ }
  | busFault => exact { CountersLe.refl s with faults := Nat.le_succ _ }
  | busReadChunk e n => exact { CountersLe.refl s with readBytes := Nat.le_add_right _ n }
  | busWriteChunk e n => exact { CountersLe.refl s with writeBytes := Nat.le_add_right _ n }
  | tlbHit => exact .of_mmu (Nat.le_succ _) le_rfl
  | tlbMiss => exact .of_mmu le_rfl (Nat.le_succ _)
  | tlbInstall | pageMark | pageSet | pageDrop | tlbFilter | asid => exact .of_mmu le_rfl le_rfl
  | openTable a =>
    obtain ⟨hits, misses⟩ := Mmu.openTable_counters s.mmu a
    exact .of_mmu hits.ge misses.ge
  | lines l f => exact .of_level (.refl _)
  | stat l f hf => exact .of_level (CacheStats.le_count hf _)
  | stamp => exact { CountersLe.refl s with cache := fun l => (Cache.level_stamp ..).symm ▸ (CountersLe.refl s).cache l }
  | cell | frame | region | plicRaised | plicLowered | plicPriority | plicEnable | plicThreshold | plicClaimed | plicCompleted
  | clint | uarts | timers | dmas | wcSeed | wcEmpty | csr | attach => exact { CountersLe.refl s with }

/-- Settles O11: a step is a sequence of single writes, and the order of statistics is transitive. -/
theorem statisticsMonotone : Obligations.StatisticsMonotone := by
  intro s t ht
  have stable : Stable (CountersLe s) := fun _ _ atom le => le.trans (countersLe_of_atom atom)
  exact stable.step (fun _ _ le => { le with }) (fun _ _ le => { le with }) (.refl s) ht

end Sys2Proof.Machine
end

section
/-! SUPPORT. The DRAM's commands (spec/41_dram_bus.md R170 to R175): what they answer and store in bounds, and the fault they
count out of bounds. -/

namespace Sys2Proof.Machine

/-! ## Reads (R170, R174) -/

theorem State.dramBytes_one (s : State) (a : Nat) : s.dramBytes a 1 = [s.dramByte a] := rfl

/-- Settles O14: both commands are the DRAM's read, in bounds or out of them. -/
theorem dramReadsBytes : Obligations.DramReadsBytes := by
  refine ⟨fun s a n inside => exec_ok (Op.bind_ok (dramRead_ok inside)),
    fun s a n outside => exec_err (Op.bind_error (dramRead_err outside)), fun s a inside => ?_,
    fun s a outside => exec_err (Op.bind_error (dramRead_err (Nat.lt_succ_of_le outside)))⟩
  have read : dramRead a.toNat 1 s = .ok [s.dramByte a.toNat] s := s.dramBytes_one a.toNat ▸ dramRead_ok inside
  exact exec_ok (Op.bind_ok read)

/-! ## Writes (R171, R172, R175) -/

/-- Settles O15: in bounds the three commands write a run of bytes into canonical cells; out of them the bounds check of
R170 ends each before it writes. -/
theorem dramWritesBytes : Obligations.DramWritesBytes := by
  refine ⟨fun s a bs wf inside => ?_, fun s a bs outside => ?_, fun s a n v wf inside => ?_, fun s a n v outside => ?_⟩
  · exact ⟨_, storedAt_writeBytes wf, exec_ok (Op.bind_ok (dramWrite_ok inside)),
      exec_ok (Op.bind_ok (dramWrite_ok inside))⟩
  · exact ⟨exec_err (Op.bind_error (dramWrite_err outside)), exec_err (Op.bind_error (dramWrite_err outside))⟩
  · exact ⟨_, storedAt_writeBytes wf, exec_ok (Op.bind_ok (dramBounds_ok inside))⟩
  · exact exec_err (Op.bind_error (dramBounds_err outside))

/-! ## Copies (R173) -/

/-- The cells after a copy in the direction that the order of its ends asks for (R173). -/
def copyCells (fill : Byte) (dest src n : Nat) (m : Memory) : Memory :=
  if dest < src then copyUp fill dest src n 0 m else copyDown fill dest src n m

/-- A copy in bounds leaves the copied cells. -/
theorem opDramCopy_ok {s : State} {dest src n : Nat} (hs : src + n ≤ s.cfg.dramSize) (hd : dest + n ≤ s.cfg.dramSize) :
    opDramCopy dest src n s =
      .ok .unit { s with dram := { s.dram with cells := copyCells s.cfg.fillByte dest src n s.dram.cells } } := by
  unfold opDramCopy copyCells
  rw [Op.get_bind_run, if_neg hs.not_gt, Op.bind_ok (dramBounds_ok hd)]
  split <;> rfl

/-- A copy with an end out of bounds ends at the check of that end. -/
theorem opDramCopy_err {s : State} {dest src n : Nat} (h : s.cfg.dramSize < src + n ∨ s.cfg.dramSize < dest + n) :
    ∃ a, opDramCopy dest src n s = .error (.err { kind := .accessViolation a n })
      { s with dram := { s.dram with faultCount := s.dram.faultCount + 1 } } := by
  unfold opDramCopy
  by_cases hs : s.cfg.dramSize < src + n
  · refine ⟨src, ?_⟩
    rw [Op.get_bind_run, if_pos hs, Op.bind_error (dramBounds_err hs)]
  · refine ⟨dest, ?_⟩
    rw [Op.get_bind_run, if_neg hs, Op.bind_error (dramBounds_err (h.resolve_left hs))]

/-- Whatever the overlap, a byte of the destination is the source's before the copy, and every other is unchanged. -/
theorem read_copyCells {fill : Byte} {m : Memory} (wf : Memory.wf fill m) (dest src n x : Nat) :
    Memory.read fill (copyCells fill dest src n m) x =
      if dest ≤ x ∧ x < dest + n then Memory.read fill m (src + (x - dest)) else Memory.read fill m x := by
  unfold copyCells
  split
  · obtain ⟨-, read⟩ := read_copyUp dest src n ‹dest < src› 0 m wf
    exact read x
  · obtain ⟨-, read⟩ := read_copyDown dest src n (Nat.le_of_not_lt ‹¬ dest < src›) m wf
    exact read x

/-- After a copy the source's bytes stand at the destination and every other byte is unchanged. -/
theorem storedAt_copyCells {s : State} (wf : Memory.wf s.cfg.fillByte s.dram.cells) (dest src n : Nat) :
    s.storedAt { s with dram := { s.dram with cells := copyCells s.cfg.fillByte dest src n s.dram.cells } } dest
      (s.dramBytes src n) := by
  refine ⟨rfl, fun x => ?_⟩
  have length : (s.dramBytes src n).length = n := Memory.length_readBytes ..
  rw [length]
  refine (read_copyCells wf dest src n x).trans ?_
  split
  · exact (Memory.getD_readBytes _ src n _ (by omega) 0).symm
  · rfl

/-- Settles O16: each direction reads a source byte before it is overwritten (`read_copyUp`, `read_copyDown`). -/
theorem dramCopyIsOverlapSafe : Obligations.DramCopyIsOverlapSafe := by
  refine ⟨fun s dest src n wf hs hd => ⟨_, storedAt_copyCells wf dest src n, exec_ok (opDramCopy_ok hs hd)⟩,
    fun s dest src n outside => ?_⟩
  obtain ⟨a, violated⟩ := opDramCopy_err outside
  exact ⟨a, exec_err violated⟩

end Sys2Proof.Machine
end

section
/-! SUPPORT. A read over RAM regions (spec/41_dram_bus.md R179, R181, R182): its chunks, in rising address order, are the
bytes that each address's own region gives. -/

namespace Sys2Proof.Machine

/-! ## The bytes at physical addresses -/

/-- The n bytes from physical address `a` on, each the DRAM's byte where its own region maps it (R181). -/
def State.physBytes (s : State) (a n : Nat) : List Byte :=
  (List.range n).map fun i => (s.ramOffset (a + i)).elim 0 s.dramByte

@[simp] theorem State.length_physBytes (s : State) (a n : Nat) : (s.physBytes a n).length = n := by
  simp [State.physBytes]

theorem State.getD_physBytes (s : State) {a n i o : Nat} (hi : i < n) (ho : s.ramOffset (a + i) = some o) :
    (s.physBytes a n).getD i 0 = s.dramByte o := by
  simp [State.physBytes, List.getD, hi, ho]

theorem State.physBytes_add (s : State) (a k n : Nat) :
    s.physBytes a (k + n) = s.physBytes a k ++ s.physBytes (a + k) n := by
  simp [State.physBytes, List.range_add, Nat.add_assoc]

/-- Inside one RAM region the bytes are a run of the DRAM's. -/
theorem physBytes_ramRange {s : State} {a n o : Nat} (hR : RegionsOk s.bus) (h : s.ramRange a n o) :
    s.physBytes a n = s.dramBytes o n := by
  refine List.map_congr_left fun i hi => ?_
  rw [ramRange_offset hR h (List.mem_range.1 hi), Option.elim_some]

/-! ## The chunks of a read -/

/-- The first chunk of a read of n bytes that reach RAM lies in one RAM region: that of a write of n bytes, whatever they
are. -/
theorem firstRamRead {s : State} {a n : Nat} (hR : RegionsOk s.bus) (mapped : s.inRam a n) (hn : n ≠ 0) :
    ∃ k m r o, n = k + m ∧ 1 ≤ k ∧ s.ramRange a k o ∧ s.bus.find a = some r ∧ min (k + m) (r.last - a + 1) = k := by
  have length : (List.replicate n (0 : Byte)).length = n := List.length_replicate
  obtain ⟨c, rest, r, o, parts, hc, range, hf, chunk⟩ := firstRamChunk (xs := List.replicate n 0) (ys := []) hR
    (by rwa [length]) (absurd rfl) (by simpa using hn)
  refine ⟨c.length, rest.length, r, o, ?_, List.length_pos_iff.2 hc, range, hf, by simpa using chunk⟩
  rw [← List.length_append, ← parts, length]

/-- A read of bytes in one RAM region is one chunk, which changes nothing. -/
theorem chunkIn_ram {s : State} {a k o : Nat} {r : Region} (h : s.ramRange a k o) (hf : s.bus.find a = some r) :
    chunkIn r a k s = .ok (s.dramBytes o k) s := by
  obtain ⟨r', o', hf', hk, rfl, -, -, -, -, size⟩ := ramRange_elim h
  cases hf.symm.trans hf'
  refine countFault_ok ?_
  simp only [chunkCheck, chunkRead, hk, Op.run_bind, Op.run_get, Op.run_pure]
  exact dramRead_ok size

/-- The state after the chunks of a read, counted already, have left the trace `tr`. -/
def State.fetched (s : State) (tr : List TraceEntry) : State :=
  { s with bus := { s.bus with
      readBytes := s.bus.readBytes + (tr.map (·.bytes)).flatten.length
      trace := s.bus.trace ++ tr } }

theorem fetched_nil (s : State) : s.fetched [] = s := by
  simp [State.fetched]

theorem fetched_cons (s : State) (e : TraceEntry) (tr : List TraceEntry) :
    (s.fetched [e]).fetched tr = s.fetched (e :: tr) := by
  simp [State.fetched, Nat.add_assoc]

/-- The chunks of a read of n bytes that reach RAM are their trace, and their bytes are what the addresses hold. -/
theorem readChunks_ram {n : Nat} {s : State} {a : Nat} (hR : RegionsOk s.bus) (mapped : s.inRam a n) :
    ∃ tr, (tr.map (·.bytes)).flatten = s.physBytes a n ∧ (∀ e ∈ tr, e.dir = .R) ∧
      readChunks n a n s = .ok (s.physBytes a n) (s.fetched tr) := by
  induction n using Nat.strong_induction_on generalizing s a with
  | _ n ih =>
    by_cases hn : n = 0
    · subst hn
      exact ⟨[], rfl, by simp, congrArg (EStateM.Result.ok []) (fetched_nil s).symm⟩
    · obtain ⟨k, m, r, o, rfl, hk, range, hf, chunk⟩ := firstRamRead hR mapped hn
      obtain ⟨-, inside, -⟩ := id range
      have recorded : recordRead a (s.physBytes a k) s = .ok () (s.fetched [⟨.R, a, s.physBytes a k⟩]) := by
        simp [recordRead, State.fetched]
      obtain ⟨tr, bytes, dirs, run⟩ := ih m (by omega) (s := s.fetched [⟨.R, a, s.physBytes a k⟩]) (a := a + k) hR
        fun i hi => Nat.add_assoc a k i ▸ mapped (k + i) (by omega)
      rw [fetched_cons] at run
      refine ⟨⟨.R, a, s.physBytes a k⟩ :: tr, ?_, by simpa using dirs, ?_⟩
      · rw [s.physBytes_add, List.map_cons, List.flatten_cons, bytes]
        rfl
      · rw [readChunks_first inside hf hk chunk, Op.bind_ok (chunkIn_ram range hf), ← physBytes_ramRange hR range,
          Op.bind_ok recorded, Op.bind_ok run, s.physBytes_add]
        rfl

/-- A read of bytes that reach RAM counts itself once and its bytes, and leaves one trace entry per chunk. -/
theorem exec_busRead_ram {s : State} {pa : Word} {n : Nat} (hR : RegionsOk s.bus) (mapped : s.inRam pa.toNat n) :
    ∃ tr, (tr.map (·.bytes)).flatten = s.physBytes pa.toNat n ∧ (∀ e ∈ tr, e.dir = .R) ∧
      exec (.busReadBytes pa n) s = .next ({ s with bus := { s.bus with
        reads := s.bus.reads + 1, readBytes := s.bus.readBytes + n, trace := s.bus.trace ++ tr } }.ok
          (.bytes (s.physBytes pa.toNat n))) := by
  obtain ⟨tr, bytes, dirs, run⟩ := readChunks_ram (s := s.counted 1 0 none) hR mapped
  rw [State.fetched, bytes, State.length_physBytes] at run
  exact ⟨tr, bytes, dirs, exec_busRead_ok run⟩

/-- Settles O19: each chunk of the read is a run of the DRAM in one region, and the chunks follow one another. -/
theorem busReadConcatenatesRegions : Obligations.BusReadConcatenatesRegions := by
  intro s pa n hR mapped
  obtain ⟨tr, bytes, dirs, run⟩ := exec_busRead_ram hR mapped
  refine ⟨s.physBytes pa.toNat n, tr, run, s.length_physBytes _ n, bytes, dirs, fun i hi => ?_⟩
  obtain ⟨o, ho, -⟩ := mapped i hi
  exact ⟨o, ho, s.getD_physBytes hi ho⟩

end Sys2Proof.Machine
end

section
/-! SUPPORT. The MMU's commands and the CPU's over it (spec/42_mmu.md R210 to R223, spec/44_cpu.md R326): translation with
and without a TLB entry, pages mapped, changed and unmapped, frames drawn, and the TLB flushed. -/

namespace Sys2Proof.Machine

variable {s : State} {m : Mmu} {va vpn f : Nat} {p : Pte}

/-! ## A change of the MMU within an operation -/

theorem modifyMmu_bind_run {α : Type} (g : Mmu → Mmu) (k : Unit → Op α) (s : State) :
    (modifyMmu g >>= k) s = k () { s with mmu := g s.mmu } := rfl

/-! ## A page the TLB holds (R211, R223) -/

/-- An access of kind k is denied on a page with the entry `p` (R223). -/
def Pte.denies (p : Pte) (k : AccessKind) : Prop :=
  (k = .write ∧ p.writable = false) ∨ (k = .execute ∧ p.executable = false)

theorem checkAccess_hit_allowed {pa : Nat} {k : AccessKind} (hit : s.tlbHit va pa p) (allowed : ¬ p.denies k) :
    checkAccess va k s = .ok (pa, p) (s.afterHit va) := by
  unfold checkAccess
  rw [Op.bind_ok (translate_hit hit)]
  cases k with
  | read => rfl
  | write =>
    have writable : p.writable ≠ false := fun h => allowed (.inl ⟨rfl, h⟩)
    simp only [if_neg writable]
    rfl
  | execute =>
    have executable : p.executable ≠ false := fun h => allowed (.inr ⟨rfl, h⟩)
    simp only [if_neg executable]
    rfl

theorem checkAccess_hit_denied {pa : Nat} {k : AccessKind} (hit : s.tlbHit va pa p) (denied : p.denies k) :
    checkAccess va k s = .error (.err { kind := .permissionDenied va k }) (s.afterHit va) := by
  unfold checkAccess
  rw [Op.bind_ok (translate_hit hit)]
  rcases denied with ⟨rfl, writable⟩ | ⟨rfl, executable⟩
  · simp only [if_pos writable]
    rfl
  · simp only [if_pos executable]
    rfl

/-- Settles O21: the translation hits, and the check of the page's permissions follows it. -/
theorem tlbHitTranslations : Obligations.TlbHitTranslations := by
  refine ⟨fun s va pa p hit => exec_ok (Op.bind_ok (translate_hit hit)), fun s va pa p k hit => ?_⟩
  split
  · exact exec_err (Op.bind_error (checkAccess_hit_denied hit ‹_›))
  · exact exec_ok (Op.bind_ok (checkAccess_hit_allowed hit ‹_›))

/-! ## A page the TLB does not hold (R212, R213) -/

/-- A translation that misses the TLB and finds no present page counts the miss and faults. -/
theorem translate_pageFault (miss : Tab.get s.mmu.tlb (s.mmu.currentAsid, Config.vpn s.cfg va) = none)
    (absent : ∀ p, s.mmu.pte s.mmu.currentAsid (Config.vpn s.cfg va) = some p → p.present = false) :
    translate va s = .error (.err { kind := .pageFault va })
      { s with mmu := { s.mmu with tlbMisses := s.mmu.tlbMisses + 1 } } := by
  unfold translate
  rw [Op.get_bind_run]
  simp only [miss, modifyMmu_bind_run]
  cases page : s.mmu.pte s.mmu.currentAsid (Config.vpn s.cfg va) with
  | none => rfl
  | some p =>
    simp only [if_pos (absent p page)]
    rfl

/-- The entry whose tick is below every other's is the one that leaves a full TLB. -/
theorem leastTick_of_lt {t : List ((Nat × Nat) × TlbEntry)} {e : (Nat × Nat) × TlbEntry} (listed : e ∈ t)
    (least : ∀ x ∈ t, x ≠ e → e.2.tick < x.2.tick) : leastTick t = some e := by
  induction t with
  | nil => cases listed
  | cons x t ih =>
    have leastTail : ∀ y ∈ t, y ≠ e → e.2.tick < y.2.tick := fun y hy => least y (List.mem_cons_of_mem x hy)
    rw [leastTick]
    by_cases first : x = e
    · subst first
      cases rest : leastTick t with
      | none => rfl
      | some y =>
        have le : x.2.tick ≤ y.2.tick := by
          by_cases same : y = x
          · rw [same]
          · exact (leastTail y (leastTick_mem rest) same).le
        exact if_pos le
    · have later : e ∈ t := (List.mem_cons.1 listed).resolve_left (Ne.symm first)
      rw [ih later leastTail]
      exact if_neg (least x List.mem_cons_self first).not_ge

theorem Mmu.pte_tlbInstall (n : Nat) (m : Mmu) (a v f : Nat) : (m.tlbInstall n a v f).pte = m.pte := rfl

theorem Mmu.get_tlbInstall_self (n : Nat) (m : Mmu) (a v f : Nat) :
    Tab.get (m.tlbInstall n a v f).tlb (a, v) = some { frame := f, tick := m.tlbClock + 1 } := by
  simp only [Mmu.tlbInstall, Tab.get_set, if_pos]

/-- A TLB with room keeps every other entry. -/
theorem Mmu.get_tlbInstall_of_room {n a v : Nat} (room : m.tlb.length < n) {k : Nat × Nat} (other : k ≠ (a, v)) :
    Tab.get (m.tlbInstall n a v f).tlb k = Tab.get m.tlb k := by
  simp only [Mmu.tlbInstall, Tab.get_set, if_neg other.symm, if_pos room]

/-- A full TLB loses its least recent entry and keeps every other. -/
theorem Mmu.get_tlbInstall_of_full {n a v : Nat} (full : n ≤ m.tlb.length) {e : (Nat × Nat) × TlbEntry}
    (least : leastTick m.tlb = some e) {k : Nat × Nat} (other : k ≠ (a, v)) :
    Tab.get (m.tlbInstall n a v f).tlb k = if k = e.1 then none else Tab.get m.tlb k := by
  simp only [Mmu.tlbInstall, Tab.get_set, if_neg other.symm, if_neg full.not_gt, least, Tab.get_erase,
    @eq_comm _ e.1]

/-- Settles O22: the page is installed in the TLB, then marked in its table. -/
theorem translateMisses : Obligations.TranslateMisses := by
  refine ⟨fun s va miss absent => exec_err (Op.bind_error (translate_pageFault miss absent)), ?_⟩
  rintro s va p pa vpn miss page present rfl below
  refine ⟨_, exec_ok (Op.bind_ok (translate_miss miss page present below)), rfl, rfl, rfl, rfl, rfl,
    Mmu.get_tlbInstall_self .., fun a v => ?_, fun room k other => Mmu.get_tlbInstall_of_room room other,
    fun e listed full least k other => Mmu.get_tlbInstall_of_full full (leastTick_of_lt listed least) other⟩
  rw [Mmu.pte_setPte, Mmu.pte_tlbInstall]
  rfl

/-! ## Page tables and the TLB (R214, R219) -/

/-- Opening a table changes the tables alone. -/
theorem Mmu.openTable_eq (m : Mmu) (a : Nat) : ∃ tables, m.openTable a = { m with tables := tables } := by
  unfold Mmu.openTable
  split
  · exact ⟨m.tables, rfl⟩
  · exact ⟨_, rfl⟩

theorem Mmu.get_openTable_self (m : Mmu) (a : Nat) : (Tab.get (m.openTable a).tables a).isSome = true := by
  unfold Mmu.openTable
  split
  · rw [‹Tab.get m.tables a = _›]
    rfl
  · simp [Tab.get_set]

theorem Mmu.pte_dropTlb (m : Mmu) (a v : Nat) : (m.dropTlb a v).pte = m.pte := rfl

theorem Mmu.get_dropTlb (m : Mmu) (a v : Nat) (k : Nat × Nat) :
    Tab.get (m.dropTlb a v).tlb k = if k = (a, v) then none else Tab.get m.tlb k := by
  simp only [Mmu.dropTlb, Tab.get_erase, eq_comm]

/-! ## Mapping a page (R214, R220, R221) -/

/-- The entry of a newly mapped page, field by field. -/
theorem newPte_eq (f : Nat) (perm : Option Perm) : newPte f perm =
    let p := perm.getD {}
    { frame := f, present := p.present.getD true, writable := p.writable.getD true,
      executable := p.executable.getD true, user := p.user.getD false,
      cached := p.cached.getD (decide (p.memtype.getD .normal = .normal)), memtype := p.memtype.getD .normal,
      dirty := false, accessed := false } := by
  unfold newPte
  dsimp only
  cases (perm.getD {}).cached with
  | none => rfl
  | some c => rfl

/-- The MMU after a page has been mapped to the frame `f`. -/
def Mmu.mapped (m : Mmu) (a vpn f : Nat) (perm : Option Perm) : Mmu :=
  (m.setPte a vpn (newPte f perm)).dropTlb a vpn

theorem Mmu.pte_mapped (m : Mmu) (a vpn f : Nat) (perm : Option Perm) (a' v : Nat) :
    (m.mapped a vpn f perm).pte a' v = if (a', v) = (a, vpn) then some (newPte f perm) else m.pte a' v := by
  rw [Mmu.mapped, Mmu.pte_dropTlb, Mmu.pte_setPte]

theorem Mmu.get_mapped (m : Mmu) (a vpn f : Nat) (perm : Option Perm) (k : Nat × Nat) :
    Tab.get (m.mapped a vpn f perm).tlb k = if k = (a, vpn) then none else Tab.get m.tlb k :=
  Mmu.get_dropTlb ..

/-- `map_page` of a given frame maps it in the page's table, opened if need be. -/
theorem mapPage_given (vpn f : Nat) (perm : Option Perm) (asid : Option Nat) (s : State) :
    mapPage vpn (some f) perm asid s = .ok f
      { s with mmu := (s.mmu.openTable (asid.getD s.mmu.currentAsid)).mapped (asid.getD s.mmu.currentAsid) vpn f perm } :=
  rfl

/-- Settles O23: the table is opened, which changes no page, and the page is mapped in it. -/
theorem mapPageSetsEntry : Obligations.MapPageSetsEntry := by
  intro s vpn f perm asid a p
  have run := mapPage_given vpn f perm asid s
  have kept := s.mmu.pte_openTable a
  obtain ⟨tables, opened⟩ := s.mmu.openTable_eq a
  rw [opened] at run kept
  refine ⟨_, exec_ok (Op.bind_ok run), exec_ok (Op.bind_ok run), ?_, fun a' v other => ?_, ?_, fun k other => ?_, rfl⟩
  · rw [Mmu.pte_mapped, if_pos rfl, newPte_eq]
  · rw [Mmu.pte_mapped, if_neg other, kept]
  · rw [Mmu.get_mapped, if_pos rfl]
  · rw [Mmu.get_mapped, if_neg other]

/-! ## Drawing a frame (R220) -/

/-- Whatever the draw, it is a frame that was free and joins the pool. -/
theorem allocFrame_ok (free : ∃ f < s.cfg.maxFrames, f ∉ s.mmu.poolFrames) :
    ∃ f < s.cfg.maxFrames, f ∉ s.mmu.poolFrames ∧ allocFrame s = .ok f
      { s with mmu := { s.mmu with poolFrames := insertNat f s.mmu.poolFrames }, draws := s.draws + 1 } := by
  unfold allocFrame
  rw [Op.get_bind_run]
  cases frames : freeFrames s.cfg s.mmu with
  | nil =>
    obtain ⟨g, below, unused⟩ := free
    have listed := (mem_freeFrames s.cfg s.mmu g).2 ⟨below, unused⟩
    rw [frames] at listed
    cases listed
  | cons f fs =>
    have inRange : Config.frameDraw s.draws % (f :: fs).length < (f :: fs).length := Nat.mod_lt _ (Nat.succ_pos _)
    have drawn : (f :: fs).getD (Config.frameDraw s.draws % (f :: fs).length) f ∈ freeFrames s.cfg s.mmu := by
      rw [frames, List.getD_eq_getElem _ _ inRange]
      exact List.getElem_mem inRange
    obtain ⟨below, unused⟩ := (mem_freeFrames _ _ _).1 drawn
    exact ⟨_, below, unused, rfl⟩

theorem allocFrame_err (used : ∀ f < s.cfg.maxFrames, f ∈ s.mmu.poolFrames) :
    allocFrame s = .error (.err { kind := .outOfFrames }) s := by
  have none : freeFrames s.cfg s.mmu = [] := by
    refine List.eq_nil_iff_forall_not_mem.2 fun f listed => ?_
    obtain ⟨below, unused⟩ := (mem_freeFrames s.cfg s.mmu f).1 listed
    exact unused (used f below)
  unfold allocFrame
  rw [Op.get_bind_run, none]
  rfl

section

variable {t : State} {perm : Option Perm} {asid : Option Nat}

/-- `map_page` without a frame maps the frame drawn once the table is open. -/
theorem mapPage_drawn
    (draw : allocFrame { s with mmu := s.mmu.openTable (asid.getD s.mmu.currentAsid) } = .ok f t) :
    mapPage vpn none perm asid s = .ok f { t with mmu := t.mmu.mapped (asid.getD s.mmu.currentAsid) vpn f perm } :=
  Op.bind_ok draw

theorem mapPage_undrawn {e : Stop}
    (draw : allocFrame { s with mmu := s.mmu.openTable (asid.getD s.mmu.currentAsid) } = .error e t) :
    mapPage vpn none perm asid s = .error e t := by
  rw [mapPage, Op.get_bind_run, modifyMmu_bind_run]
  exact Op.bind_error draw

end

/-- Settles O24: the table is opened, then a free frame is drawn, if there is one, and mapped. -/
theorem mapPageDrawsFreeFrame : Obligations.MapPageDrawsFreeFrame := by
  refine ⟨fun s vpn perm asid free => ?_, fun s vpn perm asid used => ?_⟩
  · obtain ⟨-, -, pool⟩ := s.mmu.openTable_rest (asid.getD s.mmu.currentAsid)
    obtain ⟨f, below, unused, draw⟩ := allocFrame_ok
      (s := { s with mmu := s.mmu.openTable (asid.getD s.mmu.currentAsid) }) (by simpa only [pool] using free)
    simp only [pool] at unused draw
    have run := mapPage_drawn (vpn := vpn) (perm := perm) draw
    refine ⟨f, _, exec_ok (Op.bind_ok run), exec_ok (Op.bind_ok run), below, unused, mem_insertNat f _,
      ⟨newPte f perm, ?_, rfl⟩, fun a v other => ?_⟩
    · rw [Mmu.pte_mapped, if_pos rfl]
    · rw [Mmu.pte_mapped, if_neg other]
      exact s.mmu.pte_openTable _ a v
  · obtain ⟨-, -, pool⟩ := s.mmu.openTable_rest (asid.getD s.mmu.currentAsid)
    have draw := allocFrame_err (s := { s with mmu := s.mmu.openTable (asid.getD s.mmu.currentAsid) })
      (by simpa only [pool] using used)
    refine ⟨_, exec_err (Op.bind_error (mapPage_undrawn draw)), ?_, s.mmu.pte_openTable _⟩
    obtain ⟨tables, opened⟩ := s.mmu.openTable_eq (asid.getD s.mmu.currentAsid)
    rw [opened]

/-! ## Changing and unmapping a page (R215, R218) -/

/-- The entry of a page whose attributes are set, field by field. -/
theorem setAttrs_eq (x : Attrs) (p : Pte) : setAttrs x p =
    { frame := p.frame, present := x.present.getD p.present, writable := x.writable.getD p.writable,
      executable := x.executable.getD p.executable, user := x.user.getD p.user,
      cached := x.cached.getD (if x.memtype = some .device ∨ x.memtype = some .wc then false else p.cached),
      memtype := x.memtype.getD p.memtype, dirty := x.dirty.getD p.dirty,
      accessed := x.accessed.getD p.accessed } := by
  unfold setAttrs
  cases x.cached with
  | some c => rfl
  | none =>
    cases x.memtype with
    | none => rfl
    | some t => cases t <;> rfl

theorem mappedPte_ok {a : Nat} (page : s.mmu.pte a vpn = some p) : mappedPte a vpn s = .ok p s := by
  unfold mappedPte
  rw [Op.get_bind_run, page]
  rfl

theorem mappedPte_err {a : Nat} (absent : s.mmu.pte a vpn = none) :
    mappedPte a vpn s = .error (.err { kind := .pageFault (vpn <<< Nat.log2 s.cfg.pageSize) }) s := by
  unfold mappedPte
  rw [Op.get_bind_run, absent]
  rfl

section

variable {asid : Option Nat}

theorem unmapPage_ok (page : s.mmu.pte (asid.getD s.mmu.currentAsid) vpn = some p) :
    unmapPage vpn asid s = .ok () { s with mmu :=
      (s.mmu.dropPte (asid.getD s.mmu.currentAsid) vpn).dropTlb (asid.getD s.mmu.currentAsid) vpn } :=
  Op.bind_ok (mappedPte_ok page)

theorem unmapPage_err (absent : s.mmu.pte (asid.getD s.mmu.currentAsid) vpn = none) :
    unmapPage vpn asid s = .error (.err { kind := .pageFault (vpn <<< Nat.log2 s.cfg.pageSize) }) s :=
  (Op.get_bind_run _ s).trans (Op.bind_error (mappedPte_err absent))

theorem setPageAttributes_ok (x : Attrs) (page : s.mmu.pte (asid.getD s.mmu.currentAsid) vpn = some p) :
    setPageAttributes vpn x asid s = .ok () { s with mmu :=
      (s.mmu.setPte (asid.getD s.mmu.currentAsid) vpn (setAttrs x p)).dropTlb (asid.getD s.mmu.currentAsid) vpn } :=
  Op.bind_ok (mappedPte_ok page)

theorem setPageAttributes_err (x : Attrs) (absent : s.mmu.pte (asid.getD s.mmu.currentAsid) vpn = none) :
    setPageAttributes vpn x asid s = .error (.err { kind := .pageFault (vpn <<< Nat.log2 s.cfg.pageSize) }) s :=
  (Op.get_bind_run _ s).trans (Op.bind_error (mappedPte_err absent))

end

/-- Settles O25: both commands look the page up and change its entry in the table and in the TLB. -/
theorem pageEntryChanges : Obligations.PageEntryChanges := by
  refine ⟨fun s vpn asid p page => ?_, fun s vpn asid absent => ?_, fun s vpn x asid p page => ?_,
    fun s vpn x asid absent => ?_⟩
  · have run := unmapPage_ok page
    exact ⟨_, exec_ok (Op.bind_ok run), exec_ok (Op.bind_ok run), Mmu.pte_dropPte _ _ _, Mmu.get_dropTlb _ _ _, rfl⟩
  · have run := unmapPage_err absent
    exact ⟨exec_err (Op.bind_error run), exec_err (Op.bind_error run)⟩
  · have run := setPageAttributes_ok x page
    refine ⟨_, exec_ok (Op.bind_ok run), exec_ok (Op.bind_ok run), fun a v => ?_, Mmu.get_dropTlb _ _ _, rfl⟩
    rw [Mmu.pte_dropTlb, Mmu.pte_setPte, setAttrs_eq]
  · have run := setPageAttributes_err x absent
    exact ⟨exec_err (Op.bind_error run), exec_err (Op.bind_error run)⟩

/-! ## Flushing the TLB and switching the address space (R216, R217, R219) -/

/-- The TLB after `flush_tlb`. -/
def flushedTlb (asid : Option Nat) (t : List ((Nat × Nat) × TlbEntry)) : List ((Nat × Nat) × TlbEntry) :=
  match asid with
  | some a => t.filter (fun e => e.1.1 ≠ a)
  | none => []

theorem flushTlb_ok (asid : Option Nat) (s : State) :
    flushTlb asid s = .ok () { s with mmu := { s.mmu with tlb := flushedTlb asid s.mmu.tlb } } := by
  cases asid with
  | none => rfl
  | some a => rfl

theorem get_flushedTlb (asid : Option Nat) (t : List ((Nat × Nat) × TlbEntry)) (k : Nat × Nat) :
    Tab.get (flushedTlb asid t) k = if asid = none ∨ asid = some k.1 then none else Tab.get t k := by
  cases asid with
  | none => rfl
  | some a =>
    rw [flushedTlb, Tab.get_filter_asid]
    simp [eq_comm]

/-- `set_asid` moves the current ASID and opens its table, and no page changes. -/
theorem setAsid_ok (a : Nat) (s : State) : ∃ tables,
    setAsid a s = .ok () { s with mmu := { s.mmu with currentAsid := a, tables := tables } } ∧
      (Tab.get tables a).isSome = true ∧ ∀ b v, (Tab.get tables b).bind (Tab.get · v) = s.mmu.pte b v := by
  have isOpen := Mmu.get_openTable_self { s.mmu with currentAsid := a } a
  have kept := Mmu.pte_openTable { s.mmu with currentAsid := a } a
  obtain ⟨tables, opened⟩ := Mmu.openTable_eq { s.mmu with currentAsid := a } a
  rw [opened] at isOpen kept
  refine ⟨tables, ?_, isOpen, kept⟩
  rw [← opened]
  rfl

/-- Settles O26: each command is one write of the MMU's state. -/
theorem tlbFlushAndAsidSwitch : Obligations.TlbFlushAndAsidSwitch := by
  refine ⟨fun s asid => ?_, fun s vpn asid => ⟨_, exec_ok rfl, Mmu.get_dropTlb s.mmu _ vpn⟩, fun s a => ?_⟩
  · have run := flushTlb_ok asid s
    exact ⟨_, exec_ok (Op.bind_ok run), exec_ok (Op.bind_ok run), get_flushedTlb asid s.mmu.tlb⟩
  · obtain ⟨tables, run, isOpen, kept⟩ := setAsid_ok a s
    exact ⟨tables, exec_ok (Op.bind_ok run), exec_ok (Op.bind_ok run), isOpen, kept⟩

end Sys2Proof.Machine
end

section
/-! SUPPORT. Prefetches (spec/43_cache.md R259, spec/44_cpu.md R319): the cache's command and the CPU's two bring the same
block into a level, and do nothing when the level holds it or the page is not cached. -/

namespace Sys2Proof.Machine

variable {s t : State} {va : Word} {pa : Nat} {p : Pte}

/-! ## The commands run `prefetch_line` (R259, R319) -/

theorem exec_prefetchLine {l : Level} {b : Word} (run : prefetchLine l b.toNat s = .ok () t) :
    exec (.cachePrefetchLine l b) s = .next (t.ok .unit) :=
  exec_ok (Op.bind_ok run)

/-- On a page that the TLB holds the CPU's data prefetch is a prefetch into L1D if the page is cached normal. -/
theorem exec_prefetchData (hit : s.tlbHit va.toNat pa p)
    (run : (if p.cachedNormal then prefetchLine .l1d pa else pure () : Op Unit) (s.afterHit va.toNat) = .ok () t) :
    exec (.cpuPrefetchData va) s = .next (t.ok .unit) := by
  refine exec_ok ((Op.bind_ok (translate_hit hit)).trans ?_)
  split at run
  next cached => exact (congrFun (if_pos cached) _).trans (Op.bind_ok run)
  next uncached => cases run; exact congrFun (if_neg uncached) _

/-- Likewise its instruction prefetch of an executable page, into L1I. -/
theorem exec_prefetchInst (hit : s.tlbHit va.toNat pa p) (executable : p.executable = true)
    (run : (if p.cachedNormal then prefetchLine .l1i pa else pure () : Op Unit) (s.afterHit va.toNat) = .ok () t) :
    exec (.cpuPrefetchInst va) s = .next (t.ok .unit) := by
  refine exec_ok ((Op.bind_ok (translate_hit hit)).trans ?_)
  dsimp only
  rw [if_neg (by simp [executable])]
  split at run
  next cached => exact (congrFun (if_pos cached) _).trans (Op.bind_ok run)
  next uncached => cases run; exact congrFun (if_neg uncached) _

/-! ## A prefetch that has nothing to do -/

theorem prefetchLine_resident {l : Level} {a : Nat} {q : Nat × Nat} (h : s.lookup (Config.block s.cfg a) l = some q) :
    prefetchLine l a s = .ok () s := by
  unfold prefetchLine
  rw [Op.get_bind_run, h]
  rfl

theorem not_cachedNormal (h : p.memtype ≠ .normal ∨ p.cached = false) : ¬ p.cachedNormal = true := by
  rw [cachedNormal_iff]
  rintro ⟨normal, cached⟩
  rcases h with h | h
  · exact h normal
  · simp [h] at cached

/-- Settles O31: `prefetch_line` ends at its look-up, and the CPU's prefetches of an uncached page before theirs. -/
theorem prefetchOfResidentBlockIsNoOp : Obligations.PrefetchOfResidentBlockIsNoOp := by
  refine ⟨fun s l b q resident => exec_prefetchLine (prefetchLine_resident resident),
    fun s va pa p hit uncached => ?_⟩
  have skipped : ∀ l, (if p.cachedNormal then prefetchLine l pa else pure () : Op Unit) (s.afterHit va.toNat) =
      .ok () (s.afterHit va.toNat) := fun l => congrFun (if_neg (not_cachedNormal uncached)) _
  exact ⟨exec_prefetchData hit (skipped .l1d), fun executable => exec_prefetchInst hit executable (skipped .l1i)⟩

/-! ## A prefetch from L2 into a first-level cache -/

/-- The state after a prefetch of block b into a first-level cache that has a way free for it, from the L2 line of slot r. -/
def prefetched (s : State) (c : Side) (b : Nat) (r : Nat × Nat) : State :=
  filled (cnt s c.level (·.prefetched)) c.level b (s.line .l2 r).data

theorem prefetchInto_fromL2 {c : Side} {b : Nat} {r : Nat × Nat} (free : s.wayFree c.level b)
    (held : s.lookup b .l2 = some r) : prefetchInto c.level b s = .ok () (filled s c.level b (s.line .l2 r).data) := by
  have line : ∀ l, prefetchL2 l b s = .ok (s.line .l2 r).data s := by
    intro l
    unfold prefetchL2
    rw [Op.get_bind_run, held]
    rfl
  cases c with
  | l1d => exact (Op.bind_ok (line .l1d)).trans (installWith_clean free)
  | l1i => exact (Op.bind_ok (line .l1i)).trans (installWith_clean free)

theorem wayFree_cnt {l k : Level} {f : CacheStats → CacheStats} {a : Nat} : (cnt s k f).wayFree l a ↔ s.wayFree l a :=
  wayFree_congr (s := s) (t := cnt s k f) rfl fun r => by rw [line_cnt]

theorem prefetchLine_fromL2 {c : Side} {a : Nat} {r : Nat × Nat} (absent : s.lookup (Config.block s.cfg a) c.level = none)
    (free : s.wayFree c.level (Config.block s.cfg a)) (held : s.lookup (Config.block s.cfg a) .l2 = some r) :
    prefetchLine c.level a s = .ok () (prefetched s c (Config.block s.cfg a) r) := by
  have into := prefetchInto_fromL2 (s := cnt s c.level (·.prefetched)) (wayFree_cnt.2 free) (lookup_cnt.trans held)
  rw [line_cnt] at into
  unfold prefetchLine
  rw [Op.get_bind_run, absent]
  exact (Op.bind_ok (countAt_run ..)).trans into

theorem onlyCache_prefetched (s : State) (c : Side) (b : Nat) (r : Nat × Nat) : onlyCache s (prefetched s c b r) :=
  (onlyCache_cnt s c.level _).trans (onlyCache_inst ..)

theorem Side.level_ne (c : Side) : c.level ≠ .l2 ∧ c.level ≠ .l3 := by cases c <;> decide

theorem prefetched_spec {c : Side} {b : Nat} {r : Nat × Nat} (absent : s.lookup b c.level = none)
    (free : s.wayFree c.level b) (held : s.lookup b .l2 = some r) :
    (prefetched s c b r).holdsClean c.level b (s.line .l2 r).data ∧
    ((prefetched s c b r).line .l2 r).presentIn c = true ∧
    ((prefetched s c b r).cache.level c.level).stats = (s.cache.level c.level).stats.prefetched.fill ∧
    (prefetched s c b r).cache.l3 = s.cache.l3 := by
  obtain ⟨ne2, ne3⟩ := Side.level_ne c
  unfold prefetched
  refine ⟨holds_inst_self (lookup_cnt.trans absent) (wayFree_cnt.2 free), ?_, ?_, ?_⟩
  · have told : Level.parent c.level = some .l2 ∧
        (installed (cnt s c.level (·.prefetched)) c.level b (s.line .l2 r).data false).lookup b .l2 = some r :=
      ⟨Side.parent_level c, (lookup_other ne2.symm).trans (lookup_cnt.trans held)⟩
    rw [filled, line_marked, if_pos told, Line.presentIn_eq, present_withPresence _ _ _ ne3, if_pos rfl]
  · rw [stats_inst, if_pos rfl, stats_cnt, if_pos rfl]
  · refine (level_inst _ _ _ _ .l3 ne3.symm ?_).trans (level_cnt s _ _ .l3 ne3.symm)
    rw [Side.parent_level c]
    decide

/-- Settles O30: the three commands run the same `prefetch_line`, which finds L2's line and installs its bytes. -/
theorem prefetchTakesLineFromL2 : Obligations.PrefetchTakesLineFromL2 := by
  intro s c b q2 legal absent free held
  have pos := lineSize_pos legal
  rw [← lookup_block pos] at absent held
  rw [← wayFree_block pos] at free
  obtain ⟨holds, present, stats, l3⟩ := prefetched_spec absent free held
  have run := prefetchLine_fromL2 absent free held
  have only := onlyCache_prefetched s c (Config.block s.cfg b) q2
  have cfg : (prefetched s c (Config.block s.cfg b) q2).cfg = s.cfg := by rw [only]
  refine ⟨(prefetched s c (Config.block s.cfg b) q2).cache, ?_⟩
  rw [← show prefetched s c (Config.block s.cfg b) q2 = { s with cache := _ } from only]
  refine ⟨holds_block (by rw [cfg]; exact pos) (by rw [cfg]; exact holds), present, stats, l3, ?_,
    fun u va p hit after normal cached => ⟨?_, ?_⟩⟩
  · rintro pa rfl
    exact exec_prefetchLine run
  all_goals
    rintro rfl
    subst after
  · exact exec_prefetchData hit ((congrFun (if_pos (cachedNormal_iff.2 ⟨normal, cached⟩)) _).trans run)
  · exact fun executable =>
      exec_prefetchInst hit executable ((congrFun (if_pos (cachedNormal_iff.2 ⟨normal, cached⟩)) _).trans run)

end Sys2Proof.Machine
end

section
/-! SUPPORT. `flush_line` (spec/43_cache.md R260 to R269): a dirty first-level line is written back to L2, and one that L3
evicts through L2 reaches the bus in one write. -/

namespace Sys2Proof.Machine

variable {s t : State}

/-! ## The eviction of a first-level line (R260, R263, R266) -/

/-- The state after the eviction of the first-level line of slot q, whose block L2 holds in slot r: counted, its bytes handed
over if they are dirty, its presence flag cleared. The line itself stays. -/
def evictedL1 (s : State) (c : Side) (q r : Nat × Nat) : State :=
  let u := handed (cnt s c.level (·.evict)) c.level .l2 q r
  put u .l2 r ((u.line .l2 r).withPresence c.level false)

theorem onlyCache_handed (s : State) (l p : Level) (q r : Nat × Nat) : onlyCache s (handed s l p q r) := by
  unfold handed
  split <;> rfl

theorem onlyCache_evictedL1 (s : State) (c : Side) (q r : Nat × Nat) : onlyCache s (evictedL1 s c q r) :=
  ((onlyCache_cnt ..).trans (onlyCache_handed ..)).trans (onlyCache_put ..)

theorem line_evictedL1 (s : State) (c : Side) (q r : Nat × Nat) (k : Level) (u : Nat × Nat) :
    (evictedL1 s c q r).line k u = if k = .l2 ∧ u = r
      then (s.line .l2 r).merged (s.line c.level q) c.level (s.cache.globalCounter + 1) else s.line k u := by
  unfold evictedL1 Line.merged
  rw [line_put]
  split
  · rw [line_handed, if_pos ⟨rfl, rfl⟩]
    simp only [line_cnt, globalCounter_cnt]
  next other => rw [line_handed, if_neg other, line_cnt]

theorem stats_evictedL1 (s : State) (c : Side) (q r : Nat × Nat) (k : Level) :
    ((evictedL1 s c q r).cache.level k).stats = if k = c.level
      then (if (s.line c.level q).dirty = true then (s.cache.level k).stats.evict.writeback else (s.cache.level k).stats.evict)
      else (s.cache.level k).stats := by
  unfold evictedL1
  rw [stats_put, stats_handed, stats_cnt, line_cnt]
  by_cases hk : k = c.level <;> simp [hk]

theorem flushLine_of_evicted {a : Nat} {l : Level} {q : Nat × Nat} (found : s.lookup a l = some q)
    (evicted : handleEviction l q s = .ok () t) : flushLine a l s = .ok () (inv t l q) := by
  unfold flushLine
  rw [Op.get_bind_run, found]
  exact Op.bind_ok evicted

theorem handleEviction_side (c : Side) : handleEviction c.level = evictL1 c := by cases c <;> rfl

/-- Settles O32: the eviction hands the dirty bytes to the L2 line, and the slot is invalidated after it. -/
theorem flushLineWritesBackToL2 : Obligations.FlushLineWritesBackToL2 := by
  intro s a c q q2 found dirty held
  have ne2 := (Side.level_ne c).1
  have evicted : handleEviction c.level q s = .ok () (evictedL1 s c q q2) := by
    rw [handleEviction_side]
    exact evictL1_eq c held
  have only := (onlyCache_evictedL1 s c q q2).trans (onlyCache_inv _ c.level q)
  have line : ∀ k u, (inv (evictedL1 s c q q2) c.level q).line k u = _ := line_inv _ c.level q
  refine ⟨(inv (evictedL1 s c q q2) c.level q).cache, ?_⟩
  rw [← show inv (evictedL1 s c q q2) c.level q = { s with cache := _ } from only]
  refine ⟨exec_ok (Op.bind_ok (flushLine_of_evicted found evicted)), ?_, ?_, fun l r child parent => ?_, ?_, fun l other => ?_⟩
  · rw [line, if_pos ⟨rfl, rfl⟩, onlyCache_evictedL1 s c q q2]
  · rw [line, if_neg fun h => ne2 h.1.symm, line_evictedL1, if_pos ⟨rfl, rfl⟩, Line.merged, if_pos dirty]
  · rw [line, if_neg fun h => child (Prod.ext h.1 h.2), line_evictedL1, if_neg fun h => parent (Prod.ext h.1 h.2)]
  · rw [stats_inv, stats_evictedL1, if_pos rfl, if_pos dirty]
    rfl
  · rw [stats_inv, stats_evictedL1, if_neg other]

/-! ## Drains of blocks that are held (R264, R268) -/

/-- The state after the line of slot q, at level l, was drained into the line of slot r of the parent level p. -/
def drainedInto (s : State) (l p : Level) (q r : Nat × Nat) : State :=
  put (taken s l p q r) p r (((taken s l p q r).line p r).withPresence l false)

/-- A drain counts an eviction, and a write-back of a dirty line, at the level drained. -/
theorem stats_drainedInto (s : State) (l p : Level) (q r : Nat × Nat) (k : Level) :
    ((drainedInto s l p q r).cache.level k).stats = if k = l
      then (if (s.line l q).dirty = true then (s.cache.level k).stats.writeback.evict else (s.cache.level k).stats.evict)
      else (s.cache.level k).stats := by
  unfold drainedInto taken
  rw [stats_put, stats_cnt, stats_inv]
  by_cases dirty : (s.line l q).dirty = true
  · rw [if_pos dirty, if_pos dirty, stats_cnt, stats_put]
    split <;> rfl
  · rw [if_neg dirty, if_neg dirty]

/-- A slot that a look-up finds holds the block. -/
theorem addr_of_lookup {l : Level} {a : Nat} {q : Nat × Nat} (h : s.lookup a l = some q) :
    s.addr l q = Config.block s.cfg a := by
  obtain ⟨-, tag, set, -⟩ := lookup_valid h
  exact addrOf_eq_block set tag

theorem drainChild_absent {c : Side} {r : Nat × Nat} (absent : (s.line .l2 r).presentIn c = false) (b : Nat) :
    drainChild c r b s = .ok () s := by
  unfold drainChild
  rw [Op.bind_ok (getLine_run ..), absent]
  rfl

theorem drainChild_held {c : Side} {q r : Nat × Nat} {b : Nat} (present : (s.line .l2 r).presentIn c = true)
    (held : s.lookup b c.level = some q) : drainChild c r b s = .ok () (drainedInto s c.level .l2 q r) := by
  have take : takeChild c r b s = .ok () (taken s c.level .l2 q r) := by
    unfold takeChild taken
    rw [Op.get_bind_run, held]
    dsimp only
    cases (s.line c.level q).dirty <;> rfl
  unfold drainChild
  rw [Op.bind_ok (getLine_run ..), present, if_pos rfl, Op.bind_ok take]
  rfl

theorem drainL2Child_held {q r : Nat × Nat} {b : Nat} (held : s.lookup b .l2 = some q)
    (children : drainChildren q b s = .ok () t) : drainL2Child r b s = .ok () (drainedInto t .l2 .l3 q r) := by
  have take : takeL2Child r b s = .ok () (taken t .l2 .l3 q r) := by
    unfold takeL2Child taken
    rw [Op.get_bind_run, held]
    dsimp only
    rw [Op.bind_ok children, Op.bind_ok (getLine_run ..)]
    cases (t.line .l2 q).dirty <;> rfl
  unfold drainL2Child
  rw [Op.bind_ok take]
  rfl

/-! ## The eviction of a dirty L3 line (R266, R267) -/

/-- The state after L3 wrote bytes of block b, which lies at DRAM's offset o, to the bus. -/
def writtenBack (s : State) (b o : Nat) (d : List Byte) : State :=
  { cnt s .l3 (·.writeback) with
    bus := s.bus.afterWrite b d
    dram := { s.dram with cells := Memory.writeBytes s.cfg.fillByte s.dram.cells o d } }

theorem writebackL3_ram {b o : Nat} {d : List Byte} (h : s.ramRange b d.length o) :
    writebackL3 b d s = .ok () (writtenBack s b o d) := by
  have counted : (cnt s .l3 (·.writeback)).ramRange b d.length o := h
  unfold writebackL3
  rw [Op.bind_ok (countAt_run ..)]
  unfold tagged
  rw [busWrite_ram counted]
  rfl

/-- The state after the L3 line of slot q, of block b at DRAM's offset o, was written to the bus, cleaned and invalidated. -/
def sunk (s : State) (q : Nat × Nat) (b o : Nat) : State :=
  let u := writtenBack s b o (s.line .l3 q).data
  inv (put u .l3 q { s.line .l3 q with dirty := false }) .l3 q

theorem line_sunk (s : State) (q : Nat × Nat) (b o : Nat) (k : Level) (u : Nat × Nat) :
    (sunk s q b o).line k u = if k = .l3 ∧ u = q then Line.reset s.cfg.lineSize else s.line k u := by
  unfold sunk
  rw [line_inv, line_put]
  split
  · rfl
  · exact line_cnt s .l3 (·.writeback) k u

theorem stats_sunk (s : State) (q : Nat × Nat) (b o : Nat) (k : Level) : ((sunk s q b o).cache.level k).stats =
    if k = .l3 then (s.cache.level k).stats.writeback else (s.cache.level k).stats := by
  unfold sunk
  rw [stats_inv, stats_put]
  exact stats_cnt s .l3 (·.writeback) k

/-- `flush_line` at L3 of a block whose line is dirty once L2's has been drained into it. -/
theorem flushLine_l3_dirty {a b o : Nat} {q : Nat × Nat} (found : s.lookup a .l3 = some q)
    (block : b = Config.addrOf s.cfg .l3 q (s.line .l3 q)) (present : (s.line .l3 q).presentL2 = true)
    (drained : drainL2Child q b (cnt s .l3 (·.evict)) = .ok () t) (dirty : (t.line .l3 q).dirty = true)
    (ram : t.ramRange b (t.line .l3 q).data.length o) : flushLine a .l3 s = .ok () (sunk t q b o) := by
  refine flushLine_of_evicted found ?_
  have line := line_cnt s .l3 (·.evict) .l3 q
  have addr : Config.addrOf (cnt s .l3 (·.evict)).cfg .l3 q (s.line .l3 q) = b := block.symm
  change evictL3 q s = _
  unfold evictL3
  rw [Op.bind_ok (countAt_run ..), Op.get_bind_run]
  dsimp only
  rw [line, if_pos present, addr]
  refine (Op.bind_ok drained).trans ?_
  rw [Op.bind_ok (getLine_run ..), if_pos dirty, Op.bind_ok (writebackL3_ram ram), Op.bind_ok (getLine_run ..)]
  rw [show (writtenBack t b o (t.line .l3 q).data).line .l3 q = t.line .l3 q from line_cnt t .l3 (·.writeback) .l3 q]
  rfl

/-- A block that L3 holds in slot q3 and L2 in slot q2, and L1D, alone of the first-level caches, dirty in slot q1, is drained
from L1D to L3: its bytes are then L3's, the two slots above hold reset lines, and one eviction and one write-back are
counted at each of the two levels. -/
theorem drainL2Child_from_l1d {b : Nat} {q1 q2 q3 : Nat × Nat} (valid3 : (s.line .l3 q3).valid = true)
    (block : s.addr .l3 q3 = b) (found2 : s.lookup b .l2 = some q2) (present : (s.line .l2 q2).presentL1d = true)
    (absent : (s.line .l2 q2).presentL1i = false) (found1 : s.lookup b .l1d = some q1)
    (dirty : (s.line .l1d q1).dirty = true) : ∃ t, drainL2Child q3 b s = .ok () t ∧ onlyCache s t ∧
      (t.line .l3 q3).dirty = true ∧ (t.line .l3 q3).data = (s.line .l1d q1).data ∧
      (∀ l q, (l, q) ≠ (.l3, q3) → t.line l q =
        if (l, q) = (.l1d, q1) ∨ (l, q) = (.l2, q2) then Line.reset s.cfg.lineSize else s.line l q) ∧
      ∀ l, (t.cache.level l).stats =
        if l = .l1d ∨ l = .l2 then (s.cache.level l).stats.writeback.evict else (s.cache.level l).stats := by
  have addr2 : s.addr .l2 q2 = b := by rw [addr_of_lookup found2, ← block]; exact block_addrOf ..
  have addr1 : s.addr .l1d q1 = b := by rw [addr_of_lookup found1, ← block]; exact block_addrOf ..
  -- L1D's line leaves for L2's
  have leaves1 : Leaves s .l1d .l2 q1 q2 :=
    ⟨rfl, (lookup_valid found1).1, (lookup_valid found2).1, addr2.trans addr1.symm, fun k hk => absurd hk (parent_side .l1d)⟩
  have m1 : Merged s (drainedInto s .l1d .l2 q1 q2) .l1d .l2 q1 q2 := merged_taken leaves1
  obtain ⟨t1, ht1⟩ : ∃ t1, t1 = drainedInto s .l1d .l2 q1 q2 := ⟨_, rfl⟩
  rw [← ht1] at m1
  have gone : ∀ k, (t1.line .l2 q2).present k = if k = .l1d then false else (s.line .l2 q2).present k := fun k => by
    rw [m1.present leaves1 (by simp)]
    simp
  have children : drainChildren q2 b s = .ok () t1 := by
    have alone : (t1.line .l2 q2).presentIn .l1i = false := (gone .l1i).trans absent
    rw [drainChildren, Op.bind_ok (drainChild_held (c := .l1d) present found1)]
    exact ht1 ▸ drainChild_absent alone b
  -- L2's line leaves for L3's
  have slot2 := m1.slots leaves1 .l2 q2
  have slot3 := m1.slots leaves1 .l3 q3
  have leaves2 : Leaves t1 .l2 .l3 q2 q3 := by
    refine ⟨rfl, slot2.1.2 ⟨leaves1.validP, by simp⟩, slot3.1.2 ⟨valid3, by simp⟩, ?_, fun k hk => ?_⟩
    · rw [slot3.2 (by simp), slot2.2 (by simp), block, addr2]
    · rw [gone]
      cases k <;> cases hk
      · rfl
      · exact absent
  have m2 : Merged t1 (drainedInto t1 .l2 .l3 q2 q3) .l2 .l3 q2 q3 := merged_taken leaves2
  obtain ⟨g1, line2⟩ := m1.parent
  obtain ⟨g2, line3⟩ := m2.parent
  obtain ⟨-, -, dirty2, data2⟩ := merged_valid (s.line .l2 q2) (s.line .l1d q1) .l1d g1
  obtain ⟨-, -, dirty3, data3⟩ := merged_valid (t1.line .l3 q3) (t1.line .l2 q2) .l2 g2
  rw [← line2, dirty] at dirty2 data2
  rw [← line3, dirty2] at dirty3 data3
  refine ⟨_, drainL2Child_held found2 children, m1.cache.trans m2.cache, dirty3, data3.trans data2, fun l q not3 => ?_,
    fun l => ?_⟩
  · by_cases is2 : (l, q) = (.l2, q2)
    · cases is2
      rw [m2.child, m1.cfg, if_pos (.inr rfl)]
    · rw [m2.rest l q is2 not3]
      by_cases is1 : (l, q) = (.l1d, q1)
      · cases is1
        rw [m1.child, if_pos (.inl rfl)]
      · rw [m1.rest l q is1 is2, if_neg (by simp only [is1, is2, or_self, not_false_eq_true])]
  · rw [stats_drainedInto, dirty2, ht1, stats_drainedInto, dirty]
    cases l <;> rfl

/-- The lines of a state are its cache's, and the reset line of its configuration. -/
theorem line_with_cache (h : t.cfg = s.cfg) (l : Level) (q : Nat × Nat) : { s with cache := t.cache }.line l q = t.line l q := by
  rw [State.line, State.line, h]

/-- Settles O33: L1D's line is drained into L2's, that one into L3's, whose bytes are then the bus's one write. -/
theorem flushAtL3WritesBusOnce : Obligations.FlushAtL3WritesBusOnce := by
  intro s a q1 q2 q3 b o found3 block present3 found2 present2 absent found1 dirty length ram memory data
  obtain ⟨s0, hs0⟩ : ∃ s0, s0 = cnt s .l3 (·.evict) := ⟨_, rfl⟩
  have line0 : ∀ l q, s0.line l q = s.line l q := hs0 ▸ line_cnt s .l3 (·.evict)
  have lookup0 : ∀ l, s0.lookup b l = s.lookup b l := fun l => hs0 ▸ lookup_cnt
  have only0 : onlyCache s s0 := hs0 ▸ onlyCache_cnt s .l3 (·.evict)
  obtain ⟨t, drained, only, dirty3, data3, line, stats⟩ := drainL2Child_from_l1d (s := s0) (b := b) (q1 := q1) (q2 := q2)
    (q3 := q3) (by rw [line0]; exact (lookup_valid found3).1)
    (by rw [State.addr, line0, block, only0]) (by rw [lookup0, found2]) (by rw [line0, present2])
    (by rw [line0, absent]) (by rw [lookup0, found1]) (by rw [line0, dirty])
  rw [line0] at data3
  have only : onlyCache s t := only0.trans only
  have ram : t.ramRange b (t.line .l3 q3).data.length o := by
    rw [data3, length, only]
    exact ram
  have run := flushLine_l3_dirty found3 block present3 (hs0 ▸ drained) dirty3 ram
  have frame : sunk t q3 b o = { s with
      dram := { s.dram with cells := Memory.writeBytes s.cfg.fillByte s.dram.cells o data }
      bus := s.bus.afterWrite b data
      cache := (sunk t q3 b o).cache } := by
    rw [sunk, data3, only]
    rfl
  refine ⟨_, (sunk t q3 b o).cache, storedAt_writeBytes memory, ?_, fun l q => ?_, fun l => ?_⟩
  · rw [← frame]
    exact exec_ok (Op.bind_ok run)
  · rw [line_with_cache (t := sunk t q3 b o) (by rw [frame]), line_sunk]
    rw [show t.cfg = s.cfg by rw [only]]
    by_cases is3 : (l, q) = (.l3, q3)
    · cases is3
      rw [if_pos ⟨rfl, rfl⟩, if_pos (.inr (.inr rfl))]
    · rw [if_neg fun h => is3 (Prod.ext h.1 h.2), line l q is3, line0, show s0.cfg = s.cfg by rw [only0]]
      simp only [is3, or_false]
  · refine (stats_sunk t q3 b o l).trans ?_
    rw [stats, hs0, stats_cnt]
    cases l <;> rfl

end Sys2Proof.Machine
end

section
/-! SUPPORT. `CACHE.read` of a block that its first-level cache does not hold (spec/43_cache.md R252 to R258): the victim, the
installation that displaces it, and the fill from L2, from L3 and from the bus. -/

namespace Sys2Proof.Machine

variable {s t u : State}

/-! ## The victim (R253) -/

/-- Line w is older than line v, or as old and of the lower way. -/
def Older (line : Nat → Line) (w v : Nat) : Prop := (line w).lru < (line v).lru ∨ ((line w).lru = (line v).lru ∧ w ≤ v)

theorem Older.refl (line : Nat → Line) (w : Nat) : Older line w w := .inr ⟨rfl, le_rfl⟩

theorem Older.trans {line : Nat → Line} {w v x : Nat} (h : Older line w v) (g : Older line v x) : Older line w x := by
  unfold Older at *
  omega

/-- The least recent of rising ways is older than each of them. -/
theorem leastRecent_older (line : Nat → Line) : ∀ ws : List Nat, ws.Pairwise (· < ·) → ∀ v ∈ ws, Older line (leastRecent line ws) v
  | [], _, v, hv => nomatch hv
  | [w], _, v, hv => by
    rw [List.mem_singleton.1 hv]
    exact .refl line w
  | w :: x :: ws, sorted, v, hv => by
    obtain ⟨first, rest⟩ := List.pairwise_cons.1 sorted
    have least := leastRecent_older line (x :: ws) rest
    have later := first _ (leastRecent_mem line (x :: ws) (List.cons_ne_nil x ws))
    simp only [leastRecent]
    split
    next le =>
      have head : Older line w (leastRecent line (x :: ws)) := by
        unfold Older
        omega
      rcases List.mem_cons.1 hv with rfl | hv
      · exact .refl line v
      · exact head.trans (least v hv)
    next gt =>
      rcases List.mem_cons.1 hv with rfl | hv
      · exact .inl (not_le.1 gt)
      · exact least v hv

/-- With an invalid way in the set the victim is the lowest one. -/
theorem chooseVictim_of_invalid {l : Level} {set v : Nat} (hv : v < s.cfg.ways l) (invalid : (s.line l (set, v)).valid = false) :
    (s.line l (set, s.chooseVictim l set)).valid = false ∧ s.chooseVictim l set ≤ v := by
  unfold State.chooseVictim
  dsimp only
  split
  next w found =>
    obtain ⟨isInvalid, as, bs, split, before⟩ := List.find?_eq_some_iff_append.1 found
    refine ⟨by simpa using isInvalid, not_lt.1 fun lt => ?_⟩
    have sorted : (as ++ w :: bs).Pairwise (· < ·) := split ▸ List.pairwise_lt_range
    have mem : v ∈ as ++ w :: bs := split ▸ List.mem_range.2 hv
    rcases List.mem_append.1 mem with mem | mem
    · simpa [invalid] using before v mem
    · rcases List.mem_cons.1 mem with rfl | mem
      · exact lt_irrefl _ lt
      · have := (List.pairwise_cons.1 (List.pairwise_append.1 sorted).2.1).1 v mem
        omega
  next none => simpa [invalid] using List.find?_eq_none.1 none v (List.mem_range.2 hv)

/-- In a full set the victim is preferred if any way is, and older than every way that is preferred if it is. -/
theorem chooseVictim_of_full {l : Level} {set : Nat}
    (full : ∀ v < s.cfg.ways l, (s.line l (set, v)).valid = true) :
    let preferred := fun v => (s.line l (set, v)).preferred l = true
    (∀ v < s.cfg.ways l, preferred v → preferred (s.chooseVictim l set)) ∧
    ∀ v < s.cfg.ways l, (preferred (s.chooseVictim l set) → preferred v) →
      Older (fun w => s.line l (set, w)) (s.chooseVictim l set) v := by
  intro preferred
  obtain ⟨line, hline⟩ : ∃ line : Nat → Line, line = fun w => s.line l (set, w) := ⟨_, rfl⟩
  obtain ⟨pref, hpref⟩ : ∃ pref, pref = (List.range (s.cfg.ways l)).filter fun w => (line w).preferred l := ⟨_, rfl⟩
  have mem : ∀ {v}, v ∈ pref ↔ v < s.cfg.ways l ∧ preferred v := by
    intro v
    rw [hpref, List.mem_filter, List.mem_range, hline]
  have victim : s.chooseVictim l set = leastRecent line (if pref.isEmpty then List.range (s.cfg.ways l) else pref) := by
    have none : (List.range (s.cfg.ways l)).find? (fun w => !(s.line l (set, w)).valid) = none :=
      List.find?_eq_none.2 fun v hv => by simp [full v (List.mem_range.1 hv)]
    unfold State.chooseVictim
    dsimp only
    rw [none, hpref, hline]
  rw [← hline, victim]
  by_cases empty : pref = []
  · have nobody : ∀ v < s.cfg.ways l, ¬ preferred v := fun v hv hp => List.not_mem_nil (empty ▸ mem.2 ⟨hv, hp⟩)
    rw [if_pos (List.isEmpty_iff.2 empty)]
    exact ⟨fun v hv hp => absurd hp (nobody v hv), fun v hv _ =>
      leastRecent_older line _ List.pairwise_lt_range v (List.mem_range.2 hv)⟩
  · have isPreferred := (mem.1 (leastRecent_mem line pref empty)).2
    have sorted : pref.Pairwise (· < ·) := hpref ▸ List.pairwise_lt_range.filter _
    rw [if_neg (mt List.isEmpty_iff.1 empty)]
    exact ⟨fun _ _ _ => isPreferred, fun v hv hp => leastRecent_older line _ sorted v (mem.2 ⟨hv, hp isPreferred⟩)⟩

/-- R253's preference in a level's own words. -/
theorem preferred_iff (l : Level) (x : Line) : x.preferred l = true ↔ (match l with
    | .l2 => x.presentL1d = false ∧ x.presentL1i = false
    | .l3 => x.presentL2 = false
    | _ => True) := by
  cases l <;> simp [Line.preferred]

/-! ## Probes and fills -/

theorem line_stamped_read (s : State) (q : Nat × Nat) (l k : Level) (r : Nat × Nat) : (stamped s q l false).line k r =
    if k = l ∧ r = q then { s.line l q with lru := s.cache.globalCounter + 1 } else s.line k r := by
  rw [line_stamped, Bool.or_false]

theorem lookup_stamped_read (s : State) (q : Nat × Nat) (l k : Level) (a : Nat) :
    (stamped s q l false).lookup a k = s.lookup a k := by
  refine lookup_congr (s := s) (t := stamped s q l false) rfl (fun r => ?_) a
  rw [line_stamped_read]
  split
  next h => rw [h.1, h.2]; exact ⟨rfl, rfl⟩
  next => exact ⟨rfl, rfl⟩

theorem level_stamped (s : State) {q : Nat × Nat} {l k : Level} (h : k ≠ l) :
    (stamped s q l false).cache.level k = s.cache.level k := by
  simp [stamped, h]

theorem stats_stamped (s : State) (q : Nat × Nat) (l k : Level) : ((stamped s q l false).cache.level k).stats =
    if k = l then (s.cache.level k).stats.hit else (s.cache.level k).stats := by
  by_cases h : k = l
  · subst h
    simp [stamped, CacheStats.hit]
  · rw [level_stamped s h, if_neg h]

theorem globalCounter_missed (s : State) (l : Level) : (missed s l).cache.globalCounter = s.cache.globalCounter := by
  simp [missed]

/-- An installation puts the new line into its slot and tells the parent's line of the block. -/
theorem line_filled (s : State) (l : Level) (b : Nat) (d : List Byte) (k : Level) (r : Nat × Nat) :
    (filled s l b d).line k r = if k = l ∧ r = slotOf s l b then newLine s l b d false
      else if Level.parent l = some k ∧ s.lookup b k = some r then (s.line k r).withPresence l true else s.line k r := by
  rw [filled, line_marked, line_installed]
  by_cases own : k = l
  · subst own
    have notParent : ¬ Level.parent k = some k := fun h => (Level.parent_ne h).1 rfl
    simp [notParent]
  · rw [lookup_other own]
    simp only [own, false_and, if_false]

theorem lookup_filled {l : Level} {b : Nat} {d : List Byte} (absent : s.lookup b l = none) (free : s.wayFree l b) :
    (filled s l b d).lookup b l = some (slotOf s l b) := by
  rw [filled, lookup_marked, lookup_installed absent free]

theorem globalCounter_filled (s : State) (l : Level) (b : Nat) (d : List Byte) :
    (filled s l b d).cache.globalCounter = s.cache.globalCounter + 1 := by
  have mark : ∀ u : State, (marked u l b true).cache.globalCounter = u.cache.globalCounter := by
    intro u
    unfold marked
    split
    · rfl
    · split
      · exact globalCounter_put ..
      · rfl
  exact mark _

theorem slotOf_congr {l : Level} {b : Nat} (cfg : t.cfg = s.cfg) (line : ∀ r, t.line l r = s.line l r) :
    slotOf t l b = slotOf s l b := by
  rw [slotOf, slotOf, cfg, chooseVictim_congr s l cfg line]

theorem slotOf_block (pos : 0 < s.cfg.lineSize) (l : Level) (a : Nat) : slotOf s l (Config.block s.cfg a) = slotOf s l a := by
  rw [slotOf, slotOf, (block_eq pos a l).1]

/-- What a state holds depends on its cache and its configuration, and on an address by its block. -/
theorem holdsClean_of_block (pos : 0 < s.cfg.lineSize) (h : t.cfg = s.cfg) {l : Level} {a : Nat} {d : List Byte}
    (held : t.holdsClean l (Config.block s.cfg a) d) : { s with cache := t.cache }.holdsClean l a d := by
  obtain ⟨q, found, data, clean⟩ := held
  have line := line_with_cache (s := s) h l
  refine ⟨q, (lookup_congr (s := t) (t := { s with cache := t.cache }) h.symm (fun r => ?_) a).trans ?_, ?_⟩
  · rw [line]
    exact ⟨rfl, rfl⟩
  · rw [← found, ← h]
    exact (lookup_block (h ▸ pos) a l).symm
  · rw [line]
    exact ⟨data, clean⟩

/-! ## L2 and the first level filled, ways free (R254, R256) -/

/-- The state after block b was installed in L2 and then in a first-level cache. -/
def broughtUp (s : State) (c : Side) (b : Nat) (d : List Byte) : State := filled (filled s .l2 b d) c.level b d

section
variable {c : Side} {b : Nat} {d : List Byte}

theorem bringUp_run (free1 : s.wayFree c.level b) (free2 : s.wayFree .l2 b) : (do
    installL2 b d false
    installL1 c b d false
    return d : Op (List Byte)) s = .ok d (broughtUp s c b d) := by
  have into2 : installL2 b d false s = .ok () (filled s .l2 b d) := installWith_clean free2
  have into1 : installL1 c b d false (filled s .l2 b d) = .ok () (broughtUp s c b d) :=
    installWith_clean ((wayFree_inst (Side.level_ne c).1).2 free1)
  rw [Op.bind_ok into2, Op.bind_ok into1]
  rfl

theorem onlyCache_broughtUp : onlyCache s (broughtUp s c b d) := (onlyCache_inst ..).trans (onlyCache_inst ..)

theorem slotOf_filled_l2 : slotOf (filled s .l2 b d) c.level b = slotOf s c.level b := by
  obtain ⟨ne2, ne3⟩ := Side.level_ne c
  refine slotOf_congr (by rw [onlyCache_inst s .l2 b d]) fun r => ?_
  rw [line_filled, if_neg fun h => ne2 h.1, if_neg fun h => ne3 (Option.some.inj h.1).symm]

theorem lookup_broughtUp_l2 (absent2 : s.lookup b .l2 = none) (free2 : s.wayFree .l2 b) :
    (broughtUp s c b d).lookup b .l2 = some (slotOf s .l2 b) := by
  rw [broughtUp, lookup_inst_other (Side.level_ne c).1.symm, lookup_filled absent2 free2]

theorem holds_broughtUp (absent1 : s.lookup b c.level = none) (absent2 : s.lookup b .l2 = none)
    (free1 : s.wayFree c.level b) (free2 : s.wayFree .l2 b) {l : Level} (hl : l = c.level ∨ l = .l2) :
    (broughtUp s c b d).holdsClean l b d := by
  have ne2 := (Side.level_ne c).1
  rcases hl with rfl | rfl
  · exact holds_inst_self ((lookup_inst_other ne2).trans absent1) ((wayFree_inst ne2).2 free1)
  · exact holds_inst ne2.symm (holds_inst_self absent2 free2)

theorem stats_broughtUp (l : Level) : ((broughtUp s c b d).cache.level l).stats =
    if l = c.level ∨ l = .l2 then (s.cache.level l).stats.fill else (s.cache.level l).stats := by
  have ne2 := (Side.level_ne c).1
  rw [broughtUp, stats_inst, stats_inst]
  by_cases h2 : l = .l2
  · subst h2
    rw [if_neg ne2.symm, if_pos rfl, if_pos (.inr rfl)]
  · simp only [h2, or_false, if_false]

theorem level_broughtUp {l : Level} (h1 : l ≠ c.level) (h2 : l ≠ .l2) (h3 : l ≠ .l3) :
    (broughtUp s c b d).cache.level l = s.cache.level l := by
  rw [broughtUp, level_inst _ _ _ _ _ h1 (by rw [Side.parent_level]; simpa using h2.symm),
    level_inst _ _ _ _ _ h2 (by simpa [Level.parent] using h3.symm)]

/-- L2's new line records the first-level cache, and no other. -/
theorem line_broughtUp_l2 (absent2 : s.lookup b .l2 = none) (free2 : s.wayFree .l2 b) :
    (broughtUp s c b d).line .l2 (slotOf s .l2 b) = (newLine s .l2 b d false).withPresence c.level true := by
  rw [broughtUp, line_filled, if_neg fun h => (Side.level_ne c).1 h.1.symm,
    if_pos ⟨Side.parent_level c, lookup_filled absent2 free2⟩, line_filled, if_pos ⟨rfl, rfl⟩]

/-- A new line that its parent level has told of one child records that child alone. -/
theorem presentIn_newLine (s : State) (c e : Side) (l : Level) (b : Nat) (d : List Byte) (w : Bool) :
    ((newLine s l b d w).withPresence c.level true).presentIn e = decide (e = c) := by
  cases c <;> cases e <;> rfl

/-- Outside the two slots taken, only L3's line of the block changes: it records L2. -/
theorem line_broughtUp_other (absent2 : s.lookup b .l2 = none) (free2 : s.wayFree .l2 b) {k : Level} {r : Nat × Nat}
    (not1 : (k, r) ≠ (c.level, slotOf s c.level b)) (not2 : (k, r) ≠ (.l2, slotOf s .l2 b)) :
    (broughtUp s c b d).line k r =
      if k = .l3 ∧ s.lookup b .l3 = some r then (s.line k r).withPresence .l2 true else s.line k r := by
  have notParent : ¬ (Level.parent c.level = some k ∧ (filled s .l2 b d).lookup b k = some r) := by
    rw [Side.parent_level]
    rintro ⟨⟨⟩, found⟩
    rw [lookup_filled absent2 free2] at found
    cases found
    exact not2 rfl
  rw [broughtUp, line_filled, slotOf_filled_l2, if_neg fun h => not1 (Prod.ext h.1 h.2), if_neg notParent, line_filled,
    if_neg fun h => not2 (Prod.ext h.1 h.2)]
  by_cases h3 : k = .l3
  · subst h3
    simp [Level.parent]
  · simp [Level.parent, h3, Ne.symm h3]

end

/-! ## A read that misses L2 -/

/-- The state after a read missed the first level and L2. -/
def missedTwice (s : State) (c : Side) : State := missed (missed s c.level) .l2

theorem line_missedTwice (s : State) (c : Side) (k : Level) (r : Nat × Nat) : (missedTwice s c).line k r = s.line k r := by
  rw [missedTwice, line_missed, line_missed]

theorem lookup_missedTwice (s : State) (c : Side) (a : Nat) (k : Level) : (missedTwice s c).lookup a k = s.lookup a k := by
  rw [missedTwice, lookup_missed, lookup_missed]

theorem stats_missedTwice (s : State) (c : Side) (k : Level) : ((missedTwice s c).cache.level k).stats =
    if k = c.level ∨ k = .l2 then (s.cache.level k).stats.miss else (s.cache.level k).stats := by
  have ne2 := (Side.level_ne c).1
  rw [missedTwice, stats_missed, stats_missed]
  by_cases h2 : k = .l2
  · subst h2
    rw [if_neg ne2.symm, if_pos rfl, if_pos (.inr rfl)]
  · simp only [h2, or_false, if_false]

theorem level_missedTwice {c : Side} {k : Level} (h1 : k ≠ c.level) (h2 : k ≠ .l2) :
    (missedTwice s c).cache.level k = s.cache.level k := by
  rw [missedTwice, level_missed _ _ _ h2, level_missed _ _ _ h1]

theorem wayFree_missedTwice {c : Side} {k : Level} {a : Nat} : (missedTwice s c).wayFree k a ↔ s.wayFree k a :=
  wayFree_missed.trans wayFree_missed

/-- The state after a read missed the first level and L2 and hit L3 in slot r. -/
def probedL3 (s : State) (c : Side) (r : Nat × Nat) : State := stamped (missedTwice s c) r .l3 false

section
variable {c : Side} {r : Nat × Nat}

theorem line_probedL3 (k : Level) (x : Nat × Nat) : (probedL3 s c r).line k x =
    if k = .l3 ∧ x = r then { s.line .l3 r with lru := s.cache.globalCounter + 1 } else s.line k x := by
  have counter : (missedTwice s c).cache.globalCounter = s.cache.globalCounter :=
    (globalCounter_missed ..).trans (globalCounter_missed ..)
  rw [probedL3, line_stamped_read, line_missedTwice, line_missedTwice, counter]

theorem lookup_probedL3 (a : Nat) (k : Level) : (probedL3 s c r).lookup a k = s.lookup a k := by
  rw [probedL3, lookup_stamped_read, lookup_missedTwice]

theorem valid_probedL3 (k : Level) (x : Nat × Nat) : ((probedL3 s c r).line k x).valid = (s.line k x).valid := by
  rw [line_probedL3]
  split
  next h => rw [h.1, h.2]
  next => rfl

theorem wayFree_probedL3 {a : Nat} {k : Level} (h : s.wayFree k a) : (probedL3 s c r).wayFree k a :=
  (wayFree_congr (s := s) (t := probedL3 s c r) rfl (valid_probedL3 k)).2 h

theorem stats_probedL3 (k : Level) : ((probedL3 s c r).cache.level k).stats = if k = .l3 then (s.cache.level k).stats.hit
    else if k = c.level ∨ k = .l2 then (s.cache.level k).stats.miss else (s.cache.level k).stats := by
  rw [probedL3, stats_stamped, stats_missedTwice]
  by_cases h3 : k = .l3
  · subst h3
    have upper : ¬ (Level.l3 = c.level ∨ Level.l3 = .l2) := by simp [(Side.level_ne c).2.symm]
    rw [if_pos rfl, if_pos rfl, if_neg upper]
  · rw [if_neg h3, if_neg h3]

theorem level_probedL3 {k : Level} (h1 : k ≠ c.level) (h2 : k ≠ .l2) (h3 : k ≠ .l3) :
    (probedL3 s c r).cache.level k = s.cache.level k := by
  rw [probedL3, level_stamped _ h3, level_missedTwice h1 h2]

end

section
variable {c : Side} {pa : Nat}

/-- A read of a block that L3 holds and the levels above do not, with ways free there. -/
theorem cacheRead_l3 {q3 : Nat × Nat} (absent : ∀ l, l = c.level ∨ l = .l2 → s.lookup pa l = none)
    (held : s.lookup pa .l3 = some q3) (free : ∀ l, l = c.level ∨ l = .l2 → s.wayFree l (Config.block s.cfg pa)) :
    cacheRead pa c s = .ok (s.line .l3 q3).data
      (broughtUp (probedL3 s c q3) c (Config.block s.cfg pa) (s.line .l3 q3).data) := by
  have data : ((probedL3 s c q3).line .l3 q3).data = (s.line .l3 q3).data := by
    rw [line_probedL3, if_pos ⟨rfl, rfl⟩]
  unfold cacheRead
  rw [Op.get_bind_run]
  dsimp only
  rw [Op.bind_ok (accessLine_miss (absent _ (.inl rfl)))]
  dsimp only
  rw [Op.bind_ok (accessLine_miss ((lookup_missed ..).trans (absent _ (.inr rfl)))), ← missedTwice]
  dsimp only
  rw [Op.bind_ok (accessLine_hit false ((lookup_missedTwice ..).trans held)), ← probedL3]
  dsimp only
  rw [Op.bind_ok (getLine_run ..), data]
  exact bringUp_run (wayFree_probedL3 (free _ (.inl rfl))) (wayFree_probedL3 (free _ (.inr rfl)))

/-- The state after a read missed every level and read block b, at DRAM's offset o, from the bus. -/
def fetched (s : State) (c : Side) (b o : Nat) : State :=
  { missed (missedTwice s c) .l3 with bus := s.bus.afterRead b (s.dramBytes o s.cfg.lineSize) }

theorem lookup_fetched (s : State) (c : Side) (b o a : Nat) (k : Level) : (fetched s c b o).lookup a k = s.lookup a k :=
  (lookup_missed (missedTwice s c) .l3 a k).trans (lookup_missedTwice s c a k)

theorem wayFree_fetched {c : Side} {b o a : Nat} {k : Level} (h : s.wayFree k a) : (fetched s c b o).wayFree k a :=
  (wayFree_missed (s := missedTwice s c) (l := .l3)).2 (wayFree_missedTwice.2 h)

theorem stats_fetched {c : Side} (b o : Nat) {k : Level} (h : k = c.level ∨ k = .l2 ∨ k = .l3) :
    ((fetched s c b o).cache.level k).stats = (s.cache.level k).stats.miss := by
  refine (stats_missed (missedTwice s c) .l3 k).trans ?_
  obtain ⟨-, ne3⟩ := Side.level_ne c
  rw [stats_missedTwice]
  rcases h with rfl | rfl | rfl <;> simp [ne3, ne3.symm]

theorem level_fetched {c : Side} (b o : Nat) {k : Level} (h1 : k ≠ c.level) (h2 : k ≠ .l2) (h3 : k ≠ .l3) :
    (fetched s c b o).cache.level k = s.cache.level k :=
  (level_missed (missedTwice s c) .l3 k h3).trans (level_missedTwice h1 h2)

theorem fetchLine_ram {b o : Nat} (ram : s.ramRange b s.cfg.lineSize o) (l : Level) : fetchLine l b s =
    .ok (s.dramBytes o s.cfg.lineSize) { s with bus := s.bus.afterRead b (s.dramBytes o s.cfg.lineSize) } := by
  unfold fetchLine
  rw [Op.get_bind_run]
  unfold tagged
  rw [busRead_ram ram]

/-- The state after block b was installed in L3, L2 and a first-level cache. -/
def filledAll (s : State) (c : Side) (b : Nat) (d : List Byte) : State := broughtUp (filled s .l3 b d) c b d

/-- A read of a block of RAM that no level holds, with ways free at each on its way. -/
theorem cacheRead_bus {o : Nat} {d : List Byte} (absent : ∀ l, l = c.level ∨ l = .l2 ∨ l = .l3 → s.lookup pa l = none)
    (free : ∀ l, l = c.level ∨ l = .l2 ∨ l = .l3 → s.wayFree l (Config.block s.cfg pa))
    (ram : s.ramRange (Config.block s.cfg pa) s.cfg.lineSize o) (hd : s.dramBytes o s.cfg.lineSize = d) :
    cacheRead pa c s = .ok d (filledAll (fetched s c (Config.block s.cfg pa) o) c (Config.block s.cfg pa) d) := by
  have freeAt : ∀ l, l = c.level ∨ l = .l2 ∨ l = .l3 → (fetched s c (Config.block s.cfg pa) o).wayFree l _ :=
    fun l hl => wayFree_fetched (free l hl)
  have fetch : fetchLine .l3 (Config.block s.cfg pa) (missed (missedTwice s c) .l3) =
      .ok (s.dramBytes o s.cfg.lineSize) (fetched s c (Config.block s.cfg pa) o) :=
    fetchLine_ram (s := missed (missedTwice s c) .l3) ram .l3
  unfold cacheRead
  rw [Op.get_bind_run]
  dsimp only
  rw [Op.bind_ok (accessLine_miss (absent _ (.inl rfl)))]
  dsimp only
  rw [Op.bind_ok (accessLine_miss ((lookup_missed ..).trans (absent _ (.inr (.inl rfl))))), ← missedTwice]
  dsimp only
  rw [Op.bind_ok (accessLine_miss ((lookup_missedTwice ..).trans (absent _ (.inr (.inr rfl)))))]
  dsimp only
  rw [Op.bind_ok fetch, hd]
  refine (Op.bind_ok (installWith_clean (freeAt _ (.inr (.inr rfl))))).trans ?_
  exact bringUp_run ((wayFree_inst (Side.level_ne c).2).2 (freeAt _ (.inl rfl)))
    ((wayFree_inst (by decide)).2 (freeAt _ (.inr (.inl rfl))))

theorem onlyCache_filledAll (s : State) (c : Side) (b : Nat) (d : List Byte) : onlyCache s (filledAll s c b d) :=
  (onlyCache_inst ..).trans onlyCache_broughtUp

/-- After a fill from the bus the cache has changed, and the bus has counted its one read. -/
theorem filledAll_fetched (s : State) (c : Side) (b o : Nat) (d : List Byte) : filledAll (fetched s c b o) c b d =
    { s with
      cache := (filledAll (fetched s c b o) c b d).cache
      bus := s.bus.afterRead b (s.dramBytes o s.cfg.lineSize) } :=
  onlyCache_filledAll (fetched s c b o) c b d

theorem holds_filledAll {b : Nat} {d : List Byte} (absent : ∀ l, l = c.level ∨ l = .l2 ∨ l = .l3 → s.lookup b l = none)
    (free : ∀ l, l = c.level ∨ l = .l2 ∨ l = .l3 → s.wayFree l b) {l : Level} (hl : l = c.level ∨ l = .l2 ∨ l = .l3) :
    (filledAll s c b d).holdsClean l b d := by
  obtain ⟨-, ne3⟩ := Side.level_ne c
  by_cases h3 : l = .l3
  · subst h3
    exact holds_inst ne3.symm (holds_inst (by decide) (holds_inst_self (absent _ (.inr (.inr rfl))) (free _ (.inr (.inr rfl)))))
  · refine holds_broughtUp ((lookup_inst_other ne3).trans (absent _ (.inl rfl)))
      ((lookup_inst_other (by decide)).trans (absent _ (.inr (.inl rfl)))) ((wayFree_inst ne3).2 (free _ (.inl rfl)))
      ((wayFree_inst (by decide)).2 (free _ (.inr (.inl rfl)))) ?_
    simpa only [h3, or_false] using hl

theorem stats_filledAll {b : Nat} {d : List Byte} {l : Level} (hl : l = c.level ∨ l = .l2 ∨ l = .l3) :
    ((filledAll s c b d).cache.level l).stats = (s.cache.level l).stats.fill := by
  obtain ⟨-, ne3⟩ := Side.level_ne c
  rw [filledAll, stats_broughtUp, stats_inst]
  rcases hl with rfl | rfl | rfl <;> simp [ne3, ne3.symm]

theorem level_filledAll {b : Nat} {d : List Byte} {l : Level} (h1 : l ≠ c.level) (h2 : l ≠ .l2) (h3 : l ≠ .l3) :
    (filledAll s c b d).cache.level l = s.cache.level l := by
  rw [filledAll, level_broughtUp h1 h2 h3, level_inst _ _ _ _ _ h3 nofun]

end

/-- A fill from L3, ways free above it: the two levels hold L3's bytes, each parent's line records its child, and no other
valid line changes. -/
theorem filledFromL3_run {c : Side} {pa : Nat} {q3 : Nat × Nat} (legal : ConfigLegal s.cfg)
    (miss : ∀ l, l = c.level ∨ l = .l2 → s.lookup pa l = none ∧ s.wayFree l pa) (held : s.lookup pa .l3 = some q3) :
    ∃ t, cacheRead pa c s = .ok (s.line .l3 q3).data t ∧ onlyCache s t ∧
      (∀ l, l = c.level ∨ l = .l2 → t.holdsClean l pa (s.line .l3 q3).data ∧
        (t.cache.level l).stats = (s.cache.level l).stats.miss.fill) ∧
      t.line .l3 q3 = ({ s.line .l3 q3 with lru := s.cache.globalCounter + 1 } : Line).withPresence .l2 true ∧
      (t.cache.level .l3).stats = (s.cache.level .l3).stats.hit ∧
      (∀ q, t.lookup pa .l2 = some q → ∀ d, (t.line .l2 q).presentIn d = decide (d = c)) ∧
      (∀ l r, (s.line l r).valid = true → (l, r) ≠ (.l3, q3) → t.line l r = s.line l r) ∧
      ∀ l, l ≠ c.level → l ≠ .l2 → l ≠ .l3 → t.cache.level l = s.cache.level l := by
  have pos := lineSize_pos legal
  have ne3 := (Side.level_ne c).2
  obtain ⟨b, hb⟩ : ∃ b, b = Config.block s.cfg pa := ⟨_, rfl⟩
  obtain ⟨w, hw⟩ : ∃ w, w = probedL3 s c q3 := ⟨_, rfl⟩
  have free : ∀ l, l = c.level ∨ l = .l2 → s.wayFree l b := fun l hl => by
    rw [hb, wayFree_block pos]
    exact (miss l hl).2
  have wAbsent : ∀ l, l = c.level ∨ l = .l2 → w.lookup b l = none := fun l hl => by
    rw [hw, lookup_probedL3, hb, lookup_block pos]
    exact (miss l hl).1
  have wHeld : w.lookup b .l3 = some q3 := by rw [hw, lookup_probedL3, hb, lookup_block pos, held]
  have wFree : ∀ l, l = c.level ∨ l = .l2 → w.wayFree l b := fun l hl => hw ▸ wayFree_probedL3 (free l hl)
  obtain ⟨d, hd⟩ : ∃ d, d = (s.line .l3 q3).data := ⟨_, rfl⟩
  have run := cacheRead_l3 (fun l hl => (miss l hl).1) held (hb ▸ free)
  rw [← hb, ← hw, ← hd] at run
  have only : onlyCache s (broughtUp w c b d) := (show onlyCache s w from hw ▸ rfl).trans onlyCache_broughtUp
  have cfg : (broughtUp w c b d).cfg = s.cfg := by rw [only]
  have tPos : 0 < (broughtUp w c b d).cfg.lineSize := cfg ▸ pos
  have other := fun k r => line_broughtUp_other (c := c) (d := d) (k := k) (r := r) (wAbsent _ (.inr rfl)) (wFree _ (.inr rfl))
  rw [← hd]
  refine ⟨_, run, only, fun l hl => ⟨?_, ?_⟩, ?_, ?_, fun q found e => ?_, fun l r valid not3 => ?_, fun l h1 h2 h3 => ?_⟩
  · refine holds_block tPos ?_
    rw [cfg, ← hb]
    exact holds_broughtUp (wAbsent _ (.inl rfl)) (wAbsent _ (.inr rfl)) (wFree _ (.inl rfl)) (wFree _ (.inr rfl)) hl
  · have upper : l ≠ .l3 := by
      rintro rfl
      simp [ne3.symm] at hl
    rw [stats_broughtUp, if_pos hl, hw, stats_probedL3, if_neg upper, if_pos hl]
  · rw [other .l3 q3 (by simp [ne3.symm]) (by simp), if_pos ⟨rfl, wHeld⟩, hw, line_probedL3, if_pos ⟨rfl, rfl⟩]
  · rw [stats_broughtUp, if_neg (by simp [ne3.symm]), hw, stats_probedL3, if_pos rfl]
  · rw [← lookup_block tPos, cfg, ← hb, lookup_broughtUp_l2 (wAbsent _ (.inr rfl)) (wFree _ (.inr rfl))] at found
    cases found
    rw [line_broughtUp_l2 (wAbsent _ (.inr rfl)) (wFree _ (.inr rfl)), presentIn_newLine]
  · have taken : ∀ k, k = c.level ∨ k = .l2 → (l, r) ≠ (k, slotOf w k b) := by
      intro k hk same
      obtain ⟨rfl, rfl⟩ := Prod.mk.inj same
      have invalid := (slotOf_free (wFree l hk)).1
      rw [hw, valid_probedL3, ← hw, valid] at invalid
      cases invalid
    rw [other l r (taken _ (.inl rfl)) (taken _ (.inr rfl)), if_neg, hw, line_probedL3,
      if_neg fun h => not3 (Prod.ext h.1 h.2)]
    rintro ⟨rfl, found⟩
    rw [wHeld] at found
    cases found
    exact not3 rfl
  · rw [level_broughtUp h1 h2 h3, hw, level_probedL3 h1 h2 h3]

/-! ## From L2, whatever line is displaced (R256, R260) -/

/-- u is s after the eviction of the line of slot q of a first-level cache, if it is valid: its L2 line, of slot r where there
is one, has its bytes if they are dirty, and not its presence flag. -/
structure VictimGone (s u : State) (c : Side) (q : Nat × Nat) : Prop where
  cache : onlyCache s u
  line : ∀ k r, u.line k r =
    if k = .l2 ∧ (s.line c.level q).valid = true ∧ s.lookup (s.addr c.level q) .l2 = some r
    then (s.line .l2 r).merged (s.line c.level q) c.level (s.cache.globalCounter + 1) else s.line k r
  stats : ∀ k, (u.cache.level k).stats = if k = c.level ∧ (s.line c.level q).valid = true
    then (if (s.line c.level q).dirty = true then (s.cache.level k).stats.evict.writeback else (s.cache.level k).stats.evict)
    else (s.cache.level k).stats
  globalCounter : u.cache.globalCounter = s.cache.globalCounter +
    if (s.line c.level q).valid = true ∧ (s.line c.level q).dirty = true then 1 else 0
  level : ∀ k, k ≠ c.level → k ≠ .l2 → u.cache.level k = s.cache.level k

theorem globalCounter_evictedL1 (s : State) (c : Side) (q r : Nat × Nat) : (evictedL1 s c q r).cache.globalCounter =
    s.cache.globalCounter + if (s.line c.level q).dirty = true then 1 else 0 := by
  unfold evictedL1
  rw [globalCounter_put, globalCounter_handed, globalCounter_cnt, line_cnt]

theorem level_evictedL1 (s : State) (c : Side) (q r : Nat × Nat) {k : Level} (h1 : k ≠ c.level) (h2 : k ≠ .l2) :
    (evictedL1 s c q r).cache.level k = s.cache.level k := by
  unfold evictedL1
  rw [level_put _ _ _ _ _ h2, level_handed _ _ _ _ _ _ h1 h2, level_cnt _ _ _ _ h1]

theorem victimGone_run {c : Side} {q : Nat × Nat}
    (parent : (s.line c.level q).valid = true → ∃ r, s.lookup (s.addr c.level q) .l2 = some r) :
    ∃ u, (if (s.line c.level q).valid then evictL1 c q else pure () : Op Unit) s = .ok () u ∧ VictimGone s u c q := by
  by_cases valid : (s.line c.level q).valid = true
  · obtain ⟨r, held⟩ := parent valid
    have at_ : ∀ x, r = x ↔ x = r := fun x => eq_comm
    rw [if_pos valid]
    refine ⟨_, evictL1_eq c held, onlyCache_evictedL1 s c q r, fun k x => ?_, fun k => ?_, ?_, fun k h1 h2 =>
      level_evictedL1 s c q r h1 h2⟩
    · refine (line_evictedL1 s c q r k x).trans ?_
      simp only [valid, held, Option.some.injEq, true_and, at_]
      split
      next h => rw [h.2]
      next => rfl
    · refine (stats_evictedL1 s c q r k).trans ?_
      simp only [valid, and_true]
    · refine (globalCounter_evictedL1 s c q r).trans ?_
      simp only [valid, true_and]
  · rw [if_neg valid]
    refine ⟨s, rfl, rfl, fun k x => ?_, fun k => ?_, ?_, fun _ _ _ => rfl⟩
    all_goals simp [valid]

theorem VictimGone.lookup {c : Side} {q : Nat × Nat} (h : VictimGone s u c q) (a : Nat) (k : Level) :
    u.lookup a k = s.lookup a k := by
  refine lookup_congr (by rw [h.cache]) (fun r => ?_) a
  rw [h.line]
  split
  next is2 =>
    obtain ⟨rfl, -, -⟩ := is2
    obtain ⟨valid, tag, -, -⟩ := merged_valid (s.line .l2 r) (s.line c.level q) c.level (s.cache.globalCounter + 1)
    exact ⟨valid, tag⟩
  next => exact ⟨rfl, rfl⟩

theorem installed_eq (s : State) (l : Level) (b : Nat) (d : List Byte) (w : Bool) : installed s l b d w =
    cnt (put (stamp s) l (slotOf s l b) (newLine s l b d w)) l (·.fill) := by
  cases l <;> rfl

/-- An installation once its slot is free. -/
theorem putNew_run (s : State) (l : Level) (b : Nat) (d : List Byte) : (do
    let g ← nextStamp
    putLine l (slotOf s l b) { valid := true, dirty := false, tag := Config.tagOf s.cfg l b, data := d, lru := g,
                               presentL1d := false, presentL1i := false, presentL2 := false }
    countAt l (·.fill)
    markPresence l b true : Op Unit) s = .ok () (filled s l b d) := by
  rw [Op.bind_ok (nextStamp_run s), Op.bind_ok (putLine_run ..), Op.bind_ok (countAt_run ..), markPresence_run, filled,
    installed_eq]
  rfl

/-- An installation whose slot is freed first, the level's lines staying until the new one is put. -/
theorem installWith_displacing {evict : Nat × Nat → Op Unit} {l : Level} {b : Nat} {d : List Byte}
    (freed : (if (s.line l (slotOf s l b)).valid then evict (slotOf s l b) else pure () : Op Unit) s = .ok () u)
    (cfg : u.cfg = s.cfg) (line : ∀ r, u.line l r = s.line l r) :
    installWith evict l b d false s = .ok () (filled u l b d) := by
  have slot : slotOf u l b = slotOf s l b := slotOf_congr cfg line
  have put := putNew_run u l b d
  rw [slot, cfg] at put
  unfold installWith
  rw [Op.get_bind_run]
  dsimp only
  rw [← slotOf]
  split at freed
  next valid =>
    rw [if_pos valid]
    exact (Op.bind_ok freed).trans put
  next invalid =>
    rw [if_neg invalid]
    cases freed
    exact put

/-- The first level's part of a fill, whatever line it displaces. -/
theorem installL1_displacing {c : Side} {b : Nat} (d : List Byte)
    (parent : (s.line c.level (slotOf s c.level b)).valid = true →
      ∃ r, s.lookup (s.addr c.level (slotOf s c.level b)) .l2 = some r) :
    ∃ u, VictimGone s u c (slotOf s c.level b) ∧ installL1 c b d false s = .ok () (filled u c.level b d) := by
  obtain ⟨u, run, gone⟩ := victimGone_run parent
  refine ⟨u, gone, installWith_displacing run (by rw [gone.cache]) fun r => ?_⟩
  rw [gone.line, if_neg fun h => (Side.level_ne c).1 h.1]

/-- The state after a read missed the first level and hit L2 in slot r. -/
def probedL2 (s : State) (c : Side) (r : Nat × Nat) : State := stamped (missed s c.level) r .l2 false

section
variable {c : Side} {r : Nat × Nat}

theorem line_probedL2 (k : Level) (x : Nat × Nat) : (probedL2 s c r).line k x =
    if k = .l2 ∧ x = r then { s.line .l2 r with lru := s.cache.globalCounter + 1 } else s.line k x := by
  rw [probedL2, line_stamped_read, line_missed, line_missed, globalCounter_missed]

theorem line_probedL2_own (x : Nat × Nat) : (probedL2 s c r).line c.level x = s.line c.level x := by
  rw [line_probedL2, if_neg fun h => (Side.level_ne c).1 h.1]

theorem lookup_probedL2 (a : Nat) (k : Level) : (probedL2 s c r).lookup a k = s.lookup a k := by
  rw [probedL2, lookup_stamped_read, lookup_missed]

theorem globalCounter_probedL2 : (probedL2 s c r).cache.globalCounter = s.cache.globalCounter + 1 :=
  congrArg (· + 1) (globalCounter_missed s c.level)

theorem stats_probedL2 (k : Level) : ((probedL2 s c r).cache.level k).stats = if k = .l2 then (s.cache.level k).stats.hit
    else if k = c.level then (s.cache.level k).stats.miss else (s.cache.level k).stats := by
  rw [probedL2, stats_stamped, stats_missed]
  by_cases h2 : k = .l2
  · subst h2
    rw [if_pos rfl, if_neg (Side.level_ne c).1.symm, if_pos rfl]
  · rw [if_neg h2, if_neg h2]

theorem level_probedL2 {k : Level} (h1 : k ≠ c.level) (h2 : k ≠ .l2) : (probedL2 s c r).cache.level k = s.cache.level k := by
  rw [probedL2, level_stamped _ h2, level_missed _ _ _ h1]

/-- A read of a block that L2 holds and the first level does not. -/
theorem cacheRead_l2 {a : Nat} (absent : s.lookup a c.level = none) (held : s.lookup a .l2 = some r)
    (fill : installL1 c (Config.block s.cfg a) (s.line .l2 r).data false (probedL2 s c r) = .ok () t) :
    cacheRead a c s = .ok (s.line .l2 r).data t := by
  have data : ((probedL2 s c r).line .l2 r).data = (s.line .l2 r).data := by
    rw [line_probedL2, if_pos ⟨rfl, rfl⟩]
  unfold cacheRead
  rw [Op.get_bind_run]
  dsimp only
  rw [Op.bind_ok (accessLine_miss absent)]
  dsimp only
  rw [Op.bind_ok (accessLine_hit false ((lookup_missed ..).trans held)), ← probedL2]
  dsimp only
  rw [Op.bind_ok (getLine_run ..), data, Op.bind_ok fill]
  rfl

end

/-- t is s after a read of a, which L2 holds in slot r and a first-level cache does not, put L2's bytes into slot q of that
cache: the line of that slot is gone, L2's line is stamped and records the child. -/
structure FilledFromL2 (s t : State) (c : Side) (a : Nat) (q r : Nat × Nat) : Prop where
  cache : onlyCache s t
  line : ∀ k x, t.line k x =
    if (k, x) = (c.level, q) then
      { valid := true, dirty := false, tag := Config.tagOf s.cfg c.level a, data := (s.line .l2 r).data
        lru := t.cache.globalCounter, presentL1d := false, presentL1i := false, presentL2 := false }
    else if (k, x) = (.l2, r) then
      ({ s.line .l2 r with lru := s.cache.globalCounter + 1 } : Line).withPresence c.level true
    else if k = .l2 ∧ (s.line c.level q).valid = true ∧ s.lookup (s.addr c.level q) .l2 = some x then
      (s.line .l2 x).merged (s.line c.level q) c.level (s.cache.globalCounter + 2)
    else s.line k x
  stats : (t.cache.level c.level).stats = { (s.cache.level c.level).stats with
    misses := (s.cache.level c.level).stats.misses + 1
    fills := (s.cache.level c.level).stats.fills + 1
    evictions := (s.cache.level c.level).stats.evictions + (if (s.line c.level q).valid = true then 1 else 0)
    writebacks := (s.cache.level c.level).stats.writebacks +
      (if (s.line c.level q).valid = true ∧ (s.line c.level q).dirty = true then 1 else 0) }
  stats2 : (t.cache.level .l2).stats = (s.cache.level .l2).stats.hit
  globalCounter : t.cache.globalCounter = s.cache.globalCounter +
    if (s.line c.level q).valid = true ∧ (s.line c.level q).dirty = true then 3 else 2
  level : ∀ k, k ≠ c.level → k ≠ .l2 → t.cache.level k = s.cache.level k

/-- The line that the fill displaces is not of the block that is read. -/
theorem displaced_ne {c : Side} {a : Nat} {q r : Nat × Nat} (pos : 0 < s.cfg.lineSize) (shape : Shape s)
    (absent : s.lookup a c.level = none) (held : s.lookup a .l2 = some r) (valid : (s.line c.level q).valid = true) :
    s.lookup (s.addr c.level q) .l2 ≠ some r := by
  intro same
  refine (shape.lookup_none pos).1 absent q valid ?_
  rw [← addr_of_lookup held, addr_of_lookup same]
  exact (block_addrOf ..).symm

/-- What the installation does after the probes and the displaced line's eviction. -/
theorem VictimGone.filled {c : Side} {a : Nat} {r : Nat × Nat} (pos : 0 < s.cfg.lineSize) (shape : Shape s)
    (absent : s.lookup a c.level = none) (held : s.lookup a .l2 = some r)
    (gone : VictimGone (probedL2 s c r) u c (slotOf s c.level a)) :
    FilledFromL2 s (Machine.filled u c.level (Config.block s.cfg a) (s.line .l2 r).data) c a (slotOf s c.level a) r := by
  obtain ⟨ne2, -⟩ := Side.level_ne c
  obtain ⟨b, hb⟩ : ∃ b, b = Config.block s.cfg a := ⟨_, rfl⟩
  obtain ⟨q, hq⟩ : ∃ q, q = slotOf s c.level a := ⟨_, rfl⟩
  rw [← hb, ← hq]
  rw [← hq] at gone
  have addr : (probedL2 s c r).addr c.level q = s.addr c.level q := by
    rw [State.addr, State.addr, line_probedL2_own]
    rfl
  have uLookup : u.lookup b .l2 = some r := by rw [gone.lookup, lookup_probedL2, hb, lookup_block pos, held]
  obtain ⟨uCache, uLine, uStats, uCounter, uLevel⟩ := gone
  simp only [line_probedL2_own, addr, lookup_probedL2, globalCounter_probedL2] at uLine uStats uCounter
  have uCfg : u.cfg = s.cfg := by
    rw [uCache]
    rfl
  have uSlot : slotOf u c.level b = q := by
    rw [hq, hb, ← slotOf_block pos]
    exact slotOf_congr uCfg fun x => by rw [uLine, if_neg fun h => ne2 h.1, line_probedL2_own]
  have counter := globalCounter_filled u c.level b (s.line .l2 r).data
  refine ⟨?_, fun k x => ?_, ?_, ?_, ?_, fun k h1 h2 => ?_⟩
  · exact (show onlyCache s (probedL2 s c r) from rfl).trans (uCache.trans (onlyCache_inst ..))
  · rw [line_filled, uSlot, counter]
    by_cases own : (k, x) = (c.level, q)
    · cases own
      rw [if_pos ⟨rfl, rfl⟩, if_pos rfl, newLine, uCfg, hb, (block_eq pos a c.level).2]
    rw [if_neg fun h => own (Prod.ext h.1 h.2), if_neg own]
    by_cases parent : (k, x) = (.l2, r)
    · cases parent
      rw [if_pos ⟨Side.parent_level c, uLookup⟩, if_pos rfl, uLine,
        if_neg fun h => displaced_ne pos shape absent held h.2.1 h.2.2, line_probedL2, if_pos ⟨rfl, rfl⟩]
    · have notParent : ¬ (Level.parent c.level = some k ∧ u.lookup b k = some x) := by
        rw [Side.parent_level]
        rintro ⟨⟨⟩, found⟩
        rw [uLookup] at found
        cases found
        exact parent rfl
      rw [if_neg parent, if_neg notParent, uLine]
      split
      next h => rw [line_probedL2, if_neg fun h' => parent (Prod.ext h.1 h'.2)]
      next => rw [line_probedL2, if_neg fun h => parent (Prod.ext h.1 h.2)]
  · rw [stats_inst, if_pos rfl, uStats, stats_probedL2, if_neg ne2, if_pos rfl]
    by_cases valid : (s.line c.level q).valid = true
    · by_cases dirty : (s.line c.level q).dirty = true <;> simp only [valid, dirty, and_self, if_true] <;> rfl
    · simp [valid, CacheStats.miss, CacheStats.fill]
  · rw [stats_inst, if_neg ne2.symm, uStats, if_neg fun h => ne2 h.1.symm, stats_probedL2, if_pos rfl]
  · rw [counter, uCounter]
    split <;> rfl
  · rw [level_inst _ _ _ _ _ h1 (by rw [Side.parent_level]; simpa using h2.symm), uLevel k h1 h2, level_probedL2 h1 h2]

theorem filledFromL2_run {c : Side} {a : Nat} {r : Nat × Nat} (legal : ConfigLegal s.cfg) (incl : Inclusion s)
    (absent : s.lookup a c.level = none) (held : s.lookup a .l2 = some r) :
    ∃ t, cacheRead a c s = .ok (s.line .l2 r).data t ∧ FilledFromL2 s t c a (slotOf s c.level a) r := by
  have pos := lineSize_pos legal
  obtain ⟨-, shape⟩ := (inclusion_iff pos).1 incl
  have slot : slotOf (probedL2 s c r) c.level (Config.block s.cfg a) = slotOf s c.level a := by
    rw [← slotOf_block pos]
    exact slotOf_congr rfl line_probedL2_own
  obtain ⟨u, gone, fill⟩ := installL1_displacing (s := probedL2 s c r) (c := c) (b := Config.block s.cfg a)
    (s.line .l2 r).data (by
      rw [slot, State.addr, line_probedL2_own]
      intro valid
      obtain ⟨x, found, -⟩ := incl.l1 c _ _ (mem_of_valid valid)
      exact ⟨x, (lookup_probedL2 ..).trans found⟩)
  rw [slot] at gone
  exact ⟨_, cacheRead_l2 absent held fill, gone.filled pos shape absent held⟩

/-! ## The statement -/

theorem exec_cacheRead {pa : Word} {c : Side} {d : List Byte} (run : cacheRead pa.toNat c s = .ok d t) :
    exec (.cacheRead pa c) s = .next (t.ok (.bytes d)) :=
  exec_ok (Op.bind_ok run)

/-- A first-level cache and L2 hold what a first-level cache of a sound cache holds, and so does L3 (R45). -/
theorem CacheSound.held_below (hC : CacheSound s) {c : Side} {a : Nat} {q : Nat × Nat} (held : s.lookup a c.level = some q)
    {l : Level} (hl : l = c.level ∨ l = .l2 ∨ l = .l3) : ∃ r, s.lookup a l = some r := by
  obtain ⟨pos, -, shape, -⟩ := hC.slots
  have up : ∀ {k p : Level} {q}, Level.parent k = some p → s.lookup a k = some q → ∃ r, s.lookup a p = some r := by
    intro k p q hp found
    obtain ⟨valid, addr⟩ := (shape.lookup pos).1 found
    obtain ⟨r, valid', addr', -⟩ := shape.up k p hp q valid
    exact ⟨r, (shape.lookup pos).2 ⟨valid', addr'.trans addr⟩⟩
  obtain ⟨r, held2⟩ := up (Side.parent_level c) held
  rcases hl with rfl | rfl | rfl
  · exact ⟨q, held⟩
  · exact ⟨r, held2⟩
  · exact up rfl held2

/-- Settles O28: a read that misses is its probes and then one installation per level on its way, in a free way or in the
place of R253's victim. -/
theorem cacheReadMisses : Obligations.CacheReadMisses := by
  refine ⟨fun s pa c o legal miss ram => ?_, fun s pa c q2 legal incl absent held => ?_,
    fun s pa c q3 legal miss held => ?_, fun s l set ways => ?_, fun s pa c o hC ram => ?_⟩
  · have pos := lineSize_pos legal
    have absent : ∀ l, l = c.level ∨ l = .l2 ∨ l = .l3 → s.lookup (Config.block s.cfg pa.toNat) l = none := fun l hl =>
      (lookup_block pos pa.toNat l).trans (miss l hl).1
    have free : ∀ l, l = c.level ∨ l = .l2 ∨ l = .l3 → s.wayFree l (Config.block s.cfg pa.toNat) := fun l hl =>
      (wayFree_block pos pa.toNat l).2 (miss l hl).2
    have answer := exec_cacheRead (cacheRead_bus (fun l hl => (miss l hl).1) free ram rfl)
    rw [filledAll_fetched] at answer
    refine ⟨_, answer, fun l hl => ⟨?_, ?_⟩, fun l h1 h2 h3 => ?_⟩
    · refine holdsClean_of_block pos (by rw [filledAll_fetched]) (holds_filledAll (fun l hl => ?_) (fun l hl => ?_) hl)
      · exact (lookup_fetched ..).trans (absent l hl)
      · exact wayFree_fetched (free l hl)
    · rw [stats_filledAll hl, stats_fetched _ _ hl]
      rfl
    · rw [level_filledAll h1 h2 h3, level_fetched _ _ h1 h2 h3]
  · obtain ⟨t, run, spec⟩ := filledFromL2_run legal incl absent held
    have ne2 := (Side.level_ne c).1
    refine ⟨t.cache, ?_⟩
    dsimp only
    rw [← show t = { s with cache := t.cache } from spec.cache]
    refine ⟨exec_cacheRead run, spec.globalCounter, ?_, ?_, fun r valid found => ?_, fun l r not1 not2 not3 => ?_, ?_,
      spec.stats2, spec.level⟩
    · exact (spec.line ..).trans (if_pos rfl)
    · rw [spec.line, if_neg fun h => ne2 (congrArg Prod.fst h).symm, if_pos rfl]
    · have notOwn : (Level.l2, r) ≠ (c.level, slotOf s c.level pa.toNat) := fun h => ne2 (congrArg Prod.fst h).symm
      have notParent : (Level.l2, r) ≠ (.l2, q2) := by
        rintro ⟨⟩
        exact displaced_ne (lineSize_pos legal) ((inclusion_iff (lineSize_pos legal)).1 incl).2 absent held valid found
      rw [spec.line, if_neg notOwn, if_neg notParent]
      exact if_pos ⟨rfl, valid, found⟩
    · exact (spec.line l r).trans ((if_neg not1).trans ((if_neg not2).trans (if_neg fun h => not3 h.2.1 h.1 h.2.2)))
    · exact spec.stats
  · obtain ⟨t, run, only, spec⟩ := filledFromL3_run legal miss held
    refine ⟨t.cache, ?_⟩
    dsimp only
    rw [← show t = { s with cache := t.cache } from only]
    exact ⟨exec_cacheRead run, spec⟩
  · refine ⟨chooseVictim_lt ways set, fun v hv invalid => chooseVictim_of_invalid hv invalid, fun full => ?_⟩
    obtain ⟨best, older⟩ := chooseVictim_of_full full
    simp only [preferred_iff] at best older
    exact ⟨best, older⟩
  · obtain ⟨t, q, run, kept, held, data⟩ := cacheRead_run hC c ram
    obtain ⟨regions, faults, dramFaults, unreached⟩ := kept.under
    refine ⟨t.cache, t.dram, t.bus, ?_⟩
    dsimp only
    rw [← kept.frame]
    exact ⟨exec_cacheRead run, kept.sound, kept.newest, fun l hl => kept.sound.held_below held hl, ⟨q, held, data⟩, regions,
      faults, dramFaults, unreached⟩

end Sys2Proof.Machine
end

section
/-! SUPPORT. What the CPU refuses or denies before a path begins (spec/44_cpu.md R310, R313, R315, R319), and the stores of
uncached normal and write-combining pages (R317, R320, R321). -/

namespace Sys2Proof.Machine

variable {s t : State} {va : Word} {pa size : Nat} {p : Pte}

/-! ## Accesses that the checks refuse (R310) -/

/-- A check refuses only where the checks before it pass. -/
theorem accessChecks_refused {va : Nat} {r : Refusal}
    (h : if ¬ (size = 1 ∨ size = 2 ∨ size = 4 ∨ size = 8) ∨ xlenBytes s.cfg.xlen < size then r = .accessSize
      else if 2 ^ 64 < va + size then r = .addressWraps
      else Config.vpn s.cfg va ≠ Config.vpn s.cfg (va + size - 1) ∧ r = .crossesPage) :
    accessChecks va size s = .error (.refuse r) s := by
  unfold accessChecks
  rw [Op.get_bind_run]
  split at h
  next badSize =>
    rw [if_pos badSize, h]
    rfl
  next goodSize =>
    rw [if_neg goodSize]
    beta_reduce
    split at h
    next wraps =>
      rw [if_pos wraps, h]
      rfl
    next fits =>
      obtain ⟨crosses, rfl⟩ := h
      rw [if_neg fits]
      beta_reduce
      rw [if_pos crosses]
      rfl

/-! ## Accesses that the page denies (R313, R315, R319) -/

/-- The guard of a denial raises it, and what stands after it does not run. -/
theorem deny_run {α : Type} {b : Bool} (denied : b = false) (k : ErrKind) (next : Unit → Op α) (s : State) :
    (if b = false then raise k >>= next else next ()) s = .error (.err { kind := k }) s := by
  rw [if_pos denied, Op.raise_bind_run]

theorem exec_fetch_denied (ok : s.accessOk va.toNat size) (hit : s.tlbHit va.toNat pa p) (denied : p.executable = false) :
    exec (.cpuFetch va (some size)) s =
      .next ((s.afterHit va.toNat).err (.permissionDenied va.toNat .execute)) := by
  have raised : fetch va.toNat size s =
      .error (.err { kind := .permissionDenied va.toNat .execute }) (s.afterHit va.toNat) := by
    unfold fetch
    rw [Op.bind_ok (accessChecks_ok ok), Op.bind_ok (translate_hit hit)]
    exact deny_run denied ..
  exact exec_err (Op.bind_error raised)

theorem exec_prefetchInst_denied (hit : s.tlbHit va.toNat pa p) (denied : p.executable = false) :
    exec (.cpuPrefetchInst va) s = .next ((s.afterHit va.toNat).err (.permissionDenied va.toNat .execute)) :=
  exec_err ((Op.bind_ok (translate_hit hit)).trans (deny_run denied ..))

theorem exec_store_denied (ok : s.accessOk va.toNat size) (hit : s.tlbHit va.toNat pa p) (denied : p.writable = false)
    (x : Int) (sg : Bool) :
    exec (.cpuStore va size x sg) s = .next ((s.afterHit va.toNat).err (.permissionDenied va.toNat .write)) := by
  have raised : store va.toNat size x s =
      .error (.err { kind := .permissionDenied va.toNat .write }) (s.afterHit va.toNat) := by
    unfold store
    rw [Op.bind_ok (accessChecks_ok ok), Op.bind_ok (translate_hit hit)]
    exact deny_run denied ..
  exact exec_err (Op.bind_error raised)

/-- Settles O35: the checks come first in all three accesses, and the denial right after the translation. -/
theorem accessesRefusedOrDenied : Obligations.AccessesRefusedOrDenied := by
  refine ⟨fun s va size r h => ?_,
    fun s va pa p hit => ⟨fun denied => ⟨fun size ok => ?_, ?_⟩, fun denied size x sg ok => ?_⟩⟩
  · have refused : accessChecks va.toNat size s = .error (.refuse r) s := accessChecks_refused h
    exact ⟨exec_refuse (Op.bind_error (Op.bind_error refused)),
      fun sg => exec_refuse (Op.bind_error (Op.bind_error refused)),
      fun x sg => exec_refuse (Op.bind_error (Op.bind_error refused))⟩
  · exact exec_fetch_denied ok hit denied
  · exact exec_prefetchInst_denied hit denied
  · exact exec_store_denied ok hit denied x sg

/-! ## A store to an uncached normal page (R317) -/

/-- One bus write of the bytes, then the page's PTE is dirty. -/
theorem storePath_uncached {va o : Nat} {bs : List Byte} (hit : s.tlbHit va pa p) (normal : p.memtype = .normal)
    (uncached : p.cached = false) (ho : s.ramRange pa bs.length o) :
    storePath va pa bs p s = .ok () (State.withPte { s with
      bus := s.bus.afterWrite pa bs
      dram := { s.dram with cells := Memory.writeBytes s.cfg.fillByte s.dram.cells o bs } } va { p with dirty := true }) := by
  have path : storePath va pa bs p = (do
      busWrite pa bs
      setDirty va) := by
    simp [storePath, normal, uncached]
  rw [path, Op.bind_ok (busWrite_ram ho)]
  exact setDirty_hit (by exact hit)

/-- Settles O38: the path is a bus write to RAM and a change of the page's PTE alone. -/
theorem uncachedStoreWritesTheBus : Obligations.UncachedStoreWritesTheBus := by
  intro s va pa size o x sg p ok hit writable normal uncached ho memory bs
  have ho : s.ramRange pa bs.length o := (length_pack s.cfg.endianness x size).symm ▸ ho
  have path := storePath_uncached (tlbHit_afterHit hit) normal uncached (by exact ho)
  exact ⟨_, _, storedAt_writeBytes memory, exec_store ok hit writable path sg, rfl, fun a v => Mmu.pte_setPte ..⟩

/-! ## The write-combining buffer (R320, R321, R323) -/

/-- The state with another write-combining buffer. -/
def State.withWc (s : State) (w : WcBuffer) : State := { s with cpu := { s.cpu with wc := w } }

theorem setWc_run (w : WcBuffer) (s : State) : setWc w s = .ok () (s.withWc w) := rfl

theorem storePath_wc (wc : p.memtype = .wc) (va pa : Nat) (bs : List Byte) : storePath va pa bs p = wcPost pa bs := by
  simp [storePath, wc]

theorem wcPost_seeds (empty : s.cpu.wc.base = none) (bs : List Byte) :
    wcPost pa bs s = .ok () (s.withWc { base := some pa, bytes := bs }) := by
  unfold wcPost
  rw [Op.get_bind_run, empty]
  exact setWc_run _ s

theorem wcPost_appends {b : Nat} (hb : s.cpu.wc.base = some b) (next : pa = b + s.cpu.wc.bytes.length)
    (line : pa / s.cfg.lineSize = b / s.cfg.lineSize) (bs : List Byte) :
    wcPost pa bs s = .ok () (s.withWc { base := some b, bytes := s.cpu.wc.bytes ++ bs }) := by
  unfold wcPost
  rw [Op.get_bind_run, hb]
  dsimp only
  rw [if_pos ⟨next, line⟩]
  exact setWc_run _ s

theorem wcPost_flushes {b : Nat} (hb : s.cpu.wc.base = some b)
    (apart : pa ≠ b + s.cpu.wc.bytes.length ∨ pa / s.cfg.lineSize ≠ b / s.cfg.lineSize) (flush : wcFlush s = .ok () t)
    (bs : List Byte) : wcPost pa bs s = .ok () (t.withWc { base := some pa, bytes := bs }) := by
  unfold wcPost
  rw [Op.get_bind_run, hb]
  dsimp only
  rw [if_neg (not_and_or.2 apart), Op.bind_ok flush]
  exact setWc_run _ t

/-- A write-combining store is the post of its packed value (R315, R320). -/
theorem exec_store_wc {x : Int} (ok : s.accessOk va.toNat size) (hit : s.tlbHit va.toNat pa p) (writable : p.writable = true)
    (wc : p.memtype = .wc) (post : wcPost pa (pack s.cfg.endianness x size) (s.afterHit va.toNat) = .ok () t) (sg : Bool) :
    exec (.cpuStore va size x sg) s = .next (t.ok .unit) :=
  exec_store ok hit writable ((congrFun (storePath_wc wc ..) _).trans post) sg

/-- The barrier is the flush (R323). -/
theorem exec_memoryBarrier (flush : wcFlush s = .ok () t) : exec .cpuMemoryBarrier s = .next (t.ok .unit) :=
  exec_ok (Op.bind_ok flush)

/-- Settles O40: a post seeds, appends, or flushes and seeds; a flush writes the buffer in one transfer. -/
theorem writeCombiningPostsAndDrains : Obligations.WriteCombiningPostsAndDrains := by
  refine ⟨fun s va pa size x sg p ok hit writable wc => ⟨fun empty => ?_, fun b hb next line => ?_,
    fun b o hb apart ho memory => ?_⟩, fun s empty => ?_, fun s b o hb ho memory => ?_⟩
  · exact exec_store_wc ok hit writable wc (wcPost_seeds (s := s.afterHit va.toNat) empty _) sg
  · exact exec_store_wc ok hit writable wc (wcPost_appends (s := s.afterHit va.toNat) hb next line _) sg
  · have flush := wcFlush_ram (s := s.afterHit va.toNat) hb (by exact ho)
    have post := wcPost_flushes (s := s.afterHit va.toNat) hb apart flush
    exact ⟨_, storedAt_writeBytes memory, exec_store_wc ok hit writable wc (post _) sg⟩
  · exact exec_memoryBarrier (wcFlush_empty empty)
  · exact ⟨_, storedAt_writeBytes memory, exec_memoryBarrier (wcFlush_ram hb ho)⟩

end Sys2Proof.Machine
end

section
/-! SUPPORT. Attachment and the sampling of interrupts (spec/44_cpu.md R327, R328; spec/60_exceptions.md R466; the levels of
spec/45_plic.md R365 and spec/46_clint.md R396). -/

namespace Sys2Proof.Machine

variable {s : State}

/-! ## Attachment (R328) -/

theorem opCpuAttachClint_ok {h : Nat} (inRange : h < s.cfg.clint.harts) :
    opCpuAttachClint h s = .ok .unit { s with cpu := { s.cpu with clintAttach := some h } } := by
  unfold opCpuAttachClint
  rw [Op.get_bind_run, if_neg (not_le.2 inRange)]
  rfl

theorem opCpuAttachClint_refused {h : Nat} (outside : s.cfg.clint.harts ≤ h) :
    opCpuAttachClint h s = .error (.refuse .clintHart) s := by
  unfold opCpuAttachClint
  rw [Op.get_bind_run, if_pos outside]
  rfl

/-! ## The levels that are sampled (R365, R396) -/

/-- MTIP compares the registers as unsigned numbers. -/
theorem Clint.mtipLevel_eq (k : Clint) (h : Nat) : k.mtipLevel h =
    decide ((k.mtimecmp.getD h 0).toNat ≠ 0 ∧ (k.mtimecmp.getD h 0).toNat ≤ k.mtime.toNat) := by
  have zero : k.mtimecmp.getD h 0 = 0 ↔ (k.mtimecmp.getD h 0).toNat = 0 := by
    rw [← BitVec.toNat_inj]
    rfl
  simp only [Clint.mtipLevel, ne_eq, zero, Bool.decide_and]

theorem not_claimable_zero (s : State) (c : Nat) : ¬ s.claimable c 0 := fun ⟨pos, _⟩ => absurd pos (by decide)

/-- The claim search finds a source exactly when there is a claimable one (R353). -/
theorem best_ne_zero_iff (s : State) (c : Nat) : s.plic.best s.cfg.plic.sources c ≠ 0 ↔ ∃ id, s.claimable c id := by
  rcases s.isBest_best c with ⟨zero, unclaimable⟩ | ⟨best, -⟩
  · exact ⟨fun ne => absurd zero ne, fun ⟨id, h⟩ => absurd h (unclaimable id)⟩
  · refine ⟨fun _ => ⟨_, best⟩, fun _ zero => ?_⟩
    rw [zero] at best
    exact not_claimable_zero s c best

theorem plicContextIrq_run {c : Nat} {b : Bool} (inRange : c < s.cfg.plic.contexts)
    (hb : b = true ↔ ∃ id, s.claimable c id) : plicContextIrq c s = .ok b s := by
  have level : decide (s.plic.best s.cfg.plic.sources c ≠ 0) = b := by
    rw [Bool.eq_iff_iff, decide_eq_true_iff, best_ne_zero_iff, hb]
  unfold plicContextIrq
  rw [Op.get_bind_run, if_pos inRange, level]
  rfl

/-! ## `sample_irqs` (R466) -/

/-- The CSR block after the attached hart's levels were taken. -/
def State.clintSampled (s : State) : Csr :=
  { s.cpu.csr with
    msip := s.cpu.clintAttach.elim s.cpu.csr.msip s.clint.msipLevel
    mtip := s.cpu.clintAttach.elim s.cpu.csr.mtip s.clint.mtipLevel }

theorem sampleClint_run (inRange : ∀ h ∈ s.cpu.clintAttach, h < s.cfg.clint.harts) :
    sampleClint s = .ok () { s with cpu := { s.cpu with csr := s.clintSampled } } := by
  unfold sampleClint State.clintSampled
  rw [Op.get_bind_run]
  cases attached : s.cpu.clintAttach with
  | none => rfl
  | some h =>
    dsimp only
    rw [if_neg (not_le.2 (inRange h attached))]
    rfl

theorem samplePlic_run {b : Bool} (level : ∀ a ∈ s.cpu.plicAttach, a.ctxId < s.cfg.plic.contexts ∧
      (b = true ↔ ∃ id, s.claimable a.ctxId id)) :
    samplePlic s = .ok () { s with cpu := { s.cpu with csr := { s.cpu.csr with
      meip := if s.cpu.plicAttach.isSome then b else s.cpu.csr.meip } } } := by
  unfold samplePlic
  rw [Op.get_bind_run]
  cases attached : s.cpu.plicAttach with
  | none => rfl
  | some a =>
    obtain ⟨inRange, hb⟩ := level a attached
    exact Op.bind_ok (plicContextIrq_run inRange hb)

theorem opCpuSampleIrqs_run {b : Bool} (inRange : ∀ h ∈ s.cpu.clintAttach, h < s.cfg.clint.harts)
    (level : ∀ a ∈ s.cpu.plicAttach, a.ctxId < s.cfg.plic.contexts ∧ (b = true ↔ ∃ id, s.claimable a.ctxId id)) :
    opCpuSampleIrqs s = .ok .unit { s with cpu := { s.cpu with csr := { s.clintSampled with
      meip := if s.cpu.plicAttach.isSome then b else s.cpu.csr.meip } } } := by
  unfold opCpuSampleIrqs
  rw [Op.bind_ok (sampleClint_run inRange), Op.bind_ok (samplePlic_run (by exact level))]
  rfl

/-- Settles O42: an attachment is one write of the CPU's state, and sampling takes the hart's two levels, then the
context's. -/
theorem attachAndSample : Obligations.AttachAndSample := by
  refine ⟨fun s base l ctx => exec_ok rfl, fun s h inRange => exec_ok (opCpuAttachClint_ok inRange),
    fun s h outside => exec_refuse (opCpuAttachClint_refused outside), fun s b inRange level => ?_⟩
  have sampled := exec_ok (i := .cpuSampleIrqs) (opCpuSampleIrqs_run inRange level)
  unfold State.clintSampled at sampled
  cases attached : s.cpu.clintAttach with
  | none =>
    rw [attached] at sampled
    exact sampled
  | some h =>
    rw [attached, Option.elim_some, Option.elim_some, Clint.mtipLevel_eq] at sampled
    exact sampled

end Sys2Proof.Machine
end

section
/-! SUPPORT. The PLIC (spec/45_plic.md R353 to R365): its lines, its registers, the claim search and the completion, and what
`poll_interrupts` (spec/60_exceptions.md R472) does with them through the PLIC's device page. -/

namespace Sys2Proof.Machine

variable {s t : State}

/-! ## Lines (R362, R363) -/

theorem sourceOk_iff {c : Config} {id : Nat} : Config.sourceOk c id = true ↔ 1 ≤ id ∧ id ≤ c.plic.sources := by
  simp [Config.sourceOk]

theorem exec_plicRaise {id : Nat} (source : 1 ≤ id ∧ id ≤ s.cfg.plic.sources) :
    exec (.plicRaise id) s = .next ({ s with plic := s.plic.raised s.cfg.plic.mode id }.ok .unit) :=
  exec_ok (Op.bind_ok (congrFun (if_pos (sourceOk_iff.2 source)) s))

theorem exec_plicLower {id : Nat} (source : 1 ≤ id ∧ id ≤ s.cfg.plic.sources) :
    exec (.plicLower id) s = .next ({ s with plic := s.plic.lowered s.cfg.plic.mode id }.ok .unit) :=
  exec_ok (Op.bind_ok (congrFun (if_pos (sourceOk_iff.2 source)) s))

theorem exec_plicLines_refused {id : Nat} (absent : ¬ (1 ≤ id ∧ id ≤ s.cfg.plic.sources)) :
    exec (.plicRaise id) s = .refused .plicSourceId ∧ exec (.plicLower id) s = .refused .plicSourceId :=
  have bad := mt sourceOk_iff.1 absent
  ⟨exec_refuse (Op.bind_error (congrFun (if_neg bad) s)), exec_refuse (Op.bind_error (congrFun (if_neg bad) s))⟩

/-- A raise sets the line, and the pending bit unless the line was high in latched mode already. -/
theorem Plic.raised_eq (mode : PlicMode) (p : Plic) (id : Nat) : p.raised mode id =
    { p with
      lineHigh := p.lineHigh.set (id - 1) true
      pending := if mode = .level ∨ p.lineHigh.getD (id - 1) false = false then setBit p.pending (id - 1) true
        else p.pending } := by
  cases mode with
  | level => simp [Plic.raised]
  | latched =>
    cases high : p.lineHigh.getD (id - 1) false with
    | false => rw [Plic.raised, high]; rfl
    | true => rw [Plic.raised, high]; rfl

/-- A lower clears the line, and in level mode the pending bit. -/
theorem Plic.lowered_eq (mode : PlicMode) (p : Plic) (id : Nat) : p.lowered mode id =
    { p with
      lineHigh := p.lineHigh.set (id - 1) false
      pending := if mode = .level then setBit p.pending (id - 1) false else p.pending } := by
  cases mode with
  | level => simp [Plic.lowered]
  | latched => simp [Plic.lowered]

/-- Bit j of a word with bit i cleared. -/
theorem setBit_false_getLsbD (w : Word) (i j : Nat) :
    (setBit w i false).getLsbD j = if j = i then false else w.getLsbD j := by
  rw [setBit_getLsbD]
  by_cases inside : j < 64
  · simp [inside]
  · simp [BitVec.getLsbD_of_ge w j (not_lt.1 inside)]

/-- Settles O47: a raise or a lower writes the line and at most the one pending bit. -/
theorem plicLinesMovePending : Obligations.PlicLinesMovePending := by
  refine ⟨fun s id h1 hN => ⟨_, fun j => ?_, Plic.raised_eq .. ▸ exec_plicRaise ⟨h1, hN⟩⟩,
    fun s id h1 hN => ⟨_, fun j => ?_, Plic.lowered_eq .. ▸ exec_plicLower ⟨h1, hN⟩⟩,
    fun s id absent => exec_plicLines_refused (by omega)⟩
  · by_cases sets : s.cfg.plic.mode = .level ∨ s.plic.lineHigh.getD (id - 1) false = false
    · simp only [sets, if_true, setBit_getLsbD, and_true]
    · simp only [sets, if_false, and_false]
  · by_cases level : s.cfg.plic.mode = .level
    · simp only [level, if_true, setBit_false_getLsbD, and_true]
    · simp only [level, if_false, and_false]

/-! ## Registers (R355 to R361) -/

/-- A PLIC with these arguments has the register (R350). -/
def Plic.hasReg (c : PlicCfg) : PlicReg → Prop
  | .prio id => 1 ≤ id ∧ id ≤ c.sources
  | .pendLo | .pendHi => True
  | .enableLo k | .enableHi k | .threshold k | .claim k => k < c.contexts

/-- The number a register reads as (R355, R356, R358 to R360). -/
def Plic.value (p : Plic) (n : Nat) : PlicReg → Nat
  | .prio id => (p.priority.getD (id - 1) 0).toNat
  | .pendLo => p.pending.toNat % 2 ^ 32
  | .pendHi => p.pending.toNat / 2 ^ 32
  | .enableLo c => (p.enable.getD c 0).toNat % 2 ^ 32
  | .enableHi c => (p.enable.getD c 0).toNat / 2 ^ 32
  | .threshold c => (p.threshold.getD c 0).toNat
  | .claim c => p.best n c

/-- The pending bits after a claim that answered id (R360). -/
def Plic.pendingClaimed (p : Plic) (mode : PlicMode) (id : Nat) : Word :=
  if mode = .latched ∧ id ≠ 0 then setBit p.pending (id - 1) false else p.pending

/-- The PLIC after a read of a register: only CLAIM changes it (R360). -/
def Plic.afterRead (p : Plic) (c : PlicCfg) : PlicReg → Plic
  | .claim k => { p with pending := p.pendingClaimed c.mode (p.best c.sources k) }
  | _ => p

/-- A register the PLIC has reads as its value, in four little-endian bytes. -/
theorem plicRead_run {r : PlicReg} (has : Plic.hasReg s.cfg.plic r) : plicRead r s =
    .ok (packLe (s.plic.value s.cfg.plic.sources r) 4) { s with plic := s.plic.afterRead s.cfg.plic r } := by
  unfold plicRead
  rw [Op.get_bind_run]
  cases r with
  | prio id => exact congrFun (if_pos (sourceOk_iff.2 has)) s
  | pendLo => rw [Plic.value, ← lo32_toNat]; rfl
  | pendHi => rw [Plic.value, ← hi32_toNat]; rfl
  | enableLo c => rw [Plic.value, ← lo32_toNat]; exact congrFun (if_pos has) s
  | enableHi c => rw [Plic.value, ← hi32_toNat]; exact congrFun (if_pos has) s
  | threshold c => exact congrFun (if_pos has) s
  | claim c =>
    refine (congrFun (if_pos has) s).trans ?_
    by_cases claims : s.cfg.plic.mode = .latched ∧ s.plic.best s.cfg.plic.sources c ≠ 0
    · rw [if_pos claims, Plic.afterRead, Plic.pendingClaimed, if_pos claims]
      rfl
    · rw [if_neg claims, Plic.afterRead, Plic.pendingClaimed, if_neg claims]
      rfl

/-- The PLIC after a write of v to a register; the pending registers take none (R355, R357 to R361). -/
def Plic.afterWrite (p : Plic) (c : PlicCfg) (v : Word32) : PlicReg → Option Plic
  | .prio id => some { p with priority := p.priority.set (id - 1) v }
  | .pendLo | .pendHi => none
  | .enableLo k => some { p with enable := updateAt p.enable k fun w => maskSources c.sources (setLo32 w v) }
  | .enableHi k => some { p with enable := updateAt p.enable k fun w => maskSources c.sources (setHi32 w v) }
  | .threshold k => some { p with threshold := p.threshold.set k v }
  | .claim _ => some (p.completed c v.toNat)

theorem plicWrite_run {r : PlicReg} {v : Word32} {q : Plic} (has : Plic.hasReg s.cfg.plic r)
    (after : s.plic.afterWrite s.cfg.plic v r = some q) : plicWrite r v s = .ok () { s with plic := q } := by
  unfold plicWrite
  rw [Op.get_bind_run]
  cases r with
  | prio id =>
    cases after
    exact congrFun (if_pos (sourceOk_iff.2 has)) s
  | pendLo | pendHi => cases after
  | enableLo c | enableHi c | threshold c | claim c =>
    cases after
    exact congrFun (if_pos has) s

/-- A read as a call of its own, in the PLIC's layout (R142). -/
theorem exec_plicRead {r : PlicReg} (has : Plic.hasReg s.cfg.plic r) : exec (r.readRow s.cfg.plic.layout) s =
    .next ({ s with plic := s.plic.afterRead s.cfg.plic r }.ok
      (.bytes (packLe (s.plic.value s.cfg.plic.sources r) 4))) := by
  refine exec_ok ?_
  rw [opOf_plic_readRow, opPlicRead_own, Op.bind_ok (plicRead_run has)]
  rfl

/-- A write as a call of its own, in the PLIC's layout (R142). -/
theorem exec_plicWrite {r : PlicReg} {v : Word32} {q : Plic} {i : Instr} (has : Plic.hasReg s.cfg.plic r)
    (row : r.writeRow s.cfg.plic.layout v = some i) (after : s.plic.afterWrite s.cfg.plic v r = some q) :
    exec i s = .next ({ s with plic := q }.ok .unit) := by
  refine exec_ok ?_
  rw [opOf_plic_writeRow _ row, opPlicWrite_own, Op.bind_ok (plicWrite_run has after)]
  rfl

/-- A word written to an entry of the bank, the bits of sources above n masked, is the number modulo `2 ^ n`. -/
theorem updateAt_maskSources {es : List Word} {k n x : Nat} {w : Word} {f : Word → Word} (hn : n ≤ 64)
    (hw : es[k]? = some w) (hx : f w = BitVec.ofNat 64 x) :
    updateAt es k (fun w => maskSources n (f w)) = es.set k (BitVec.ofNat 64 (x % 2 ^ n)) := by
  rw [updateAt_set _ hw, maskSources_eq n hn, hx, ofNat_mod x n hn]

/-- Settles O49: each register reads as its value; a write replaces one entry of its bank. -/
theorem plicRegisters : Obligations.PlicRegisters := by
  refine ⟨fun s id h1 hN => ⟨?_, fun v => ?_⟩, fun s c hc => ⟨?_, fun v => ?_⟩, fun s hN => ⟨?_, ?_, fun c w hc hw => ?_⟩⟩
  · exact exec_plicRead (r := .prio id) ⟨h1, hN⟩
  · exact exec_plicWrite (r := .prio id) ⟨h1, hN⟩ rfl rfl
  · exact exec_plicRead (r := .threshold c) hc
  · exact exec_plicWrite (r := .threshold c) hc rfl rfl
  · exact exec_plicRead (r := .pendLo) trivial
  · exact exec_plicRead (r := .pendHi) trivial
  · have entry : s.plic.enable.getD c 0 = w := by simp [hw]
    refine ⟨?_, ?_, fun v => ⟨?_, ?_⟩⟩
    · exact entry ▸ exec_plicRead (r := .enableLo c) hc
    · exact entry ▸ exec_plicRead (r := .enableHi c) hc
    · rw [← updateAt_maskSources (f := (setLo32 · v)) hN hw (setLo32_eq w v)]
      exact exec_plicWrite (r := .enableLo c) hc rfl rfl
    · rw [← updateAt_maskSources (f := (setHi32 · v)) hN hw (setHi32_eq w v)]
      exact exec_plicWrite (r := .enableHi c) hc rfl rfl

/-! ## Claim and completion (R353, R360, R361, R365) -/

theorem Plic.pendingClaimed_getLsbD (p : Plic) (mode : PlicMode) (id j : Nat) :
    (p.pendingClaimed mode id).getLsbD j = if id ≠ 0 ∧ j = id - 1 ∧ mode = .latched then false else p.pending.getLsbD j := by
  unfold Plic.pendingClaimed
  by_cases claims : mode = .latched ∧ id ≠ 0
  · simp [claims, setBit_false_getLsbD]
  · rw [if_neg claims, if_neg fun ⟨claimed, _, latched⟩ => claims ⟨latched, claimed⟩]

/-- Settles O48: the search finds `best(c)`, which CLAIM answers and takes, and `get_context_irq` compares with 0. -/
theorem claimReturnsHighestPriority : Obligations.ClaimReturnsHighestPriority := by
  intro s c legal inRange
  refine ⟨s.plic.best s.cfg.plic.sources c, _, s.isBest_best c, s.plic.pendingClaimed_getLsbD s.cfg.plic.mode _,
    exec_plicRead (r := .claim c) inRange, exec_ok ?_⟩
  exact Op.bind_ok (plicContextIrq_run inRange (decide_eq_true_iff.trans (best_ne_zero_iff s c)))

/-- The pending bits after a completion of id (R361). -/
def Plic.pendingCompleted (p : Plic) (c : PlicCfg) (id : Nat) : Word :=
  if 1 ≤ id ∧ id ≤ c.sources ∧ c.mode = .latched then setBit p.pending (id - 1) (p.lineHigh.getD (id - 1) false)
  else p.pending

theorem Plic.completed_eq (p : Plic) (c : PlicCfg) (id : Nat) :
    p.completed c id = { p with pending := p.pendingCompleted c id } := by
  unfold Plic.completed Plic.pendingCompleted
  split <;> rfl

theorem Plic.pendingCompleted_getLsbD (p : Plic) (c : PlicCfg) (id j : Nat) : (p.pendingCompleted c id).getLsbD j =
    if id = j + 1 ∧ id ≤ c.sources ∧ j < 64 ∧ c.mode = .latched then p.lineHigh.getD j false else p.pending.getLsbD j := by
  unfold Plic.pendingCompleted
  by_cases rearms : 1 ≤ id ∧ id ≤ c.sources ∧ c.mode = .latched
  · obtain ⟨pos, source, latched⟩ := rearms
    obtain ⟨i, rfl⟩ := Nat.exists_eq_add_of_le' pos
    rw [if_pos ⟨pos, source, latched⟩, setBit_getLsbD, Nat.add_sub_cancel]
    by_cases named : j = i
    · simp [named, source, latched]
    · simp [named, Ne.symm named]
  · rw [if_neg rearms, if_neg fun ⟨named, source, _, latched⟩ => rearms ⟨by omega, source, latched⟩]

/-- Settles O50: COMPLETE writes the pending bit of the source it names, and in latched mode alone. -/
theorem completeRearmsLatchedSource : Obligations.CompleteRearmsLatchedSource := by
  intro s c v inRange
  exact ⟨_, s.plic.pendingCompleted_getLsbD s.cfg.plic v.toNat,
    s.plic.completed_eq s.cfg.plic v.toNat ▸ exec_plicWrite (r := .claim c) inRange rfl rfl⟩

/-! ## The PLIC's registers over the bus (R142, R181) -/

section

variable {pa : Nat} {r : Region} {reg : PlicReg} (ha : pa < 2 ^ 64) (named : plicReg s.cfg.plic.layout (pa - r.base) = some reg)

include ha named

theorem busRead_plic {bs : List Byte} (reaches : s.reachesDevice pa 4 r .plic) (run : plicRead reg s = .ok bs t) :
    busRead pa 4 s = .ok bs { t with bus := t.bus.afterRead pa bs } := by
  obtain ⟨pos, found, fits, -⟩ := id reaches
  refine busRead_one ha pos found fits (countFault_ok ((Op.bind_ok (chunkCheck_device reaches)).trans ?_))
  rw [chunkRead_device reaches, deviceRead, Op.get_bind_run]
  simp only [if_true, named, run]

theorem busWrite_plic {bs : List Byte} (width : bs.length = 4) (reaches : s.reachesDevice pa 4 r .plic)
    (run : plicWrite reg (data32 bs) s = .ok () t) :
    busWrite pa bs s = .ok () { t with bus := t.bus.afterWrite pa bs } := by
  rw [← width] at reaches
  obtain ⟨pos, found, fits, -⟩ := id reaches
  refine busWrite_one ha (List.length_pos_iff.1 pos) found fits
    (countFault_ok ((Op.bind_ok (chunkCheck_device reaches)).trans ?_))
  rw [chunkWriteWith_device reaches, deviceWriteWith, Op.get_bind_run]
  simp only [width, if_true, named, run]

end

/-! ## `poll_interrupts` (R472) -/

/-- The CLAIM and COMPLETE register of context ctx of a level-mode PLIC stands at va, on a writable device page that the TLB
holds, of a little-endian CPU whose write-combining buffer is empty. -/
structure ClaimPage (s : State) (ctx va pa : Nat) (p : Pte) (r : Region) : Prop where
  context : ctx < s.cfg.plic.contexts
  access : s.accessOk va 4
  hit : s.tlbHit va pa p
  below : pa < 2 ^ 64
  device : p.memtype = .device
  writable : p.writable = true
  reaches : s.reachesDevice pa 4 r .plic
  named : plicReg s.cfg.plic.layout (pa - r.base) = some (.claim ctx)
  level : s.cfg.plic.mode = .level
  little : s.cfg.endianness = .little
  drained : s.cpu.wc.base = none

/-- In level mode a read of a register changes nothing (R360). -/
theorem Plic.afterRead_level {c : PlicCfg} (level : c.mode = .level) (p : Plic) (r : PlicReg) : p.afterRead c r = p := by
  cases r with
  | claim k => simp [Plic.afterRead, Plic.pendingClaimed, level]
  | prio | pendLo | pendHi | enableLo | enableHi | threshold => rfl

/-- In level mode a completion changes nothing (R361). -/
theorem Plic.completed_level {c : PlicCfg} (level : c.mode = .level) (p : Plic) (id : Nat) : p.completed c id = p := by
  simp [Plic.completed, level]

/-- CLAIM's offset is a multiple of 4 in both layouts, as R180 asks. -/
theorem plicOff_claim_aligned (l : Layout) (c : Nat) : plicOff l (.claim c) % 4 = 0 := by
  cases l <;> simp only [plicOff, Layout.ctxBase, Layout.stride] <;> omega

theorem residue_natCast {x n : Nat} (small : x < 256 ^ n) : residue x n = x := by
  have power : 2 ^ (8 * n) = 256 ^ n := pow_mul 2 8 n
  rw [residue, power, ← Int.natCast_mod, Nat.mod_eq_of_lt small, Int.toNat_natCast]

namespace ClaimPage

variable {ctx va pa id : Nat} {p : Pte} {r : Region}

/-- A load from the page answers what the claim search finds, by one bus read; the PLIC stays. -/
theorem load_claim (h : ClaimPage s ctx va pa p r) (best : s.isBest ctx id) (small : id < 256 ^ 4) :
    load va 4 false s = .ok (id : Int) { s.afterHit va with bus := s.bus.afterRead pa (packLe id 4) } := by
  have found : s.plic.best s.cfg.plic.sources ctx = id := State.isBest_unique (s.isBest_best ctx) best
  have read : plicRead (.claim ctx) (s.afterHit va) = .ok (packLe id 4) (s.afterHit va) := by
    have run := plicRead_run (s := s.afterHit va) (r := .claim ctx) h.context
    rw [Plic.afterRead_level (by exact h.level)] at run
    exact found ▸ run
  have path : readPath pa 4 p .l1d (s.afterHit va) =
      .ok (packLe id 4) { s.afterHit va with bus := s.bus.afterRead pa (packLe id 4) } := by
    unfold readPath
    rw [if_neg (by simp [Pte.cachedNormal, h.device])]
    exact busRead_plic h.below (by exact h.named) (by exact h.reaches) read
  have number : unpack s.cfg.endianness (packLe id 4) false = id := by
    rw [h.little, unpack, unpackLe_packLe 4 id small, if_neg (by decide)]
  unfold load
  rw [Op.bind_ok (accessChecks_ok h.access), Op.bind_ok (translate_hit h.hit)]
  refine (Op.bind_ok path).trans ?_
  rw [Op.get_bind_run]
  exact congrArg (fun x => EStateM.Result.ok x _) number

/-- A store of id to the page is one bus write of it; the PLIC stays. -/
theorem store_complete (h : ClaimPage s ctx va pa p r) (small : id < 256 ^ 4) :
    store va 4 id s = .ok () { s.afterHit va with bus := s.bus.afterWrite pa (packLe id 4) } := by
  have bytes : pack s.cfg.endianness id 4 = packLe id 4 := by rw [h.little, pack_little, residue_natCast small]
  have write : plicWrite (.claim ctx) (data32 (packLe id 4)) (s.afterHit va) = .ok () (s.afterHit va) :=
    plicWrite_run (by exact h.context) (congrArg some (Plic.completed_level (by exact h.level) s.plic _))
  unfold store
  rw [Op.bind_ok (accessChecks_ok h.access), Op.bind_ok (translate_hit h.hit)]
  dsimp only
  rw [if_neg (by simp [h.writable])]
  refine storePath_device h.device (wcFlush_empty (by exact h.drained)) ?_ va
  refine (congrArg (busWrite pa · (s.afterHit va)) bytes).trans ?_
  exact busWrite_plic h.below (by exact h.named) (length_packLe ..) (by exact h.reaches) write

/-- The page stands after an access to it. -/
theorem afterAccess (h : ClaimPage s ctx va pa p r) (bs : List Byte) :
    ClaimPage { s.afterHit va with bus := s.bus.afterRead pa bs } ctx va pa p r :=
  { h with hit := tlbHit_afterHit h.hit }

end ClaimPage

theorem pollWith_refused (run : List Token → Op Unit) (ctx : Nat) (handler : Option (List Token))
    (detached : s.cpu.plicAttach = none) : pollWith run ctx handler s = .error (.refuse .noPlicAttached) s := by
  unfold pollWith
  rw [Op.get_bind_run, detached]
  rfl

/-- Without a handler it is the load and, unless that answered 0, the store of what it answered. -/
theorem pollWith_none {a : PlicAttach} {ctx id : Nat} (attached : s.cpu.plicAttach = some a)
    (claim : load (a.claimVa ctx) 4 false s = .ok (id : Int) t) (run : List Token → Op Unit) :
    pollWith run ctx none s =
      ((if id = 0 then pure () else store (a.claimVa ctx) 4 id) >>= fun _ => pure (.int id) : Op Value) t := by
  unfold pollWith
  rw [Op.get_bind_run, attached, need_some, Op.pure_bind_run]
  refine (Op.bind_ok claim).trans ?_
  by_cases zero : id = 0
  · rw [if_neg (by simp [zero]), if_pos zero]
    rfl
  · rw [if_pos (by exact_mod_cast zero), if_neg zero]

/-- What the claim search finds is a source or 0. -/
theorem isBest_le {c id : Nat} (best : s.isBest c id) : id ≤ s.cfg.plic.sources := by
  rcases best with ⟨rfl, -⟩ | ⟨⟨-, source, -⟩, -⟩
  · exact Nat.zero_le _
  · exact source

/-- Settles O46: the load claims; what it claimed, unless 0, the store to the same register completes. -/
theorem pollClaimsAndCompletes : Obligations.PollClaimsAndCompletes := by
  refine ⟨fun s ctx h detached => exec_refuse (pollWith_refused _ ctx h detached), ?_⟩
  rintro s ctx id pa _ a p r caps legal attached context best rfl access hit device writable found kind fits align widths
    offset level little drained
  obtain ⟨-, sources⟩ := legal.sources
  obtain ⟨-, contexts⟩ := legal.contexts
  have small : id < 256 ^ 4 := by
    have := isBest_le best
    omega
  have reaches : s.reachesDevice pa 4 r .plic := by
    refine ⟨by decide, found, fits, caps, kind, fun _ => ⟨?_, fun ws same => ?_⟩⟩
    · rw [align, offset]
      exact plicOff_claim_aligned ..
    · cases widths.symm.trans same
      decide
  have named : plicReg s.cfg.plic.layout (pa - r.base) = some (.claim ctx) := by
    obtain ⟨-, -, -, claim⟩ := plicReg_ctx s.cfg.plic.layout ctx (decide_eq_true (by omega))
    rw [offset]
    exact claim
  have ⟨_, _, _, _, below⟩ := hit
  have page : ClaimPage s ctx (a.claimVa ctx) pa p r :=
    { context, access, hit, below, device, writable, reaches, named, level, little, drained }
  have poll := pollWith_none attached (page.load_claim best small) (runHandler 0)
  dsimp only
  by_cases zero : id = 0
  · rw [if_pos zero] at poll ⊢
    subst zero
    exact exec_ok poll
  · rw [if_neg zero] at poll ⊢
    exact exec_ok (poll.trans (Op.bind_ok ((page.afterAccess _).store_complete small)))

end Sys2Proof.Machine
end

section
/-! SUPPORT. The CLINT (spec/46_clint.md R392 to R396): what its registers read as and what a write leaves, its time and its
levels. -/

namespace Sys2Proof.Machine

variable {s : State}

/-! ## Registers (R392 to R394) -/

/-- A CLINT with these arguments has the register (R390). -/
def Clint.hasReg (c : ClintCfg) : ClintReg → Prop
  | .msip h | .mtimecmp h _ => h < c.harts
  | .mtime _ => True

/-- The number a part of a 64-bit register reads as (R393). -/
def partValue (w : Word) : Part → Nat
  | .full => w.toNat
  | .lo => w.toNat % 2 ^ 32
  | .hi => w.toNat / 2 ^ 32

/-- The number a register reads as (R392 to R394). -/
def Clint.value (k : Clint) : ClintReg → Nat
  | .msip h => (k.msip.getD h false).toNat
  | .mtimecmp h p => partValue (k.mtimecmp.getD h 0) p
  | .mtime p => partValue k.mtime p

theorem partBytes_eq (p : Part) (w : Word) : partBytes p w = packLe (partValue w p) p.width := by
  cases p with
  | full => rfl
  | lo => exact congrArg (packLe · 4) (lo32_toNat w)
  | hi => exact congrArg (packLe · 4) (hi32_toNat w)

/-- A register the CLINT has reads as its value, in as many little-endian bytes as the access is wide. -/
theorem clintRead_run {r : ClintReg} (has : Clint.hasReg s.cfg.clint r) :
    clintRead r s = .ok (packLe (s.clint.value r) r.width) s := by
  unfold clintRead
  rw [Op.get_bind_run]
  cases r with
  | msip h =>
    refine (congrFun (if_pos has) s).trans ?_
    rw [Clint.value, ← Clint.msipLevel]
    cases s.clint.msipLevel h <;> rfl
  | mtimecmp h p =>
    rw [Clint.value, ClintReg.width, ← partBytes_eq]
    exact congrFun (if_pos has) s
  | mtime p =>
    rw [Clint.value, ClintReg.width, ← partBytes_eq]
    rfl

/-- The CLINT after a write of v to a register: MSIP takes bit 0, the others the part that is written. -/
def Clint.afterWrite (k : Clint) (v : Word) : ClintReg → Clint
  | .msip h => { k with msip := k.msip.set h (v.getLsbD 0) }
  | .mtimecmp h p => { k with mtimecmp := updateAt k.mtimecmp h fun w => setPart p w v }
  | .mtime p => { k with mtime := setPart p k.mtime v }

theorem clintWrite_run {r : ClintReg} (has : Clint.hasReg s.cfg.clint r) (v : Word) :
    clintWrite r v s = .ok () { s with clint := s.clint.afterWrite v r } := by
  unfold clintWrite
  rw [Op.get_bind_run]
  cases r with
  | msip h | mtimecmp h p => exact congrFun (if_pos has) s
  | mtime p => rfl

theorem opOf_clint_readRow (poll) (r : ClintReg) : opOf poll r.readRow = opClintRead r := by
  cases r with
  | msip h => rfl
  | mtimecmp h p | mtime p => cases p <;> rfl

/-- A read as a call of its own (R142). -/
theorem exec_clintRead {r : ClintReg} (has : Clint.hasReg s.cfg.clint r) :
    exec r.readRow s = .next (s.ok (.bytes (packLe (s.clint.value r) r.width))) := by
  refine exec_ok ?_
  rw [opOf_clint_readRow, opClintRead, Op.bind_ok (clintRead_run has)]
  rfl

/-- A write as a call of its own (R142). -/
theorem exec_clintWrite {r : ClintReg} {v : Word} {i : Instr} (row : opOf opCpuPollInterrupts i = opClintWrite r v)
    (has : Clint.hasReg s.cfg.clint r) : exec i s = .next ({ s with clint := s.clint.afterWrite v r }.ok .unit) := by
  refine exec_ok ?_
  rw [row, opClintWrite, Op.bind_ok (clintWrite_run has v)]
  rfl

theorem exec_mtimecmpWrite {h : Nat} {p : Part} {w v x : Word} {i : Instr}
    (row : opOf opCpuPollInterrupts i = opClintWrite (.mtimecmp h p) v) (inRange : h < s.cfg.clint.harts)
    (held : s.clint.mtimecmp[h]? = some w) (written : setPart p w v = x) :
    exec i s = .next ({ s with clint := { s.clint with mtimecmp := s.clint.mtimecmp.set h x } }.ok .unit) := by
  rw [exec_clintWrite row inRange, Clint.afterWrite, updateAt_set _ held, written]

theorem exec_mtimeWrite {p : Part} {v x : Word} {i : Instr} (row : opOf opCpuPollInterrupts i = opClintWrite (.mtime p) v)
    (written : setPart p s.clint.mtime v = x) :
    exec i s = .next ({ s with clint := { s.clint with mtime := x } }.ok .unit) := by
  rw [exec_clintWrite row trivial, Clint.afterWrite, written]

/-- A four-byte write of the low half keeps the high one. -/
theorem setPart_lo (w : Word) (v : Word32) :
    setPart .lo w (v.setWidth 64) = BitVec.ofNat 64 (w.toNat / 2 ^ 32 * 2 ^ 32 + v.toNat) := by
  rw [setPart, lo32_setWidth, setLo32_eq]

/-- A four-byte write of the high half keeps the low one. -/
theorem setPart_hi (w : Word) (v : Word32) :
    setPart .hi w (v.setWidth 64) = BitVec.ofNat 64 (v.toNat * 2 ^ 32 + w.toNat % 2 ^ 32) := by
  rw [setPart, lo32_setWidth, setHi32_eq]

theorem getLsbD_zero_setWidth (v : Word32) : (v.setWidth 64).getLsbD 0 = decide (v.toNat % 2 = 1) := by
  rw [BitVec.getLsbD_setWidth, getLsbD_zero_eq]
  rfl

/-- Settles O52: a write replaces its register's part, which the lemmas on halves state as a number. -/
theorem clintWrites : Obligations.ClintWrites := by
  refine ⟨fun s h v inRange => ?_, fun s h w inRange held => ⟨fun v => ?_, fun v => ⟨?_, ?_⟩⟩,
    fun s => ⟨fun v => ?_, fun v => ⟨?_, ?_⟩⟩⟩
  · rw [← getLsbD_zero_setWidth]
    exact exec_clintWrite (r := .msip h) rfl inRange
  · exact exec_mtimecmpWrite (p := .full) rfl inRange held rfl
  · exact exec_mtimecmpWrite rfl inRange held (setPart_lo w v)
  · exact exec_mtimecmpWrite rfl inRange held (setPart_hi w v)
  · exact exec_mtimeWrite (p := .full) rfl rfl
  · exact exec_mtimeWrite rfl (setPart_lo s.clint.mtime v)
  · exact exec_mtimeWrite rfl (setPart_hi s.clint.mtime v)

/-! ## Time and levels (R395, R396) -/

theorem exec_clintAdvance (s : State) (n : Nat) : exec (.clintAdvance n) s = .next ({ s with clint := { s.clint with
    mtime := BitVec.ofNat 64 ((s.clint.mtime.toNat + s.cfg.clint.tick * n) % 2 ^ 64) } }.ok .unit) := by
  have wraps : ∀ x : Nat, BitVec.ofNat 64 (x % 2 ^ 64) = BitVec.ofNat 64 x :=
    fun x => BitVec.eq_of_toNat_eq (Nat.mod_mod x _)
  rw [wraps]
  exact exec_ok rfl

theorem clintIrqLevels_run {h : Nat} (inRange : h < s.cfg.clint.harts) :
    clintIrqLevels h s = .ok (s.clint.msipLevel h, s.clint.mtipLevel h) s := by
  unfold clintIrqLevels
  rw [Op.get_bind_run, if_pos inRange]
  rfl

theorem clintIrqLevels_refused {h : Nat} (outside : s.cfg.clint.harts ≤ h) :
    clintIrqLevels h s = .error (.refuse .clintHart) s := by
  unfold clintIrqLevels
  rw [Op.get_bind_run, if_neg (not_lt.2 outside)]
  rfl

/-- Settles O51: a read answers the register's value, and the levels are MSIP and the unsigned comparison. -/
theorem clintReadsAndLevels : Obligations.ClintReadsAndLevels := by
  refine ⟨fun s h inRange => ⟨?_, ?_, ?_, ?_⟩, fun s => ⟨?_, ?_, ?_⟩, fun s n => ?_, fun s h inRange => ?_,
    fun s h outside => ?_⟩
  · exact exec_clintRead (r := .msip h) inRange
  · exact exec_clintRead (r := .mtimecmp h .full) inRange
  · exact exec_clintRead (r := .mtimecmp h .lo) inRange
  · exact exec_clintRead (r := .mtimecmp h .hi) inRange
  · exact exec_clintRead (r := .mtime .full) trivial
  · exact exec_clintRead (r := .mtime .lo) trivial
  · exact exec_clintRead (r := .mtime .hi) trivial
  · exact exec_clintAdvance s n
  · rw [← Clint.mtipLevel_eq]
    exact exec_ok (Op.bind_ok (clintIrqLevels_run inRange))
  · exact exec_refuse (Op.bind_error (clintIrqLevels_refused outside))

end Sys2Proof.Machine
end

section
/-! SUPPORT. The outputs of the UARTs, the timers and the DMA engines (spec/47_peripherals_dma.md R417, R423, R435, R455):
every operation leaves each at the level of its condition. A device is out of step only inside the write of its own register,
a DMA engine for as long as its transfer runs. -/

namespace Sys2Proof.Machine

variable {E : List DevRef} {s : State} {α : Type}

/-! ## Outputs at their conditions, but for some devices -/

/-- Every entry of a bank has a property, but for those at some places. -/
def AllBut (ok : α → Prop) (out : Nat → Prop) (l : List α) : Prop := ∀ k a, l[k]? = some a → ¬ out k → ok a

theorem getElem?_updateAt (l : List α) (i : Nat) (f : α → α) (j : Nat) :
    (updateAt l i f)[j]? = if i = j then l[i]?.map f else l[j]? := by
  unfold updateAt
  cases h : l[i]? with
  | none => by_cases hij : i = j <;> simp_all
  | some a =>
    obtain ⟨hi, -⟩ := List.getElem?_eq_some_iff.1 h
    simp [List.getElem?_set, hi]

namespace AllBut

variable {ok : α → Prop} {out : Nat → Prop} {l : List α}

theorem mono {out' : Nat → Prop} (h : AllBut ok out l) (le : ∀ k, out k → out' k) : AllBut ok out' l :=
  fun k a ha hk => h k a ha fun ho => hk (le k ho)

/-- An entry may change if it keeps the property, where its place is not left out. -/
theorem update (h : AllBut ok out l) {i : Nat} {f : α → α} (hf : ¬ out i → ∀ a, ok a → ok (f a)) :
    AllBut ok out (updateAt l i f) := by
  intro k a ha hk
  rw [getElem?_updateAt] at ha
  split at ha
  · subst k
    obtain ⟨b, hb, rfl⟩ := Option.map_eq_some_iff.1 ha
    exact hf hk b (h i b hb hk)
  · exact h k a ha hk

/-- A place need not be left out when its entry has the property. -/
theorem close {out' : Nat → Prop} (h : AllBut ok out' l) {i : Nat} (le : ∀ k, out' k → k = i ∨ out k)
    (hi : ∀ a, l[i]? = some a → ok a) : AllBut ok out l := by
  intro k a ha hk
  by_cases hki : k = i
  · exact hi a (hki ▸ ha)
  · exact h k a ha fun ho => (le k ho).elim hki hk

end AllBut

/-- Every output is at its condition, but for those of the devices in E. -/
def InStep (E : List DevRef) (s : State) : Prop :=
  AllBut (fun u : Uart => u.irqOut = u.irqCond) (fun k => .uart k ∈ E) s.uarts ∧
    AllBut (fun t : Timer => t.irqOut = t.irqCond) (fun k => .timer k ∈ E) s.timers ∧
    AllBut (fun d : Dma => d.irqOut = d.irqCond) (fun k => .dma k ∈ E) s.dmas

theorem allBut_none_iff {ok : α → Prop} {l : List α} : AllBut ok (fun _ => False) l ↔ ∀ a ∈ l, ok a := by
  simp only [AllBut, not_false_eq_true, true_implies, List.mem_iff_getElem?]
  exact ⟨fun h a ⟨k, ha⟩ => h k a ha, fun h k a ha => h a ⟨k, ha⟩⟩

theorem inStep_nil_iff : InStep [] s ↔ OutputsOk s := by
  simp only [InStep, List.not_mem_nil, allBut_none_iff]
  exact ⟨fun ⟨uarts, timers, dmas⟩ => ⟨uarts, timers, dmas⟩, fun h => ⟨h.uarts, h.timers, h.dmas⟩⟩

theorem InStep.outOfStep (h : InStep E s) (d : DevRef) : InStep (d :: E) s := by
  obtain ⟨uarts, timers, dmas⟩ := h
  exact ⟨uarts.mono fun _ => List.mem_cons_of_mem _, timers.mono fun _ => List.mem_cons_of_mem _,
    dmas.mono fun _ => List.mem_cons_of_mem _⟩

/-- An operation that leaves the devices as they are keeps the outputs at their conditions. -/
theorem Keeps.inStep_of_mmu {m : Op α} (h : ∀ t, Keeps (MmuFrame t) m) : Holds (InStep E) m := by
  refine fun s hs => Keeps.post (.widen h (fun _ => ⟨rfl, rfl, rfl, rfl, rfl, rfl, rfl, rfl, rfl, rfl, rfl, rfl, rfl⟩)
    fun t u ht hu => ?_) hs
  obtain ⟨-, -, -, -, -, -, -, uarts, timers, dmas, -⟩ := hu
  rwa [InStep, uarts, timers, dmas]

/-! ## PLIC, CLINT, DRAM -/

theorem plicRaise_inStep (id : Nat) : Holds (InStep E) (plicRaise id) :=
  .get_bind' fun _ => .ite (fun _ => .modify fun _ h => h) fun _ => .refuse _

theorem plicLower_inStep (id : Nat) : Holds (InStep E) (plicLower id) :=
  .get_bind' fun _ => .ite (fun _ => .modify fun _ h => h) fun _ => .refuse _

theorem driveSink_inStep (sink : Option Nat) (level : Bool) : Holds (InStep E) (driveSink sink level) := by
  cases sink with
  | none => exact .pure _
  | some id => exact .ite (fun _ => plicRaise_inStep id) fun _ => plicLower_inStep id

theorem plicRead_inStep (r : PlicReg) : Holds (InStep E) (plicRead r) := by
  refine .get_bind' fun u => ?_
  cases r <;> dsimp only
  case pendLo | pendHi => exact .pure _
  case claim =>
    exact .ite (fun _ => .ite (fun _ => .bind (.modify fun _ h => h) fun _ => .pure _) fun _ => .pure _) fun _ => .refuse _
  all_goals exact .ite (fun _ => .pure _) fun _ => .refuse _

theorem plicWrite_inStep (r : PlicReg) (v : Word32) : Holds (InStep E) (plicWrite r v) := by
  refine .get_bind' fun u => ?_
  cases r <;> dsimp only
  case pendLo | pendHi => exact .refuse _
  all_goals exact .ite (fun _ => .modify fun _ h => h) fun _ => .refuse _

theorem clintWrite_inStep (r : ClintReg) (v : Word) : Holds (InStep E) (clintWrite r v) := by
  refine .get_bind' fun u => ?_
  cases r <;> dsimp only
  case mtime => exact .modify fun _ h => h
  all_goals exact .ite (fun _ => .modify fun _ h => h) fun _ => .refuse _

theorem dramBounds_inStep (a n : Nat) : Holds (InStep E) (dramBounds a n) :=
  .get_bind' fun _ => .ite (fun _ => .bind (.modify fun _ h => h) fun _ => .raise _) fun _ => .pure _

theorem dramRead_inStep (a n : Nat) : Holds (InStep E) (dramRead a n) :=
  .bind (dramBounds_inStep a n) fun _ => .get_bind' fun _ => .pure _

theorem dramWrite_inStep (a : Nat) (bs : List Byte) : Holds (InStep E) (dramWrite a bs) :=
  .bind (dramBounds_inStep a _) fun _ => .get_bind' fun _ => .modify fun _ h => h

/-! ## UARTs -/

theorem InStep.modifyUart {k : Nat} {f : Uart → Uart} (h : InStep E s)
    (hf : .uart k ∉ E → ∀ u : Uart, u.irqOut = u.irqCond → (f u).irqOut = (f u).irqCond) :
    InStep E { s with uarts := updateAt s.uarts k f } := by
  obtain ⟨uarts, rest⟩ := h
  exact ⟨uarts.update hf, rest⟩

theorem InStep.closeUart {k : Nat} (h : InStep (.uart k :: E) s)
    (hk : ∀ u, s.uarts[k]? = some u → u.irqOut = u.irqCond) : InStep E s := by
  obtain ⟨uarts, timers, dmas⟩ := h
  exact ⟨uarts.close (i := k) (by simp) hk, timers.mono (by simp), dmas.mono (by simp)⟩

/-- The output follows its condition, whatever it was before (R417). -/
theorem updateUartIrq_inStep {k : Nat} (h : InStep (.uart k :: E) s) :
    Post (updateUartIrq k) s (fun _ => InStep E) (InStep E) := by
  refine .bind (.get_bind (.need fun u hu => .get_bind (.ite (fun _ => .modify_bind ?_) fun same => .pure ?_)))
  · refine driveSink_inStep _ _ _ ((h.modifyUart (by simp)).closeUart fun v hv => ?_)
    rw [getElem?_updateAt, if_pos rfl, hu] at hv
    cases hv
    rfl
  · refine h.closeUart fun v hv => ?_
    cases hu.symm.trans hv
    exact (not_not.1 same).symm

/-- A change of a UART with the update of its output that follows it. -/
theorem followUart_inStep (k : Nat) (f : Uart → Uart) : Holds (InStep E) (do modifyUart k f; updateUartIrq k) :=
  fun _ h => .modify_bind (updateUartIrq_inStep ((h.outOfStep _).modifyUart (by simp)))

theorem uartRead_inStep (k : Nat) (r : UartReg) : Holds (InStep E) (uartRead k r) := by
  refine .bind (Stable.getUart k) fun u => ?_
  cases r with
  | data => exact (followUart_inStep k _).returning fun _ => [u.rxFifo.headD 0]
  | status | ctrl => exact .pure _

/-- The bytes transmitted are no part of the condition. -/
theorem uartWrite_inStep (k : Nat) (r : UartReg) (v : Word32) : Holds (InStep E) (uartWrite k r v) := by
  refine .bind (Stable.getUart k) fun u => ?_
  cases r with
  | data => exact .modify fun _ h => h.modifyUart fun _ _ hu => hu
  | status => exact .refuse _
  | ctrl => exact followUart_inStep k _

theorem opUartPushRx_inStep (k : Nat) (b : Byte) : Holds (InStep E) (opUartPushRx k b) :=
  .bind (Stable.getUart k) fun _ => (followUart_inStep k _).returning _

/-! ## Timers -/

theorem InStep.modifyTimer {k : Nat} {f : Timer → Timer} (h : InStep E s)
    (hf : .timer k ∉ E → ∀ t : Timer, t.irqOut = t.irqCond → (f t).irqOut = (f t).irqCond) :
    InStep E { s with timers := updateAt s.timers k f } := by
  obtain ⟨uarts, timers, dmas⟩ := h
  exact ⟨uarts, timers.update hf, dmas⟩

theorem InStep.closeTimer {k : Nat} (h : InStep (.timer k :: E) s)
    (hk : ∀ t, s.timers[k]? = some t → t.irqOut = t.irqCond) : InStep E s := by
  obtain ⟨uarts, timers, dmas⟩ := h
  exact ⟨uarts.mono (by simp), timers.close (i := k) (by simp) hk, dmas.mono (by simp)⟩

/-- The output follows its condition, whatever it was before (R423). -/
theorem updateTimerIrq_inStep {k : Nat} (h : InStep (.timer k :: E) s) :
    Post (updateTimerIrq k) s (fun _ => InStep E) (InStep E) := by
  refine .bind (.get_bind (.need fun t ht => .get_bind (.ite (fun _ => .modify_bind ?_) fun same => .pure ?_)))
  · refine driveSink_inStep _ _ _ ((h.modifyTimer (by simp)).closeTimer fun x hx => ?_)
    rw [getElem?_updateAt, if_pos rfl, ht] at hx
    cases hx
    rfl
  · refine h.closeTimer fun x hx => ?_
    cases ht.symm.trans hx
    exact (not_not.1 same).symm

/-- A change of a timer with the update of its output that follows it. -/
theorem followTimer_inStep (k : Nat) (f : Timer → Timer) : Holds (InStep E) (do modifyTimer k f; updateTimerIrq k) :=
  fun _ h => .modify_bind (updateTimerIrq_inStep ((h.outOfStep _).modifyTimer (by simp)))

theorem timerWrite_inStep (k : Nat) (r : TimerReg) (v : Word32) : Holds (InStep E) (timerWrite k r v) :=
  .bind (Stable.getTimer k) fun _ => followTimer_inStep k _

theorem opTimerAdvance_inStep (k n : Nat) : Holds (InStep E) (opTimerAdvance k n) := by
  refine .bind (Stable.getTimer k) fun t => .ite (fun _ => (followTimer_inStep k _).returning _) fun _ => ?_
  exact Holds.returning (fun _ h => updateTimerIrq_inStep (h.outOfStep _)) _

/-! ## DMA engines: registers -/

theorem InStep.modifyDma {k : Nat} {f : Dma → Dma} (h : InStep E s)
    (hf : .dma k ∉ E → ∀ d : Dma, d.irqOut = d.irqCond → (f d).irqOut = (f d).irqCond) :
    InStep E { s with dmas := updateAt s.dmas k f } := by
  obtain ⟨uarts, timers, dmas⟩ := h
  exact ⟨uarts, timers, dmas.update hf⟩

theorem InStep.closeDma {k : Nat} (h : InStep (.dma k :: E) s)
    (hk : ∀ d, s.dmas[k]? = some d → d.irqOut = d.irqCond) : InStep E s := by
  obtain ⟨uarts, timers, dmas⟩ := h
  exact ⟨uarts.mono (by simp), timers.mono (by simp), dmas.close (i := k) (by simp) hk⟩

/-- The output follows its condition, whatever it was before (R435). -/
theorem updateDmaIrq_inStep {k : Nat} (h : InStep (.dma k :: E) s) :
    Post (updateDmaIrq k) s (fun _ => InStep E) (InStep E) := by
  refine .bind (.get_bind (.need fun d hd => .get_bind (.ite (fun _ => .modify_bind ?_) fun same => .pure ?_)))
  · refine driveSink_inStep _ _ _ ((h.modifyDma (by simp)).closeDma fun x hx => ?_)
    rw [getElem?_updateAt, if_pos rfl, hd] at hx
    cases hx
    rfl
  · refine h.closeDma fun x hx => ?_
    cases hd.symm.trans hx
    exact (not_not.1 same).symm

/-- A DMA engine that is out of step may change. -/
theorem Post.modifyDma_bind {k : Nat} {f : Dma → Dma} {m : Unit → Op α} {Q : α → State → Prop} {F : State → Prop}
    (h : InStep (.dma k :: E) s) (hm : ∀ t, InStep (.dma k :: E) t → Post (m ()) t Q F) :
    Post (Machine.modifyDma k f >>= m) s Q F :=
  .modify_bind (hm _ (h.modifyDma (by simp)))

section Master

/-! ## The bus and the DMA engines' transfers, over what a chunk does that writes a CTRL register -/

variable {ctrl : Nat → Word32 → Op Unit}

theorem dmaWriteWith_inStep (hc : ∀ k v, Holds (InStep E) (ctrl k v)) (k : Nat) (r : DmaReg) (v : Word32) :
    Holds (InStep E) (dmaWriteWith ctrl k r v) := by
  refine .bind (Stable.getDma k) fun _ => ?_
  cases r with
  | ctrl => exact hc k v
  | status => exact fun _ h => .modifyDma_bind (h.outOfStep _) fun _ ht => updateDmaIrq_inStep ht
  | srcLo | srcHi | dstLo | dstHi | len => exact .modify fun _ h => h.modifyDma fun _ _ hd => hd

theorem deviceRead_inStep (d : DevRef) (off width : Nat) : Holds (InStep E) (deviceRead d off width) := by
  refine .get_bind' fun u => ?_
  cases d <;> dsimp only
  case rom k => exact Stable.romRead k off width
  all_goals split
  any_goals exact .bind (Stable.noRow _ _ _) fun _ => .pure _
  · exact plicRead_inStep _
  · exact Stable.clintRead _
  · exact uartRead_inStep _ _
  · exact Stable.timerRead _ _
  · exact Stable.dmaRead _ _

theorem deviceWriteWith_inStep (hc : ∀ k v, Holds (InStep E) (ctrl k v)) (d : DevRef) (off : Nat) (bs : List Byte) :
    Holds (InStep E) (deviceWriteWith ctrl d off bs) := by
  refine .get_bind' fun u => ?_
  cases d <;> dsimp only
  case rom k => exact Stable.romWrite k off bs
  all_goals split
  any_goals exact Stable.noRow _ _ _
  · exact plicWrite_inStep _ _
  · exact clintWrite_inStep _ _
  · exact uartWrite_inStep _ _ _
  · exact timerWrite_inStep _ _ _
  · exact dmaWriteWith_inStep hc _ _ _

theorem countFault_inStep {m : Op α} (hm : Holds (InStep E) m) : Holds (InStep E) (countFault m) :=
  fun s h => .countFault (hm s h)

theorem chunkRead_inStep (r : Region) (a width : Nat) : Holds (InStep E) (chunkRead r a width) := by
  unfold chunkRead
  cases r.kind with
  | ram off => exact dramRead_inStep _ _
  | mmio d caps => exact deviceRead_inStep d _ _

theorem chunkWriteWith_inStep (hc : ∀ k v, Holds (InStep E) (ctrl k v)) (r : Region) (a : Nat) (bs : List Byte) :
    Holds (InStep E) (chunkWriteWith ctrl r a bs) := by
  unfold chunkWriteWith
  cases r.kind with
  | ram off => exact dramWrite_inStep _ _
  | mmio d caps => exact deviceWriteWith_inStep hc d _ _

theorem readChunks_inStep (fuel a n : Nat) : Holds (InStep E) (readChunks fuel a n) := by
  induction fuel generalizing a n with
  | zero => exact .pure _
  | succ fuel ih =>
    cases n with
    | zero => exact .pure _
    | succ n =>
      exact .bind (countFault_inStep (Stable.decodeAddress a)) fun r =>
        .bind (countFault_inStep (.bind (Stable.chunkCheck r a _) fun _ => chunkRead_inStep r a _)) fun _ =>
          .bind (.modify fun _ h => h) fun _ => (ih _ _).returning _

theorem busRead_inStep (pa n : Nat) : Holds (InStep E) (busRead pa n) :=
  .bind (.modify fun _ h => h) fun _ => readChunks_inStep n pa n

theorem writeChunks_inStep (hc : ∀ k v, Holds (InStep E) (ctrl k v)) (fuel a : Nat) (bs : List Byte) :
    Holds (InStep E) (writeChunks ctrl fuel a bs) := by
  induction fuel generalizing a bs with
  | zero => exact .pure _
  | succ fuel ih =>
    cases bs with
    | nil => exact .pure _
    | cons b bs =>
      exact .bind (countFault_inStep (Stable.decodeAddress a)) fun r =>
        .bind (countFault_inStep (.bind (Stable.chunkCheck r a _) fun _ => chunkWriteWith_inStep hc r a _)) fun _ =>
          .bind (.modify fun _ h => h) fun _ => ih _ _

theorem busWriteWith_inStep (hc : ∀ k v, Holds (InStep E) (ctrl k v)) (pa : Nat) (bs : List Byte) :
    Holds (InStep E) (busWriteWith ctrl pa bs) :=
  .bind (.modify fun _ h => h) fun _ => writeChunks_inStep hc _ _ _

/-- The errors of its chunks do not leave the copy loop (R433). -/
theorem dmaLoop_inStep (hc : ∀ k v, Holds (InStep E) (ctrl k v)) (k fuel done : Nat) (h : InStep E s) :
    Post (dmaLoop ctrl k fuel done) s (fun _ => InStep E) (fun _ => False) := by
  induction fuel generalizing done s with
  | zero => exact .pure h
  | succ fuel ih =>
    have chunk : ∀ a n, Holds (InStep E) (do
        let bs ← busRead a n
        let d ← getDma k
        busWriteWith ctrl (d.dst.toNat + done) bs) := fun a n =>
      .bind (busRead_inStep a n) fun _ => .bind (Stable.getDma k) fun _ => busWriteWith_inStep hc _ _
    refine .bind (.get_bind (.need fun d _ => .ite (fun _ => .bind (.attempt ?_)) fun _ => .pure h))
    exact (chunk _ _ s h).mono (fun _ _ ht => ih _ ht) fun _ ht _ => .pure ht

/-- A write of CTRL leaves its engine in step, though it is out of step while the transfer runs. -/
theorem dmaCtrlWith_inStep (hc : ∀ E k v, Holds (InStep E) (ctrl k v)) (k : Nat) (v : Word32) :
    Holds (InStep E) (dmaCtrlWith ctrl k v) := by
  have last : ∀ (f : Dma → Dma) (t : State), InStep (.dma k :: E) t → Post (do
      modifyDma k f
      updateDmaIrq k) t (fun _ => InStep E) (InStep E) := fun f t ht =>
    .modifyDma_bind ht fun _ hu => updateDmaIrq_inStep hu
  intro s h
  refine .modifyDma_bind (h.outOfStep _) fun t ht => .ite (fun _ => ?_) fun _ => updateDmaIrq_inStep ht
  refine .modifyDma_bind ht fun t ht => .bind (.get_bind (.need fun d _ => .get_bind (.bind (.need fun c _ => ?_))))
  refine .ite (fun _ => last _ t ht) fun _ => .ite (fun _ => .bind .refuse) fun _ => .bind ?_
  exact (dmaLoop_inStep (hc _) k _ 0 ht).mono (fun ok u hu => .ite (fun _ => last _ u hu) fun _ => last _ u hu) fun _ hf => hf.elim

end Master

theorem dmaCtrl_inStep (nest : Nat) : ∀ E k v, Holds (InStep E) (dmaCtrl nest k v) := by
  induction nest with
  | zero => exact fun _ _ _ => .refuse _
  | succ nest ih => exact fun _ => dmaCtrlWith_inStep ih

theorem dmaWrite_inStep (k : Nat) (r : DmaReg) (v : Word32) : Holds (InStep E) (dmaWrite k r v) :=
  dmaWriteWith_inStep (dmaCtrl_inStep _ E) k r v

theorem busWrite_inStep (pa : Nat) (bs : List Byte) : Holds (InStep E) (busWrite pa bs) :=
  busWriteWith_inStep (dmaCtrl_inStep _ E) pa bs

end Sys2Proof.Machine
end

section
/-! SUPPORT. The same of the cache, the CPU and every operation: nothing but the bus reaches a device's register (R181), so
each is in step after an operation as its bus transfers leave it. -/

namespace Sys2Proof.Machine

variable {E : List DevRef} {α β : Type}

theorem Holds.raise_bind {P : State → Prop} (k : ErrKind) (f : α → Op β) : Holds P ((Machine.raise k : Op α) >>= f) :=
  fun _ h => .bind (.raise h)

theorem Holds.refuse_bind {P : State → Prop} (r : Refusal) (f : α → Op β) : Holds P ((Machine.refuse r : Op α) >>= f) :=
  fun _ _ => .bind .refuse

/-! ## The cache: lines, drains and installation -/

theorem putLine_inStep (l : Level) (q : Nat × Nat) (x : Line) : Holds (InStep E) (putLine l q x) := .modify fun _ h => h

theorem invalidate_inStep (l : Level) (q : Nat × Nat) : Holds (InStep E) (invalidate l q) := .modify fun _ h => h

theorem countAt_inStep (l : Level) (f : CacheStats → CacheStats) : Holds (InStep E) (countAt l f) := .modify fun _ h => h

theorem nextStamp_inStep : Holds (InStep E) nextStamp := .bind (.modify fun _ h => h) fun _ => .get_bind' fun _ => .pure _

theorem accessLine_inStep (a : Nat) (l : Level) (w : Bool) : Holds (InStep E) (accessLine a l w) := by
  refine .get_bind' fun u => ?_
  cases u.lookup a l with
  | some q =>
    exact .bind nextStamp_inStep fun _ => .bind (Stable.getLine _ _) fun _ => .bind (putLine_inStep _ _ _) fun _ =>
      .bind (countAt_inStep _ _) fun _ => .pure _
  | none => exact .bind (countAt_inStep _ _) fun _ => .pure _

theorem markPresence_inStep (l : Level) (b : Nat) (v : Bool) : Holds (InStep E) (markPresence l b v) := by
  refine .get_bind' fun u => ?_
  cases Level.parent l with
  | none => exact .pure _
  | some p =>
    cases hq : u.lookup b p with
    | none => simpa only [hq] using .pure _
    | some q => simpa only [hq] using putLine_inStep _ _ _

theorem installWith_inStep {evict : Nat × Nat → Op Unit} (he : ∀ q, Holds (InStep E) (evict q)) (l : Level) (b : Nat)
    (d : List Byte) (w : Bool) : Holds (InStep E) (installWith evict l b d w) := by
  refine .get_bind' fun _ => .ite (fun _ => .bind (he _) fun _ => ?_) fun _ => ?_
  all_goals exact .bind nextStamp_inStep fun _ => .bind (putLine_inStep _ _ _) fun _ => .bind (countAt_inStep _ _) fun _ =>
    markPresence_inStep _ _ _

theorem takeChild_inStep (c : Side) (q : Nat × Nat) (b : Nat) : Holds (InStep E) (takeChild c q b) := by
  have leave : ∀ q1, Holds (InStep E) (do
      invalidate c.level q1
      countAt c.level (·.evict) : Op Unit) := fun _ => .bind (invalidate_inStep _ _) fun _ => countAt_inStep _ _
  refine .get_bind' fun u => ?_
  cases u.lookup b c.level with
  | none => exact .pure _
  | some q1 =>
    exact .ite (fun _ => .bind (putLine_inStep _ _ _) fun _ => .bind (countAt_inStep _ _) fun _ => leave _) fun _ => leave _

theorem drainChild_inStep (c : Side) (q : Nat × Nat) (b : Nat) : Holds (InStep E) (drainChild c q b) :=
  .bind (Stable.getLine _ _) fun _ => .ite (fun _ => .bind (takeChild_inStep _ _ _) fun _ =>
    .bind (Stable.getLine _ _) fun _ => putLine_inStep _ _ _) fun _ => .pure _

theorem drainChildren_inStep (q : Nat × Nat) (b : Nat) : Holds (InStep E) (drainChildren q b) :=
  .bind (drainChild_inStep _ _ _) fun _ => drainChild_inStep _ _ _

theorem takeL2Child_inStep (q : Nat × Nat) (b : Nat) : Holds (InStep E) (takeL2Child q b) := by
  have leave : ∀ q2, Holds (InStep E) (do
      invalidate .l2 q2
      countAt .l2 (·.evict) : Op Unit) := fun _ => .bind (invalidate_inStep _ _) fun _ => countAt_inStep _ _
  refine .get_bind' fun u => ?_
  cases u.lookup b .l2 with
  | none => exact .pure _
  | some q2 =>
    exact .bind (drainChildren_inStep _ _) fun _ => .bind (Stable.getLine _ _) fun _ =>
      .ite (fun _ => .bind (Stable.getLine _ _) fun _ => .bind (putLine_inStep _ _ _) fun _ =>
        .bind (countAt_inStep _ _) fun _ => leave _) fun _ => leave _

theorem drainL2Child_inStep (q : Nat × Nat) (b : Nat) : Holds (InStep E) (drainL2Child q b) :=
  .bind (takeL2Child_inStep _ _) fun _ => .bind (Stable.getLine _ _) fun _ => putLine_inStep _ _ _

/-! ## The cache: evictions and write-backs -/

theorem evictL3_inStep (q : Nat × Nat) : Holds (InStep E) (evictL3 q) := by
  have writeBack : ∀ b d, Holds (InStep E) (writebackL3 b d) := fun _ _ =>
    .bind (countAt_inStep _ _) fun _ => .tagged _ _ (busWrite_inStep _ _)
  have clean : ∀ b, Holds (InStep E) (do
      let v ← getLine .l3 q
      if v.dirty then
        writebackL3 b v.data
        let v ← getLine .l3 q
        putLine .l3 q { v with dirty := false } : Op Unit) := fun _ =>
    .bind (Stable.getLine _ _) fun _ => .ite (fun _ => .bind (writeBack _ _) fun _ => .bind (Stable.getLine _ _) fun _ =>
      putLine_inStep _ _ _) fun _ => .pure _
  exact .bind (countAt_inStep _ _) fun _ => .get_bind' fun _ =>
    .ite (fun _ => .bind (drainL2Child_inStep _ _) fun _ => clean _) fun _ => clean _

theorem installL3_inStep (b : Nat) (d : List Byte) (w : Bool) : Holds (InStep E) (installL3 b d w) :=
  installWith_inStep evictL3_inStep _ _ _ _

theorem writeParent_inStep {install : Nat → List Byte → Bool → Op Unit} (hi : ∀ b d w, Holds (InStep E) (install b d w))
    (p : Level) (b : Nat) (d : List Byte) : Holds (InStep E) (writeParent install p b d) := by
  refine .get_bind' fun u => ?_
  cases u.lookup b p with
  | some q => exact .bind nextStamp_inStep fun _ => .bind (Stable.getLine _ _) fun _ => putLine_inStep _ _ _
  | none => exact hi _ _ _

theorem evictL2_inStep (q : Nat × Nat) : Holds (InStep E) (evictL2 q) :=
  .bind (countAt_inStep _ _) fun _ => .get_bind' fun _ => .bind (drainChildren_inStep _ _) fun _ =>
    .bind (Stable.getLine _ _) fun _ => .ite (fun _ => .bind (.bind (countAt_inStep _ _) fun _ =>
      writeParent_inStep installL3_inStep _ _ _) fun _ => markPresence_inStep _ _ _) fun _ => markPresence_inStep _ _ _

theorem installL2_inStep (b : Nat) (d : List Byte) (w : Bool) : Holds (InStep E) (installL2 b d w) :=
  installWith_inStep evictL2_inStep _ _ _ _

theorem writebackL1_inStep (c : Side) (b : Nat) (d : List Byte) : Holds (InStep E) (writebackL1 c b d) :=
  .bind (countAt_inStep _ _) fun _ => .bind (writeParent_inStep installL2_inStep _ _ _) fun _ => markPresence_inStep _ _ _

theorem evictL1_inStep (c : Side) (q : Nat × Nat) : Holds (InStep E) (evictL1 c q) :=
  .bind (countAt_inStep _ _) fun _ => .get_bind' fun _ =>
    .ite (fun _ => .bind (writebackL1_inStep _ _ _) fun _ => markPresence_inStep _ _ _) fun _ => markPresence_inStep _ _ _

theorem installL1_inStep (c : Side) (b : Nat) (d : List Byte) (w : Bool) : Holds (InStep E) (installL1 c b d w) :=
  installWith_inStep (evictL1_inStep c) _ _ _ _

theorem handleEviction_inStep (l : Level) (q : Nat × Nat) : Holds (InStep E) (handleEviction l q) := by
  cases l with
  | l1d | l1i => exact evictL1_inStep _ q
  | l2 => exact evictL2_inStep q
  | l3 => exact evictL3_inStep q

/-! ## The cache: reads, writes, prefetches, flushes -/

theorem fetchLine_inStep (l : Level) (b : Nat) : Holds (InStep E) (fetchLine l b) :=
  .get_bind' fun _ => .tagged _ _ (busRead_inStep _ _)

theorem cacheRead_inStep (pa : Nat) (c : Side) : Holds (InStep E) (cacheRead pa c) := by
  have upL1 : ∀ b d, Holds (InStep E) (do
      installL1 c b d false
      return d : Op (List Byte)) := fun _ _ => .bind (installL1_inStep _ _ _ _) fun _ => .pure _
  have upL2 : ∀ b d, Holds (InStep E) (do
      installL2 b d false
      installL1 c b d false
      return d : Op (List Byte)) := fun _ _ => .bind (installL2_inStep _ _ _) fun _ => upL1 _ _
  refine .get_bind' fun _ => .bind (accessLine_inStep _ _ _) fun q => ?_
  cases q with
  | some q => exact .bind (Stable.getLine _ _) fun _ => .pure _
  | none =>
    refine .bind (accessLine_inStep _ _ _) fun q => ?_
    cases q with
    | some q => exact .bind (Stable.getLine _ _) fun _ => upL1 _ _
    | none =>
      refine .bind (accessLine_inStep _ _ _) fun q => ?_
      cases q with
      | some q => exact .bind (Stable.getLine _ _) fun _ => upL2 _ _
      | none => exact .bind (fetchLine_inStep _ _) fun _ => .bind (installL3_inStep _ _ _) fun _ => upL2 _ _

theorem cacheWriteChunk_inStep (a : Nat) (bs : List Byte) (c : Side) : Holds (InStep E) (cacheWriteChunk a bs c) := by
  refine .bind (cacheRead_inStep _ _) fun _ => .get_bind' fun u => ?_
  cases u.lookup a c.level with
  | some q => exact putLine_inStep _ _ _
  | none => exact .pure _

theorem cacheWriteLoop_inStep (c : Side) (fuel a : Nat) (bs : List Byte) :
    Holds (InStep E) (cacheWriteLoop c fuel a bs) := by
  induction fuel generalizing a bs with
  | zero => exact .pure _
  | succ fuel ih =>
    cases bs with
    | nil => exact .pure _
    | cons b bs => exact .get_bind' fun _ => .bind (cacheWriteChunk_inStep _ _ _) fun _ => ih _ _

theorem prefetchL3_inStep (l : Level) (b : Nat) : Holds (InStep E) (prefetchL3 l b) := by
  refine .get_bind' fun u => ?_
  cases u.lookup b .l3 with
  | some q => exact .pure _
  | none => exact .bind (fetchLine_inStep _ _) fun _ => .bind (installL3_inStep _ _ _) fun _ => .pure _

theorem prefetchL2_inStep (l : Level) (b : Nat) : Holds (InStep E) (prefetchL2 l b) := by
  refine .get_bind' fun u => ?_
  cases u.lookup b .l2 with
  | some q => exact .pure _
  | none => exact .bind (prefetchL3_inStep _ _) fun _ => .bind (installL2_inStep _ _ _) fun _ => .pure _

theorem prefetchInto_inStep (l : Level) (b : Nat) : Holds (InStep E) (prefetchInto l b) := by
  cases l with
  | l1d | l1i => exact .bind (prefetchL2_inStep _ _) fun _ => installL1_inStep _ _ _ _
  | l2 => exact .bind (prefetchL2_inStep _ _) fun _ => .pure _
  | l3 => exact .bind (prefetchL3_inStep _ _) fun _ => .pure _

theorem prefetchLine_inStep (l : Level) (a : Nat) : Holds (InStep E) (prefetchLine l a) := by
  refine .get_bind' fun u => ?_
  dsimp only
  cases u.lookup (Config.block u.cfg a) l with
  | some q => exact .pure _
  | none => exact .bind (countAt_inStep _ _) fun _ => prefetchInto_inStep _ _

theorem flushSlot_inStep (l : Level) (q : Nat × Nat) : Holds (InStep E) (flushSlot l q) :=
  .bind (handleEviction_inStep _ _) fun _ => invalidate_inStep _ _

theorem flushLine_inStep (a : Nat) (l : Level) : Holds (InStep E) (flushLine a l) := by
  refine .get_bind' fun u => ?_
  cases u.lookup a l with
  | some q => exact flushSlot_inStep _ _
  | none => exact .pure _

theorem flushSlots_inStep (l : Level) (qs : List (Nat × Nat)) : Holds (InStep E) (flushSlots l qs) := by
  induction qs with
  | nil => exact .pure _
  | cons q qs ih =>
    exact .bind (Stable.getLine _ _) fun _ => .ite (fun _ => .bind (flushSlot_inStep _ _) fun _ => ih) fun _ => ih

theorem flushAll_inStep (l : Level) : Holds (InStep E) (flushAll l) :=
  .get_bind' fun _ => .bind (flushSlots_inStep _ _) fun _ => .modify fun _ h => h

/-! ## The CPU -/

theorem translate_inStep (va : Nat) : Holds (InStep E) (translate va) := Keeps.inStep_of_mmu fun _ => translate_frame va

theorem setDirty_inStep (va : Nat) : Holds (InStep E) (setDirty va) := Keeps.inStep_of_mmu fun _ => setDirty_frame va

theorem cachedReadLoop_inStep (c : Side) (fuel a n : Nat) : Holds (InStep E) (cachedReadLoop c fuel a n) := by
  induction fuel generalizing a n with
  | zero => exact .pure _
  | succ fuel ih =>
    cases n with
    | zero => exact .pure _
    | succ n => exact .get_bind' fun _ => .bind (cacheRead_inStep _ _) fun _ => (ih _ _).returning _

theorem prefetchAfter_inStep (pa : Nat) : Holds (InStep E) (prefetchAfter pa) :=
  .get_bind' fun _ => .ite (fun _ => .ite (fun _ => prefetchLine_inStep _ _) fun _ => .pure _) fun _ => .pure _

theorem readPath_inStep (pa n : Nat) (p : Pte) (c : Side) : Holds (InStep E) (readPath pa n p c) :=
  .ite (fun _ => .bind (cachedReadLoop_inStep _ _ _ _) fun _ => .bind (prefetchAfter_inStep _) fun _ => .pure _)
    fun _ => busRead_inStep _ _

theorem setWc_inStep (w : WcBuffer) : Holds (InStep E) (setWc w) := .modify fun _ h => h

theorem wcFlush_inStep : Holds (InStep E) wcFlush := by
  refine .get_bind' fun u => ?_
  cases u.cpu.wc.base with
  | none => exact .pure _
  | some b => exact .bind (setWc_inStep _) fun _ => busWrite_inStep _ _

theorem wcPost_inStep (pa : Nat) (bs : List Byte) : Holds (InStep E) (wcPost pa bs) := by
  refine .get_bind' fun u => ?_
  cases u.cpu.wc.base with
  | none => exact setWc_inStep _
  | some b => exact .ite (fun _ => setWc_inStep _) fun _ => .bind wcFlush_inStep fun _ => setWc_inStep _

theorem fetch_inStep (va size : Nat) : Holds (InStep E) (fetch va size) :=
  .bind (Stable.accessChecks _ _) fun _ => .bind (translate_inStep va) fun _ =>
    .ite (fun _ => .raise_bind _ _) fun _ => readPath_inStep _ _ _ _

theorem load_inStep (va size : Nat) (sg : Bool) : Holds (InStep E) (load va size sg) :=
  .bind (Stable.accessChecks _ _) fun _ => .bind (translate_inStep va) fun _ => .bind (readPath_inStep _ _ _ _) fun _ =>
    .get_bind' fun _ => .pure _

theorem storePath_inStep (va pa : Nat) (bs : List Byte) (p : Pte) : Holds (InStep E) (storePath va pa bs p) := by
  unfold storePath
  cases p.memtype with
  | device => exact .bind wcFlush_inStep fun _ => busWrite_inStep _ _
  | wc => exact wcPost_inStep _ _
  | normal =>
    refine .ite (fun _ => ?_) fun _ => .bind (busWrite_inStep _ _) fun _ => setDirty_inStep va
    exact .bind (cacheWriteLoop_inStep _ _ _ _) fun _ => .bind (setDirty_inStep va) fun _ => prefetchAfter_inStep _

theorem store_inStep (va size : Nat) (v : Int) : Holds (InStep E) (store va size v) :=
  .bind (Stable.accessChecks _ _) fun _ => .bind (translate_inStep va) fun _ =>
    .ite (fun _ => .raise_bind _ _) fun _ => .get_bind' fun _ => storePath_inStep _ _ _ _

theorem modifyCsr_inStep (f : Csr → Csr) : Holds (InStep E) (modifyCsr f) := .modify fun _ h => h

theorem opCpuSampleIrqs_inStep : Holds (InStep E) opCpuSampleIrqs := by
  have clint : Holds (InStep E) sampleClint := by
    refine .get_bind' fun u => ?_
    cases u.cpu.clintAttach with
    | none => exact .pure _
    | some h => exact .ite (fun _ => .refuse_bind _ _) fun _ => modifyCsr_inStep _
  have plic : Holds (InStep E) samplePlic := by
    refine .get_bind' fun u => ?_
    cases u.cpu.plicAttach with
    | none => exact .pure _
    | some p => exact .bind (Stable.plicContextIrq _) fun _ => modifyCsr_inStep _
  exact .bind clint fun _ => plic.returning _

theorem opCpuMaybeTakeInterrupt_inStep : Holds (InStep E) opCpuMaybeTakeInterrupt := by
  refine .get_bind' fun u => ?_
  cases u.cpu.csr.interruptCause with
  | none => exact .pure _
  | some c => exact Holds.returning (modifyCsr_inStep fun x => x.trapEnter c true) _

theorem opCpuPrefetchInst_inStep (va : Word) : Holds (InStep E) (opCpuPrefetchInst va) :=
  .bind (translate_inStep _) fun _ => .ite (fun _ => .raise_bind _ _) fun _ =>
    .ite (fun _ => (prefetchLine_inStep _ _).returning _) fun _ => .pure _

/-! ## DRAM commands and registration -/

theorem opDramFill_inStep (a : Word) (n : Nat) (v : Byte) : Holds (InStep E) (opDramFill a n v) :=
  .bind (dramBounds_inStep _ _) fun _ => .get_bind' fun _ => .bind (.modify fun _ h => h) fun _ => .pure _

theorem opDramCopy_inStep (dest src n : Nat) : Holds (InStep E) (opDramCopy dest src n) := by
  have move : ∀ f : Memory → Memory, Holds (InStep E) (do
      modifyCells f
      return .unit : Op Value) := fun _ => .bind (.modify fun _ h => h) fun _ => .pure _
  refine .get_bind' fun _ => .ite (fun _ => ?_) fun _ => ?_
  all_goals exact .bind (dramBounds_inStep _ _) fun _ => .ite (fun _ => move _) fun _ => move _

theorem addRegion_inStep (r : Region) : Holds (InStep E) (addRegion r) := by
  refine .ite (fun _ => .raise_bind _ _) fun _ => .ite (fun _ => .raise_bind _ _) fun _ => .get_bind' fun s => ?_
  cases s.bus.regions.find? (fun q => r.base ≤ q.last && q.base ≤ r.last) with
  | some q => exact .raise _
  | none => exact .modify fun _ h => h

theorem opBusRegisterMmio_inStep (name : String) (d : DevRef) : Holds (InStep E) (opBusRegisterMmio name d) :=
  .bind (Stable.deviceRegion d) fun _ => .ite (fun _ => .raise_bind _ _) fun _ => (addRegion_inStep _).returning _

/-! ## Every operation -/

/-- A poll is a load, what runs its handler, and a store (R472). -/
theorem pollWith_inStep {run : List Token → Op Unit} (hr : ∀ ts, Holds (InStep E) (run ts)) (n : Nat)
    (ts : Option (List Token)) : Holds (InStep E) (pollWith run n ts) := by
  refine .get_bind' fun _ => .bind (.need _ _) fun _ => .bind (load_inStep _ _ _) fun _ => .ite (fun _ => ?_) fun _ => .pure _
  cases ts with
  | none => exact (store_inStep _ _ _).returning _
  | some ts => exact .bind (.attempt (hr ts)) fun _ => (store_inStep _ _ _).returning _

theorem opOf_inStep {poll : Nat → Option (List Token) → Op Value} (hp : ∀ n ts, Holds (InStep E) (poll n ts)) (i : Instr) :
    Holds (InStep E) (opOf poll i) := by
  have plicAccess : ∀ {op : Op Value} (l : Layout), Holds (InStep E) op → Holds (InStep E) (do wantLayout l; op) :=
    fun l h => .bind (.get_bind' fun _ => .ite (fun _ => .pure _) fun _ => .refuse _) fun _ => h
  cases i with
  | dramReadBytes | dramPeek => exact (dramRead_inStep _ _).returning _
  | dramWriteBytes | dramLoadImage => exact (dramWrite_inStep _ _).returning _
  | dramFill => exact opDramFill_inStep _ _ _
  | dramCopy => exact opDramCopy_inStep _ _ _
  | busMapRam => exact (addRegion_inStep _).returning _
  | busRegisterMmio => exact opBusRegisterMmio_inStep _ _
  | busReadBytes => exact (busRead_inStep _ _).returning _
  | busWriteBytes => exact (busWrite_inStep _ _).returning _
  | mmuSetAsid | cpuSetAsid => exact Keeps.inStep_of_mmu fun _ => (modifyMmu_frame _).returning _
  | mmuMapPage | cpuMapPage => exact Keeps.inStep_of_mmu fun _ => (mapPage_frame _ _ _ _).returning _
  | mmuUnmapPage | cpuUnmapPage => exact Keeps.inStep_of_mmu fun _ => (unmapPage_frame _ _).returning _
  | mmuSetPageAttributes | cpuSetPageAttributes =>
    exact Keeps.inStep_of_mmu fun _ => (setPageAttributes_frame _ _ _).returning _
  | mmuFlushTlb | cpuFlushTlb => exact Keeps.inStep_of_mmu fun _ => (flushTlb_frame _).returning _
  | mmuFlushTlbEntry => exact Keeps.inStep_of_mmu fun _ => .bind .get fun _ => (modifyMmu_frame _).returning _
  | mmuTranslate => exact (translate_inStep _).returning _
  | mmuCheckAccess => exact Keeps.inStep_of_mmu fun _ => (checkAccess_frame _ _).returning _
  | cacheRead => exact (cacheRead_inStep _ _).returning _
  | cacheWriteBytes => exact (cacheWriteLoop_inStep _ _ _ _).returning _
  | cachePrefetchLine => exact (prefetchLine_inStep _ _).returning _
  | cacheFlushLine => exact (flushLine_inStep _ _).returning _
  | cacheFlushAll | cpuFlushIcache | cpuFlushDcache | cpuFlushL2 | cpuFlushL3 => exact (flushAll_inStep _).returning _
  | cacheStats | cpuShouldTakeInterrupt | cpuCsrRead => exact .get_bind' fun _ => .pure _
  | cpuFetch => exact (fetch_inStep _ _).returning _
  | cpuLoad => exact (load_inStep _ _ _).returning _
  | cpuStore => exact (store_inStep _ _ _).returning _
  | cpuMemoryBarrier => exact wcFlush_inStep.returning _
  | cpuPrefetchData =>
    exact .bind (translate_inStep _) fun _ => .ite (fun _ => (prefetchLine_inStep _ _).returning _) fun _ => .pure _
  | cpuPrefetchInst => exact opCpuPrefetchInst_inStep _
  | cpuAttachPlic => exact .bind (.modify fun _ h => h) fun _ => .pure _
  | cpuAttachClint =>
    exact .get_bind' fun _ => .ite (fun _ => .refuse_bind _ _) fun _ => .bind (.modify fun _ h => h) fun _ => .pure _
  | cpuSampleIrqs => exact opCpuSampleIrqs_inStep
  | cpuMaybeTakeInterrupt => exact opCpuMaybeTakeInterrupt_inStep
  | cpuCompleteTrap | cpuMret | cpuTrapEnter => exact .bind (.modify fun _ h => h) fun _ => .pure _
  | cpuPollInterrupts => exact hp _ _
  | cpuCsrWrite => exact .get_bind' fun _ => .bind (.need _ _) fun _ => (modifyCsr_inStep _).returning _
  | plicRaise => exact (plicRaise_inStep _).returning _
  | plicLower => exact (plicLower_inStep _).returning _
  | plicGetContextIrq => exact (Stable.plicContextIrq _).returning _
  | clintAdvance => exact .get_bind' fun _ => .bind (.modify fun _ h => h) fun _ => .pure _
  | clintGetIrqLevels => exact Stable.opClintGetIrqLevels _
  | timerAdvance => exact opTimerAdvance_inStep _ _
  | uartPushRx => exact opUartPushRx_inStep _ _
  | plicPrioR l | plicPendLoR l | plicPendHiR l | plicEnableLoR l | plicEnableHiR l | plicThresholdR l | plicClaimR l =>
    exact plicAccess l ((plicRead_inStep _).returning _)
  | plicPrioW l | plicEnableLoW l | plicEnableHiW l | plicThresholdW l | plicCompleteW l =>
    exact plicAccess l ((plicWrite_inStep _ _).returning _)
  | clintMsipR | clintMtimecmpR | clintMtimecmpLoR | clintMtimecmpHiR | clintMtimeR | clintMtimeLoR | clintMtimeHiR =>
    exact (Stable.clintRead _).returning _
  | clintMsipW | clintMtimecmpW | clintMtimecmpLoW | clintMtimecmpHiW | clintMtimeW | clintMtimeLoW | clintMtimeHiW =>
    exact (clintWrite_inStep _ _).returning _
  | uartDataR | uartStatusR | uartCtrlR => exact (uartRead_inStep _ _).returning _
  | uartDataW | uartCtrlW => exact (uartWrite_inStep _ _ _).returning _
  | timerCntLoR | timerCntHiR | timerCmpLoR | timerCmpHiR | timerCtrlR | timerStatusR | timerTickR =>
    exact (Stable.timerRead _ _).returning _
  | timerCntLoW | timerCntHiW | timerCmpLoW | timerCmpHiW | timerCtrlW | timerStatusW | timerTickW =>
    exact (timerWrite_inStep _ _ _).returning _
  | dmaSrcLoR | dmaSrcHiR | dmaDstLoR | dmaDstHiR | dmaLenR | dmaCtrlR | dmaStatusR =>
    exact (Stable.dmaRead _ _).returning _
  | dmaSrcLoW | dmaSrcHiW | dmaDstLoW | dmaDstHiW | dmaLenW | dmaCtrlW | dmaStatusW =>
    exact (dmaWrite_inStep _ _ _).returning _
  | romRead => exact (Stable.romRead _ _ _).returning _
  | romWrite => exact (Stable.romWrite _ _ _).returning _

theorem runHandler_inStep (depth : Nat) (ts : List Token) : Holds (InStep E) (runHandler depth ts) := by
  induction depth generalizing ts with
  | zero => exact .pure _
  | succ depth ih => exact Stable.runCalls (opOf_inStep (pollWith_inStep ih)) _ _

theorem opCpuPollInterrupts_inStep (n : Nat) (ts : Option (List Token)) : Holds (InStep E) (opCpuPollInterrupts n ts) :=
  pollWith_inStep (runHandler_inStep _) n ts

/-- Settles O9: an operation leaves in step every device but those whose own write is under way, and after a step there is
none. -/
theorem stepKeepsOutputs : Obligations.StepKeepsOutputs := by
  intro s t h ht
  have kept : ∀ {op : Op Value} {calls : List Token}, Holds (InStep []) op → finish op { s with calls := calls } = .next t →
      OutputsOk t := by
    intro op calls hop ht
    have start : InStep [] { s with calls := calls } := inStep_nil_iff (s := s).2 h
    exact inStep_nil_iff.1 ((hop _ start).finish (fun _ _ hu => hu) ht)
  rcases step_cases ht with ⟨-, rfl⟩ | ⟨-, ⟨i, rest, -, ran⟩ | ⟨r, -, rejected⟩⟩
  · exact h
  · rw [exec_eq] at ran
    exact kept (opOf_inStep opCpuPollInterrupts_inStep i) ran
  · exact kept (Stable.rejectedCall r) rejected

end Sys2Proof.Machine
end

section
/-! SUPPORT. The registers of the UART, the timer and the ROM (spec/47_peripherals_dma.md R412 to R423, R450, R451, R455): what
each reads as, what a write leaves, and the output that follows. -/

namespace Sys2Proof.Machine

variable {s : State} {k : Nat}

/-! ## Bits of a register -/

theorem getLsbD_one_eq (v : Word32) : v.getLsbD 1 = decide (v.toNat / 2 % 2 = 1) := getLsbD_eq v 1

theorem getLsbD_two_eq (v : Word32) : v.getLsbD 2 = decide (v.toNat / 4 % 2 = 1) := getLsbD_eq v 2

theorem not_decide_odd (n : Nat) : (!decide (n % 2 = 1)) = decide (n % 2 = 0) := by
  rcases Nat.mod_two_eq_zero_or_one n with h | h <;> simp [h]

/-! ## ROM (R450, R451) -/

theorem getRom_run {m : Rom} (held : s.roms[k]? = some m) : getRom k s = .ok m s := by
  simp [getRom, held]

theorem romRead_run {m : Rom} {off width : Nat} (held : s.roms[k]? = some m) (inside : off + width ≤ m.contents.length) :
    romRead k off width s = .ok ((m.contents.drop off).take width) s := by
  rw [romRead, Op.bind_ok (getRom_run held), if_pos inside]
  rfl

theorem romWrite_run {m : Rom} {c : RomCfg} {off : Nat} {bs : List Byte} (held : s.roms[k]? = some m)
    (cfg : s.cfg.roms[k]? = some c) (inside : off + bs.length ≤ m.contents.length) :
    romWrite k off bs s = if c.strict then .error (.err { kind := .readOnly (c.base.toNat + off) }) s else .ok () s := by
  rw [romWrite, Op.bind_ok (getRom_run held), Op.get_bind_run, if_pos inside]
  simp only [cfg]
  split <;> rfl

/-- Settles O60: within the contents a read answers them, and a write ends as the ROM's mode says. -/
theorem romAccesses : Obligations.RomAccesses := by
  refine fun s k m c off held cfg => ⟨fun width inside => exec_ok (Op.bind_ok (romRead_run held inside)), fun bs inside => ?_⟩
  have run := romWrite_run held cfg inside
  split at run
  · rw [if_pos ‹_›]
    exact exec_err (Op.bind_error run)
  · rw [if_neg ‹_›]
    exact exec_ok (Op.bind_ok run)

/-! ## UART (R412 to R417, R455) -/

theorem getUart_run {u : Uart} (held : s.uarts[k]? = some u) : getUart k s = .ok u s := by
  simp [getUart, held]

/-- The state in which UART k holds `v` and its output has followed, driving the source it is wired to (R417, R455). -/
def State.uartFollowed (s : State) (k : Nat) (sink : Option Nat) (old : Bool) (v : Uart) : State :=
  { s with uarts := s.uarts.set k { v with irqOut := v.irqCond }, plic := s.sinkPlic sink old v.irqCond }

section
variable {u : Uart} {c : UartCfg} (held : s.uarts[k]? = some u) (cfg : s.cfg.uarts[k]? = some c) (fits : s.sinkFits c.sink)
include held

theorem modifyUart_run (f : Uart → Uart) : modifyUart k f s = .ok () { s with uarts := s.uarts.set k (f u) } := by
  rw [modifyUart, Op.run_modify, updateAt_set f held]

include cfg fits

/-- A change of a UART with the update of its output. -/
theorem followUart_run {f : Uart → Uart} (same : (f u).irqOut = u.irqOut) :
    (do modifyUart k f; updateUartIrq k) s = .ok () (s.uartFollowed k c.sink u.irqOut (f u)) := by
  obtain ⟨inside, -⟩ := List.getElem?_eq_some_iff.1 held
  have run := updateUartIrq_run { s with uarts := s.uarts.set k (f u) } k (f u) c (by simp [inside]) cfg fits
  rw [Op.bind_ok (modifyUart_run held f), run]
  simp only [List.set_set, same]
  rfl

theorem uartRead_data_run : uartRead k .data s =
    .ok [u.rxFifo.headD 0] (s.uartFollowed k c.sink u.irqOut { u with rxFifo := u.rxFifo.tail }) := by
  rw [uartRead, Op.bind_ok (getUart_run held)]
  exact Op.bind_ok (f := fun _ => pure [u.rxFifo.headD 0]) (followUart_run held cfg fits rfl)

theorem uartWrite_ctrl_run (v : Word32) : uartWrite k .ctrl v s =
    .ok () (s.uartFollowed k c.sink u.irqOut { u with rxEn := v.getLsbD 0 }) := by
  rw [uartWrite, Op.bind_ok (getUart_run held)]
  exact followUart_run held cfg fits rfl

theorem opUartPushRx_run (b : Byte) : opUartPushRx k b s =
    .ok .unit (s.uartFollowed k c.sink u.irqOut { u with rxFifo := u.rxFifo ++ [b] }) := by
  rw [opUartPushRx, Op.bind_ok (getUart_run held)]
  exact Op.bind_ok (f := fun _ => pure Value.unit)
    (followUart_run (f := fun u => { u with rxFifo := u.rxFifo ++ [b] }) held cfg fits rfl)

end

theorem uartWrite_data_run {u : Uart} (held : s.uarts[k]? = some u) (b : Byte) : uartWrite k .data (b.setWidth 32) s =
    .ok () { s with uarts := s.uarts.set k { u with tx := u.tx ++ [b] } } := by
  have narrow : (b.setWidth 32).setWidth 8 = b := by simp
  rw [uartWrite, Op.bind_ok (getUart_run held)]
  simp only [narrow]
  exact modifyUart_run held _

/-- Settles O53: each access is its change of the UART, and the output follows those of RX_EN and the FIFO. -/
theorem uartOperations : Obligations.UartOperations := by
  intro s k u c held cfg fits
  refine ⟨?_, fun b => ?_, fun v => ?_, fun b => ?_, ?_, ?_⟩
  · exact exec_ok (Op.bind_ok (uartRead_data_run held cfg fits))
  · exact exec_ok (opUartPushRx_run held cfg fits b)
  · rw [← getLsbD_zero_eq]
    exact exec_ok (Op.bind_ok (uartWrite_ctrl_run held cfg fits v))
  · exact exec_ok (Op.bind_ok (uartWrite_data_run held b))
  · have status : packLe (ofBits [true, !u.rxFifo.isEmpty]) 4 = [if u.rxFifo = [] then 1 else 3, 0, 0, 0] := by
      cases u.rxFifo with
      | nil => rfl
      | cons b bs => simp [ofBits, packLe]
    rw [← status]
    exact exec_ok (Op.bind_ok (Op.bind_ok (getUart_run held)))
  · have ctrl : packLe (ofBits [u.rxEn]) 4 = [if u.rxEn = true then 1 else 0, 0, 0, 0] := by
      cases u.rxEn <;> rfl
    rw [← ctrl]
    exact exec_ok (Op.bind_ok (Op.bind_ok (getUart_run held)))

/-! ## Timer (R420 to R423, R455) -/

theorem getTimer_run {t : Timer} (held : s.timers[k]? = some t) : getTimer k s = .ok t s := by
  simp [getTimer, held]

section
variable {t : Timer} {c : TimerCfg} (held : s.timers[k]? = some t) (cfg : s.cfg.timers[k]? = some c)
  (fits : s.sinkFits c.sink)
include held cfg fits

/-- A change of a timer with the update of its output, which drives the source it is wired to (R423, R455). -/
theorem followTimer_run {f : Timer → Timer} (same : (f t).irqOut = t.irqOut) :
    (do modifyTimer k f; updateTimerIrq k) s = .ok ()
      { s with
        timers := s.timers.set k { f t with irqOut := (f t).irqCond }
        plic := s.sinkPlic c.sink t.irqOut (f t).irqCond } := by
  rw [modifyTimer, Op.modify_bind_run, updateAt_set f held]
  exact updateTimerIrq_set s k t c held cfg fits (f t) same

theorem exec_timerWrite {i : Instr} {r : TimerReg} {v : Word32} {x : Timer}
    (op : opOf opCpuPollInterrupts i = opTimerWrite k r v) (written : t.written r v = x) : exec i s = .next ({ s with
      timers := s.timers.set k { x with irqOut := x.irqCond }
      plic := s.sinkPlic c.sink t.irqOut x.irqCond }.ok .unit) := by
  subst x
  have run : timerWrite k r v s = _ := (Op.bind_ok (getTimer_run held)).trans
    (followTimer_run held cfg fits (f := (·.written r v)) (by cases r <;> rfl))
  exact exec_ok (op ▸ Op.bind_ok run)

end

/-- Settles O55: a write is the timer's register written, which the lemmas on halves and bits state as numbers. -/
theorem timerWrites : Obligations.TimerWrites := by
  intro s k t c v held cfg fits
  refine ⟨?_, ?_, ?_, ?_, ?_, ?_, ?_⟩
  · exact exec_timerWrite held cfg fits (r := .cntLo) rfl (by rw [Timer.written, setLo32_eq])
  · exact exec_timerWrite held cfg fits (r := .cntHi) rfl (by rw [Timer.written, setHi32_eq])
  · exact exec_timerWrite held cfg fits (r := .cmpLo) rfl (by rw [Timer.written, setLo32_eq])
  · exact exec_timerWrite held cfg fits (r := .cmpHi) rfl (by rw [Timer.written, setHi32_eq])
  · exact exec_timerWrite held cfg fits (r := .ctrl) rfl (by rw [Timer.written, getLsbD_zero_eq, getLsbD_one_eq, getLsbD_two_eq])
  · exact exec_timerWrite held cfg fits (r := .status) rfl (by rw [Timer.written, getLsbD_zero_eq, not_decide_odd])
  · exact exec_timerWrite held cfg fits (r := .tick) rfl rfl

/-! ## `TIMER.advance` (R421, R422) -/

/-- One step of an enabled timer, of its count and its pending bit as numbers. -/
def Timer.stepped (t : Timer) (x : Nat × Bool) : Nat × Bool :=
  let cnt := (x.1 + t.tick.toNat) % 2 ^ 64
  if t.cmp.toNat ≠ 0 ∧ t.cmp.toNat ≤ cnt then (if t.autoReload = true ∧ t.tick ≠ 0 then 0 else cnt, true) else (cnt, x.2)

/-- The timer with its count and its pending bit replaced. -/
def Timer.at (t : Timer) (x : Nat × Bool) : Timer := { t with cnt := BitVec.ofNat 64 x.1, pending := x.2 }

theorem Timer.at_self (t : Timer) : t.at (t.cnt.toNat, t.pending) = t := by
  simp [Timer.at]

/-- A step of the model's timer is a step of these numbers (log 23). -/
theorem Timer.tickOnce_at (t : Timer) (x : Nat × Bool) : (t.at x).tickOnce = t.at (t.stepped x) := by
  have count : BitVec.ofNat 64 x.1 + t.tick.setWidth 64 = BitVec.ofNat 64 ((x.1 + t.tick.toNat) % 2 ^ 64) := by
    apply BitVec.eq_of_toNat_eq
    simp
  have value : (BitVec.ofNat 64 ((x.1 + t.tick.toNat) % 2 ^ 64)).toNat = (x.1 + t.tick.toNat) % 2 ^ 64 := by simp
  have compare : t.cmp ≠ 0 ↔ t.cmp.toNat ≠ 0 := by simp [BitVec.toNat_eq]
  simp only [Timer.tickOnce, Timer.stepped, Timer.at, count, value, compare]
  split
  · split <;> rfl
  · rfl

theorem Timer.ticks_at (t : Timer) (n : Nat) (x : Nat × Bool) : Timer.ticks n (t.at x) = t.at (t.stepped^[n] x) := by
  induction n generalizing x with
  | zero => rfl
  | succ n ih => rw [Timer.ticks, Timer.tickOnce_at, ih, Function.iterate_succ_apply]

theorem Timer.ticks_eq (t : Timer) (n : Nat) : Timer.ticks n t = t.at (t.stepped^[n] (t.cnt.toNat, t.pending)) := by
  rw [← Timer.ticks_at, Timer.at_self]

/-- Settles O56: n ticks of an enabled timer are the iterate of one, and the output follows either way. -/
theorem timerAdvances : Obligations.TimerAdvances := by
  intro s k n t c held cfg fits
  refine exec_ok ?_
  change opTimerAdvance k n s = _
  rw [opTimerAdvance, Op.bind_ok (getTimer_run held)]
  by_cases enabled : t.enable = true
  · rw [if_pos enabled, if_pos enabled]
    have run := followTimer_run held cfg fits (f := Timer.ticks n) (by rw [Timer.ticks_eq]; rfl)
    rw [Timer.ticks_eq] at run
    exact Op.bind_ok (f := fun _ => pure Value.unit) run
  · rw [if_neg enabled, if_neg enabled]
    simp only [BitVec.ofNat_toNat, BitVec.setWidth_eq]
    exact Op.bind_ok (f := fun _ => pure Value.unit) (updateTimerIrq_run s k t c held cfg fits)

end Sys2Proof.Machine
end

section
/-! SUPPORT. The DMA engine (spec/47_peripherals_dma.md R430 to R436, R455): what its registers read as and the writes that
start no transfer; with it the reads of the timer's registers. -/

namespace Sys2Proof.Machine

variable {s : State} {k : Nat}

/-! ## Reads (R420, R421, R430, R431) -/

theorem ofBits_cons (b : Bool) (bs : List Bool) : ofBits (b :: bs) = b.toNat + 2 * ofBits bs := by
  cases b <;> rfl

theorem ofBits_nil : ofBits [] = 0 := rfl

theorem getDma_run {d : Dma} (held : s.dmas[k]? = some d) : getDma k s = .ok d s := by
  simp [getDma, held]

theorem exec_timerRead {t : Timer} {i : Instr} {r : TimerReg} {n : Nat} (held : s.timers[k]? = some t)
    (op : opOf opCpuPollInterrupts i = opTimerRead k r) (value : t.value r = n) :
    exec i s = .next (s.ok (.bytes (packLe n 4))) := by
  subst n
  exact exec_ok (op ▸ Op.bind_ok (Op.bind_ok (getTimer_run held)))

theorem exec_dmaRead {d : Dma} {i : Instr} {r : DmaReg} {n : Nat} (held : s.dmas[k]? = some d)
    (op : opOf opCpuPollInterrupts i = opDmaRead k r) (value : d.value r = n) :
    exec i s = .next (s.ok (.bytes (packLe n 4))) := by
  subst n
  exact exec_ok (op ▸ Op.bind_ok (Op.bind_ok (getDma_run held)))

/-- Settles O54: each register reads as its value, a half or the number of its bits. -/
theorem timerAndDmaReads : Obligations.TimerAndDmaReads := by
  refine ⟨fun s k t held => ⟨?_, ?_, ?_, ?_, ?_, ?_, ?_⟩, fun s k d held => ⟨?_, ?_, ?_, ?_, ?_, ?_, ?_⟩⟩
  · exact exec_timerRead held (r := .cntLo) rfl (lo32_toNat _)
  · exact exec_timerRead held (r := .cntHi) rfl (hi32_toNat _)
  · exact exec_timerRead held (r := .cmpLo) rfl (lo32_toNat _)
  · exact exec_timerRead held (r := .cmpHi) rfl (hi32_toNat _)
  · exact exec_timerRead held (r := .ctrl) rfl (by simp only [Timer.value, ofBits_cons, ofBits_nil]; omega)
  · exact exec_timerRead held (r := .status) rfl (by simp only [Timer.value, ofBits_cons, ofBits_nil]; omega)
  · exact exec_timerRead held (r := .tick) rfl rfl
  · exact exec_dmaRead held (r := .srcLo) rfl (lo32_toNat _)
  · exact exec_dmaRead held (r := .srcHi) rfl (hi32_toNat _)
  · exact exec_dmaRead held (r := .dstLo) rfl (lo32_toNat _)
  · exact exec_dmaRead held (r := .dstHi) rfl (hi32_toNat _)
  · exact exec_dmaRead held (r := .len) rfl rfl
  · exact exec_dmaRead held (r := .ctrl) rfl (by simp [Dma.value, ofBits_cons, ofBits_nil])
  · exact exec_dmaRead held (r := .status) rfl (by simp [Dma.value, ofBits_cons, ofBits_nil]; omega)

/-! ## Writes that start no transfer (R431, R432, R433) -/

/-- A write of CTRL is the one at some depth of transfers that start one another (log 6). -/
theorem dmaCtrlWrite_eq (k : Nat) (v : Word32) : ∃ ctrl, dmaCtrlWrite k v = dmaCtrlWith ctrl k v := by
  have nested : ∀ n, 0 < n → dmaCtrl n k v = dmaCtrlWith (dmaCtrl (n - 1)) k v := by
    intro n hn
    cases n with
    | zero => cases hn
    | succ n => rfl
  exact ⟨_, nested _ (by decide)⟩

/-- The state in which DMA engine k holds `x` and its output has followed, driving the source it is wired to (R435, R455). -/
def State.dmaFollowed (s : State) (k : Nat) (sink : Option Nat) (old : Bool) (x : Dma) : State :=
  { s with dmas := s.dmas.set k { x with irqOut := x.irqCond }, plic := s.sinkPlic sink old x.irqCond }

section
variable {d : Dma} (held : s.dmas[k]? = some d)
include held

theorem modifyDma_run (f : Dma → Dma) : modifyDma k f s = .ok () { s with dmas := s.dmas.set k (f d) } := by
  rw [modifyDma, Op.run_modify, updateAt_set f held]

/-- A register but CTRL and STATUS is stored. -/
theorem exec_dmaStore {i : Instr} {r : DmaReg} {v : Word32} {x : Dma} (op : opOf opCpuPollInterrupts i = opDmaWrite k r v)
    (stored : r ≠ .ctrl ∧ r ≠ .status) (written : d.written r v = x) :
    exec i s = .next ({ s with dmas := s.dmas.set k x }.ok .unit) := by
  subst x
  have run : dmaWrite k r v s = .ok () { s with dmas := s.dmas.set k (d.written r v) } := by
    obtain ⟨notCtrl, notStatus⟩ := stored
    cases r with
    | ctrl => exact absurd rfl notCtrl
    | status => exact absurd rfl notStatus
    | srcLo | srcHi | dstLo | dstHi | len => exact (Op.bind_ok (getDma_run held)).trans (modifyDma_run held _)
  exact exec_ok (op ▸ Op.bind_ok run)

variable {c : DmaCfg} (cfg : s.cfg.dmas[k]? = some c) (fits : s.sinkFits c.sink)
include cfg fits

/-- A change of a DMA engine with the update of its output. -/
theorem followDma_run {f : Dma → Dma} (same : (f d).irqOut = d.irqOut) :
    (do modifyDma k f; updateDmaIrq k) s = .ok () (s.dmaFollowed k c.sink d.irqOut (f d)) := by
  rw [Op.bind_ok (modifyDma_run held f)]
  exact updateDmaIrq_set held cfg fits (f d) same

theorem exec_dmaStatusW (v : Word32) : exec (.dmaStatusW k v) s =
    .next ((s.dmaFollowed k c.sink d.irqOut (d.written .status v)).ok .unit) := by
  have run : dmaWrite k .status v s = _ := (Op.bind_ok (getDma_run held)).trans
    (followDma_run held cfg fits (f := (·.written .status v)) rfl)
  exact exec_ok (Op.bind_ok run)

omit fits cfg in
/-- A write of CTRL as a call of its own. -/
theorem exec_dmaCtrlW {v : Word32} {t : State} (run : ∀ ctrl, dmaCtrlWith ctrl k v s = .ok () t) :
    exec (.dmaCtrlW k v) s = .next (t.ok .unit) := by
  obtain ⟨ctrl, same⟩ := dmaCtrlWrite_eq k v
  have write : dmaWrite k .ctrl v s = .ok () t := (Op.bind_ok (getDma_run held)).trans (same ▸ run ctrl)
  exact exec_ok (Op.bind_ok write)

theorem dmaCtrlWith_idle {v : Word32} (idle : v.getLsbD 0 = false) (ctrl : Nat → Word32 → Op Unit) :
    dmaCtrlWith ctrl k v s = .ok () (s.dmaFollowed k c.sink d.irqOut (d.written .ctrl v)) := by
  have run := followDma_run held cfg fits (f := (·.written .ctrl v)) rfl
  rw [Op.bind_ok (modifyDma_run held _)] at run
  rw [dmaCtrlWith, Op.bind_ok (modifyDma_run held _), if_neg (idle ▸ Bool.false_ne_true)]
  exact run

end

/-- Settles O57: a write is the engine's register written, and after STATUS and CTRL the output follows. -/
theorem dmaWrites : Obligations.DmaWrites := by
  intro s k d c v held cfg fits
  refine ⟨?_, ?_, ?_, ?_, ?_, ?_, fun idle => ?_⟩
  · exact exec_dmaStore held (r := .srcLo) rfl (by decide) (by rw [Dma.written, setLo32_eq])
  · exact exec_dmaStore held (r := .srcHi) rfl (by decide) (by rw [Dma.written, setHi32_eq])
  · exact exec_dmaStore held (r := .dstLo) rfl (by decide) (by rw [Dma.written, setLo32_eq])
  · exact exec_dmaStore held (r := .dstHi) rfl (by decide) (by rw [Dma.written, setHi32_eq])
  · exact exec_dmaStore held (r := .len) rfl (by decide) rfl
  · rw [← not_decide_odd, ← not_decide_odd, ← getLsbD_one_eq, ← getLsbD_two_eq]
    exact exec_dmaStatusW held cfg fits v
  · rw [← getLsbD_one_eq]
    exact exec_dmaCtrlW held (dmaCtrlWith_idle held cfg fits (by rw [getLsbD_zero_eq, decide_eq_false_iff_not]; omega))

end Sys2Proof.Machine
end

section
/-! SUPPORT. The DMA engine's transfer (spec/47_peripherals_dma.md R433 to R436): one that the range check stops, and one
between two ranges of RAM that do not meet, chunk by chunk. -/

namespace Sys2Proof.Machine

variable {s : State} {k : Nat}

/-! ## A transfer begins (R433) -/

/-- The engine when its transfer begins: IRQ_EN is stored and BUSY is 1. -/
def Dma.started (d : Dma) (v : Word32) : Dma := { d with irqEn := v.getLsbD 1, busy := true }

/-- The engine when its transfer ends: DONE when it ran to its end, else ERR. -/
def Dma.ended (d : Dma) (ok : Bool) : Dma :=
  if ok then { d with done := true, busy := false } else { d with err := true, busy := false }

/-- The transfer of engine k that START runs: the range check, then the copy loop. -/
def dmaTransfer (ctrl : Nat → Word32 → Op Unit) (k : Nat) (c : DmaCfg) (d : Dma) : Op Bool := do
  let s ← get
  let n := d.len.toNat
  if c.ramOnly ∧ ¬ (s.bus.ramCovered d.src.toNat n ∧ s.bus.ramCovered d.dst.toNat n) then return false
  else if rangeMeets d.src.toNat n c.base.toNat 32 ∨ rangeMeets d.dst.toNat n c.base.toNat 32 then refuse .dmaOwnRegion
  else dmaLoop ctrl k (2 ^ 32) 0

section
variable {d : Dma} {c : DmaCfg} (held : s.dmas[k]? = some d) (cfg : s.cfg.dmas[k]? = some c)
include held cfg

/-- A write of CTRL with START runs the transfer, and the output follows what it sets. -/
theorem dmaCtrlWith_start {ctrl : Nat → Word32 → Op Unit} {v : Word32} (start : v.getLsbD 0 = true) {ok : Bool} {t : State}
    (ran : dmaTransfer ctrl k c (d.started v) { s with dmas := s.dmas.set k (d.started v) } = .ok ok t) :
    dmaCtrlWith ctrl k v s = (do modifyDma k (·.ended ok); updateDmaIrq k) t := by
  have inside : k < s.dmas.length := (List.getElem?_eq_some_iff.1 held).1
  rw [dmaCtrlWith, Op.bind_ok (modifyDma_run held _), if_pos start,
    Op.bind_ok (modifyDma_run (d := d.written .ctrl v) (by simp [inside]) _)]
  simp only [List.set_set]
  rw [Op.bind_ok (getDma_run (d := d.started v) (by simp [inside, Dma.started, Dma.written])), Op.get_bind_run]
  simp only [cfg, need_some, Op.pure_bind_run]
  rw [dmaTransfer, Op.get_bind_run] at ran
  split at ran
  · rename_i denied
    cases ran
    rw [if_pos denied]
    rfl
  · rename_i allowed
    rw [if_neg allowed]
    split at ran
    · cases ran
    · rename_i apart
      rw [if_neg apart]
      exact (Op.bind_ok ran).trans (by cases ok <;> rfl)

omit held cfg in
/-- The output follows IRQ_EN when a transfer ends: DONE or ERR is set then. -/
theorem Dma.irqCond_ended (d : Dma) (v : Word32) (ok : Bool) : ((d.started v).ended ok).irqCond = v.getLsbD 1 := by
  cases ok <;> simp [Dma.ended, Dma.started, Dma.irqCond]

variable (fits : s.sinkFits c.sink)
include fits

/-- A write of CTRL with START as a call of its own, when the transfer changed at most DRAM and the bus. -/
theorem exec_dmaStart {v : Word32} (start : v.toNat % 2 = 1) {ok : Bool} {dram : Dram} {bus : Bus}
    (ran : ∀ ctrl, dmaTransfer ctrl k c (d.started v) { s with dmas := s.dmas.set k (d.started v) } =
      .ok ok { s with dmas := s.dmas.set k (d.started v), dram := dram, bus := bus }) :
    exec (.dmaCtrlW k v) s = .next ({ s with
      dram := dram, bus := bus
      dmas := s.dmas.set k { (d.started v).ended ok with irqOut := v.getLsbD 1 }
      plic := s.sinkPlic c.sink d.irqOut (v.getLsbD 1) }.ok .unit) := by
  have inside : k < s.dmas.length := (List.getElem?_eq_some_iff.1 held).1
  refine exec_dmaCtrlW held fun ctrl => ?_
  have follow := followDma_run (s := { s with dmas := s.dmas.set k (d.started v), dram := dram, bus := bus }) (k := k)
    (d := d.started v) (by simp [inside]) cfg fits (f := (·.ended ok)) (by cases ok <;> rfl)
  rw [State.dmaFollowed, Dma.irqCond_ended] at follow
  simp only [List.set_set] at follow
  exact (dmaCtrlWith_start held cfg (by rw [getLsbD_zero_eq, start]; rfl) (ran ctrl)).trans follow

end

/-! ## The range check (R434) -/

/-- A range that holds an address outside every RAM region is not covered. -/
theorem not_ramCovered (ok : RegionsOk s.bus) {a x n : Nat} (low : a ≤ x) (high : x < a + n) (outside : s.ramOffset x = none) :
    s.bus.ramCovered a n = false := by
  rw [Bool.eq_false_iff]
  intro covered
  simp only [Bus.ramCovered, Bool.or_eq_true, Bool.and_eq_true, decide_eq_true_eq] at covered
  obtain empty | ⟨_, walk⟩ := covered
  · omega
  · obtain ⟨r, mem, o, ram, base, last⟩ := coveredFrom_spec _ _ _ walk x low high
    simp [State.ramOffset, Bus.find_of_mem ok mem base last, ram] at outside

/-- A range in one RAM region is covered. -/
theorem ramCovered_of_ramRange (ok : RegionsOk s.bus) {a n o : Nat} (h : s.ramRange a n o) :
    s.bus.ramCovered a n = true := by
  obtain ⟨r, o', found, ram, _, last, base, _⟩ := ramRange_elim h
  exact Bus.ramCovered_of_region _ ok r o' (Bus.find_mem found).1 ram _ _ base last

/-- Settles O58: the range check ends the transfer before its first chunk. -/
theorem dmaRangeCheckSetsErr : Obligations.DmaRangeCheckSetsErr := by
  intro s k d c v a held cfg fits start ramOnly ok within outside
  rw [← getLsbD_one_eq]
  refine exec_dmaStart held cfg fits start (ok := false) (dram := s.dram) (bus := s.bus) fun ctrl => ?_
  have denied : ¬ (s.bus.ramCovered d.src.toNat d.len.toNat ∧ s.bus.ramCovered d.dst.toNat d.len.toNat) := by
    rintro ⟨src, dst⟩
    obtain ⟨low, high⟩ | ⟨low, high⟩ := within
    · exact Bool.false_ne_true ((not_ramCovered ok low high outside).symm.trans src)
    · exact Bool.false_ne_true ((not_ramCovered ok low high outside).symm.trans dst)
  rw [dmaTransfer, Op.get_bind_run]
  exact congrFun (if_pos (c := _ ∧ _) ⟨ramOnly, denied⟩) _

/-! ## The copy loop over RAM (R433, R436) -/

/-- n bytes moved: `dram` and `bus` are those of s after a copy of n bytes of DRAM from offset `src` to offset `dst`. -/
structure Moved (s : State) (dram : Dram) (bus : Bus) (src dst n : Nat) : Prop where
  read : ∀ x, Memory.read s.cfg.fillByte dram.cells x =
    if dst ≤ x ∧ x < dst + n then s.dramByte (src + (x - dst)) else s.dramByte x
  faultCount : dram.faultCount = s.dram.faultCount
  wf : Memory.wf s.cfg.fillByte dram.cells
  regions : bus.regions = s.bus.regions
  faults : bus.faults = s.bus.faults
  readBytes : bus.readBytes = s.bus.readBytes + n
  writeBytes : bus.writeBytes = s.bus.writeBytes + n

theorem Moved.stored {dram : Dram} {bus : Bus} {src dst n : Nat} (h : Moved s dram bus src dst n) :
    s.storedAt { s with dram := dram } dst (s.dramBytes src n) := by
  refine ⟨h.faultCount, fun x => (h.read x).trans ?_⟩
  have length : (s.dramBytes src n).length = n := Memory.length_readBytes ..
  rw [length]
  split
  · exact (Memory.getD_readBytes _ _ _ _ (by omega) _).symm
  · rfl

theorem Moved.nil (wf : Memory.wf s.cfg.fillByte s.dram.cells) (src dst : Nat) : Moved s s.dram s.bus src dst 0 where
  read x := (if_neg (by omega)).symm
  faultCount := rfl
  wf := wf
  regions := rfl
  faults := rfl
  readBytes := rfl
  writeBytes := rfl

/-- A copy goes on: the bytes still to be copied are not among those that the first part wrote. -/
theorem Moved.trans {dram dram' : Dram} {bus bus' : Bus} {src dst m n : Nat}
    (first : Moved s dram bus src dst m)
    (rest : Moved { s with dram := dram, bus := bus } dram' bus' (src + m) (dst + m) n)
    (apart : src + (m + n) ≤ dst ∨ dst + (m + n) ≤ src) : Moved s dram' bus' src dst (m + n) where
  read x := by
    refine (rest.read x).trans ?_
    simp only [State.dramByte, first.read]
    split
    · rw [if_neg (by omega), if_pos (by omega), show src + m + (x - (dst + m)) = src + (x - dst) by omega]
    · by_cases inFirst : dst ≤ x ∧ x < dst + m
      · rw [if_pos inFirst, if_pos (by omega)]
      · rw [if_neg inFirst, if_neg (by omega)]
  faultCount := rest.faultCount.trans first.faultCount
  wf := rest.wf
  regions := rest.regions.trans first.regions
  faults := rest.faults.trans first.faults
  readBytes := by rw [rest.readBytes]; simp only [first.readBytes]; omega
  writeBytes := by rw [rest.writeBytes]; simp only [first.writeBytes]; omega

/-- What the loop meets at each turn: engine k holds `d`, whose ranges lie in RAM and do not meet in DRAM. -/
structure Copying (s : State) (k : Nat) (d : Dma) (oSrc oDst : Nat) : Prop where
  held : s.dmas[k]? = some d
  regions : RegionsOk s.bus
  wf : Memory.wf s.cfg.fillByte s.dram.cells
  src : s.ramRange d.src.toNat d.len.toNat oSrc
  dst : s.ramRange d.dst.toNat d.len.toNat oDst
  apart : oSrc + d.len.toNat ≤ oDst ∨ oDst + d.len.toNat ≤ oSrc

/-- Where RAM lies is a matter of the bus's regions alone. -/
theorem ramRange_of_regions {dram : Dram} {bus : Bus} (same : bus.regions = s.bus.regions) {a n o : Nat}
    (h : s.ramRange a n o) : State.ramRange { s with dram := dram, bus := bus } a n o := by
  simpa only [State.ramRange, State.ramOffset, Bus.find, same] using h

section
variable {d : Dma} {oSrc oDst : Nat}

theorem Copying.moved (h : Copying s k d oSrc oDst) {dram : Dram} {bus : Bus} {a b n : Nat} (m : Moved s dram bus a b n) :
    Copying { s with dram := dram, bus := bus } k d oSrc oDst where
  held := h.held
  regions := by simpa only [RegionsOk, m.regions] using h.regions
  wf := m.wf
  src := ramRange_of_regions m.regions h.src
  dst := ramRange_of_regions m.regions h.dst
  apart := h.apart

theorem attempt_ok {α : Type} {m : Op α} {a : α} {t : State} (run : m s = .ok a t) : attempt m s = .ok none t := by
  rw [attempt, run]

/-- One chunk: its bytes are read and then written, as one transfer each. -/
theorem dmaChunk_ram (h : Copying s k d oSrc oDst) {done n : Nat} (nonempty : 1 ≤ n) (within : done + n ≤ d.len.toNat) :
    ∃ dram bus, Moved s dram bus (oSrc + done) (oDst + done) n ∧ ∀ ctrl, (do
      let bs ← busRead (d.src.toNat + done) n
      let d ← getDma k
      busWriteWith ctrl (d.dst.toNat + done) bs) s = .ok () { s with dram := dram, bus := bus } := by
  have length : (s.dramBytes (oSrc + done) n).length = n := Memory.length_readBytes ..
  have src := ramRange_sub h.regions h.src within nonempty
  have dst := ramRange_sub h.regions h.dst within nonempty
  let bs := s.dramBytes (oSrc + done) n
  refine ⟨{ s.dram with cells := Memory.writeBytes s.cfg.fillByte s.dram.cells (oDst + done) bs },
    (s.bus.afterRead (d.src.toNat + done) bs).afterWrite (d.dst.toNat + done) bs, ?_, fun ctrl => ?_⟩
  · refine ⟨fun x => ?_, rfl, Memory.wf_writeBytes h.wf _ _, rfl, rfl, ?_, ?_⟩
    · rw [Memory.read_writeBytes h.wf, length]
      split
      · exact Memory.getD_readBytes _ _ _ _ (by omega) _
      · rfl
    · exact congrArg (s.bus.readBytes + ·) length
    · exact congrArg (s.bus.writeBytes + ·) length
  · rw [Op.bind_ok (busRead_ram src), Op.bind_ok (getDma_run (by exact h.held))]
    refine busWriteWith_ram (bs := bs) ?_
    rw [length]
    exact ramRange_of_regions (dram := s.dram) rfl dst

/-- The loop from `done` on copies what is left, by induction over its turns. -/
theorem dmaLoop_ram (turns : Nat) : ∀ {s : State} {done left : Nat}, Copying s k d oSrc oDst → done + left = d.len.toNat →
    left ≤ turns → ∃ dram bus, Moved s dram bus (oSrc + done) (oDst + done) left ∧
      ∀ ctrl, dmaLoop ctrl k turns done s = .ok true { s with dram := dram, bus := bus } := by
  induction turns with
  | zero =>
    intro s done left h _ bound
    obtain rfl : left = 0 := by omega
    exact ⟨_, _, Moved.nil h.wf _ _, fun _ => rfl⟩
  | succ turns ih =>
    intro s done left h total bound
    by_cases finished : left = 0
    · subst finished
      refine ⟨_, _, Moved.nil h.wf _ _, fun ctrl => ?_⟩
      rw [dmaLoop, Op.bind_ok (getDma_run h.held), if_neg (by omega)]
      rfl
    · let n := min 256 (d.len.toNat - done)
      have size : 1 ≤ n ∧ n ≤ left := by omega
      obtain ⟨dram, bus, chunk, runChunk⟩ := dmaChunk_ram h size.1 (done := done) (by omega)
      obtain ⟨dram', bus', rest, runRest⟩ := ih (h.moved chunk) (done := done + n) (left := left - n) (by omega) (by omega)
      have whole := chunk.trans (by simpa only [Nat.add_assoc] using rest) (by have := h.apart; omega)
      rw [Nat.add_sub_cancel' size.2] at whole
      refine ⟨dram', bus', whole, fun ctrl => ?_⟩
      rw [dmaLoop, Op.bind_ok (getDma_run h.held), if_pos (by omega)]
      exact (Op.bind_ok (attempt_ok (runChunk ctrl))).trans (runRest ctrl)

end

/-- A range that does not meet another one. -/
theorem rangeMeets_eq_false {a n base size : Nat} (h : ¬ (a < base + size ∧ base < a + n)) :
    rangeMeets a n base size = false := by
  rw [rangeMeets, Bool.and_assoc, Bool.and_eq_false_iff]
  right
  simpa using h

/-- Settles O59, by the induction over the chunks. -/
theorem dmaCopiesRam : Obligations.DmaCopiesRam := by
  intro s k d c v oSrc oDst held cfg fits start ok wf src dst apart srcApart dstApart
  have inside : k < s.dmas.length := (List.getElem?_eq_some_iff.1 held).1
  have copying : Copying { s with dmas := s.dmas.set k (d.started v) } k (d.started v) oSrc oDst :=
    ⟨by simp [inside], ok, wf, src, dst, apart⟩
  obtain ⟨dram, bus, moved, loop⟩ := dmaLoop_ram (2 ^ 32) copying (Nat.zero_add _) (Nat.le_of_lt d.len.isLt)
  refine ⟨dram, bus, moved.stored, moved.regions, moved.faults, moved.readBytes, moved.writeBytes, ?_⟩
  rw [← getLsbD_one_eq]
  refine exec_dmaStart held cfg fits start (ok := true) fun ctrl => ?_
  have covered : s.bus.ramCovered d.src.toNat d.len.toNat ∧ s.bus.ramCovered d.dst.toNat d.len.toNat :=
    ⟨ramCovered_of_ramRange ok src, ramCovered_of_ramRange ok dst⟩
  have clear : ¬ (rangeMeets d.src.toNat d.len.toNat c.base.toNat 32 ∨
      rangeMeets d.dst.toNat d.len.toNat c.base.toNat 32) := by
    simp [rangeMeets_eq_false srcApart, rangeMeets_eq_false dstApart]
  rw [dmaTransfer, Op.get_bind_run]
  exact (congrFun ((if_neg (c := _ ∧ ¬ _) fun h => h.2 covered).trans (if_neg clear)) _).trans (loop ctrl)

end Sys2Proof.Machine
end

section
/-! SUPPORT. The selection of an interrupt, trap entry and return, and the accesses to a CSR field (spec/60_exceptions.md R467
to R471, R473): what each leaves. -/

namespace Sys2Proof.Machine

variable {s : State}

/-! ## Selection (R467, R471) -/

/-- The cause that is selected, in the terms of the bits. -/
theorem Csr.interruptCause_eq (c : Csr) : c.interruptCause =
    if c.mie = false then none else if c.meie = true ∧ c.meip = true then some 11
    else if c.mtie = true ∧ c.mtip = true then some 7 else if c.msie = true ∧ c.msip = true then some 3 else none := by
  simp only [Csr.interruptCause, Bool.not_eq_true', Bool.and_eq_true]

theorem exec_cpuShouldTakeInterrupt (s : State) :
    exec .cpuShouldTakeInterrupt s = .next (s.ok (.cause s.cpu.csr.interruptCause)) := exec_ok rfl

theorem exec_cpuMaybeTakeInterrupt_none (h : s.cpu.csr.interruptCause = none) :
    exec .cpuMaybeTakeInterrupt s = .next (s.ok (.cause none)) := by
  have run : opCpuMaybeTakeInterrupt s = .ok (.cause none) s := by
    rw [opCpuMaybeTakeInterrupt, Op.get_bind_run, h]
    rfl
  exact exec_ok run

/-- An interrupt that is taken is a trap entry with its cause. -/
theorem exec_cpuMaybeTakeInterrupt_some {k : Nat} (h : s.cpu.csr.interruptCause = some k) :
    exec .cpuMaybeTakeInterrupt s =
      .next ({ s with cpu := { s.cpu with csr := s.cpu.csr.trapEnter k true } }.ok (.cause (some k))) := by
  have run : opCpuMaybeTakeInterrupt s = .ok (.cause (some k))
      { s with cpu := { s.cpu with csr := s.cpu.csr.trapEnter k true } } := by
    rw [opCpuMaybeTakeInterrupt, Op.get_bind_run, h]
    rfl
  exact exec_ok run

/-- Settles O43: both read the one selected cause, and only taking an interrupt writes. -/
theorem interruptSelection : Obligations.InterruptSelection := by
  intro s c r selected
  have cause : s.cpu.csr.interruptCause = c := (Csr.interruptCause_eq _).trans selected.symm
  refine ⟨cause ▸ exec_cpuShouldTakeInterrupt s, ?_⟩
  cases c with
  | none => exact exec_cpuMaybeTakeInterrupt_none cause
  | some k => exact exec_cpuMaybeTakeInterrupt_some cause

/-! ## Trap entry and return (R468, R469, R473) -/

/-- Settles O44: each is one write of the CSR block, and `complete_trap` is `mret`. -/
theorem trapEntryAndReturn : Obligations.TrapEntryAndReturn := by
  refine fun s => ⟨fun k b => exec_ok rfl, fun i which => ?_⟩
  rcases which with rfl | rfl
  · exact exec_ok rfl
  · exact exec_ok rfl

/-! ## Accesses to a field (R470) -/

theorem exec_cpuCsrRead (s : State) (f : CsrField) :
    exec (.cpuCsrRead f) s = .next (s.ok (.nat (s.cpu.csr.read f))) := exec_ok rfl

theorem exec_cpuCsrWrite_some {f : CsrField} {v : Nat} {c : Csr} (h : s.cpu.csr.write (decide (v % 2 = 1)) f = some c) :
    exec (.cpuCsrWrite f v) s = .next ({ s with cpu := { s.cpu with csr := c } }.ok .unit) := by
  have run : opCpuCsrWrite f v s = .ok .unit { s with cpu := { s.cpu with csr := c } } := by
    rw [opCpuCsrWrite, Op.get_bind_run, Nat.testBit_zero, h]
    rfl
  exact exec_ok run

theorem exec_cpuCsrWrite_none {f : CsrField} {v : Nat} (h : s.cpu.csr.write (decide (v % 2 = 1)) f = none) :
    exec (.cpuCsrWrite f v) s = .refused .csrReadOnly := by
  have run : opCpuCsrWrite f v s = .error (.refuse .csrReadOnly) s := by
    rw [opCpuCsrWrite, Op.get_bind_run, Nat.testBit_zero, h]
    rfl
  exact exec_refuse run

/-- The pending bits and the cause take no write, whatever the bit. -/
theorem Csr.write_readOnly (c : Csr) (b : Bool) {f : CsrField}
    (h : f = .msip ∨ f = .mtip ∨ f = .meip ∨ f = .mcause ∨ f = .mcauseIsInterrupt) : c.write b f = none := by
  rcases h with rfl | rfl | rfl | rfl | rfl <;> rfl

/-- Settles O45: a read takes the field's value, a write puts bit 0 where the field takes one. -/
theorem csrReadAndWrite : Obligations.CsrReadAndWrite := by
  refine fun s v => ⟨fun f => (exec_cpuCsrRead s f).trans ?_, exec_cpuCsrWrite_some rfl, exec_cpuCsrWrite_some rfl,
    exec_cpuCsrWrite_some rfl, exec_cpuCsrWrite_some rfl, exec_cpuCsrWrite_some rfl,
    fun f readOnly => exec_cpuCsrWrite_none (Csr.write_readOnly _ _ readOnly)⟩
  cases f <;> rfl

end Sys2Proof.Machine
end

section
/-! SUPPORT. No single write that operations are made of changes the configuration, so no step does
(spec/70_reset_and_hazards.md R505). -/

namespace Sys2Proof.Machine

/-- A single write leaves the configuration. -/
theorem cfg_of_atom {s t : State} (h : Atom s t) : t.cfg = s.cfg := by
  cases h <;> rfl

/-- Settles O6: what the configuration is, every single write keeps, and so every step; neither taking the call nor recording
the result writes it. -/
theorem configurationFixed : Obligations.ConfigurationFixed := by
  intro s t run
  have stable : Stable fun u => u.cfg = s.cfg := fun _ _ atom same => (cfg_of_atom atom).trans same
  exact stable.step (fun _ _ same => same) (fun _ _ same => same) rfl run

end Sys2Proof.Machine
end
